-- ==== Sys2Proof/Word.lean ====
section
/-! DEFINITION. The word types: a byte, a byte string, a datagram tag, and the one arithmetic
function of 00_scope.md R12 that is not already Lean's. -/

namespace Sys2Proof

/-- A byte: 8 bits, bit 7 the most significant (00_scope.md R8). -/
abbrev Byte := BitVec 8

/-- A finite sequence of bytes, index 0 first (00_scope.md R8). -/
abbrev Bytes := List Byte

/-- A datagram tag: 16 bits, opaque (30_encoding.md R57). -/
abbrev Tag := BitVec 16

/-- `ceil(a / b)` for naturals, `(a + b − 1) div b` (00_scope.md R12). -/
def ceilDiv (a b : Nat) : Nat := (a + b - 1) / b

end Sys2Proof
end

