-- ==== Sys2Proof/Config.lean ====
section
/-! DEFINITION. The configuration record CFG (00_scope.md R5), the reference configuration
CFG_REF (R7), and the free values of the model: opaque constants, of which nothing can be proved
but their type. -/

namespace Sys2Proof

/-- The three roles of an LFB instance (00_scope.md R5, 30_encoding.md R63). -/
inductive Role where
  | client
  | relay
  | server
  deriving DecidableEq, Repr

/-- CFG, the build-time constants (00_scope.md R5). The three header lengths of R5 are fixed by
the frame layout and are `Machine.hdrLen`. -/
structure Cfg where
  /-- FIRST_FRAG_PAYLOAD_CAP, F. -/
  firstCap : Nat
  /-- OTHER_FRAG_PAYLOAD_CAP, O. -/
  otherCap : Nat
  /-- NONFRAG_PAYLOAD_CAP, NF. -/
  nonfragCap : Nat
  /-- MAX_FRAME_SIZE, M. -/
  maxFrame : Nat
  /-- MAX_DATAGRAM_SIZE. -/
  maxDatagram : Nat
  /-- TRANSPORT_WRITE_LIMIT, W. -/
  writeLimit : Nat
  /-- MAX_RETRY. -/
  maxRetry : Nat
  /-- T_ACK, in clock ticks. -/
  tAck : Nat
  /-- T_BYTE, in clock ticks. -/
  tByte : Nat
  /-- T_FRAME, in clock ticks. -/
  tFrame : Nat
  /-- T_DGRAM, in clock ticks. -/
  tDgram : Nat
  /-- ACK_TOKEN[client]. -/
  tokenClient : Bytes
  /-- ACK_TOKEN[relay]. -/
  tokenRelay : Bytes
  /-- ACK_TOKEN[server]. -/
  tokenServer : Bytes
  /-- ROLE, the role of this instance. -/
  role : Role
  /-- PEER_ROLE, the role whose acknowledgement a sender waits for. -/
  peerRole : Role
  /-- RELAY_QUEUE_CAP, Q. -/
  relayQueueCap : Nat
  deriving DecidableEq, Repr

/-- CFG_REF of 00_scope.md R7. Its ROLE and PEER_ROLE, which R7 leaves to the instance, are the
model's (DESIGN CHOICE, log 7). -/
def cfgRef : Cfg where
  firstCap := 72
  otherCap := 88
  nonfragCap := 72
  maxFrame := 93
  maxDatagram := 2096
  writeLimit := 64
  maxRetry := 3
  tAck := 200
  tByte := 10
  tFrame := 100
  tDgram := 1000
  tokenClient := [0x63, 0x6C, 0x69, 0x65, 0x6E, 0x74]
  tokenRelay := [0x72, 0x65, 0x6C, 0x61, 0x79]
  tokenServer := [0x73, 0x65, 0x72, 0x76, 0x65, 0x72]
  role := .client
  peerRole := .server
  relayQueueCap := 4

/-- FREE VALUE (log 9): how far the clock moves before a reading `Now()` for which the state
scripts no advance; 00_scope.md R10 says only that the clock never decreases. -/
opaque Config.clockLapse : Nat → Nat

/-- FREE VALUE (log 9): by how much a `RawReadByte` that times out on an exhausted stream
overruns its timeout; 20_memory.md R35 says only that it takes at least the timeout. -/
opaque Config.readOverrun : Nat → Nat

/-- FREE VALUE (log 10): a `draw16()` for which the state scripts no draw (41_fragmenter.md
R83). -/
opaque Config.freshTag : Nat → Tag

/-- FREE VALUE (log 11): what a byte of `ctx.buf` that was never written reads as
(93_implementation_defined.md U7: any value). -/
opaque Config.staleByte : Nat → Byte

end Sys2Proof
end

