-- ==== Sys2Proof/Syntax.lean ====
section
/-! DEFINITION. The objects the LFB decodes and the abstract syntax of what it executes: ports,
frame kinds, headers, requests, and `Instr`, one constructor for each row of
spec/opcode_table.json. -/

namespace Sys2Proof

/-- A raw-transport port: `P0` for client and server, `UP` and `DOWN` for a relay
(00_scope.md, glossary; 45_arq_controller.md R141). Log 14. -/
inductive Port where
  | p0
  | up
  | down
  deriving DecidableEq, Repr

/-- The three frame kinds (40_header_codec.md R71). -/
inductive Kind where
  | nonFrag
  | first
  | other
  deriving DecidableEq, Repr

/-- A decoded header (40_header_codec.md R71). An `other` header carries the stored offset byte
`off8` of 30_encoding.md R55; its byte offset is `8 · off8` (`Machine.hdrOffset`), so that every
value is a multiple of 8 in 0..2040 as R71 asks. -/
inductive Header where
  | nonFrag (len : BitVec 8)
  | first (size : BitVec 13) (tag : Tag)
  | other (size : BitVec 13) (tag : Tag) (off8 : BitVec 8)
  deriving DecidableEq, Repr

/-- The four formats of opcode_table.json. A request says which one it is in: the same byte 0 has
a meaning in each (log 2). -/
inductive Format where
  /-- An operation request `(sel, operands)` (30_encoding.md R65). -/
  | operation
  /-- A whole frame (30_encoding.md R50). -/
  | frame
  /-- A marked transport chunk, one physical write (30_encoding.md R62). -/
  | chunk
  /-- A kind selector with the other operands of HDR_PACK (30_encoding.md R65). -/
  | kind
  deriving DecidableEq, Repr

/-- One thing given to the block to execute: its format, the port a frame or a chunk came in on
(`p0` for the rest), and its bytes (log 1, 2). -/
structure Request where
  fmt : Format
  port : Port
  bytes : Bytes
  deriving DecidableEq, Repr

/-- The instructions: one constructor for each row of opcode_table.json. A buffer operand is the
list of its valid bytes, so the length operand beside it in the rules (`n`, `L`) is the list's
length; an output buffer operand is its capacity (log 3, 4). -/
inductive Instr where
  /-- NONFRAG_LO: a non-fragmented frame with byte 0 below 128 (30_encoding.md R52). -/
  | nonfragLo (len : BitVec 7) (payload : Bytes)
  /-- NONFRAG_HI: a non-fragmented frame with byte 0 in 128..191 (R52). -/
  | nonfragHi (len : BitVec 6) (payload : Bytes)
  /-- FRAG1: a first fragment (R54). -/
  | frag1 (size : BitVec 13) (tag : Tag) (payload : Bytes)
  /-- FRAGN: an other fragment (R55). -/
  | fragn (size : BitVec 13) (tag : Tag) (off8 : BitVec 8) (payload : Bytes)
  /-- CHUNK1: marker 1 and the frame bytes after it, received on `p` (R62). -/
  | chunk1 (p : Port) (data : Bytes)
  /-- CHUNK2: marker 2 and the frame bytes after it, received on `p` (R62). -/
  | chunk2 (p : Port) (data : Bytes)
  /-- ACK_CLIENT: the acknowledgement frame of role client, received on `p` (R63). -/
  | ackClient (p : Port)
  /-- ACK_RELAY: the acknowledgement frame of role relay, received on `p` (R63). -/
  | ackRelay (p : Port)
  /-- ACK_SERVER: the acknowledgement frame of role server, received on `p` (R63). -/
  | ackServer (p : Port)
  /-- HDR_PACK, 0x00 (40_header_codec.md R72); `k` is the 2-bit kind selector. -/
  | hdrPack (k : BitVec 2) (a : Nat) (tag : Tag) (offset cap : Nat)
  /-- HDR_UNPACK, 0x01 (R74). -/
  | hdrUnpack (buf : Bytes)
  /-- HDR_FRAME_LEN, 0x02 (R76). -/
  | hdrFrameLen (h : Header)
  /-- FRAG_COUNT, 0x03 (41_fragmenter.md R81). -/
  | fragCount (l : Nat)
  /-- FRAGMENT, 0x04 (R84); `slots` is how many frame slots `out` has. -/
  | fragment (d : Bytes) (t : Tag) (slots : Nat)
  /-- RSM_RESET, 0x05 (42_reassembler.md R89). -/
  | rsmReset
  /-- RSM_INGEST, 0x06 (R94). -/
  | rsmIngest (buf : Bytes)
  /-- RSM_COMPLETE, 0x07 (R100). -/
  | rsmComplete
  /-- RSM_EXTRACT, 0x08 (R101). -/
  | rsmExtract (cap : Nat)
  /-- TF_SPLIT, 0x09 (43_transport_framer.md R105). -/
  | tfSplit (frame : Bytes)
  /-- TF_JOIN, 0x0A (R107). -/
  | tfJoin (u1 u2 : Bytes)
  /-- LR_RECV_FRAME, 0x0B (44_link_reader.md R116). -/
  | lrRecvFrame (p : Port)
  /-- LR_DELIVER, 0x0C (R119). -/
  | lrDeliver (f : Bytes) (cap : Nat)
  /-- ARQ_SEND_START, 0x0D (45_arq_controller.md R130). -/
  | arqSendStart (p : Port) (d : Bytes)
  /-- ARQ_SEND_POLL, 0x0E (R131). -/
  | arqSendPoll (p : Port)
  /-- ARQ_RECV_DATAGRAM, 0x0F (R137). -/
  | arqRecvDatagram (p : Port) (cap : Nat)
  /-- RELAY_POLL, 0x10 (R142). -/
  | relayPoll
  /-- LFB_INIT, 0x11 (70_reset_and_hazards.md R166). -/
  | lfbInit
  /-- KIND_NONFRAG: kind selector 0 with the other operands of HDR_PACK (40_header_codec.md
  R72). -/
  | kindNonfrag (a : Nat) (tag : Tag) (offset cap : Nat)
  /-- KIND_FIRST: kind selector 1 (R72). -/
  | kindFirst (a : Nat) (tag : Tag) (offset cap : Nat)
  /-- KIND_OTHER: kind selector 2 (R72). -/
  | kindOther (a : Nat) (tag : Tag) (offset cap : Nat)
  /-- KIND_UNRECOGNISED: kind selector 3 (R73). -/
  | kindUnrecognised (a : Nat) (tag : Tag) (offset cap : Nat)
  deriving DecidableEq, Repr

end Sys2Proof
end

