-- ==== Sys2Proof/Machine/Operands.lean ====
section
/-! DEFINITION. How the operands of a request stand in its bytes. The spec gives operands as
typed values without a layout (92_eei_decisions.md D1); this layout is the model's (DESIGN CHOICE,
log 3): a number is four bytes, a tag two, most significant first (the order of 20_memory.md R37);
a buffer is its length as a number and then its bytes; a port, a kind selector or a header kind is
one byte. Each reader takes its operand from the front of the bytes and leaves the rest. -/

namespace Sys2Proof.Machine

/-- A number operand, four bytes, most significant first. -/
def numBytes (n : Nat) : Bytes :=
  [BitVec.ofNat 8 (n / 2 ^ 24), BitVec.ofNat 8 (n / 2 ^ 16), BitVec.ofNat 8 (n / 2 ^ 8),
    BitVec.ofNat 8 n]

/-- A tag operand, two bytes, most significant first. -/
def tagBytes (t : Tag) : Bytes := [t.extractLsb' 8 8, t.extractLsb' 0 8]

/-- A buffer operand: its length, then its bytes. -/
def bufBytes (b : Bytes) : Bytes := numBytes b.length ++ b

/-- A port operand: 0 `P0`, 1 `UP`, 2 `DOWN`. -/
def portByte : Port → Byte
  | .p0 => 0
  | .up => 1
  | .down => 2

/-- A header operand: its kind selector (30_encoding.md R65) and its fields. -/
def headerOperand : Header → Bytes
  | .nonFrag len => [0, len]
  | .first size tag => 1 :: (tagBytes (size.setWidth 16) ++ tagBytes tag)
  | .other size tag off8 => 2 :: (tagBytes (size.setWidth 16) ++ tagBytes tag ++ [off8])

/-- Reads a number operand. -/
def readNum : Bytes → Option (Nat × Bytes)
  | b3 :: b2 :: b1 :: b0 :: rest =>
    some (b3.toNat * 2 ^ 24 + b2.toNat * 2 ^ 16 + b1.toNat * 2 ^ 8 + b0.toNat, rest)
  | _ => none

/-- Reads a tag operand. -/
def readTag : Bytes → Option (Tag × Bytes)
  | b1 :: b0 :: rest => some (b1 ++ b0, rest)
  | _ => none

/-- Reads a buffer operand; `none` when fewer bytes are there than its length says. -/
def readBuf (bs : Bytes) : Option (Bytes × Bytes) :=
  match readNum bs with
  | none => none
  | some (n, rest) => if n ≤ rest.length then some (rest.take n, rest.drop n) else none

/-- Reads a port operand. -/
def readPort : Bytes → Option (Port × Bytes)
  | [] => none
  | b :: rest =>
    if b = 0 then some (.p0, rest)
    else if b = 1 then some (.up, rest)
    else if b = 2 then some (.down, rest)
    else none

/-- Reads a kind selector: two bits, the byte's other bits 0. -/
def readKind : Bytes → Option (BitVec 2 × Bytes)
  | [] => none
  | b :: rest => if b.toNat < 4 then some (b.setWidth 2, rest) else none

/-- Reads a header operand; a size takes 13 bits. -/
def readHeader : Bytes → Option (Header × Bytes)
  | [] => none
  | k :: rest =>
    if k = 0 then
      match rest with
      | len :: rest => some (.nonFrag len, rest)
      | [] => none
    else if k = 1 then
      match readTag rest with
      | none => none
      | some (size, rest) =>
        match readTag rest with
        | none => none
        | some (tag, rest) =>
          if size.toNat < 2 ^ 13 then some (.first (size.setWidth 13) tag, rest) else none
    else if k = 2 then
      match readTag rest with
      | none => none
      | some (size, rest) =>
        match readTag rest with
        | some (tag, off8 :: rest) =>
          if size.toNat < 2 ^ 13 then some (.other (size.setWidth 13) tag off8, rest) else none
        | _ => none
    else none

end Sys2Proof.Machine
end

