-- ==== Sys2Proof/Machine/Geometry.lean ====
section
/-! DEFINITION. The arithmetic of the configuration: fragment counts, slices and size tables
(41_fragmenter.md R81, R82; 42_reassembler.md R91), NMAX, and the legality of a CFG
(00_scope.md R6). -/

namespace Sys2Proof.Machine

/-- ACK_TOKEN[r] (00_scope.md R5). -/
def ackToken (c : Cfg) : Role → Bytes
  | .client => c.tokenClient
  | .relay => c.tokenRelay
  | .server => c.tokenServer

/-- `nfrag(S) = 1 + ceil(max(S − F, 0) / O)` (41_fragmenter.md R81); natural subtraction is the
`max`. -/
def nfrag (c : Cfg) (size : Nat) : Nat := 1 + ceilDiv (size - c.firstCap) c.otherCap

/-- Where the slice of position `p` starts (41_fragmenter.md R82). -/
def sliceStart (c : Cfg) (p : Nat) : Nat :=
  if p = 0 then 0 else c.firstCap + (p - 1) * c.otherCap

/-- How many bytes the slice of position `p` of a datagram of `size` bytes has
(41_fragmenter.md R82). -/
def sliceLen (c : Cfg) (size p : Nat) : Nat :=
  if p = 0 then min size c.firstCap else min c.otherCap (size - sliceStart c p)

/-- `tail(S) = ((S − F − 1) mod O) + 1`, the length of the last slice for S > F
(41_fragmenter.md R82). -/
def tailLen (c : Cfg) (size : Nat) : Nat := (size - c.firstCap - 1) % c.otherCap + 1

/-- Header length at position `p`: 4 for the first fragment, 5 for an other one
(10_state.md R23). -/
def posHdrLen (p : Nat) : Nat := if p = 0 then 4 else 5

/-- `table(S)` of 42_reassembler.md R91: entry `p` is `hdr_len + slice(S, p).length`. -/
def sizeTableOf (c : Cfg) (size : Nat) : List Nat :=
  (List.range (nfrag c size)).map fun p => posHdrLen p + sliceLen c size p

/-- NMAX, the largest fragment count of a legal datagram (10_state.md, section 1). -/
def nmax (c : Cfg) : Nat := nfrag c c.maxDatagram

/-- An acknowledgement token is legal: non-empty, ASCII, at most NF and at most W − 1 bytes
(00_scope.md R6 (i)). -/
abbrev tokenLegal (c : Cfg) (t : Bytes) : Prop :=
  t ≠ [] ∧ (∀ b ∈ t, b.toNat < 0x80) ∧ t.length ≤ c.nonfragCap ∧ t.length ≤ c.writeLimit - 1

/-- The items (a) to (j) of 00_scope.md R6; item (h) demands nothing. -/
abbrev CfgLegal (c : Cfg) : Prop :=
  -- (a)
  (c.firstCap % 8 = 0 ∧ c.otherCap % 8 = 0 ∧ 8 ≤ c.firstCap ∧ 8 ≤ c.otherCap) ∧
  -- (b)
  (1 ≤ c.nonfragCap ∧ c.nonfragCap ≤ c.maxFrame - 1) ∧
  -- (c)
  (4 + c.firstCap ≤ c.maxFrame ∧ 5 + c.otherCap ≤ c.maxFrame ∧ 1 + c.nonfragCap ≤ c.maxFrame) ∧
  -- (d)
  c.maxFrame ≤ 191 ∧
  -- (e)
  (c.maxFrame ≤ 2 * c.writeLimit ∧ 5 ≤ c.writeLimit) ∧
  -- (f)
  (1 ≤ c.maxDatagram ∧ c.maxDatagram ≤ 8191) ∧
  -- (g)
  (c.firstCap < c.maxDatagram → c.firstCap + c.otherCap * (nmax c - 2) ≤ 2040) ∧
  -- (i)
  (tokenLegal c c.tokenClient ∧ tokenLegal c c.tokenRelay ∧ tokenLegal c c.tokenServer) ∧
  (c.tokenClient ≠ c.tokenRelay ∧ c.tokenClient ≠ c.tokenServer ∧
    c.tokenRelay ≠ c.tokenServer) ∧
  -- (j)
  (1 ≤ c.relayQueueCap ∧ 0 < c.tByte ∧ c.tByte ≤ c.tFrame ∧ c.tFrame ≤ c.tDgram ∧ 0 < c.tAck)

/-- A legal configuration, as a check (00_scope.md R6). -/
def cfgLegal (c : Cfg) : Bool := decide (CfgLegal c)

end Sys2Proof.Machine
end

