-- ==== Sys2Proof/Machine/Wire.lean ====
section
/-! DEFINITION. The wire formats of 30_encoding.md: classification of byte 0, header fields and
their bytes both ways, acknowledgement frames. Pure functions of bytes. -/

namespace Sys2Proof.Machine

/-- `kind(b0)` (30_encoding.md R51): the test for `Other` comes first. -/
def kindOf (b0 : Byte) : Kind :=
  if b0.extractLsb' 5 3 = 0b111#3 then .other
  else if b0.extractLsb' 5 3 = 0b110#3 then .first
  else .nonFrag

/-- Header length of a kind: the payload offset of the layout table (40_header_codec.md R71). -/
def hdrLen : Kind → Nat
  | .nonFrag => 1
  | .first => 4
  | .other => 5

/-- The kind of a header. -/
def hdrKind : Header → Kind
  | .nonFrag _ => .nonFrag
  | .first _ _ => .first
  | .other _ _ _ => .other

/-- The byte offset of an other fragment: `off8 << 3` (30_encoding.md R58). -/
def hdrOffset (off8 : BitVec 8) : Nat := 8 * off8.toNat

/-- Byte 0 of a fragment: `typebits | size[12:8]` (30_encoding.md R56). -/
def fragByte0 (typebits : Byte) (size : BitVec 13) : Byte :=
  typebits ||| (size.extractLsb' 8 5).setWidth 8

/-- The bytes of a header (30_encoding.md R52, R54, R55; 40_header_codec.md R72). -/
def headerBytes : Header → Bytes
  | .nonFrag len => [len]
  | .first size tag =>
    [fragByte0 0xC0#8 size, size.extractLsb' 0 8, tag.extractLsb' 8 8, tag.extractLsb' 0 8]
  | .other size tag off8 =>
    [fragByte0 0xE0#8 size, size.extractLsb' 0 8, tag.extractLsb' 8 8, tag.extractLsb' 0 8, off8]

/-- The size field from bytes 0 and 1 under the kind's mask on byte 0 (30_encoding.md R56). The
masked value has at most 13 significant bits in a header of its kind. -/
def sizeField (mask b0 b1 : Byte) : BitVec 13 := ((b0 &&& mask) ++ b1).setWidth 13

/-- The tag field from bytes 2 and 3, big-endian (30_encoding.md R57). -/
def tagField (b2 b3 : Byte) : Tag := b2 ++ b3

/-- HDR_UNPACK (40_header_codec.md R74); `none` is its MalformedFrame. -/
def unpackHeader : Bytes → Option Header
  | [] => none
  | b0 :: rest =>
    match kindOf b0 with
    | .nonFrag => if b0 = 0 then none else some (.nonFrag b0)
    | .first =>
      match rest with
      | b1 :: b2 :: b3 :: _ => some (.first (sizeField 0x3F#8 b0 b1) (tagField b2 b3))
      | _ => none
    | .other =>
      match rest with
      | b1 :: b2 :: b3 :: b4 :: _ => some (.other (sizeField 0x1F#8 b0 b1) (tagField b2 b3) b4)
      | _ => none

/-- `header_valid(h)` (40_header_codec.md R77). -/
def headerValid (c : Cfg) : Header → Bool
  | .nonFrag len => 1 ≤ len.toNat && len.toNat ≤ c.maxFrame
  | .first size _ => 1 ≤ size.toNat && size.toNat ≤ c.maxDatagram
  | .other size _ off8 =>
    1 ≤ size.toNat && size.toNat ≤ c.maxDatagram && c.firstCap ≤ hdrOffset off8 &&
      (hdrOffset off8 - c.firstCap) % c.otherCap = 0 && hdrOffset off8 < size.toNat

/-- The length equation of HDR_FRAME_LEN (40_header_codec.md R76), for a valid header. -/
def hdrFrameLength (c : Cfg) : Header → Nat
  | .nonFrag len => len.toNat
  | .first size _ => 4 + min size.toNat c.firstCap
  | .other size _ off8 => 5 + min c.otherCap (size.toNat - hdrOffset off8)

/-- HDR_FRAME_LEN (40_header_codec.md R76); `none` is its MalformedFrame. -/
def frameLen (c : Cfg) (h : Header) : Option Nat :=
  if headerValid c h then some (hdrFrameLength c h) else none

/-- `pos(h)` of a fragment (40_header_codec.md R75). -/
def hdrPos (c : Cfg) (off8 : BitVec 8) : Nat := 1 + (hdrOffset off8 - c.firstCap) / c.otherCap

/-- `format_valid(buf, n)` (40_header_codec.md R77), with the header it finds. -/
def formatHeader (c : Cfg) (buf : Bytes) : Option Header :=
  match unpackHeader buf with
  | none => none
  | some h => if headerValid c h ∧ buf.length = hdrFrameLength c h then some h else none

/-- `ACK(r)`, the acknowledgement frame of role r (30_encoding.md R63). -/
def ackFrame (c : Cfg) (r : Role) : Bytes :=
  BitVec.ofNat 8 (1 + (ackToken c r).length) :: ackToken c r

/-- `is_ack_of(f, n, r)`: a non-fragmented frame whose payload `f[1..len)` is the token of r
(30_encoding.md R64, 45_arq_controller.md R127). -/
def isAckOf (c : Cfg) (f : Bytes) (r : Role) : Bool :=
  match f with
  | [] => false
  | b0 :: rest => kindOf b0 = .nonFrag && rest.take (b0.toNat - 1) = ackToken c r

/-- `is_ack(f, n)`: an acknowledgement frame of some role (30_encoding.md R64). -/
def isAck (c : Cfg) (f : Bytes) : Bool :=
  isAckOf c f .client || isAckOf c f .relay || isAckOf c f .server

end Sys2Proof.Machine
end

