-- ==== Sys2Proof/WellFormed.lean ====
section
/-! DEFINITION. Which instructions are well formed under a configuration: those the encoder can
write and the decoder reads back. Number operands and buffer lengths fit the four bytes of the
model's layout (log 3); a non-fragmented frame is not an acknowledgement frame, which is
`ackClient`, `ackRelay` or `ackServer` (30_encoding.md R64). -/

namespace Sys2Proof

/-- A number operand fits its four bytes. -/
def numFits (n : Nat) : Bool := n < 2 ^ 32

/-- A frame is no acknowledgement frame of any role, byte for byte (30_encoding.md R63). -/
def notAckFrame (c : Cfg) (f : Bytes) : Bool :=
  f ≠ Machine.ackFrame c .client && f ≠ Machine.ackFrame c .relay &&
    f ≠ Machine.ackFrame c .server

/-- The well-formed instructions. -/
def Instr.wellFormed (c : Cfg) : Instr → Bool
  | .nonfragLo len payload => notAckFrame c ((0b0#1 ++ len) :: payload)
  | .nonfragHi len payload => notAckFrame c ((0b10#2 ++ len) :: payload)
  | .frag1 _ _ _ => true
  | .fragn _ _ _ _ => true
  | .chunk1 _ _ => true
  | .chunk2 _ _ => true
  | .ackClient _ => true
  | .ackRelay _ => true
  | .ackServer _ => true
  | .hdrPack _ a _ offset cap => numFits a && numFits offset && numFits cap
  | .hdrUnpack buf => numFits buf.length
  | .hdrFrameLen _ => true
  | .fragCount l => numFits l
  | .fragment d _ slots => numFits d.length && numFits slots
  | .rsmReset => true
  | .rsmIngest buf => numFits buf.length
  | .rsmComplete => true
  | .rsmExtract cap => numFits cap
  | .tfSplit frame => numFits frame.length
  | .tfJoin u1 u2 => numFits u1.length && numFits u2.length
  | .lrRecvFrame _ => true
  | .lrDeliver f cap => numFits f.length && numFits cap
  | .arqSendStart _ d => numFits d.length
  | .arqSendPoll _ => true
  | .arqRecvDatagram _ cap => numFits cap
  | .relayPoll => true
  | .lfbInit => true
  | .kindNonfrag a _ offset cap => numFits a && numFits offset && numFits cap
  | .kindFirst a _ offset cap => numFits a && numFits offset && numFits cap
  | .kindOther a _ offset cap => numFits a && numFits offset && numFits cap
  | .kindUnrecognised a _ offset cap => numFits a && numFits offset && numFits cap

end Sys2Proof
end

