-- ==== Sys2Proof/Decode.lean ====
section
/-! DEFINITION. The decoder, total on any request, rejecting by name, and after it the encoder.
Both are written from 30_encoding.md R50 to R65 and, for operands, from the model's layout
(log 3). -/

namespace Sys2Proof

/-- Why a request decodes to no instruction. -/
inductive DecodeError where
  /-- A selector outside 0x00..0x11 (30_encoding.md R65). -/
  | unknownOperation
  /-- A frame of no bytes (40_header_codec.md R74). -/
  | emptyFrame
  /-- A frame shorter than the header of its kind (R74). -/
  | truncatedHeader
  /-- A physical write in chunk format that starts with neither marker
  (43_transport_framer.md R107), received on `p`. -/
  | noMarker (p : Port)
  /-- Operand bytes that are no operands in the model's layout (log 3). -/
  | badOperands
  deriving DecidableEq, Repr

/-- What the decoder answers. -/
inductive Decoded where
  | ok (i : Instr)
  | bad (e : DecodeError)
  deriving DecidableEq, Repr

/-- The operands of HDR_PACK but for its kind: `a`, `tag`, `offset`, and the capacity of
`out`. -/
def readPackOperands (bs : Bytes) : Option (Nat × Tag × Nat × Nat) := do
  let (a, bs) ← Machine.readNum bs
  let (tag, bs) ← Machine.readTag bs
  let (offset, bs) ← Machine.readNum bs
  let (cap, _) ← Machine.readNum bs
  return (a, tag, offset, cap)

/-- The operands of the operation with selector `sel`, which is at most 0x11; `none` where the
bytes are no operands of it. Bytes after the last operand are not read. -/
def readOperation (sel : Nat) (bs : Bytes) : Option Instr :=
  match sel with
  | 0x00 => do
    let (k, bs) ← Machine.readKind bs
    let (a, tag, offset, cap) ← readPackOperands bs
    return .hdrPack k a tag offset cap
  | 0x01 => do
    let (buf, _) ← Machine.readBuf bs
    return .hdrUnpack buf
  | 0x02 => do
    let (h, _) ← Machine.readHeader bs
    return .hdrFrameLen h
  | 0x03 => do
    let (l, _) ← Machine.readNum bs
    return .fragCount l
  | 0x04 => do
    let (d, bs) ← Machine.readBuf bs
    let (t, bs) ← Machine.readTag bs
    let (slots, _) ← Machine.readNum bs
    return .fragment d t slots
  | 0x05 => some .rsmReset
  | 0x06 => do
    let (buf, _) ← Machine.readBuf bs
    return .rsmIngest buf
  | 0x07 => some .rsmComplete
  | 0x08 => do
    let (cap, _) ← Machine.readNum bs
    return .rsmExtract cap
  | 0x09 => do
    let (f, _) ← Machine.readBuf bs
    return .tfSplit f
  | 0x0A => do
    let (u1, bs) ← Machine.readBuf bs
    let (u2, _) ← Machine.readBuf bs
    return .tfJoin u1 u2
  | 0x0B => do
    let (p, _) ← Machine.readPort bs
    return .lrRecvFrame p
  | 0x0C => do
    let (f, bs) ← Machine.readBuf bs
    let (cap, _) ← Machine.readNum bs
    return .lrDeliver f cap
  | 0x0D => do
    let (p, bs) ← Machine.readPort bs
    let (d, _) ← Machine.readBuf bs
    return .arqSendStart p d
  | 0x0E => do
    let (p, _) ← Machine.readPort bs
    return .arqSendPoll p
  | 0x0F => do
    let (p, bs) ← Machine.readPort bs
    let (cap, _) ← Machine.readNum bs
    return .arqRecvDatagram p cap
  | 0x10 => some .relayPoll
  | 0x11 => some .lfbInit
  | _ => none

/-- An operation request: selector, then operands (30_encoding.md R65). -/
def decodeOperation : Bytes → Decoded
  | [] => .bad .badOperands
  | sel :: bs =>
    if 0x11 < sel.toNat then .bad .unknownOperation
    else
      match readOperation sel.toNat bs with
      | some i => .ok i
      | none => .bad .badOperands

/-- A frame that is no acknowledgement frame, by its byte 0 (30_encoding.md R51, R68). -/
def decodeDataFrame : Bytes → Decoded
  | [] => .bad .emptyFrame
  | b0 :: rest =>
    match Machine.kindOf b0 with
    | .nonFrag =>
      if b0.extractLsb' 7 1 = 0#1 then .ok (.nonfragLo (b0.extractLsb' 0 7) rest)
      else .ok (.nonfragHi (b0.extractLsb' 0 6) rest)
    | .first =>
      match rest with
      | b1 :: b2 :: b3 :: payload =>
        .ok (.frag1 (Machine.sizeField 0x3F#8 b0 b1) (Machine.tagField b2 b3) payload)
      | _ => .bad .truncatedHeader
    | .other =>
      match rest with
      | b1 :: b2 :: b3 :: b4 :: payload =>
        .ok (.fragn (Machine.sizeField 0x1F#8 b0 b1) (Machine.tagField b2 b3) b4 payload)
      | _ => .bad .truncatedHeader

/-- A frame: an acknowledgement frame when it is one byte for byte (30_encoding.md R63, R64),
else a data frame. -/
def decodeFrame (c : Cfg) (p : Port) (f : Bytes) : Decoded :=
  if f = Machine.ackFrame c .client then .ok (.ackClient p)
  else if f = Machine.ackFrame c .relay then .ok (.ackRelay p)
  else if f = Machine.ackFrame c .server then .ok (.ackServer p)
  else decodeDataFrame f

/-- A marked physical write (30_encoding.md R62). -/
def decodeChunk (p : Port) : Bytes → Decoded
  | [] => .bad (.noMarker p)
  | m :: data =>
    if m = 0x01#8 then .ok (.chunk1 p data)
    else if m = 0x02#8 then .ok (.chunk2 p data)
    else .bad (.noMarker p)

/-- A kind selector with the other operands of HDR_PACK (30_encoding.md R65). -/
def decodeKind (bs : Bytes) : Decoded :=
  match Machine.readKind bs with
  | none => .bad .badOperands
  | some (k, bs) =>
    match readPackOperands bs with
    | none => .bad .badOperands
    | some (a, tag, offset, cap) =>
      if k = 0#2 then .ok (.kindNonfrag a tag offset cap)
      else if k = 1#2 then .ok (.kindFirst a tag offset cap)
      else if k = 2#2 then .ok (.kindOther a tag offset cap)
      else .ok (.kindUnrecognised a tag offset cap)

/-- The decoder. The configuration gives the acknowledgement tokens. -/
def decode (c : Cfg) (r : Request) : Decoded :=
  match r.fmt with
  | .operation => decodeOperation r.bytes
  | .frame => decodeFrame c r.port r.bytes
  | .chunk => decodeChunk r.port r.bytes
  | .kind => decodeKind r.bytes

/-- The operands of HDR_PACK but for its kind, as bytes. -/
def packOperandBytes (a : Nat) (tag : Tag) (offset cap : Nat) : Bytes :=
  Machine.numBytes a ++ (Machine.tagBytes tag ++ (Machine.numBytes offset ++ Machine.numBytes cap))

/-- An operation request: selector and operand bytes. -/
def operationRequest (sel : Byte) (operands : Bytes) : Request := ⟨.operation, .p0, sel :: operands⟩

/-- A frame that is handed in whole. -/
def frameRequest (p : Port) (f : Bytes) : Request := ⟨.frame, p, f⟩

/-- The encoder: the request of an instruction. A data frame's port is not part of its
instruction; the encoder writes `P0`. -/
def encode (c : Cfg) : Instr → Request
  | .nonfragLo len payload => frameRequest .p0 ((0b0#1 ++ len) :: payload)
  | .nonfragHi len payload => frameRequest .p0 ((0b10#2 ++ len) :: payload)
  | .frag1 size tag payload =>
    frameRequest .p0 (Machine.headerBytes (.first size tag) ++ payload)
  | .fragn size tag off8 payload =>
    frameRequest .p0 (Machine.headerBytes (.other size tag off8) ++ payload)
  | .chunk1 p data => ⟨.chunk, p, 0x01 :: data⟩
  | .chunk2 p data => ⟨.chunk, p, 0x02 :: data⟩
  | .ackClient p => frameRequest p (Machine.ackFrame c .client)
  | .ackRelay p => frameRequest p (Machine.ackFrame c .relay)
  | .ackServer p => frameRequest p (Machine.ackFrame c .server)
  | .hdrPack k a tag offset cap =>
    operationRequest 0x00 (k.setWidth 8 :: packOperandBytes a tag offset cap)
  | .hdrUnpack buf => operationRequest 0x01 (Machine.bufBytes buf)
  | .hdrFrameLen h => operationRequest 0x02 (Machine.headerOperand h)
  | .fragCount l => operationRequest 0x03 (Machine.numBytes l)
  | .fragment d t slots =>
    operationRequest 0x04 (Machine.bufBytes d ++ (Machine.tagBytes t ++ Machine.numBytes slots))
  | .rsmReset => operationRequest 0x05 []
  | .rsmIngest buf => operationRequest 0x06 (Machine.bufBytes buf)
  | .rsmComplete => operationRequest 0x07 []
  | .rsmExtract cap => operationRequest 0x08 (Machine.numBytes cap)
  | .tfSplit f => operationRequest 0x09 (Machine.bufBytes f)
  | .tfJoin u1 u2 => operationRequest 0x0A (Machine.bufBytes u1 ++ Machine.bufBytes u2)
  | .lrRecvFrame p => operationRequest 0x0B [Machine.portByte p]
  | .lrDeliver f cap => operationRequest 0x0C (Machine.bufBytes f ++ Machine.numBytes cap)
  | .arqSendStart p d => operationRequest 0x0D (Machine.portByte p :: Machine.bufBytes d)
  | .arqSendPoll p => operationRequest 0x0E [Machine.portByte p]
  | .arqRecvDatagram p cap =>
    operationRequest 0x0F (Machine.portByte p :: Machine.numBytes cap)
  | .relayPoll => operationRequest 0x10 []
  | .lfbInit => operationRequest 0x11 []
  | .kindNonfrag a tag offset cap => ⟨.kind, .p0, 0 :: packOperandBytes a tag offset cap⟩
  | .kindFirst a tag offset cap => ⟨.kind, .p0, 1 :: packOperandBytes a tag offset cap⟩
  | .kindOther a tag offset cap => ⟨.kind, .p0, 2 :: packOperandBytes a tag offset cap⟩
  | .kindUnrecognised a tag offset cap => ⟨.kind, .p0, 3 :: packOperandBytes a tag offset cap⟩

/-- The first `n` bytes of a word numbered as opcode_table.json numbers it. -/
def wordBytes (n w : Nat) : Bytes :=
  (List.range n).map fun i => BitVec.ofNat 8 (w / 2 ^ (8 * i))

/-- Zero bytes up to length `n`. -/
def zeroPad (n : Nat) (bs : Bytes) : Bytes := bs ++ List.replicate (n - bs.length) 0

/-- How long a frame with these first bytes is, its missing bytes zero: as its header says, or no
longer than the header where the header is not valid. -/
def frameExtent (bs : Bytes) : Nat :=
  let hdr := zeroPad 5 bs
  match Machine.unpackHeader hdr with
  | none => 1
  | some h => (Machine.frameLen cfgRef h).getD (Machine.hdrLen (Machine.hdrKind h))

/-- The request an opcode-table word stands for. The table's rows of different formats share
words, and the word does not say its format (log 2): fewer than eight bits are a kind selector;
eight bits up to 0x11 are an operation selector; all else is a frame. -/
def requestOfWord (nbits w : Nat) : Request :=
  let bs := wordBytes ((nbits + 7) / 8) w
  if nbits < 8 then ⟨.kind, .p0, zeroPad 32 bs⟩
  else if nbits = 8 ∧ w ≤ 0x11 then ⟨.operation, .p0, zeroPad 32 bs⟩
  else ⟨.frame, .p0, zeroPad (frameExtent bs) bs⟩

/-- The instruction the decoder reads from an opcode-table word, under CFG_REF. -/
def decodeTableWord (nbits w : Nat) : Option Instr :=
  match decode cfgRef (requestOfWord nbits w) with
  | .ok i => some i
  | .bad _ => none

end Sys2Proof
end

