-- ==== Sys2Proof/Machine/State.lean ====
section
/-! DEFINITION. The state of the machine: the spec's tuple (ctx, lr, arq, relay) of 10_state.md
R13, the configuration registers CFG (R28), and the environment, request queue and reply the spec
counts as outside the block (R30), held as plain data so that a step is a function of the state.
Then the reset state and the reasons to stop. -/

namespace Sys2Proof.Machine

/-- A byte space held sparsely: (index, byte) pairs in canonical form, indices strictly rising
(`Memory.wf`). An unlisted index was never written and holds no value (log 11). -/
abbrev Memory := List Host.Cell

/-- The ReassemblyContext `ctx` (10_state.md R14 to R22). -/
structure Ctx where
  /-- `ctx.idle` (R21): 1 = Idle. -/
  idle : Bool
  /-- `ctx.tag` (R15). -/
  tag : Tag
  /-- `ctx.expected_size` (R16). -/
  expectedSize : Nat
  /-- `ctx.filled` (R17). -/
  filled : Nat
  /-- `ctx.frag_count` (R18). -/
  fragCount : Nat
  /-- `ctx.size_table` (R19), NMAX entries. -/
  sizeTable : List Nat
  /-- `ctx.cur_index` (R20). -/
  curIndex : Nat
  /-- `ctx.received` (R22), NMAX bits. -/
  received : List Bool
  /-- `ctx.buf` (R14), indices 0 to MAX_DATAGRAM_SIZE − 1. -/
  buf : Memory
  deriving DecidableEq, Repr

/-- `arq.state` (10_state.md R26, 45_arq_controller.md R128). -/
inductive ArqState where
  | idle
  | awaitingAck
  | retrying
  | failed
  | done
  deriving DecidableEq, Repr

/-- The ARQ sender state `arq` (10_state.md R26, R31). -/
structure Arq where
  /-- `arq.state`. -/
  state : ArqState
  /-- `arq.retries`. -/
  retries : Nat
  /-- `arq.deadline`. -/
  deadline : Nat
  /-- `arq.nframes`. -/
  nframes : Nat
  /-- `arq.idx`. -/
  idx : Nat
  /-- `arq.frames`: the slots filled by the last ARQ_SEND_START, in order (log 13). -/
  frames : List Bytes
  deriving DecidableEq, Repr

/-- The relay state `relay` (10_state.md R27). -/
structure Relay where
  /-- `relay.queue`, head first. -/
  queue : List Bytes
  /-- `relay.in_flight`. -/
  inFlight : Bool
  /-- `relay.retries`. -/
  retries : Nat
  /-- `relay.deadline`. -/
  deadline : Nat
  deriving DecidableEq, Repr

/-- One value for each port. -/
structure PerPort (α : Type) where
  p0 : α
  up : α
  down : α
  deriving DecidableEq, Repr

/-- What one `RawReadByte` on a port meets (20_memory.md R35; log 8). -/
inductive RxEvent where
  /-- The call returns this byte of the stream, `ticks` ticks after it was made. -/
  | byte (b : Byte) (ticks : Nat)
  /-- The call times out, `extra` ticks after its timeout. -/
  | silence (extra : Nat)
  deriving DecidableEq, Repr

/-- The environment of 00_scope.md R4 (b) and (c), and the draws (log 8, 9, 10). -/
structure Env where
  /-- The monotonic clock, in ticks. -/
  clock : Nat
  /-- `rx[p]`, the incoming streams, with when their bytes come. -/
  rx : PerPort (List RxEvent)
  /-- `tx[p]`, the physical writes made, oldest first. -/
  tx : PerPort (List Bytes)
  /-- By how much the clock moves before each of the next readings `Now()`. -/
  lapses : List Nat
  /-- The next draws `draw16()`. -/
  draws : List Tag
  /-- How many free values have been taken: the argument of the next (log 9). -/
  free : Nat
  deriving DecidableEq, Repr

/-- The four error kinds (60_exceptions.md R147). -/
inductive ErrorKind where
  | malformedFrame
  | timeout
  | retriesExhausted
  | unknownFragmentKind
  deriving DecidableEq, Repr

/-- The closed list of reasons of `Refused(reason)` (60_exceptions.md R152). -/
inductive Reason where
  | fieldRange
  | bufferTooSmall
  | lengthRange
  | busy
  | payloadIsAckToken
  | wrongRole
  | unknownOperation
  deriving DecidableEq, Repr

/-- The results of RSM_INGEST (42_reassembler.md R94). -/
inductive Ingested where
  | started
  | restarted
  | accepted
  | duplicate
  | bypass
  deriving DecidableEq, Repr

/-- What an operation returns in `Ok(·)`. A result that the rules put into an output buffer
carries the bytes or frames written there, whose number is the number returned (log 4). -/
inductive OkValue where
  /-- `Ok()`: RSM_RESET, LFB_INIT. -/
  | unit
  /-- `Ok(n)` with `out[0..n)`: HDR_PACK, TF_JOIN. -/
  | bytes (out : Bytes)
  /-- `Ok(h)`: HDR_UNPACK. -/
  | header (h : Header)
  /-- `Ok(n)`, a number: HDR_FRAME_LEN, FRAG_COUNT, RELAY_POLL, ARQ_SEND_START. -/
  | num (n : Nat)
  /-- `Ok(n)` with `out[0..n)` filled: the frames of FRAGMENT, the writes of TF_SPLIT. -/
  | units (out : List Bytes)
  /-- `Ok(v)`: RSM_INGEST. -/
  | ingested (v : Ingested)
  /-- `Ok(c)`: RSM_COMPLETE. -/
  | bool (c : Bool)
  /-- `Ok(m)` with `out[0..m)`: RSM_EXTRACT, LR_DELIVER, ARQ_RECV_DATAGRAM. -/
  | datagram (out : Bytes)
  /-- `Ok(Nothing)`: LR_RECV_FRAME. -/
  | nothing
  /-- `Ok(Frame(f, n))`: LR_RECV_FRAME. -/
  | frame (f : Bytes)
  /-- `Ok(s)`: ARQ_SEND_POLL. -/
  | arqState (s : ArqState)
  deriving DecidableEq, Repr

/-- The outcome of the last operation (00_scope.md R11), as handed to the host (log 5). -/
inductive Reply where
  /-- No operation has been executed yet. -/
  | none
  | ok (v : OkValue)
  | error (e : ErrorKind)
  | refused (r : Reason)
  deriving DecidableEq, Repr

/-- The state of the machine. -/
structure State where
  /-- CFG, read-only (10_state.md R28). -/
  cfg : Cfg
  /-- The ReassemblyContext (R14 to R22). -/
  ctx : Ctx
  /-- `lr[p].acc[0 .. lr[p].count)` (R25): `count` is the list's length (log 12). -/
  lr : PerPort Bytes
  /-- The sender state (R26, R31). -/
  arq : Arq
  /-- The relay state (R27). -/
  relay : Relay
  /-- The environment. -/
  env : Env
  /-- What the host has given the block to execute, oldest first (log 1). -/
  requests : List Request
  /-- The outcome of the last operation (log 5). -/
  reply : Reply
  deriving DecidableEq, Repr

/-- The idle context of RSM_RESET (42_reassembler.md R89) over a given `ctx.buf`, which it does
not touch. -/
def Ctx.idleWith (c : Cfg) (buf : Memory) : Ctx where
  idle := true
  tag := 0
  expectedSize := 0
  filled := 0
  fragCount := 0
  sizeTable := List.replicate (nmax c) 0
  curIndex := 0
  received := List.replicate (nmax c) false
  buf := buf

/-- The machine right after reset (10_state.md R32) under a given configuration: nothing in
flight, nothing requested, nothing received. R32 leaves the contents of `ctx.buf`, `lr[p].acc` and
`arq.frames` unspecified: that nothing is listed or held there and no slot is filled is the model's
choice (DESIGN CHOICE, log 11 and 30). -/
def State.resetWith (c : Cfg) : State where
  cfg := c
  ctx := Ctx.idleWith c []
  lr := ⟨[], [], []⟩
  arq := ⟨.idle, 0, 0, 0, 0, []⟩
  relay := ⟨[], false, 0, 0⟩
  env := ⟨0, ⟨[], [], []⟩, ⟨[], [], []⟩, [], [], 0⟩
  requests := []
  reply := .none

/-- The machine right after reset (10_state.md R32), under CFG_REF (log 6). -/
def State.reset : State := State.resetWith cfgRef

/-- The faults. There are none: every error of the LFB is an outcome value after which the block
goes on (60_exceptions.md R161), so nothing raises a fault (log 24). -/
inductive Fault where
  deriving DecidableEq, Repr

/-- Why the model refuses to take a step. -/
inductive Refusal where
  /-- An instruction without a meaning; no arm of `exec` answers it. Safe. -/
  | notModelled (mnemonic : String)
  /-- The configuration is not legal: 00_scope.md R6, "A model must refuse to be instantiated
  with an illegal CFG". Raised by `step`. Safe. -/
  | illegalConfig
  /-- The request's operand bytes are no operands in the model's own layout, so that no request
  of the spec stands there (log 3). Raised by `step`. Safe. -/
  | badRequest
  deriving DecidableEq, Repr

end Sys2Proof.Machine
end

