-- ==== Sys2Proof/Machine/Ops.lean ====
section
/-! DEFINITION. The named operations over the state: ports, the sparse byte space, the outcome of
an operation and what an error does (the LFB's taking of an exception), the environment's
primitives (00_scope.md R10), and the Reassembler's internal actions (42_reassembler.md R89, R90,
R93). -/

namespace Sys2Proof.Machine

/-! ## Ports -/

/-- The value of a port. -/
def PerPort.get {α : Type} (v : PerPort α) : Port → α
  | .p0 => v.p0
  | .up => v.up
  | .down => v.down

/-- Replaces the value of one port. -/
def PerPort.set {α : Type} (v : PerPort α) (p : Port) (a : α) : PerPort α :=
  match p with
  | .p0 => { v with p0 := a }
  | .up => { v with up := a }
  | .down => { v with down := a }

/-! ## The byte space -/

/-- The canonical form: indices strictly rising. -/
def Memory.wf (m : Memory) : Bool := decide (m.Pairwise fun x y => x.1 < y.1)

/-- The byte at an index, if one was ever written there. -/
def Memory.read (m : Memory) (a : Nat) : Option Byte :=
  match m with
  | [] => none
  | (x, b) :: rest => if x = a then some b else Memory.read rest a

/-- Writes one byte, keeping the canonical form. -/
def Memory.write (m : Memory) (a : Nat) (b : Byte) : Memory :=
  match m with
  | [] => [(a, b)]
  | (x, c) :: rest =>
    if a < x then (a, b) :: (x, c) :: rest
    else if a = x then (a, b) :: rest
    else (x, c) :: Memory.write rest a b

/-- `MemWrite(space, a, n, v)` (00_scope.md R10): the bytes of `v` at indices a, a + 1, … -/
def Memory.writeRange (m : Memory) (a : Nat) (v : Bytes) : Memory :=
  match v with
  | [] => m
  | b :: rest => Memory.writeRange (Memory.write m a b) (a + 1) rest

/-- One byte of `ctx.buf`; where nothing was written, any value (93_implementation_defined.md U7;
log 11). -/
def bufByte (m : Memory) (a : Nat) : Byte := (Memory.read m a).getD (Config.staleByte a)

/-- `MemRead(ctx.buf, 0, n)` (00_scope.md R10). -/
def bufBytesTo (m : Memory) (n : Nat) : Bytes := (List.range n).map (bufByte m)

/-! ## Outcomes -/

/-- The operation ends with this outcome; nothing else changes. -/
def withReply (s : State) (r : Reply) : State := { s with reply := r }

/-- `Ok(v)` (00_scope.md R11). -/
def replyOk (s : State) (v : OkValue) : State := withReply s (.ok v)

/-- `Refused(reason)` (60_exceptions.md R152): changes no state but the outcome. -/
def refuse (s : State) (r : Reason) : State := withReply s (.refused r)

/-- `raise <Error>()` (00_scope.md R10; 60_exceptions.md R155): the outcome is the error, nothing
else is recorded, and the state changes made before stand. -/
def raiseError (s : State) (e : ErrorKind) : State := withReply s (.error e)

/-- Replaces `ctx`. -/
def setCtx (s : State) (c : Ctx) : State := { s with ctx := c }

/-- Replaces `arq`. -/
def setArq (s : State) (a : Arq) : State := { s with arq := a }

/-- Replaces `relay`. -/
def setRelay (s : State) (r : Relay) : State := { s with relay := r }

/-- Replaces the environment. -/
def setEnv (s : State) (e : Env) : State := { s with env := e }

/-- `lr[p].acc[0 .. lr[p].count)` (10_state.md R25). -/
def getAcc (s : State) (p : Port) : Bytes := s.lr.get p

/-- `lr[p].count` (10_state.md R25; log 12). -/
def lrCount (s : State) (p : Port) : Nat := (getAcc s p).length

/-- Replaces the bytes held for the frame being received on `p`. -/
def setAcc (s : State) (p : Port) (acc : Bytes) : State := { s with lr := s.lr.set p acc }

/-- RSM_RESET's effect (42_reassembler.md R89). -/
def resetCtx (s : State) : State := setCtx s (Ctx.idleWith s.cfg s.ctx.buf)

/-- What MalformedFrame does wherever it is raised outside the three pure operations
(60_exceptions.md R158, steps 2 and 3): the Reassembler is forced to Idle and the error is the
outcome. -/
def raiseMalformed (s : State) : State := raiseError (resetCtx s) .malformedFrame

/-! ## The environment's primitives -/

/-- `Now()` (00_scope.md R10): the clock moves by a scripted amount, or a free one, and is
read (log 9). -/
def now (s : State) : Nat × State :=
  match s.env.lapses with
  | d :: rest => (s.env.clock + d, setEnv s { s.env with clock := s.env.clock + d, lapses := rest })
  | [] =>
    let t := s.env.clock + Config.clockLapse s.env.free
    (t, setEnv s { s.env with clock := t, free := s.env.free + 1 })

/-- `RawReadByte(p, d)` (20_memory.md R35): the next event of the stream decides; a stream with
nothing left has no byte to give, so the call times out, overrunning by a free amount (log 8). -/
def rawReadByte (p : Port) (d : Nat) (s : State) : Option Byte × State :=
  match s.env.rx.get p with
  | .byte b ticks :: rest =>
    (some b, setEnv s { s.env with clock := s.env.clock + ticks, rx := s.env.rx.set p rest })
  | .silence extra :: rest =>
    (none, setEnv s { s.env with clock := s.env.clock + d + extra, rx := s.env.rx.set p rest })
  | [] =>
    (none, setEnv s { s.env with
      clock := s.env.clock + d + Config.readOverrun s.env.free, free := s.env.free + 1 })

/-- `RawWrite(p, s)` (20_memory.md R36): one physical write more on `tx[p]`. -/
def rawWrite (p : Port) (s : State) (u : Bytes) : State :=
  setEnv s { s.env with tx := s.env.tx.set p (s.env.tx.get p ++ [u]) }

/-- `draw16()` (00_scope.md R10, 41_fragmenter.md R83): a scripted draw, or a free one
(log 10). -/
def draw16 (s : State) : Tag × State :=
  match s.env.draws with
  | t :: rest => (t, setEnv s { s.env with draws := rest })
  | [] => (Config.freshTag s.env.free, setEnv s { s.env with free := s.env.free + 1 })

/-- The byte an event brings, if it brings one. -/
def eventByte : RxEvent → Option Byte
  | .byte b _ => some b
  | .silence _ => none

/-- The bytes of a stream, in the order in which it delivers them (20_memory.md R34, R49). -/
def streamBytes (evs : List RxEvent) : Bytes := evs.filterMap eventByte

/-- The events of bytes that are there already. That the reads that come to them return them,
and without moving the clock, is the model's choice (DESIGN CHOICE, log 29): 20_memory.md R35
leaves the answer and the clock to the environment. -/
def promptly (bs : Bytes) : List RxEvent := bs.map (RxEvent.byte · 0)

/-- Bytes of a physical write that the Link Reader did not take are the next bytes of `rx[p]`
(44_link_reader.md R118, R122; log 17), there to be read at once (DESIGN CHOICE, log 29). -/
def unread (p : Port) (bs : Bytes) (s : State) : State :=
  setEnv s { s.env with rx := s.env.rx.set p (promptly bs ++ s.env.rx.get p) }

/-- Bytes that arrive on `p` and are read by no one yet stand at the end of `rx[p]` (20_memory.md
R49, 45_arq_controller.md R144; log 17, 18), there to be read at once when their turn comes (DESIGN
CHOICE, log 29). -/
def arrive (p : Port) (bs : Bytes) (s : State) : State :=
  setEnv s { s.env with rx := s.env.rx.set p (s.env.rx.get p ++ promptly bs) }

/-! ## The Reassembler's actions -/

/-- `bind(S, T)` (42_reassembler.md R90). -/
def bindCtx (c : Cfg) (ctx : Ctx) (size : Nat) (tag : Tag) : Ctx :=
  { Ctx.idleWith c ctx.buf with
    tag := tag
    expectedSize := size
    fragCount := nfrag c size
    sizeTable := sizeTableOf c size ++ List.replicate (nmax c - nfrag c size) 0
    curIndex := 0
    idle := false }

/-- `accept(p, start, payload, n)` (42_reassembler.md R93). -/
def acceptCtx (ctx : Ctx) (p start : Nat) (payload : Bytes) (n : Nat) : Ctx :=
  { ctx with
    buf := Memory.writeRange ctx.buf start payload
    received := ctx.received.set p true
    filled := ctx.filled + payload.length
    curIndex := if ctx.sizeTable[ctx.curIndex]? = some n then ctx.curIndex + 1 else ctx.curIndex }

end Sys2Proof.Machine
end

