-- ==== Sys2Proof/Machine/Fragmenter.lean ====
section
/-! DEFINITION. The Fragmenter: FRAG_COUNT and FRAGMENT (41_fragmenter.md R81, R84). It has no
state (R80). -/

namespace Sys2Proof.Machine

/-- A datagram length outside 1..MAX_DATAGRAM_SIZE (41_fragmenter.md R87). -/
def badLength (c : Cfg) (l : Nat) : Bool := l < 1 || c.maxDatagram < l

/-- The number of frames of a datagram of `l` bytes (41_fragmenter.md R81). -/
def frameCount (c : Cfg) (l : Nat) : Nat := if l ≤ c.nonfragCap then 1 else nfrag c l

/-- The header of the frame at position `p` of a fragmented datagram of `size` bytes with tag `t`
(41_fragmenter.md R84). -/
def fragHeader (c : Cfg) (size : Nat) (t : Tag) (p : Nat) : Header :=
  if p = 0 then .first (BitVec.ofNat 13 size) t
  else .other (BitVec.ofNat 13 size) t (BitVec.ofNat 8 (sliceStart c p / 8))

/-- The frame at position `p` of a fragmented datagram: header and slice (41_fragmenter.md R82,
R84). -/
def fragFrame (c : Cfg) (d : Bytes) (t : Tag) (p : Nat) : Bytes :=
  headerBytes (fragHeader c d.length t p) ++
    (d.drop (sliceStart c p)).take (sliceLen c d.length p)

/-- The frames of FRAGMENT for a datagram of legal length (41_fragmenter.md R84): one
non-fragmented frame up to NF bytes (R85), else the fragments in order. -/
def fragmentFrames (c : Cfg) (d : Bytes) (t : Tag) : List Bytes :=
  if d.length ≤ c.nonfragCap then [BitVec.ofNat 8 (d.length + 1) :: d]
  else (List.range (nfrag c d.length)).map (fragFrame c d t)

/-- FRAG_COUNT (41_fragmenter.md R81). -/
def execFragCount (l : Nat) (s : State) : Host.Outcome State Fault Refusal :=
  .next (if badLength s.cfg l then refuse s .lengthRange else replyOk s (.num (frameCount s.cfg l)))

/-- FRAGMENT (41_fragmenter.md R84). -/
def execFragment (d : Bytes) (t : Tag) (slots : Nat) (s : State) :
    Host.Outcome State Fault Refusal :=
  .next (
    if badLength s.cfg d.length then refuse s .lengthRange
    else if slots < frameCount s.cfg d.length then refuse s .bufferTooSmall
    else replyOk s (.units (fragmentFrames s.cfg d t)))

end Sys2Proof.Machine
end

