-- ==== Sys2Proof/Machine/Flags.lean ====
section
/-! DEFINITION. The flag and the predicates of the block (10_state.md R21, R24): there are no
condition codes; Complete is computed, not stored. -/

namespace Sys2Proof.Machine

/-- Completion: `ctx.idle = 0` and `ctx.filled = ctx.expected_size` (10_state.md R24). -/
def isComplete (ctx : Ctx) : Bool := !ctx.idle && ctx.filled = ctx.expectedSize

/-- A deadline has elapsed at a moment when `Now() ≥ d` (44_link_reader.md R113). -/
def elapsed (t deadline : Nat) : Bool := deadline ≤ t

/-- `arq.state` is one in which a datagram is being sent (45_arq_controller.md R130). -/
def isSending (a : ArqState) : Bool := a = .awaitingAck || a = .retrying

end Sys2Proof.Machine
end

