-- ==== Sys2Proof/Machine/Reassembler.lean ====
section
/-! DEFINITION. The Reassembler: RSM_RESET, RSM_INGEST, RSM_COMPLETE, RSM_EXTRACT
(42_reassembler.md R89, R94, R100, R101). -/

namespace Sys2Proof.Machine

/-- The verdicts of `rsm_verdict` (42_reassembler.md R92). -/
inductive Verdict where
  | malformed
  | bypass
  | start
  | restart
  | duplicate
  | new
  deriving DecidableEq, Repr

/-- `rsm_verdict(buf, n)` (42_reassembler.md R92), the checks in the order written there. -/
def rsmVerdict (c : Cfg) (ctx : Ctx) (buf : Bytes) : Verdict :=
  match formatHeader c buf with
  | none => .malformed
  | some (.nonFrag _) => .bypass
  | some (.first size tag) =>
    if ctx.idle then .start
    else if tag ≠ ctx.tag then .restart
    else if size.toNat ≠ ctx.expectedSize then .malformed
    else .duplicate
  | some (.other size tag off8) =>
    if ctx.idle then .malformed
    else if tag ≠ ctx.tag then .malformed
    else if size.toNat ≠ ctx.expectedSize then .malformed
    else if ctx.received[hdrPos c off8]? = some true then .duplicate
    else .new

/-- What RSM_INGEST makes of `ctx` (42_reassembler.md R94): reset on a malformed frame (R98),
bind and accept at position 0 on a first fragment that starts or restarts (R95, R97), accept at
the decoded offset on a new other fragment (R96), nothing on a duplicate or a non-fragmented
frame (R99, R102). -/
def ingestCtx (c : Cfg) (ctx : Ctx) (buf : Bytes) : Ctx :=
  match rsmVerdict c ctx buf, formatHeader c buf with
  | .malformed, _ => Ctx.idleWith c ctx.buf
  | .start, some (.first size tag) =>
    acceptCtx (bindCtx c ctx size.toNat tag) 0 0 (buf.drop 4) buf.length
  | .restart, some (.first size tag) =>
    acceptCtx (bindCtx c ctx size.toNat tag) 0 0 (buf.drop 4) buf.length
  | .new, some (.other _ _ off8) =>
    acceptCtx ctx (hdrPos c off8) (hdrOffset off8) (buf.drop 5) buf.length
  | _, _ => ctx

/-- The outcome of RSM_INGEST (42_reassembler.md R94). -/
def ingestReply : Verdict → Reply
  | .malformed => .error .malformedFrame
  | .bypass => .ok (.ingested .bypass)
  | .duplicate => .ok (.ingested .duplicate)
  | .start => .ok (.ingested .started)
  | .restart => .ok (.ingested .restarted)
  | .new => .ok (.ingested .accepted)

/-- RSM_INGEST on a whole frame (42_reassembler.md R94). -/
def ingest (buf : Bytes) (s : State) : State :=
  withReply (setCtx s (ingestCtx s.cfg s.ctx buf)) (ingestReply (rsmVerdict s.cfg s.ctx buf))

/-- The bytes RSM_EXTRACT copies out: `ctx.buf[0 .. ctx.filled)` of a Complete context, none of
another (42_reassembler.md R101). -/
def extracted (ctx : Ctx) : Bytes := if isComplete ctx then bufBytesTo ctx.buf ctx.filled else []

/-- RSM_RESET (42_reassembler.md R89). -/
def execRsmReset (s : State) : Host.Outcome State Fault Refusal :=
  .next (replyOk (resetCtx s) .unit)

/-- RSM_INGEST (42_reassembler.md R94). -/
def execRsmIngest (buf : Bytes) (s : State) : Host.Outcome State Fault Refusal :=
  .next (ingest buf s)

/-- RSM_COMPLETE (42_reassembler.md R100). -/
def execRsmComplete (s : State) : Host.Outcome State Fault Refusal :=
  .next (replyOk s (.bool (isComplete s.ctx)))

/-- RSM_EXTRACT (42_reassembler.md R101). -/
def execRsmExtract (cap : Nat) (s : State) : Host.Outcome State Fault Refusal :=
  .next (
    if isComplete s.ctx && cap < s.ctx.filled then refuse s .bufferTooSmall
    else replyOk s (.datagram (extracted s.ctx)))

end Sys2Proof.Machine
end

