-- ==== Sys2Proof/Machine/LinkReader.lean ====
section
/-! DEFINITION. The Link Reader: LR_RECV_FRAME and LR_DELIVER (44_link_reader.md R116, R119), and
the two transport-chunk rows, whose bytes it takes one by one (R111, R112; log 17). -/

namespace Sys2Proof.Machine

/-- A raw sequence is marked iff its first byte is 0x01 (44_link_reader.md R111). -/
def isMarked (acc : Bytes) : Bool := acc.head? = some 0x01#8

/-- `lr_logical(acc)`: the frame bytes inside the raw bytes (44_link_reader.md R111). -/
def lrLogical (w : Nat) (acc : Bytes) : Bytes :=
  if isMarked acc then (acc.take (w + 1)).drop 1 ++ acc.drop (w + 2) else acc

/-- The results of `lr_need` (44_link_reader.md R112). -/
inductive Need where
  | need (k : Nat)
  | done
  | bad
  deriving DecidableEq, Repr

/-- `lr_need(acc)` once the whole header `h` is there (44_link_reader.md R112, from
`header_valid` on). -/
def lrNeedBody (c : Cfg) (acc : Bytes) (h : Header) : Need :=
  let m := isMarked acc
  let len := hdrFrameLength c h
  let total := if m then len + 2 else len
  if !headerValid c h then .bad
  else if m && len ≤ c.writeLimit then .bad
  else if !m && c.writeLimit < len then .bad
  else if m && c.writeLimit + 2 ≤ acc.length && acc[c.writeLimit + 1]? ≠ some 0x02#8 then .bad
  else if acc.length < total then .need total
  else .done

/-- `lr_need(acc)` (44_link_reader.md R112). -/
def lrNeed (c : Cfg) (acc : Bytes) : Need :=
  let m := isMarked acc
  if acc.length = 0 then .need 1
  else if m && acc.length = 1 then .need 2
  else
    let lg := lrLogical c.writeLimit acc
    let b0 := lg.headD 0
    let hraw := hdrLen (kindOf b0) + (if m then 1 else 0)
    if b0 = 0 then .bad
    else if acc.length < hraw then .need hraw
    else
      match unpackHeader lg with
      | none => .bad
      | some h => lrNeedBody c acc h

/-- What a receive attempt ends in (44_link_reader.md R123). -/
inductive Recv where
  | nothing
  | frame (f : Bytes)
  | timeout
  | malformed
  deriving DecidableEq, Repr

/-- The `Bad` and `Done` cases of LR_RECV_FRAME's loop (44_link_reader.md R116, R117): the framing
state is cleared, and on `Bad` the Reassembler is forced to Idle. `none` while more bytes are
needed. -/
def lrSettle (p : Port) (s : State) : Option (Recv × State) :=
  match lrNeed s.cfg (getAcc s p) with
  | .bad => some (.malformed, resetCtx (setAcc s p []))
  | .done => some (.frame (lrLogical s.cfg.writeLimit (getAcc s p)), setAcc s p [])
  | .need _ => none

/-- Step 2 of LR_RECV_FRAME (44_link_reader.md R116): the loop under the frame deadline. `fuel`
bounds its rounds; with `lrFuel` of them it never runs out under a legal configuration (R120;
log 20). -/
def lrLoop (p : Port) (deadline : Nat) : Nat → State → Recv × State
  | 0, s => (.timeout, setAcc s p [])
  | fuel + 1, s =>
    match lrSettle p s with
    | some r => r
    | none =>
      let t := now s
      if elapsed t.1 deadline then (.timeout, setAcc t.2 p [])
      else
        let r := rawReadByte p (min s.cfg.tByte (deadline - t.1)) t.2
        match r.1 with
        | some b => lrLoop p deadline fuel (setAcc r.2 p (getAcc r.2 p ++ [b]))
        | none => lrLoop p deadline fuel r.2

/-- Rounds enough for `lrLoop`: MAX_FRAME_SIZE + 2 bytes, T_FRAME silent reads, and the last
(44_link_reader.md R120). -/
def lrFuel (c : Cfg) : Nat := c.maxFrame + c.tFrame + 3

/-- LR_RECV_FRAME as its callers see it (44_link_reader.md R116). -/
def lrRecvFrame (p : Port) (s : State) : Recv × State :=
  let r := rawReadByte p s.cfg.tByte (setAcc s p [])
  match r.1 with
  | none => (.nothing, r.2)
  | some b =>
    let t := now (setAcc r.2 p [b])
    lrLoop p (t.1 + s.cfg.tFrame) (lrFuel s.cfg) t.2

/-- The outcome of a receive attempt (44_link_reader.md R123). -/
def recvReply : Recv → Reply
  | .nothing => .ok .nothing
  | .frame f => .ok (.frame f)
  | .timeout => .error .timeout
  | .malformed => .error .malformedFrame

/-- The Link Reader takes the bytes of one physical unit, `lr_need` evaluated after every byte
(44_link_reader.md R112, R121; 43_transport_framer.md R109). It ends with the frame they complete,
or with MalformedFrame, leaving the bytes after it unread (R117, R118), or with the bytes held for
the next unit (log 17). -/
def lrFeed (p : Port) : Bytes → State → Recv × State
  | [], s => (.nothing, s)
  | b :: rest, s =>
    let s1 := setAcc s p (getAcc s p ++ [b])
    match lrSettle p s1 with
    | some r => (r.1, unread p rest r.2)
    | none => lrFeed p rest s1

/-- A physical unit received on `p` (log 17). The stream keeps its order (20_memory.md R49): behind
bytes that are still unread it waits in `rx[p]`, and nothing is received yet; with none before it,
the Link Reader takes it. -/
def unitReceived (p : Port) (u : Bytes) (s : State) : Recv × State :=
  if streamBytes (s.env.rx.get p) = [] then lrFeed p u s else (.nothing, arrive p u s)

/-- The datagram size a frame's header declares (44_link_reader.md R119). -/
def declaredSize (f : Bytes) : Nat :=
  match unpackHeader f with
  | some (.first size _) => size.toNat
  | some (.other size _ _) => size.toNat
  | _ => 0

/-- What LR_DELIVER ends in (44_link_reader.md R119). -/
inductive Delivery where
  | malformed
  | tooSmall
  | datagram (out : Bytes)
  deriving DecidableEq, Repr

/-- LR_DELIVER as its callers see it (44_link_reader.md R119): a non-fragmented frame is a whole
datagram; a duplicate delivers nothing; any other frame goes to the Reassembler, and a datagram it
completes is extracted. -/
def deliver (f : Bytes) (cap : Nat) (s : State) : Delivery × State :=
  match rsmVerdict s.cfg s.ctx f with
  | .malformed => (.malformed, resetCtx s)
  | .bypass => if cap < f.length - 1 then (.tooSmall, s) else (.datagram (f.drop 1), s)
  | .duplicate => (.datagram [], s)
  | _ =>
    if cap < declaredSize f then (.tooSmall, s)
    else
      let s1 := setCtx s (ingestCtx s.cfg s.ctx f)
      (.datagram (extracted s1.ctx), s1)

/-- The outcome of LR_DELIVER (44_link_reader.md R119). -/
def deliveryReply : Delivery → Reply
  | .malformed => .error .malformedFrame
  | .tooSmall => .refused .bufferTooSmall
  | .datagram out => .ok (.datagram out)

/-- The capacity in which any deliverable datagram fits (45_arq_controller.md R137). -/
def fullCap (c : Cfg) : Nat := max c.maxDatagram (c.maxFrame - 1)

/-- LR_RECV_FRAME (44_link_reader.md R116). -/
def execLrRecvFrame (p : Port) (s : State) : Host.Outcome State Fault Refusal :=
  let r := lrRecvFrame p s
  .next (withReply r.2 (recvReply r.1))

/-- LR_DELIVER (44_link_reader.md R119). -/
def execLrDeliver (f : Bytes) (cap : Nat) (s : State) : Host.Outcome State Fault Refusal :=
  let r := deliver f cap s
  .next (withReply r.2 (deliveryReply r.1))

/-- CHUNK1: a physical unit that starts with marker 1 (30_encoding.md R62; log 17). -/
def execChunk1 (p : Port) (data : Bytes) (s : State) : Host.Outcome State Fault Refusal :=
  let r := unitReceived p (0x01#8 :: data) s
  .next (withReply r.2 (recvReply r.1))

/-- CHUNK2: a physical unit that starts with marker 2 (30_encoding.md R62; log 17). -/
def execChunk2 (p : Port) (data : Bytes) (s : State) : Host.Outcome State Fault Refusal :=
  let r := unitReceived p (0x02#8 :: data) s
  .next (withReply r.2 (recvReply r.1))

end Sys2Proof.Machine
end

