-- ==== Sys2Proof/Machine/TransportFramer.lean ====
section
/-! DEFINITION. The Transport Framer: TF_SPLIT and TF_JOIN (43_transport_framer.md R105, R107),
and `send_frame` and `send_ack` over it (45_arq_controller.md R125, R126). -/

namespace Sys2Proof.Machine

/-- The physical writes of a frame under write limit `w` (43_transport_framer.md R105); `none` is
`Refused(LengthRange)`. -/
def tfSplit (w : Nat) (f : Bytes) : Option (List Bytes) :=
  if f.length < 1 ∨ 2 * w < f.length then none
  else if f.length ≤ w then some [f]
  else some [0x01#8 :: f.take w, 0x02#8 :: f.drop w]

/-- The frame of two physical units (43_transport_framer.md R107); `none` is MalformedFrame. -/
def tfJoin (w : Nat) (u1 u2 : Bytes) : Option Bytes :=
  if u1.length ≠ w + 1 ∨ u1.head? ≠ some 0x01#8 then none
  else if u2.length < 2 ∨ w + 1 < u2.length ∨ u2.head? ≠ some 0x02#8 then none
  else some (u1.drop 1 ++ u2.drop 1)

/-- `send_frame(p, f, n)` (45_arq_controller.md R125): the writes of TF_SPLIT, back to back. -/
def sendFrame (p : Port) (f : Bytes) (s : State) : State :=
  ((tfSplit s.cfg.writeLimit f).getD []).foldl (rawWrite p) s

/-- `send_ack(p)` (45_arq_controller.md R126): the acknowledgement frame of this instance's own
role. -/
def sendAck (p : Port) (s : State) : State := sendFrame p (ackFrame s.cfg s.cfg.role) s

/-- TF_SPLIT (43_transport_framer.md R105). -/
def execTfSplit (frame : Bytes) (s : State) : Host.Outcome State Fault Refusal :=
  .next (match tfSplit s.cfg.writeLimit frame with
    | some us => replyOk s (.units us)
    | none => refuse s .lengthRange)

/-- TF_JOIN (43_transport_framer.md R107). -/
def execTfJoin (u1 u2 : Bytes) (s : State) : Host.Outcome State Fault Refusal :=
  .next (match tfJoin s.cfg.writeLimit u1 u2 with
    | some f => replyOk s (.bytes f)
    | none => raiseError s .malformedFrame)

end Sys2Proof.Machine
end

