-- ==== Sys2Proof/Machine/ArqController.lean ====
section
/-! DEFINITION. The ARQ Controller: sender (45_arq_controller.md R130, R131), receiver (R137) and
relay (R142). -/

namespace Sys2Proof.Machine

/-! ## Sender -/

/-- The frame in slot `i` of `arq.frames` (10_state.md R31); empty where no slot is filled
(DESIGN CHOICE, log 30). -/
def frameAt (a : Arq) (i : Nat) : Bytes := a.frames.getD i []

/-- A datagram of one frame that equals an acknowledgement token (45_arq_controller.md R130,
70_reset_and_hazards.md R172). -/
def isTokenPayload (c : Cfg) (d : Bytes) : Bool :=
  d.length ≤ c.nonfragCap && (d = c.tokenClient || d = c.tokenRelay || d = c.tokenServer)

/-- `arq.deadline <- Now() + CFG.T_ACK` and `arq.state <- AwaitingAck` (45_arq_controller.md
R130, R131). -/
def awaitAck (s : State) : State :=
  let t := now s
  setArq t.2 { t.2.arq with deadline := t.1 + s.cfg.tAck, state := .awaitingAck }

/-- ARQ_SEND_START on a datagram it does not refuse (45_arq_controller.md R130). -/
def startSend (p : Port) (d : Bytes) (s : State) : State :=
  let t := draw16 s
  let frames := fragmentFrames s.cfg d t.1
  let s1 := setArq t.2
    { t.2.arq with frames := frames, nframes := frames.length, idx := 0, retries := 0 }
  replyOk (awaitAck (sendFrame p (frameAt s1.arq 0) s1)) (.num frames.length)

/-- The `AwaitingAck` arm of ARQ_SEND_POLL after its receive attempt; `matched` says whether that
brought the matching acknowledgement (45_arq_controller.md R131, R132). -/
def pollAfterRead (p : Port) (matched : Bool) (s : State) : State :=
  if matched then
    let a := { s.arq with retries := 0, idx := s.arq.idx + 1 }
    if a.idx = a.nframes then replyOk (setArq s { a with state := .done }) (.arqState .done)
    else replyOk (awaitAck (sendFrame p (frameAt a a.idx) (setArq s a))) (.arqState .awaitingAck)
  else
    let t := now s
    if elapsed t.1 s.arq.deadline then
      if s.arq.retries < s.cfg.maxRetry then
        replyOk (setArq t.2 { t.2.arq with state := .retrying }) (.arqState .retrying)
      else raiseError (setArq t.2 { t.2.arq with state := .failed }) .retriesExhausted
    else replyOk t.2 (.arqState .awaitingAck)

/-- A receive attempt brought the acknowledgement frame of `CFG.PEER_ROLE` (45_arq_controller.md
R127); an error of the attempt counts as `Nothing`. -/
def recvMatches (c : Cfg) : Recv → Bool
  | .frame f => isAckOf c f c.peerRole
  | _ => false

/-- The `Retrying` arm of ARQ_SEND_POLL (45_arq_controller.md R131, R133). -/
def retransmit (p : Port) (s : State) : State :=
  let s1 := setArq s { s.arq with retries := s.arq.retries + 1 }
  replyOk (awaitAck (sendFrame p (frameAt s1.arq s1.arq.idx) s1)) (.arqState .awaitingAck)

/-- ARQ_SEND_START (45_arq_controller.md R130). -/
def execArqSendStart (p : Port) (d : Bytes) (s : State) : Host.Outcome State Fault Refusal :=
  .next (
    if isSending s.arq.state then refuse s .busy
    else if badLength s.cfg d.length then refuse s .lengthRange
    else if isTokenPayload s.cfg d then refuse s .payloadIsAckToken
    else startSend p d s)

/-- ARQ_SEND_POLL (45_arq_controller.md R131). -/
def execArqSendPoll (p : Port) (s : State) : Host.Outcome State Fault Refusal :=
  .next (match s.arq.state with
    | .idle => replyOk s (.arqState .idle)
    | .done => replyOk s (.arqState .done)
    | .failed => replyOk s (.arqState .failed)
    | .retrying => retransmit p s
    | .awaitingAck =>
      let r := lrRecvFrame p s
      pollAfterRead p (recvMatches s.cfg r.1) r.2)

/-! ## Receiver -/

/-- A received data frame in ARQ_RECV_DATAGRAM (45_arq_controller.md R137, R138, R139): a
malformed one resets the context and is not acknowledged; any other is acknowledged, then
delivered, and after a reassembled datagram the context is reset. `some` is the datagram with
which the operation ends. -/
def recvData (p : Port) (f : Bytes) (cap : Nat) (s : State) : Option Bytes × State :=
  let v := rsmVerdict s.cfg s.ctx f
  if v = .malformed then (none, resetCtx s)
  else
    let r := deliver f cap (sendAck p s)
    match r.1 with
    | .datagram [] => (none, r.2)
    | .datagram out => (some out, if v = .bypass then r.2 else resetCtx r.2)
    | _ => (none, r.2)

/-- The datagram Timeout (45_arq_controller.md R137, R139): the context is Idle and no bytes are held
for the port, which a CHUNK1 request may have left there (60_exceptions.md R147). -/
def recvTimeout (p : Port) (s : State) : State := raiseError (resetCtx (setAcc s p [])) .timeout

/-- The loop of ARQ_RECV_DATAGRAM (45_arq_controller.md R137). `fuel` bounds its rounds; with
`recvFuel` of them it never runs out under a legal configuration (log 20). -/
def recvLoop (p : Port) (cap deadline : Nat) : Nat → State → State
  | 0, s => recvTimeout p s
  | fuel + 1, s =>
    let t := now s
    if elapsed t.1 deadline then recvTimeout p t.2
    else
      let r := lrRecvFrame p t.2
      match r.1 with
      | .frame f =>
        if isAck s.cfg f then recvLoop p cap deadline fuel r.2
        else
          let d := recvData p f cap r.2
          match d.1 with
          | some out => replyOk d.2 (.datagram out)
          | none => recvLoop p cap deadline fuel d.2
      | _ => recvLoop p cap deadline fuel r.2

/-- Rounds enough for `recvLoop`: each takes something of `rx[p]` or, once that is empty, at least
one tick (log 20). -/
def recvFuel (p : Port) (s : State) : Nat := (s.env.rx.get p).length + s.cfg.tDgram + 2

/-- ARQ_RECV_DATAGRAM (45_arq_controller.md R137). -/
def execArqRecvDatagram (p : Port) (cap : Nat) (s : State) : Host.Outcome State Fault Refusal :=
  .next (
    if cap < fullCap s.cfg then refuse s .bufferTooSmall
    else
      let t := now s
      recvLoop p cap (t.1 + s.cfg.tDgram) (recvFuel p s) t.2)

/-! ## Relay -/

/-- Intake from upstream (45_arq_controller.md R142, R143): a data frame is queued if there is
room, and then acknowledged with the relay's token. -/
def relayTake (r : Recv) (s : State) : State :=
  match r with
  | .frame f =>
    if !isAck s.cfg f && s.relay.queue.length < s.cfg.relayQueueCap then
      sendFrame .up (ackFrame s.cfg .relay)
        (setRelay s { s.relay with queue := s.relay.queue ++ [f] })
    else s
  | _ => s

/-- The head of the queue leaves it (45_arq_controller.md R144, R145). -/
def relayPop (s : State) : State :=
  setRelay s { s.relay with queue := s.relay.queue.tail, retries := 0, inFlight := false }

/-- The head of the queue is written to `DOWN` and a new deadline starts (45_arq_controller.md
R142). -/
def relaySend (s : State) : State :=
  let t := now (sendFrame .down (s.relay.queue.headD []) s)
  setRelay t.2 { t.2.relay with deadline := t.1 + s.cfg.tAck }

/-- A frame is in flight and the receive attempt on `DOWN` is over; `matched` says whether it
brought the matching acknowledgement (45_arq_controller.md R142, R144, R145). -/
def relayAfterRead (matched : Bool) (s : State) : State :=
  if matched then relayPop s
  else
    let t := now s
    if elapsed t.1 s.relay.deadline then
      if s.relay.retries < s.cfg.maxRetry then
        relaySend (setRelay t.2 { t.2.relay with retries := t.2.relay.retries + 1 })
      else relayPop t.2
    else t.2

/-- Forwarding to the next hop (45_arq_controller.md R142). -/
def relayForward (s : State) : State :=
  if s.relay.inFlight then
    let r := lrRecvFrame .down s
    relayAfterRead (recvMatches s.cfg r.1) r.2
  else if s.relay.queue = [] then s
  else relaySend (setRelay s { s.relay with inFlight := true })

/-- RELAY_POLL (45_arq_controller.md R142). -/
def execRelayPoll (s : State) : Host.Outcome State Fault Refusal :=
  .next (
    if s.cfg.role ≠ .relay then refuse s .wrongRole
    else
      let r := lrRecvFrame .up s
      let s2 := relayForward (relayTake r.1 r.2)
      replyOk s2 (.num s2.relay.queue.length))

end Sys2Proof.Machine
end

