-- ==== Sys2Proof/Machine/Frames.lean ====
section
/-! DEFINITION. The frame rows of the opcode table: what the receiving side does with a whole
frame handed to it. A non-fragmented frame is delivered (42_reassembler.md R102, 44_link_reader.md
R119; log 15); a fragment is ingested (42_reassembler.md R94 to R99; log 16); an acknowledgement
frame goes to whoever waits for one (45_arq_controller.md R127, R131, R142), and where no one does
it waits itself, on the stream (R144; log 18). -/

namespace Sys2Proof.Machine

/-- LR_DELIVER of a frame into a buffer in which any deliverable datagram fits. -/
def deliverWhole (f : Bytes) (s : State) : State :=
  let r := deliver f (fullCap s.cfg) s
  withReply r.2 (deliveryReply r.1)

/-- A frame that comes while no operation waits for it, or behind bytes that are still unread
(20_memory.md R49), is read by no one yet: the bytes of its
physical writes wait at the end of `rx[p]` for the operation that reads that port next
(45_arq_controller.md R144; 70_reset_and_hazards.md R179; log 18). -/
def frameArrives (p : Port) (f : Bytes) (s : State) : State :=
  arrive p ((tfSplit s.cfg.writeLimit f).getD []).flatten s

/-- The acknowledgement frame of role `r`, received on port `p` (log 18). A relay with a frame in
flight takes it from `DOWN` as RELAY_POLL does; a sender in AwaitingAck takes it as ARQ_SEND_POLL
does (45_arq_controller.md R131, R132, R142): the receive attempt that brings it starts afresh and
ends with no bytes held for the port (44_link_reader.md R116). That this attempt takes 0 ticks, with
no RawReadByte and no Now(), is the model's choice (DESIGN CHOICE, log 18): 20_memory.md R35 leaves
it to the environment. Where no one waits, or unread bytes stand before it, it stands in `rx[p]`
until an operation reads it (R144; 20_memory.md R49). -/
def ackReceived (r : Role) (p : Port) (s : State) : State :=
  let f := ackFrame s.cfg r
  let m := isAckOf s.cfg f s.cfg.peerRole
  let next := streamBytes (s.env.rx.get p) = []
  if s.cfg.role = .relay then
    let s1 :=
      if p = .down ∧ s.relay.inFlight ∧ next then relayAfterRead m (setAcc s p [])
      else frameArrives p f s
    replyOk s1 (.num s1.relay.queue.length)
  else if s.arq.state = .awaitingAck ∧ next then pollAfterRead p m (setAcc s p [])
  else replyOk (frameArrives p f s) (.arqState s.arq.state)

/-- NONFRAG_LO (30_encoding.md R52, R53). -/
def execNonfragLo (len : BitVec 7) (payload : Bytes) (s : State) :
    Host.Outcome State Fault Refusal :=
  .next (deliverWhole ((0b0#1 ++ len) :: payload) s)

/-- NONFRAG_HI (30_encoding.md R52, R53). -/
def execNonfragHi (len : BitVec 6) (payload : Bytes) (s : State) :
    Host.Outcome State Fault Refusal :=
  .next (deliverWhole ((0b10#2 ++ len) :: payload) s)

/-- FRAG1 (30_encoding.md R54; 42_reassembler.md R95, R97). -/
def execFrag1 (size : BitVec 13) (tag : Tag) (payload : Bytes) (s : State) :
    Host.Outcome State Fault Refusal :=
  .next (ingest (headerBytes (.first size tag) ++ payload) s)

/-- FRAGN (30_encoding.md R55; 42_reassembler.md R96, R98, R99). -/
def execFragn (size : BitVec 13) (tag : Tag) (off8 : BitVec 8) (payload : Bytes) (s : State) :
    Host.Outcome State Fault Refusal :=
  .next (ingest (headerBytes (.other size tag off8) ++ payload) s)

/-- ACK_CLIENT (30_encoding.md R63, R64). -/
def execAckClient (p : Port) (s : State) : Host.Outcome State Fault Refusal :=
  .next (ackReceived .client p s)

/-- ACK_RELAY (30_encoding.md R63, R64). -/
def execAckRelay (p : Port) (s : State) : Host.Outcome State Fault Refusal :=
  .next (ackReceived .relay p s)

/-- ACK_SERVER (30_encoding.md R63, R64). -/
def execAckServer (p : Port) (s : State) : Host.Outcome State Fault Refusal :=
  .next (ackReceived .server p s)

end Sys2Proof.Machine
end

