-- ==== Sys2Proof/Machine/HeaderCodec.lean ====
section
/-! DEFINITION. The Header Codec: HDR_PACK, HDR_UNPACK, HDR_FRAME_LEN (40_header_codec.md R72,
R74, R76), and the four kind-selector rows, which are HDR_PACK under a fixed kind (R72, R73; log
19). None reads or writes any state but the outcome (R70). -/

namespace Sys2Proof.Machine

/-- The bytes written to an output buffer of `cap` bytes, or `Refused(BufferTooSmall)`
(60_exceptions.md R152). -/
def putBytes (cap : Nat) (bs : Bytes) : Reply :=
  if cap < bs.length then .refused .bufferTooSmall else .ok (.bytes bs)

/-- The outcome of HDR_PACK (40_header_codec.md R72), its checks in the order of the rule's
pseudocode and of its list of exceptions. -/
def packReply (k : BitVec 2) (a : Nat) (tag : Tag) (offset cap : Nat) : Reply :=
  if k = 3#2 then .error .unknownFragmentKind
  else if k = 0#2 then
    if a < 1 ∨ 191 < a then .refused .fieldRange
    else putBytes cap (headerBytes (.nonFrag (BitVec.ofNat 8 a)))
  else if 8191 < a then .refused .fieldRange
  else if k = 1#2 then putBytes cap (headerBytes (.first (BitVec.ofNat 13 a) tag))
  else if 2047 < offset then .refused .fieldRange
  else putBytes cap (headerBytes (.other (BitVec.ofNat 13 a) tag (BitVec.ofNat 8 (offset / 8))))

/-- HDR_PACK (40_header_codec.md R72). -/
def execHdrPack (k : BitVec 2) (a : Nat) (tag : Tag) (offset cap : Nat) (s : State) :
    Host.Outcome State Fault Refusal :=
  .next (withReply s (packReply k a tag offset cap))

/-- HDR_UNPACK (40_header_codec.md R74). -/
def execHdrUnpack (buf : Bytes) (s : State) : Host.Outcome State Fault Refusal :=
  .next (match unpackHeader buf with
    | some h => replyOk s (.header h)
    | none => raiseError s .malformedFrame)

/-- HDR_FRAME_LEN (40_header_codec.md R76). -/
def execHdrFrameLen (h : Header) (s : State) : Host.Outcome State Fault Refusal :=
  .next (match frameLen s.cfg h with
    | some n => replyOk s (.num n)
    | none => raiseError s .malformedFrame)

/-- KIND_NONFRAG: HDR_PACK with kind selector 0 (40_header_codec.md R72). -/
def execKindNonfrag (a : Nat) (tag : Tag) (offset cap : Nat) (s : State) :
    Host.Outcome State Fault Refusal :=
  .next (withReply s (packReply 0#2 a tag offset cap))

/-- KIND_FIRST: HDR_PACK with kind selector 1 (40_header_codec.md R72). -/
def execKindFirst (a : Nat) (tag : Tag) (offset cap : Nat) (s : State) :
    Host.Outcome State Fault Refusal :=
  .next (withReply s (packReply 1#2 a tag offset cap))

/-- KIND_OTHER: HDR_PACK with kind selector 2 (40_header_codec.md R72). -/
def execKindOther (a : Nat) (tag : Tag) (offset cap : Nat) (s : State) :
    Host.Outcome State Fault Refusal :=
  .next (withReply s (packReply 2#2 a tag offset cap))

/-- KIND_UNRECOGNISED: HDR_PACK with kind selector 3, the error UnknownFragmentKind
(40_header_codec.md R73). -/
def execKindUnrecognised (a : Nat) (tag : Tag) (offset cap : Nat) (s : State) :
    Host.Outcome State Fault Refusal :=
  .next (withReply s (packReply 3#2 a tag offset cap))

end Sys2Proof.Machine
end

