-- ==== Sys2Proof/Machine/Init.lean ====
section
/-! DEFINITION. The block reset LFB_INIT (70_reset_and_hazards.md R166). -/

namespace Sys2Proof.Machine

/-- LFB_INIT (70_reset_and_hazards.md R166): every piece of LFB state at its reset value;
`ctx.buf` and `arq.frames` keep their bytes, and CFG, the streams and the clock are not
touched. -/
def execLfbInit (s : State) : Host.Outcome State Fault Refusal :=
  let s1 := resetCtx s
  .next (replyOk
    { s1 with
      lr := ⟨[], [], []⟩
      arq := { s1.arq with state := .idle, retries := 0, deadline := 0, nframes := 0, idx := 0 }
      relay := ⟨[], false, 0, 0⟩ } .unit)

end Sys2Proof.Machine
end

