-- ==== Sys2Proof/Machine/Dispatch.lean ====
section
/-! DEFINITION. What each instruction means: one arm per constructor of `Instr`. -/

namespace Sys2Proof.Machine

/-- The meaning of an instruction. -/
def exec (i : Instr) (s : State) : Host.Outcome State Fault Refusal :=
  match i with
  | .nonfragLo len payload => Sys2Proof.Machine.execNonfragLo len payload s
  | .nonfragHi len payload => Sys2Proof.Machine.execNonfragHi len payload s
  | .frag1 size tag payload => Sys2Proof.Machine.execFrag1 size tag payload s
  | .fragn size tag off8 payload => Sys2Proof.Machine.execFragn size tag off8 payload s
  | .chunk1 p data => Sys2Proof.Machine.execChunk1 p data s
  | .chunk2 p data => Sys2Proof.Machine.execChunk2 p data s
  | .ackClient p => Sys2Proof.Machine.execAckClient p s
  | .ackRelay p => Sys2Proof.Machine.execAckRelay p s
  | .ackServer p => Sys2Proof.Machine.execAckServer p s
  | .hdrPack k a tag offset cap => Sys2Proof.Machine.execHdrPack k a tag offset cap s
  | .hdrUnpack buf => Sys2Proof.Machine.execHdrUnpack buf s
  | .hdrFrameLen h => Sys2Proof.Machine.execHdrFrameLen h s
  | .fragCount l => Sys2Proof.Machine.execFragCount l s
  | .fragment d t slots => Sys2Proof.Machine.execFragment d t slots s
  | .rsmReset => Sys2Proof.Machine.execRsmReset s
  | .rsmIngest buf => Sys2Proof.Machine.execRsmIngest buf s
  | .rsmComplete => Sys2Proof.Machine.execRsmComplete s
  | .rsmExtract cap => Sys2Proof.Machine.execRsmExtract cap s
  | .tfSplit frame => Sys2Proof.Machine.execTfSplit frame s
  | .tfJoin u1 u2 => Sys2Proof.Machine.execTfJoin u1 u2 s
  | .lrRecvFrame p => Sys2Proof.Machine.execLrRecvFrame p s
  | .lrDeliver f cap => Sys2Proof.Machine.execLrDeliver f cap s
  | .arqSendStart p d => Sys2Proof.Machine.execArqSendStart p d s
  | .arqSendPoll p => Sys2Proof.Machine.execArqSendPoll p s
  | .arqRecvDatagram p cap => Sys2Proof.Machine.execArqRecvDatagram p cap s
  | .relayPoll => Sys2Proof.Machine.execRelayPoll s
  | .lfbInit => Sys2Proof.Machine.execLfbInit s
  | .kindNonfrag a tag offset cap => Sys2Proof.Machine.execKindNonfrag a tag offset cap s
  | .kindFirst a tag offset cap => Sys2Proof.Machine.execKindFirst a tag offset cap s
  | .kindOther a tag offset cap => Sys2Proof.Machine.execKindOther a tag offset cap s
  | .kindUnrecognised a tag offset cap => Sys2Proof.Machine.execKindUnrecognised a tag offset cap s

end Sys2Proof.Machine
end

