-- ==== Sys2Proof/Machine/Fetch.lean ====
section
/-! DEFINITION. Taking the next request and turning away one that decodes to no instruction. -/

namespace Sys2Proof.Machine

/-- The oldest request, decoded, and the state with it taken off the queue; `none` while the host
has issued nothing (00_scope.md R4; log 1). -/
def fetch (s : State) : Option (Decoded × State) :=
  match s.requests with
  | [] => none
  | r :: rest => some (decode s.cfg r, { s with requests := rest })

/-- What becomes of a request that decodes to no instruction: an unknown selector is
`Refused(UnknownOperation)` (30_encoding.md R65); an empty or truncated frame is MalformedFrame
with the context reset (30_encoding.md R61, 42_reassembler.md R98); a physical unit without a
marker likewise, with the port's framing state restarted (60_exceptions.md R148 (d), R158), at once
and ahead of any bytes unread in `rx[p]`, which it never enters (DESIGN CHOICE, log 25); bytes
that are no operands in the model's layout are refused by the model (log 3). -/
def turnAway (e : DecodeError) (s : State) : Host.Outcome State Fault Refusal :=
  match e with
  | .unknownOperation => .next (refuse s .unknownOperation)
  | .emptyFrame => .next (raiseMalformed s)
  | .truncatedHeader => .next (raiseMalformed s)
  | .noMarker p => .next (raiseMalformed (setAcc s p []))
  | .badOperands => .refused .badRequest

end Sys2Proof.Machine
end

