-- ==== Sys2Proof/Machine/Step.lean ====
section
/-! DEFINITION. One step of the machine: the next request, whole (00_scope.md R4). -/

namespace Sys2Proof.Machine

/-- One step: under an illegal configuration none is taken (00_scope.md R6); with nothing
requested the block waits for the host (R4; log 1); else the oldest request is taken off the queue
and executed to completion. -/
def step (s : State) : Host.Outcome State Fault Refusal :=
  if cfgLegal s.cfg then
    match fetch s with
    | none => .next s
    | some (.ok i, s1) => exec i s1
    | some (.bad e, s1) => turnAway e s1
  else .refused .illegalConfig

/-- The state in which the request of an opcode-table word is the one the next step takes. -/
def State.withFetchWord (s : State) (nbits w : Nat) : State :=
  { s with requests := [requestOfWord nbits w] }

end Sys2Proof.Machine
end

