-- ==== Sys2Proof/Safety.lean ====
section
/-! DEFINITION. The terms in which claims about the block are stated: the invariant of the state
(10_state.md R14 to R27), the outcomes an operation may end in (60_exceptions.md R154), the writes
of a sender, and the execution of a list of instructions. -/

namespace Sys2Proof.Machine

/-! ## The invariant -/

/-- The payload bytes of the accepted fragments, by the size table: the sum of 10_state.md R23
(I3). -/
def receivedBytes (x : Ctx) : Nat :=
  ((List.range x.received.length).map fun p =>
    if x.received[p]? = some true then x.sizeTable.getD p 0 - posHdrLen p else 0).sum

/-- What holds of a bound context (10_state.md R23, I2 to I5). -/
structure CtxBound (c : Cfg) (x : Ctx) : Prop where
  size : 1 ≤ x.expectedSize ∧ x.expectedSize ≤ c.maxDatagram
  fragCount : x.fragCount = nfrag c x.expectedSize
  sizeTable : x.sizeTable =
    sizeTableOf c x.expectedSize ++ List.replicate (nmax c - nfrag c x.expectedSize) 0
  first : x.received[0]? = some true
  beyond : ∀ p, x.fragCount ≤ p → x.received[p]? ≠ some true
  filled : x.filled = receivedBytes x
  curIndex : x.curIndex ≤ x.received.count true
  written : ∀ p, x.received[p]? = some true → ∀ i, i < sliceLen c x.expectedSize p →
    (Memory.read x.buf (sliceStart c p + i)).isSome = true

/-- What holds of every context: the canonical form of `ctx.buf` and its bounds (R14), the array
lengths (R19, R22), the idle context (R23, I1), the bound context. -/
structure CtxInv (c : Cfg) (x : Ctx) : Prop where
  bufWf : Memory.wf x.buf = true
  bufBounds : ∀ cell ∈ x.buf, cell.1 < c.maxDatagram
  tableLength : x.sizeTable.length = nmax c
  receivedLength : x.received.length = nmax c
  idle : x.idle = true → x = Ctx.idleWith c x.buf
  bound : x.idle = false → CtxBound c x

/-- A frame is `format_valid` (40_header_codec.md R77). -/
def formatValid (c : Cfg) (f : Bytes) : Bool := (formatHeader c f).isSome

/-- What holds of the bytes held for a port (10_state.md R25): they are within the capacity, and
more are needed. -/
structure LrInv (c : Cfg) (acc : Bytes) : Prop where
  capacity : acc.length ≤ c.maxFrame + 2
  unfinished : ∃ k, lrNeed c acc = .need k

/-- What holds of the sender (10_state.md R26, R31; 45_arq_controller.md R128 to R131). -/
structure ArqInv (c : Cfg) (a : Arq) : Prop where
  retries : a.retries ≤ c.maxRetry
  idx : a.idx ≤ a.nframes
  slots : a.frames.length ≤ nmax c
  frames : ∀ f ∈ a.frames, formatValid c f = true
  nframes : a.state ≠ .idle → a.nframes = a.frames.length
  sending : isSending a.state = true → a.idx < a.nframes
  retrying : a.state = .retrying → a.retries < c.maxRetry
  failed : a.state = .failed → a.retries = c.maxRetry ∧ a.idx < a.nframes
  done : a.state = .done → a.idx = a.nframes
  idle : a.state = .idle → a.retries = 0 ∧ a.deadline = 0 ∧ a.nframes = 0 ∧ a.idx = 0

/-- What holds of the relay (10_state.md R27; 45_arq_controller.md R142 to R145). -/
structure RelayInv (c : Cfg) (r : Relay) : Prop where
  capacity : r.queue.length ≤ c.relayQueueCap
  frames : ∀ f ∈ r.queue, formatValid c f = true ∧ isAck c f = false
  inFlight : r.inFlight = true → r.queue ≠ []
  retries : r.retries ≤ c.maxRetry
  resting : r.inFlight = false → r.retries = 0

/-- What holds of a physical write (20_memory.md R36). -/
def writeFits (c : Cfg) (u : Bytes) : Bool := 1 ≤ u.length && u.length ≤ c.writeLimit + 1

/-- The invariant of the state. -/
structure StateInv (s : State) : Prop where
  cfg : cfgLegal s.cfg = true
  ctx : CtxInv s.cfg s.ctx
  lr : ∀ p, LrInv s.cfg (getAcc s p)
  arq : ArqInv s.cfg s.arq
  relay : RelayInv s.cfg s.relay
  tx : ∀ p, ∀ u ∈ s.env.tx.get p, writeFits s.cfg u = true

/-! ## Outcomes -/

/-- The selector of an operation (00_scope.md R9). -/
def selectorOf : Instr → Option Nat
  | .nonfragLo _ _ => none
  | .nonfragHi _ _ => none
  | .frag1 _ _ _ => none
  | .fragn _ _ _ _ => none
  | .chunk1 _ _ => none
  | .chunk2 _ _ => none
  | .ackClient _ => none
  | .ackRelay _ => none
  | .ackServer _ => none
  | .hdrPack _ _ _ _ _ => some 0x00
  | .hdrUnpack _ => some 0x01
  | .hdrFrameLen _ => some 0x02
  | .fragCount _ => some 0x03
  | .fragment _ _ _ => some 0x04
  | .rsmReset => some 0x05
  | .rsmIngest _ => some 0x06
  | .rsmComplete => some 0x07
  | .rsmExtract _ => some 0x08
  | .tfSplit _ => some 0x09
  | .tfJoin _ _ => some 0x0A
  | .lrRecvFrame _ => some 0x0B
  | .lrDeliver _ _ => some 0x0C
  | .arqSendStart _ _ => some 0x0D
  | .arqSendPoll _ => some 0x0E
  | .arqRecvDatagram _ _ => some 0x0F
  | .relayPoll => some 0x10
  | .lfbInit => some 0x11
  | .kindNonfrag _ _ _ _ => none
  | .kindFirst _ _ _ _ => none
  | .kindOther _ _ _ _ => none
  | .kindUnrecognised _ _ _ _ => none

/-- The error columns of the table of 60_exceptions.md R154, by selector. -/
def errorsOf : Nat → List ErrorKind
  | 0x00 => [.unknownFragmentKind]
  | 0x01 => [.malformedFrame]
  | 0x02 => [.malformedFrame]
  | 0x06 => [.malformedFrame]
  | 0x0A => [.malformedFrame]
  | 0x0B => [.malformedFrame, .timeout]
  | 0x0C => [.malformedFrame]
  | 0x0E => [.retriesExhausted]
  | 0x0F => [.timeout]
  | _ => []

/-- The `Refused` column of the table of 60_exceptions.md R154, by selector. -/
def reasonsOf : Nat → List Reason
  | 0x00 => [.fieldRange, .bufferTooSmall]
  | 0x03 => [.lengthRange]
  | 0x04 => [.lengthRange, .bufferTooSmall]
  | 0x08 => [.bufferTooSmall]
  | 0x09 => [.lengthRange]
  | 0x0C => [.bufferTooSmall]
  | 0x0D => [.busy, .lengthRange, .payloadIsAckToken]
  | 0x0F => [.bufferTooSmall]
  | 0x10 => [.wrongRole]
  | _ => []

/-- An outcome is in the row of selector `sel` of that table. -/
def outcomeAllowed (sel : Nat) : Reply → Prop
  | .none => False
  | .ok _ => True
  | .error e => e ∈ errorsOf sel
  | .refused r => r ∈ reasonsOf sel

/-! ## HDR_PACK in numbers -/

/-- The outcome of HDR_PACK as the pseudocode of 40_header_codec.md R72 has it, in numbers:
`0xC0 | a[12:8]` is `0xC0 + a / 256` for a size of 13 bits, `a[7:0]` is `a` taken into 8 bits. -/
def packOutcome (k : Nat) (a : Nat) (tag : Tag) (offset cap : Nat) : Reply :=
  match k with
  | 0 =>
    if a < 1 ∨ 191 < a then .refused .fieldRange
    else if cap < 1 then .refused .bufferTooSmall
    else .ok (.bytes [BitVec.ofNat 8 a])
  | 1 =>
    if 8191 < a then .refused .fieldRange
    else if cap < 4 then .refused .bufferTooSmall
    else .ok (.bytes [BitVec.ofNat 8 (0xC0 + a / 256), BitVec.ofNat 8 a,
      BitVec.ofNat 8 (tag.toNat / 256), BitVec.ofNat 8 tag.toNat])
  | 2 =>
    if 8191 < a then .refused .fieldRange
    else if 2047 < offset then .refused .fieldRange
    else if cap < 5 then .refused .bufferTooSmall
    else .ok (.bytes [BitVec.ofNat 8 (0xE0 + a / 256), BitVec.ofNat 8 a,
      BitVec.ofNat 8 (tag.toNat / 256), BitVec.ofNat 8 tag.toNat, BitVec.ofNat 8 (offset / 8)])
  | _ => .error .unknownFragmentKind

/-- HDR_PACK of a header into a buffer of `cap` bytes. -/
def packInstr (h : Header) (cap : Nat) : Instr :=
  match h with
  | .nonFrag len => .hdrPack 0 len.toNat 0 0 cap
  | .first size tag => .hdrPack 1 size.toNat tag 0 cap
  | .other size tag off8 => .hdrPack 2 size.toNat tag (hdrOffset off8) cap

/-! ## Contexts after a fragment -/

/-- The context that a format-valid first fragment opens over `ctx.buf` (42_reassembler.md R90,
R93, R95): bound to its tag and size, with position 0 accepted. -/
def openedCtx (c : Cfg) (buf : Memory) (size : Nat) (tag : Tag) (payload : Bytes) : Ctx where
  idle := false
  tag := tag
  expectedSize := size
  filled := payload.length
  fragCount := nfrag c size
  sizeTable := sizeTableOf c size ++ List.replicate (nmax c - nfrag c size) 0
  curIndex := 1
  received := (List.replicate (nmax c) false).set 0 true
  buf := Memory.writeRange buf 0 payload

/-- A context that has accepted one other fragment more, at position `p` and byte offset `start`
(42_reassembler.md R93, R96). -/
def grownCtx (x : Ctx) (p start : Nat) (payload : Bytes) : Ctx :=
  { x with
    buf := Memory.writeRange x.buf start payload
    received := x.received.set p true
    filled := x.filled + payload.length
    curIndex :=
      if x.sizeTable[x.curIndex]? = some (5 + payload.length) then x.curIndex + 1 else x.curIndex }

/-- The header of an other fragment is valid, in numbers (40_header_codec.md R77). -/
def otherValid (c : Cfg) (size : BitVec 13) (off8 : BitVec 8) : Prop :=
  1 ≤ size.toNat ∧ size.toNat ≤ c.maxDatagram ∧ c.firstCap ≤ 8 * off8.toNat ∧
    (8 * off8.toNat - c.firstCap) % c.otherCap = 0 ∧ 8 * off8.toNat < size.toNat

/-- A datagram length a sender takes (41_fragmenter.md R87). -/
def lengthOk (c : Cfg) (l : Nat) : Prop := 1 ≤ l ∧ l ≤ c.maxDatagram

/-- A datagram that is one frame long and equals a token (45_arq_controller.md R130). -/
def tokenDatagram (c : Cfg) (d : Bytes) : Prop :=
  d.length ≤ c.nonfragCap ∧ ∃ r : Role, d = ackToken c r

/-! ## Sequences and streams -/

/-- The instructions of a list executed in order; `none` where one stops. -/
def runAll : List Instr → State → Option State
  | [], s => some s
  | i :: rest, s =>
    match exec i s with
    | .next t => runAll rest t
    | .fault _ => none
    | .refused _ => none

/-- The acknowledgement frame of a role as an instruction. -/
def ackInstr : Role → Port → Instr
  | .client, p => .ackClient p
  | .relay, p => .ackRelay p
  | .server, p => .ackServer p

/-- The physical writes of a frame: those of TF_SPLIT (45_arq_controller.md R125). -/
def writesOf (c : Cfg) (f : Bytes) : List Bytes := (tfSplit c.writeLimit f).getD []

/-- `s` with `us` written to port `p` (20_memory.md R36). -/
def wrote (p : Port) (us : List Bytes) (s : State) : State :=
  setEnv s { s.env with tx := s.env.tx.set p (s.env.tx.get p ++ us) }

/-- `s` with the physical writes of a frame standing at the end of `rx[p]`, there to be read at
once (log 18, 29). -/
def standing (p : Port) (f : Bytes) (s : State) : State :=
  setEnv s { s.env with
    rx := s.env.rx.set p (s.env.rx.get p ++ promptly (writesOf s.cfg f).flatten) }

/-- The ticks taken by the read that meets an event, when a whole `T_BYTE` was left to it. -/
def eventCost (c : Cfg) : RxEvent → Nat
  | .byte _ ticks => ticks
  | .silence extra => c.tByte + extra

/-- The events `evs` bring a receive attempt exactly the bytes `bs`, with reads that time out
between them or without, and the read of each comes before the frame deadline; `laps` are the
lapses of the readings of the clock that are made meanwhile: the one the deadline is computed
from, and one before each later read (44_link_reader.md R116). -/
structure Brings (c : Cfg) (bs : Bytes) (evs : List RxEvent) (laps : List Nat) : Prop where
  bytes : streamBytes evs = bs
  first : ∃ b ticks, evs.head? = some (.byte b ticks)
  last : ∃ b ticks, evs.getLast? = some (.byte b ticks)
  readings : laps.length = evs.length
  inTime : (evs.dropLast.tail.map (eventCost c)).sum + laps.tail.sum < c.tFrame

/-- Raw bytes at whose last one, and no earlier, a receive attempt finds a malformed frame
(44_link_reader.md R112, R117): a length of 0, marked or not; a whole header that is invalid, or of
an unmarked frame longer than W, or of a marked one of at most W bytes; a byte other than the
second marker at its place. -/
def badRaw (c : Cfg) (bs : Bytes) : Prop :=
  bs = [0x00] ∨ bs = [0x01, 0x00] ∨
    ∃ (hd : Bytes) (h : Header), unpackHeader hd = some h ∧ hd.length = hdrLen (hdrKind h) ∧
      ((bs = hd ∧ hd.head? ≠ some 0x01#8 ∧
          (headerValid c h = false ∨ c.writeLimit < hdrFrameLength c h)) ∨
        (bs = 0x01#8 :: hd ∧ (headerValid c h = false ∨ hdrFrameLength c h ≤ c.writeLimit)) ∨
        (headerValid c h = true ∧ c.writeLimit < hdrFrameLength c h ∧
          ∃ (data : Bytes) (b : Byte), hd.length + data.length = c.writeLimit ∧ b ≠ 0x02#8 ∧
            bs = 0x01#8 :: (hd ++ data) ++ [b]))

/-- What can arrive at a receiver: the physical writes of a frame, or raw bytes the Link Reader
turns away. -/
inductive Arrival where
  | frame (f : Bytes)
  | broken (bs : Bytes)
  deriving DecidableEq, Repr

/-- The raw bytes of an arrival. -/
def Arrival.raw (c : Cfg) : Arrival → Bytes
  | .frame f => (writesOf c f).flatten
  | .broken bs => bs

/-- An arrival is what it says: a frame the Link Reader can return (44_link_reader.md R111, R116),
or raw bytes it finds malformed. -/
def Arrival.readable (c : Cfg) : Arrival → Prop
  | .frame f => formatValid c f = true ∧ f.head? ≠ some 0x01#8
  | .broken bs => badRaw c bs

/-- What receiving a datagram comes to. -/
structure Reception where
  /-- How many acknowledgements it owes. -/
  acks : Nat
  /-- The datagram it ends with; none when it ends at its deadline. -/
  out : Option Bytes
  /-- The context it leaves. -/
  ctx : Ctx
  /-- The arrivals it does not read. -/
  unread : List Arrival
  deriving DecidableEq, Repr

/-- What receiving a datagram from state `s` owes and delivers when `arrivals` come and then
silence, by the rounds of 45_arq_controller.md R137 to R139: nothing is owed for bytes turned away,
for an acknowledgement frame, or for a frame of which LR_DELIVER says MalformedFrame; one
acknowledgement is owed for every other frame. -/
def reception (cap : Nat) : List Arrival → State → Reception
  | [], s => ⟨0, none, Ctx.idleWith s.cfg s.ctx.buf, []⟩
  | .broken _ :: rest, s => reception cap rest { s with ctx := Ctx.idleWith s.cfg s.ctx.buf }
  | .frame f :: rest, s =>
    if isAck s.cfg f then reception cap rest s
    else
      match exec (.lrDeliver f cap) s with
      | .next u =>
        match u.reply with
        | .ok (.datagram []) =>
          let r := reception cap rest u
          { r with acks := r.acks + 1 }
        | .ok (.datagram out) =>
          ⟨1, some out,
            if kindOf (f.headD 0) = .nonFrag then u.ctx else Ctx.idleWith u.cfg u.ctx.buf, rest⟩
        | _ => reception cap rest u
      | .fault _ => ⟨0, none, s.ctx, []⟩
      | .refused _ => ⟨0, none, s.ctx, []⟩

/-- The intake of RELAY_POLL, given the state `v` its receive attempt on `UP` left
(45_arq_controller.md R142, R143). -/
def relayIntake (v : State) : State :=
  match v.reply with
  | .ok (.frame f) =>
    if isAck v.cfg f = false ∧ v.relay.queue.length < v.cfg.relayQueueCap then
      wrote .up [ackFrame v.cfg .relay]
        (setRelay v { v.relay with queue := v.relay.queue ++ [f] })
    else v
  | _ => v

/-- A receive attempt brought the acknowledgement frame of `CFG.PEER_ROLE` (45_arq_controller.md
R127). -/
def broughtAck (v : State) : Prop := v.reply = .ok (.frame (ackFrame v.cfg v.cfg.peerRole))

/-- From `x`, a sender in AwaitingAck to which no matching acknowledgement came goes on to `u`: it
reads the clock and, past the deadline, retries or gives up (45_arq_controller.md R131). -/
def senderWaited (x u : State) : Prop :=
  x.env.clock ≤ u.env.clock ∧ u.env.rx = x.env.rx ∧ u.env.tx = x.env.tx ∧
    u.env.draws = x.env.draws ∧
    ((u.env.clock < x.arq.deadline ∧
        u = { x with env := u.env, reply := .ok (.arqState .awaitingAck) }) ∨
      (x.arq.deadline ≤ u.env.clock ∧ x.arq.retries < x.cfg.maxRetry ∧
        u = { x with env := u.env, arq := { x.arq with state := .retrying },
                     reply := .ok (.arqState .retrying) }) ∨
      (x.arq.deadline ≤ u.env.clock ∧ x.cfg.maxRetry ≤ x.arq.retries ∧
        u = { x with env := u.env, arq := { x.arq with state := .failed },
                     reply := .error .retriesExhausted }))

/-- From `x`, a sender whose `arq` is to become `a` writes frame `f` to port `p`, starts the
acknowledgement deadline and ends with `v` in `u` (45_arq_controller.md R130, R131). -/
def senderWrote (p : Port) (f : Bytes) (a : Arq) (v : OkValue) (x u : State) : Prop :=
  x.env.clock ≤ u.env.clock ∧ u.env.rx = x.env.rx ∧
    u.env.tx = (wrote p (writesOf x.cfg f) x).env.tx ∧
    u = { x with
      env := u.env
      arq := { a with state := .awaitingAck, deadline := u.env.clock + x.cfg.tAck }
      reply := .ok v }

/-- From `x`, a relay with a frame in flight to which no matching acknowledgement came goes on to
`u`: it reads the clock (`τ`) and, past the deadline, writes the head of the queue again or drops
it (45_arq_controller.md R142, R145). -/
def relayWaited (x u : State) : Prop :=
  ∃ τ : Nat, x.env.clock ≤ τ ∧ τ ≤ u.env.clock ∧ u.env.rx = x.env.rx ∧
    u.env.draws = x.env.draws ∧
    ((τ < x.relay.deadline ∧ u.env.tx = x.env.tx ∧
        u = { x with env := u.env, reply := .ok (.num x.relay.queue.length) }) ∨
      (x.relay.deadline ≤ τ ∧ x.relay.retries < x.cfg.maxRetry ∧
        u.env.tx = (wrote .down (writesOf x.cfg (x.relay.queue.headD [])) x).env.tx ∧
        u = { x with
          env := u.env
          relay := { x.relay with
            retries := x.relay.retries + 1, deadline := u.env.clock + x.cfg.tAck }
          reply := .ok (.num x.relay.queue.length) }) ∨
      (x.relay.deadline ≤ τ ∧ x.cfg.maxRetry ≤ x.relay.retries ∧ u.env.tx = x.env.tx ∧
        u = { x with
          env := u.env
          relay := { x.relay with queue := x.relay.queue.tail, retries := 0, inFlight := false }
          reply := .ok (.num x.relay.queue.tail.length) }))

/-- A relay that took the matching acknowledgement of the frame in flight
(45_arq_controller.md R144). -/
def relayAdvanced (x : State) : State :=
  { x with
    relay := { x.relay with queue := x.relay.queue.tail, retries := 0, inFlight := false }
    reply := .ok (.num x.relay.queue.tail.length) }

end Sys2Proof.Machine
end

