-- ==== Sys2Proof/Certificates/Slice0/Obligations.lean ====
section
/-! DEFINITION. The statements about the model, one `def … : Prop` each, listed in
OBLIGATIONS.json. `rule` in a docstring is a rule of spec/; `log` is a row of
notes/assumptions. -/

open Sys2Proof Sys2Proof.Machine

/-! ## Encodings -/

/-- Decoding the encoding of a well-formed instruction gives it back, every operand at every
value. The layout of operations' operands is the model's (log 3). -/
def Obligations.DecodeEncodeRoundTrip : Prop :=
  ∀ (c : Cfg) (i : Instr), cfgLegal c = true → i.wellFormed c = true →
    decode c (encode c i) = .ok i

/-- Whatever the decoder answers is well formed: an acknowledgement frame is never answered as a data
frame (30_encoding.md R64), and number and buffer operands fit the four bytes of the model's own
layout (DESIGN CHOICE, log 3). -/
def Obligations.DecodedInstrWellFormed : Prop :=
  ∀ (c : Cfg) (r : Request) (i : Instr), cfgLegal c = true → decode c r = .ok i →
    i.wellFormed c = true

/-- A frame or a chunk has one meaning: its instruction encodes to the same bytes, none dropped
and none invented. -/
def Obligations.FrameBytesSurviveDecode : Prop :=
  ∀ (c : Cfg) (r : Request) (i : Instr), r.fmt = .frame ∨ r.fmt = .chunk →
    decode c r = .ok i → (encode c i).fmt = r.fmt ∧ (encode c i).bytes = r.bytes

/-- Words written out from 30_encoding.md decode to the instructions they stand for. -/
def Obligations.SpecWordsDecode : Prop :=
  decode cfgRef ⟨.frame, .p0, [0x03, 0x68, 0x69]⟩ = .ok (.nonfragLo 3 [0x68, 0x69]) ∧
  decode cfgRef ⟨.frame, .p0, [0xC0, 0x96, 0xBE, 0xEF, 0x01]⟩ = .ok (.frag1 150 0xBEEF [0x01]) ∧
  decode cfgRef ⟨.frame, .p0, [0xE0, 0x96, 0xBE, 0xEF, 0x09, 0x02]⟩ =
    .ok (.fragn 150 0xBEEF 9 [0x02]) ∧
  decode cfgRef ⟨.frame, .up, [0x06, 0x72, 0x65, 0x6C, 0x61, 0x79]⟩ = .ok (.ackRelay .up) ∧
  decode cfgRef ⟨.chunk, .p0, [0x01, 0xC0, 0x96]⟩ = .ok (.chunk1 .p0 [0xC0, 0x96]) ∧
  decode cfgRef ⟨.operation, .p0, [0x05]⟩ = .ok .rsmReset ∧
  decode cfgRef ⟨.operation, .p0, [0x12]⟩ = .bad .unknownOperation

/-- The classification of byte 0, by its top bits and by its value. -/
def Obligations.ByteZeroClassification : Prop :=
  ∀ b : Byte,
    (kindOf b = .other ↔ b.extractLsb' 5 3 = 0b111#3) ∧
    (kindOf b = .first ↔ b.extractLsb' 5 3 = 0b110#3) ∧
    (kindOf b = .nonFrag ↔ b.extractLsb' 6 2 ≠ 0b11#2) ∧
    (kindOf b = .other ↔ 0xE0 ≤ b.toNat) ∧
    (kindOf b = .first ↔ 0xC0 ≤ b.toNat ∧ b.toNat ≤ 0xDF) ∧
    (kindOf b = .nonFrag ↔ b.toNat ≤ 0xBF)

/-! ## Header Codec -/

/-- HDR_PACK, every kind, operand and buffer size; nothing but the outcome changes. Of a request that
is bad in two ways the field is refused before the buffer (DEDUCED, log 23: the order of the
exceptions in 40_header_codec.md R72, with 60_exceptions.md R157). -/
def Obligations.HdrPackOutcome : Prop :=
  ∀ (k : BitVec 2) (a : Nat) (tag : Tag) (offset cap : Nat) (s : State),
    exec (.hdrPack k a tag offset cap) s =
      .next { s with reply := packOutcome k.toNat a tag offset cap }

/-- The four kind-selector rows are HDR_PACK under that kind: the model's reading of the rows
(DESIGN CHOICE, log 19). -/
def Obligations.KindSelectorRows : Prop :=
  ∀ (a : Nat) (tag : Tag) (offset cap : Nat) (s : State),
    exec (.kindNonfrag a tag offset cap) s =
      .next { s with reply := packOutcome 0 a tag offset cap } ∧
    exec (.kindFirst a tag offset cap) s =
      .next { s with reply := packOutcome 1 a tag offset cap } ∧
    exec (.kindOther a tag offset cap) s =
      .next { s with reply := packOutcome 2 a tag offset cap } ∧
    exec (.kindUnrecognised a tag offset cap) s =
      .next { s with reply := .error .unknownFragmentKind }

/-- HDR_UNPACK on every buffer; nothing but the outcome changes. -/
def Obligations.HdrUnpackOutcome : Prop :=
  ∀ s : State,
    exec (.hdrUnpack []) s = .next { s with reply := .error .malformedFrame } ∧
    ∀ (b0 : Byte) (rest : Bytes),
      (b0.toNat = 0 →
        exec (.hdrUnpack (b0 :: rest)) s = .next { s with reply := .error .malformedFrame }) ∧
      (1 ≤ b0.toNat → b0.toNat < 0xC0 →
        exec (.hdrUnpack (b0 :: rest)) s = .next { s with reply := .ok (.header (.nonFrag b0)) }) ∧
      (0xC0 ≤ b0.toNat → b0.toNat < 0xE0 → rest.length < 3 →
        exec (.hdrUnpack (b0 :: rest)) s = .next { s with reply := .error .malformedFrame }) ∧
      (0xC0 ≤ b0.toNat → b0.toNat < 0xE0 → ∀ b1 b2 b3 more, rest = b1 :: b2 :: b3 :: more →
        exec (.hdrUnpack (b0 :: rest)) s = .next { s with reply := .ok (.header (.first
          (BitVec.ofNat 13 (b0.toNat % 64 * 256 + b1.toNat))
          (BitVec.ofNat 16 (b2.toNat * 256 + b3.toNat)))) }) ∧
      (0xE0 ≤ b0.toNat → rest.length < 4 →
        exec (.hdrUnpack (b0 :: rest)) s = .next { s with reply := .error .malformedFrame }) ∧
      (0xE0 ≤ b0.toNat → ∀ b1 b2 b3 b4 more, rest = b1 :: b2 :: b3 :: b4 :: more →
        exec (.hdrUnpack (b0 :: rest)) s = .next { s with reply := .ok (.header (.other
          (BitVec.ofNat 13 (b0.toNat % 32 * 256 + b1.toNat))
          (BitVec.ofNat 16 (b2.toNat * 256 + b3.toNat)) b4)) })

/-- The codec loses no bit and invents none: unpacking what HDR_PACK wrote gives the header back,
every header of the range is packed, and packing what HDR_UNPACK read gives the bytes back. -/
def Obligations.HeaderCodecRoundTrip : Prop :=
  (∀ (h : Header) (cap : Nat) (s t : State) (out : Bytes),
    exec (packInstr h cap) s = .next t → t.reply = .ok (.bytes out) →
      exec (.hdrUnpack out) t = .next { t with reply := .ok (.header h) }) ∧
  (∀ (h : Header) (s : State),
    (∀ len, h = .nonFrag len → 1 ≤ len.toNat ∧ len.toNat ≤ 191) →
      ∃ out, exec (packInstr h 5) s = .next { s with reply := .ok (.bytes out) }) ∧
  (∀ (buf : Bytes) (h : Header) (s t : State),
    exec (.hdrUnpack buf) s = .next t → t.reply = .ok (.header h) →
      exec (packInstr h 5) t =
        .next { t with reply := .ok (.bytes (buf.take (hdrLen (hdrKind h)))) })

/-- Packing and then unpacking any offset up to 2047 gives the next lower multiple of 8. -/
def Obligations.OffsetQuantization : Prop :=
  ∀ (x a : Nat) (tag : Tag) (s : State), x ≤ 2047 → a ≤ 8191 →
    ∃ out off8,
      exec (.hdrPack 2 a tag x 5) s = .next { s with reply := .ok (.bytes out) } ∧
      exec (.hdrUnpack out) s =
        .next { s with reply := .ok (.header (.other (BitVec.ofNat 13 a) tag off8)) } ∧
      hdrOffset off8 = 8 * (x / 8) ∧ (hdrOffset off8 = x ↔ x % 8 = 0)

/-- HDR_FRAME_LEN on every header; the length is at most MAX_FRAME_SIZE; for a header of the bound
datagram it is the size-table entry at the header's position. -/
def Obligations.HdrFrameLenOutcome : Prop :=
  ∀ s : State,
    (∀ len : BitVec 8, exec (.hdrFrameLen (.nonFrag len)) s = .next { s with
    reply :=
      if 1 ≤ len.toNat ∧ len.toNat ≤ s.cfg.maxFrame then .ok (.num len.toNat)
      else .error .malformedFrame }) ∧
    (∀ (size : BitVec 13) (tag : Tag),
      exec (.hdrFrameLen (.first size tag)) s = .next { s with
      reply :=
        if 1 ≤ size.toNat ∧ size.toNat ≤ s.cfg.maxDatagram then
          .ok (.num (4 + min size.toNat s.cfg.firstCap))
        else .error .malformedFrame }) ∧
    (∀ (size : BitVec 13) (tag : Tag) (off8 : BitVec 8),
      (otherValid s.cfg size off8 →
        exec (.hdrFrameLen (.other size tag off8)) s = .next { s with
        reply :=
          .ok (.num (5 + min s.cfg.otherCap (size.toNat - 8 * off8.toNat))) }) ∧
      (¬ otherValid s.cfg size off8 →
        exec (.hdrFrameLen (.other size tag off8)) s =
          .next { s with reply := .error .malformedFrame })) ∧
    (cfgLegal s.cfg = true → ∀ (h : Header) (n : Nat),
      exec (.hdrFrameLen h) s = .next { s with reply := .ok (.num n) } → n ≤ s.cfg.maxFrame) ∧
    (cfgLegal s.cfg = true → CtxInv s.cfg s.ctx → s.ctx.idle = false →
      ∀ (size : BitVec 13) (tag : Tag), size.toNat = s.ctx.expectedSize →
        (∀ n, exec (.hdrFrameLen (.first size tag)) s =
            .next { s with reply := .ok (.num n) } → s.ctx.sizeTable[0]? = some n) ∧
        (∀ off8 n, exec (.hdrFrameLen (.other size tag off8)) s =
            .next { s with reply := .ok (.num n) } →
          s.ctx.sizeTable[1 + (8 * off8.toNat - s.cfg.firstCap) / s.cfg.otherCap]? = some n))

/-! ## Fragmenter -/

/-- FRAG_COUNT on every length, and that the count is the least number of frames whose
capacities hold the datagram. -/
def Obligations.FragCountOutcome : Prop :=
  ∀ (l : Nat) (s : State), cfgLegal s.cfg = true →
    (¬ lengthOk s.cfg l →
      exec (.fragCount l) s = .next { s with reply := .refused .lengthRange }) ∧
    (lengthOk s.cfg l → l ≤ s.cfg.nonfragCap →
      exec (.fragCount l) s = .next { s with reply := .ok (.num 1) }) ∧
    (lengthOk s.cfg l → s.cfg.nonfragCap < l →
      exec (.fragCount l) s = .next { s with
      reply :=
        .ok (.num (1 + (l - s.cfg.firstCap + s.cfg.otherCap - 1) / s.cfg.otherCap)) } ∧
      ∀ n, exec (.fragCount l) s = .next { s with reply := .ok (.num n) } →
        1 ≤ n ∧ l ≤ s.cfg.firstCap + (n - 1) * s.cfg.otherCap ∧
        ∀ m, 1 ≤ m → l ≤ s.cfg.firstCap + (m - 1) * s.cfg.otherCap → n ≤ m)

/-- FRAGMENT on every datagram and slot count: the refusals, the single non-fragmented frame, and
the fragments byte for byte. Of a request that is bad in two ways the length is refused before the
slots (DEDUCED, log 23: 41_fragmenter.md R84 shows no check of the slots in its pseudocode; with
60_exceptions.md R157). -/
def Obligations.FragmentOutcome : Prop :=
  ∀ (d : Bytes) (t : Tag) (slots : Nat) (s : State), cfgLegal s.cfg = true →
    (¬ lengthOk s.cfg d.length →
      exec (.fragment d t slots) s = .next { s with reply := .refused .lengthRange }) ∧
    (lengthOk s.cfg d.length → d.length ≤ s.cfg.nonfragCap →
      (slots < 1 →
        exec (.fragment d t slots) s = .next { s with reply := .refused .bufferTooSmall }) ∧
      (1 ≤ slots → exec (.fragment d t slots) s =
        .next { s with reply := .ok (.units [BitVec.ofNat 8 (d.length + 1) :: d]) })) ∧
    (lengthOk s.cfg d.length → s.cfg.nonfragCap < d.length → ∀ n,
      n = 1 + (d.length - s.cfg.firstCap + s.cfg.otherCap - 1) / s.cfg.otherCap →
      (slots < n →
        exec (.fragment d t slots) s = .next { s with reply := .refused .bufferTooSmall }) ∧
      (n ≤ slots → ∃ fs : List Bytes,
        exec (.fragment d t slots) s = .next { s with reply := .ok (.units fs) } ∧
        fs.length = n ∧
        fs[0]? = some ([BitVec.ofNat 8 (0xC0 + d.length / 256), BitVec.ofNat 8 d.length,
          BitVec.ofNat 8 (t.toNat / 256), BitVec.ofNat 8 t.toNat] ++
            d.take (min d.length s.cfg.firstCap)) ∧
        ∀ p, 1 ≤ p → p < n → ∀ start, start = s.cfg.firstCap + (p - 1) * s.cfg.otherCap →
          fs[p]? = some ([BitVec.ofNat 8 (0xE0 + d.length / 256), BitVec.ofNat 8 d.length,
            BitVec.ofNat 8 (t.toNat / 256), BitVec.ofNat 8 t.toNat, BitVec.ofNat 8 (start / 8)] ++
              (d.drop start).take (min s.cfg.otherCap (d.length - start)))))

/-- The properties (a) to (f) of the frames of a datagram longer than NF. -/
def Obligations.FragmentProperties : Prop :=
  ∀ (d : Bytes) (t : Tag) (slots : Nat) (s : State) (fs : List Bytes),
    cfgLegal s.cfg = true → s.cfg.nonfragCap < d.length →
    exec (.fragment d t slots) s = .next { s with reply := .ok (.units fs) } →
    exec (.fragCount d.length) s = .next { s with reply := .ok (.num fs.length) } ∧
    fs.map List.length = sizeTableOf s.cfg d.length ∧
    (∀ f ∈ fs, formatValid s.cfg f = true) ∧
    (fs.map fun f => f.drop (hdrLen (kindOf (f.headD 0)))).flatten = d ∧
    (∀ f, fs[0]? = some f → unpackHeader f = some (.first (BitVec.ofNat 13 d.length) t)) ∧
    (BitVec.ofNat 13 d.length).toNat = d.length ∧
    (∀ p f, 1 ≤ p → fs[p]? = some f → ∃ off8,
      unpackHeader f = some (.other (BitVec.ofNat 13 d.length) t off8) ∧
      hdrOffset off8 = sliceStart s.cfg p ∧ sliceStart s.cfg p % 8 = 0)

/-- The slices of a datagram are disjoint, in order, and cover it; the last one's length is the
tail; every start is a multiple of 8. -/
def Obligations.SlicesPartition : Prop :=
  ∀ (c : Cfg) (size : Nat), cfgLegal c = true → 1 ≤ size →
    (sliceStart c 0 = 0 ∧ sliceLen c size 0 = min size c.firstCap) ∧
    (∀ p, 1 ≤ p → sliceStart c p = c.firstCap + (p - 1) * c.otherCap ∧
      sliceLen c size p = min c.otherCap (size - sliceStart c p)) ∧
    (∀ p, p + 1 < nfrag c size → sliceStart c p + sliceLen c size p = sliceStart c (p + 1)) ∧
    (∀ i, i < size → ∃ p, (p < nfrag c size ∧ sliceStart c p ≤ i ∧
        i < sliceStart c p + sliceLen c size p) ∧
      ∀ q, q < nfrag c size → sliceStart c q ≤ i → i < sliceStart c q + sliceLen c size q →
        q = p) ∧
    (∀ p, p < nfrag c size →
      1 ≤ sliceLen c size p ∧ sliceStart c p + sliceLen c size p ≤ size ∧
      sliceStart c p % 8 = 0) ∧
    (c.firstCap < size →
      sliceLen c size (nfrag c size - 1) = (size - c.firstCap - 1) % c.otherCap + 1 ∧
      sliceLen c size (nfrag c size - 1) =
        (if (size - c.firstCap) % c.otherCap = 0 then c.otherCap
         else (size - c.firstCap) % c.otherCap))

/-- The entries of the size table. -/
def Obligations.SizeTableEntries : Prop :=
  ∀ (c : Cfg) (size : Nat), cfgLegal c = true → 1 ≤ size →
    (sizeTableOf c size).length = nfrag c size ∧
    (sizeTableOf c size)[0]? = some (4 + min size c.firstCap) ∧
    (∀ i, 1 ≤ i → i + 2 ≤ nfrag c size → (sizeTableOf c size)[i]? = some (5 + c.otherCap)) ∧
    (2 ≤ nfrag c size →
      (sizeTableOf c size)[nfrag c size - 1]? =
        some (5 + ((size - c.firstCap - 1) % c.otherCap + 1))) ∧
    (∀ p, p < nfrag c size →
      (sizeTableOf c size)[p]? = some ((if p = 0 then 4 else 5) + sliceLen c size p)) ∧
    (size ≤ c.firstCap → sizeTableOf c size = [4 + size])

/-! ## Reassembler -/

/-- RSM_RESET leaves the Idle context, keeps `ctx.buf`, and does the same twice. -/
def Obligations.RsmResetEffect : Prop :=
  ∀ s : State,
    exec .rsmReset s = .next { s with
      ctx := {
        idle := true
        tag := 0
        expectedSize := 0
        filled := 0
        fragCount := 0
        sizeTable := List.replicate (nmax s.cfg) 0
        curIndex := 0
        received := List.replicate (nmax s.cfg) false
        buf := s.ctx.buf }
      reply := .ok .unit } ∧
    runAll [.rsmReset, .rsmReset] s = runAll [.rsmReset] s

/-- A format-valid first fragment given to RSM_INGEST in Idle, or with a foreign tag, binds the
context to its tag and size, whatever was there before, and places its payload at index 0. -/
def Obligations.IngestFirstBinds : Prop :=
  ∀ (size : BitVec 13) (tag : Tag) (payload : Bytes) (s : State), cfgLegal s.cfg = true →
    lengthOk s.cfg size.toNat → payload.length = min size.toNat s.cfg.firstCap →
    s.ctx.idle = true ∨ s.ctx.tag ≠ tag →
    exec (.rsmIngest (headerBytes (.first size tag) ++ payload)) s = .next { s with
      ctx := openedCtx s.cfg s.ctx.buf size.toNat tag payload
      reply := .ok (.ingested (if s.ctx.idle then .started else .restarted)) } ∧
    (∀ i, i < payload.length →
      Memory.read (openedCtx s.cfg s.ctx.buf size.toNat tag payload).buf i = payload[i]?) ∧
    (∀ i, payload.length ≤ i →
      Memory.read (openedCtx s.cfg s.ctx.buf size.toNat tag payload).buf i =
        Memory.read s.ctx.buf i)

/-- A format-valid other fragment of the bound datagram at a position not yet received is
accepted at its own offset. -/
def Obligations.IngestOtherAccepts : Prop :=
  ∀ (size : BitVec 13) (tag : Tag) (off8 : BitVec 8) (payload : Bytes) (p : Nat) (s : State),
    otherValid s.cfg size off8 →
    payload.length = min s.cfg.otherCap (size.toNat - 8 * off8.toNat) →
    s.ctx.idle = false → s.ctx.tag = tag → s.ctx.expectedSize = size.toNat →
    p = 1 + (8 * off8.toNat - s.cfg.firstCap) / s.cfg.otherCap →
    s.ctx.received[p]? ≠ some true →
    exec (.rsmIngest (headerBytes (.other size tag off8) ++ payload)) s = .next { s with
      ctx := grownCtx s.ctx p (8 * off8.toNat) payload
      reply := .ok (.ingested .accepted) } ∧
    (∀ i, i < payload.length →
      Memory.read (grownCtx s.ctx p (8 * off8.toNat) payload).buf (8 * off8.toNat + i) =
        payload[i]?) ∧
    (∀ i, i < 8 * off8.toNat ∨ 8 * off8.toNat + payload.length ≤ i →
      Memory.read (grownCtx s.ctx p (8 * off8.toNat) payload).buf i = Memory.read s.ctx.buf i)

/-- A duplicate writes nothing, and neither does a non-fragmented frame, whose payload LR_DELIVER
delivers while a reassembly in progress stays in progress. -/
def Obligations.IngestDuplicateOrBypass : Prop :=
  ∀ s : State, cfgLegal s.cfg = true →
    (∀ (size : BitVec 13) (tag : Tag) (payload : Bytes), lengthOk s.cfg size.toNat →
      payload.length = min size.toNat s.cfg.firstCap →
      s.ctx.idle = false → s.ctx.tag = tag → s.ctx.expectedSize = size.toNat →
      exec (.rsmIngest (headerBytes (.first size tag) ++ payload)) s =
        .next { s with reply := .ok (.ingested .duplicate) }) ∧
    (∀ (size : BitVec 13) (tag : Tag) (off8 : BitVec 8) (payload : Bytes),
      otherValid s.cfg size off8 →
      payload.length = min s.cfg.otherCap (size.toNat - 8 * off8.toNat) →
      s.ctx.idle = false → s.ctx.tag = tag → s.ctx.expectedSize = size.toNat →
      s.ctx.received[1 + (8 * off8.toNat - s.cfg.firstCap) / s.cfg.otherCap]? = some true →
      exec (.rsmIngest (headerBytes (.other size tag off8) ++ payload)) s =
        .next { s with reply := .ok (.ingested .duplicate) }) ∧
    (∀ (len : Byte) (payload : Bytes) (cap : Nat), 1 ≤ len.toNat →
      len.toNat ≤ s.cfg.maxFrame → 1 + payload.length = len.toNat →
      exec (.rsmIngest (len :: payload)) s = .next { s with reply := .ok (.ingested .bypass) } ∧
      (payload.length ≤ cap →
        exec (.lrDeliver (len :: payload) cap) s =
          .next { s with reply := .ok (.datagram payload) }))

/-- A malformed frame given to RSM_INGEST, whichever the cause, resets the context. -/
def Obligations.IngestMalformed : Prop :=
  ∀ (buf : Bytes) (s : State),
    formatValid s.cfg buf = false ∨
      (∃ size tag off8, unpackHeader buf = some (.other size tag off8) ∧
        (s.ctx.idle = true ∨ s.ctx.tag ≠ tag ∨ s.ctx.expectedSize ≠ size.toNat)) ∨
      (∃ size, unpackHeader buf = some (.first size s.ctx.tag) ∧ s.ctx.idle = false ∧
        s.ctx.expectedSize ≠ size.toNat) →
    exec (.rsmIngest buf) s = .next { s with
      ctx := Ctx.idleWith s.cfg s.ctx.buf, reply := .error .malformedFrame }

/-- RSM_COMPLETE; and in every context the invariant admits, it is true exactly when every position
has been accepted, `filled` is within `expected_size` and `cur_index` within `frag_count`. -/
def Obligations.RsmCompleteOutcome : Prop :=
  ∀ s : State,
    (s.ctx.idle = false ∧ s.ctx.filled = s.ctx.expectedSize →
      exec .rsmComplete s = .next { s with reply := .ok (.bool true) }) ∧
    (¬ (s.ctx.idle = false ∧ s.ctx.filled = s.ctx.expectedSize) →
      exec .rsmComplete s = .next { s with reply := .ok (.bool false) }) ∧
    (cfgLegal s.cfg = true → CtxInv s.cfg s.ctx →
      s.ctx.filled ≤ s.ctx.expectedSize ∧ s.ctx.curIndex ≤ s.ctx.fragCount ∧
      (exec .rsmComplete s = .next { s with reply := .ok (.bool true) } ↔
        s.ctx.idle = false ∧ ∀ p, p < s.ctx.fragCount → s.ctx.received[p]? = some true))

/-- RSM_EXTRACT; in a Complete context the invariant admits, every byte copied out is one that was
written. -/
def Obligations.RsmExtractOutcome : Prop :=
  ∀ (cap : Nat) (s : State),
    (¬ (s.ctx.idle = false ∧ s.ctx.filled = s.ctx.expectedSize) →
      exec (.rsmExtract cap) s = .next { s with reply := .ok (.datagram []) }) ∧
    (s.ctx.idle = false → s.ctx.filled = s.ctx.expectedSize → cap < s.ctx.filled →
      exec (.rsmExtract cap) s = .next { s with reply := .refused .bufferTooSmall }) ∧
    (s.ctx.idle = false → s.ctx.filled = s.ctx.expectedSize → s.ctx.filled ≤ cap →
      ∃ out : Bytes, exec (.rsmExtract cap) s = .next { s with reply := .ok (.datagram out) } ∧
        out.length = s.ctx.filled ∧
        (∀ i b, i < s.ctx.filled → Memory.read s.ctx.buf i = some b → out[i]? = some b) ∧
        (cfgLegal s.cfg = true → CtxInv s.cfg s.ctx → 1 ≤ out.length ∧
          ∀ i, i < s.ctx.filled → ∃ b, Memory.read s.ctx.buf i = some b))

/-- Round trip: the fragments of a datagram, the first one first and the others in any order and
with any repetitions, reassemble to exactly the datagram, from any state. A datagram of one
non-fragmented frame is that frame's payload. -/
def Obligations.ReassembleRoundTrip : Prop :=
  ∀ (d : Bytes) (t : Tag) (slots : Nat) (s : State) (fs : List Bytes), cfgLegal s.cfg = true →
    exec (.fragment d t slots) s = .next { s with reply := .ok (.units fs) } →
    (s.cfg.nonfragCap < d.length → ∀ order : List Nat,
      (∀ p ∈ order, p < fs.length) → (∀ p, 1 ≤ p → p < fs.length → p ∈ order) →
      ∃ u, runAll (.rsmReset :: .rsmIngest (fs.getD 0 []) ::
          order.map fun p => .rsmIngest (fs.getD p [])) s = some u ∧
        exec .rsmComplete u = .next { u with reply := .ok (.bool true) } ∧
        ∀ cap, d.length ≤ cap →
          exec (.rsmExtract cap) u = .next { u with reply := .ok (.datagram d) }) ∧
    (d.length ≤ s.cfg.nonfragCap → ∃ f, fs = [f] ∧ f.drop 1 = d ∧
      exec (.rsmIngest f) s = .next { s with reply := .ok (.ingested .bypass) } ∧
      ∀ cap, d.length ≤ cap →
        exec (.lrDeliver f cap) s = .next { s with reply := .ok (.datagram d) })

/-- Tag isolation: whatever partial datagram of another tag the context holds, after the frames of
a datagram with a new tag what is extracted is that datagram. -/
def Obligations.TagIsolation : Prop :=
  ∀ (d : Bytes) (t : Tag) (slots : Nat) (s : State) (fs : List Bytes), cfgLegal s.cfg = true →
    s.cfg.nonfragCap < d.length → s.ctx.tag ≠ t →
    exec (.fragment d t slots) s = .next { s with reply := .ok (.units fs) } →
    ∃ u, runAll (fs.map .rsmIngest) s = some u ∧ u.ctx.tag = t ∧
      exec (.rsmExtract d.length) u = .next { u with reply := .ok (.datagram d) }

/-- After any MalformedFrame but those of the three pure operations the context is Idle, and sender
and relay are untouched; after those of the pure operations nothing has changed. -/
def Obligations.MalformedLeavesIdle : Prop :=
  ∀ (i : Instr) (s t : State), exec i s = .next t → t.reply = .error .malformedFrame →
    (selectorOf i = some 0x01 ∨ selectorOf i = some 0x02 ∨ selectorOf i = some 0x0A →
      t = { s with reply := .error .malformedFrame }) ∧
    (selectorOf i ≠ some 0x01 → selectorOf i ≠ some 0x02 → selectorOf i ≠ some 0x0A →
      t.ctx = Ctx.idleWith s.cfg s.ctx.buf ∧ t.arq = s.arq ∧ t.relay = s.relay ∧
        t.env.tx = s.env.tx) ∧
    (∀ p, i = .lrRecvFrame p → lrCount t p = 0)

/-! ## Transport Framer -/

/-- TF_SPLIT on every frame; nothing but the outcome changes. -/
def Obligations.TfSplitOutcome : Prop :=
  ∀ (f : Bytes) (s : State),
    (f.length < 1 ∨ 2 * s.cfg.writeLimit < f.length →
      exec (.tfSplit f) s = .next { s with reply := .refused .lengthRange }) ∧
    (1 ≤ f.length → f.length ≤ s.cfg.writeLimit →
      exec (.tfSplit f) s = .next { s with reply := .ok (.units [f]) }) ∧
    (1 ≤ f.length → s.cfg.writeLimit < f.length → f.length ≤ 2 * s.cfg.writeLimit →
      exec (.tfSplit f) s = .next { s with
      reply :=
        .ok (.units [0x01#8 :: f.take s.cfg.writeLimit, 0x02#8 :: f.drop s.cfg.writeLimit]) })

/-- TF_JOIN on every pair of units; nothing but the outcome changes. -/
def Obligations.TfJoinOutcome : Prop :=
  ∀ (u1 u2 : Bytes) (s : State),
    (u1.length = s.cfg.writeLimit + 1 → u1.head? = some 0x01#8 → 2 ≤ u2.length →
      u2.length ≤ s.cfg.writeLimit + 1 → u2.head? = some 0x02#8 →
      exec (.tfJoin u1 u2) s = .next { s with reply := .ok (.bytes (u1.drop 1 ++ u2.drop 1)) } ∧
      (u1.drop 1 ++ u2.drop 1).length = s.cfg.writeLimit + u2.length - 1) ∧
    (u1.length ≠ s.cfg.writeLimit + 1 ∨ u1.head? ≠ some 0x01#8 ∨ u2.length < 2 ∨
        s.cfg.writeLimit + 1 < u2.length ∨ u2.head? ≠ some 0x02#8 →
      exec (.tfJoin u1 u2) s = .next { s with reply := .error .malformedFrame })

/-- Joining the two outputs of TF_SPLIT gives the frame back; a frame that fits is its own single
output. -/
def Obligations.TfRoundTrip : Prop :=
  ∀ (f : Bytes) (s : State), 1 ≤ s.cfg.writeLimit →
    (s.cfg.writeLimit < f.length → f.length ≤ 2 * s.cfg.writeLimit → ∃ u1 u2,
      exec (.tfSplit f) s = .next { s with reply := .ok (.units [u1, u2]) } ∧
      exec (.tfJoin u1 u2) s = .next { s with reply := .ok (.bytes f) }) ∧
    (1 ≤ f.length → f.length ≤ s.cfg.writeLimit →
      exec (.tfSplit f) s = .next { s with reply := .ok (.units [f]) })

/-! ## Link Reader -/

/-- LR_RECV_FRAME returns, whole and without its markers, a format-valid frame whose physical
writes arrive byte by byte, however the bytes are spaced and with reads that time out between them,
as long as the read of each comes before the frame deadline; it reads nothing beyond the frame.
`laps` are the lapses before each reading of the clock. A frame of total length 1 cannot be received
(30_encoding.md, section 1). -/
def Obligations.LinkReaderReadsSentFrame : Prop :=
  ∀ (p : Port) (f : Bytes) (s : State) (evs : List RxEvent) (laps later : List Nat)
    (rest : List RxEvent), cfgLegal s.cfg = true → formatValid s.cfg f = true →
    f.head? ≠ some 0x01#8 → Brings s.cfg (writesOf s.cfg f).flatten evs laps →
    s.env.rx.get p = evs ++ rest → s.env.lapses = laps ++ later →
    exec (.lrRecvFrame p) s = .next { s with
      lr := s.lr.set p []
      env := { s.env with
        clock := s.env.clock + (evs.map (eventCost s.cfg)).sum + laps.sum
        rx := s.env.rx.set p rest
        lapses := later }
      reply := .ok (.frame f) }

/-- When no byte arrives before the per-attempt timeout the answer is Nothing, no state changes,
and the call took at least `T_BYTE` ticks. -/
def Obligations.LinkReaderNothing : Prop :=
  ∀ (p : Port) (s : State), (∀ b k rest, s.env.rx.get p ≠ .byte b k :: rest) →
    ∃ u, exec (.lrRecvFrame p) s = .next u ∧
      u = { s with lr := s.lr.set p [], env := u.env, reply := .ok .nothing } ∧
      u.env.tx = s.env.tx ∧ u.env.rx = s.env.rx.set p (s.env.rx.get p).tail ∧
      s.env.clock + s.cfg.tByte ≤ u.env.clock

/-- How a receive attempt aborts. Malformed: byte 0x00 at the frame start, at once; and every other
cause of `badRaw` (a marked 0x00, an invalid header, a missing or a needless marker, a wrong second
marker), at the byte that shows it, however the bytes are spaced; what comes after it stays in the
stream. Timeout, with the bytes so far discarded and `ctx` untouched: a frame of which some bytes
came and the rest did not before the frame deadline, the clock having moved past it since the last
byte, or through reads that all time out. -/
def Obligations.LinkReaderAborts : Prop :=
  (∀ (p : Port) (s : State) (k : Nat) (rest : List RxEvent),
    s.env.rx.get p = .byte 0 k :: rest →
    ∃ u, exec (.lrRecvFrame p) s = .next u ∧
      u = { s with
        ctx := Ctx.idleWith s.cfg s.ctx.buf
        lr := s.lr.set p []
        env := u.env
        reply := .error .malformedFrame } ∧
      u.env.rx = s.env.rx.set p rest ∧ u.env.tx = s.env.tx ∧ s.env.clock + k ≤ u.env.clock) ∧
  (∀ (p : Port) (bs : Bytes) (s : State) (evs : List RxEvent) (laps later : List Nat)
    (rest : List RxEvent), cfgLegal s.cfg = true → badRaw s.cfg bs →
    Brings s.cfg bs evs laps → s.env.rx.get p = evs ++ rest → s.env.lapses = laps ++ later →
    exec (.lrRecvFrame p) s = .next { s with
      ctx := Ctx.idleWith s.cfg s.ctx.buf
      lr := s.lr.set p []
      env := { s.env with
        clock := s.env.clock + (evs.map (eventCost s.cfg)).sum + laps.sum
        rx := s.env.rx.set p rest
        lapses := later }
      reply := .error .malformedFrame }) ∧
  (∀ (p : Port) (f : Bytes) (s : State) (evs : List RxEvent) (laps later : List Nat) (m : Nat)
    (rest : List RxEvent), cfgLegal s.cfg = true → formatValid s.cfg f = true →
    f.head? ≠ some 0x01#8 → m < (writesOf s.cfg f).flatten.length →
    Brings s.cfg ((writesOf s.cfg f).flatten.take m) evs laps →
    s.env.rx.get p = evs ++ rest →
    (∀ late, s.env.lapses = laps ++ late :: later →
      s.cfg.tFrame ≤ (evs.tail.map (eventCost s.cfg)).sum + laps.tail.sum + late →
      exec (.lrRecvFrame p) s = .next { s with
        lr := s.lr.set p []
        env := { s.env with
          clock := s.env.clock + (evs.map (eventCost s.cfg)).sum + laps.sum + late
          rx := s.env.rx.set p rest
          lapses := later }
        reply := .error .timeout }) ∧
    (∀ (extras : List Nat) (more : List RxEvent), s.env.lapses = laps ++ later →
      rest = extras.map .silence ++ more → more = [] ∨ s.cfg.tFrame ≤ extras.length →
      ∃ u, exec (.lrRecvFrame p) s = .next u ∧
        u = { s with lr := s.lr.set p [], env := u.env, reply := .error .timeout } ∧
        u.env.tx = s.env.tx ∧ s.env.clock + s.cfg.tFrame ≤ u.env.clock ∧
        ∃ n, u.env.rx = s.env.rx.set p ((extras.drop n).map .silence ++ more)))

/-- LR_RECV_FRAME is bounded: more rounds than `lrFuel` never change what its loop does, and it
takes at most MAX_FRAME_SIZE + 2 bytes and at most T_FRAME + 1 silences off the stream; Nothing
comes from the first read only. -/
def Obligations.LinkReaderBounded : Prop :=
  (∀ (p : Port) (b : Byte) (deadline n : Nat) (s : State), cfgLegal s.cfg = true →
    getAcc s p = [b] → deadline ≤ s.env.clock + s.cfg.tFrame →
    lrLoop p deadline (lrFuel s.cfg + n) s = lrLoop p deadline (lrFuel s.cfg) s) ∧
  (∀ (p : Port) (s t : State), cfgLegal s.cfg = true → exec (.lrRecvFrame p) s = .next t →
    ∃ taken, s.env.rx.get p = taken ++ t.env.rx.get p ∧
      (taken.filter fun e => match e with | .byte _ _ => true | .silence _ => false).length ≤
        s.cfg.maxFrame + 2 ∧
      (taken.filter fun e => match e with | .byte _ _ => false | .silence _ => true).length ≤
        s.cfg.tFrame + 1 ∧
      (t.reply = .ok .nothing → taken = [] ∨ ∃ k, taken = [.silence k]))

/-- On every exit of LR_RECV_FRAME, whatever the stream brings: a returned frame is format-valid and
at least two bytes long; nothing is held for the port; `ctx` is reset on MalformedFrame and
untouched otherwise; bytes are only taken off the front of the port's own stream; and sender, relay,
configuration, requests, writes, draws and the other ports' streams and framing states are
untouched. -/
def Obligations.LinkReaderExits : Prop :=
  ∀ (p : Port) (s t : State), cfgLegal s.cfg = true → exec (.lrRecvFrame p) s = .next t →
    lrCount t p = 0 ∧
    (∀ f, t.reply = .ok (.frame f) → formatValid s.cfg f = true ∧ 2 ≤ f.length) ∧
    (t.reply = .error .malformedFrame → t.ctx = Ctx.idleWith s.cfg s.ctx.buf) ∧
    (t.reply ≠ .error .malformedFrame → t.ctx = s.ctx) ∧
    t.cfg = s.cfg ∧ t.arq = s.arq ∧ t.relay = s.relay ∧ t.requests = s.requests ∧
    t.env.tx = s.env.tx ∧ t.env.draws = s.env.draws ∧ s.env.clock ≤ t.env.clock ∧
    t.env.rx.get p <:+ s.env.rx.get p ∧
    ∀ q, q ≠ p → t.env.rx.get q = s.env.rx.get q ∧ getAcc t q = getAcc s q

/-- LR_DELIVER in terms of RSM_INGEST and RSM_EXTRACT, every verdict and every capacity. -/
def Obligations.LrDeliverOutcome : Prop :=
  ∀ (f : Bytes) (cap : Nat) (s : State), ∃ u t,
    exec (.rsmIngest f) s = .next u ∧ exec (.lrDeliver f cap) s = .next t ∧
    ((u.reply = .error .malformedFrame ∧ t = u) ∨
      (u.reply = .ok (.ingested .bypass) ∧
        ((cap < f.length - 1 ∧ t = { s with reply := .refused .bufferTooSmall }) ∨
          (f.length - 1 ≤ cap ∧ t = { s with reply := .ok (.datagram (f.drop 1)) }))) ∨
      (u.reply = .ok (.ingested .duplicate) ∧ t = { s with reply := .ok (.datagram []) }) ∨
      ((u.reply = .ok (.ingested .started) ∨ u.reply = .ok (.ingested .restarted) ∨
          u.reply = .ok (.ingested .accepted)) ∧
        ((cap < u.ctx.expectedSize ∧ t = { s with reply := .refused .bufferTooSmall }) ∨
          (u.ctx.expectedSize ≤ cap ∧ u.ctx.filled ≠ u.ctx.expectedSize ∧
            t = { u with reply := .ok (.datagram []) }) ∨
          (u.ctx.expectedSize ≤ cap ∧ u.ctx.filled = u.ctx.expectedSize ∧
            exec (.rsmExtract cap) u = .next t ∧
            ∃ out, t = { u with reply := .ok (.datagram out) }))))

/-! ## The frame and chunk rows, under the model's reading of them -/

/-- A non-fragmented frame handed in whole is delivered if it is format-valid, else malformed: the
model's reading of the rows NONFRAG_LO and NONFRAG_HI (DESIGN CHOICE, log 15). -/
def Obligations.NonfragRows : Prop :=
  ∀ (payload : Bytes) (s : State), cfgLegal s.cfg = true →
    (∀ len : BitVec 7,
      (1 ≤ len.toNat → len.toNat ≤ s.cfg.maxFrame → 1 + payload.length = len.toNat →
        exec (.nonfragLo len payload) s = .next { s with reply := .ok (.datagram payload) }) ∧
      (¬ (1 ≤ len.toNat ∧ len.toNat ≤ s.cfg.maxFrame ∧ 1 + payload.length = len.toNat) →
        exec (.nonfragLo len payload) s = .next { s with
          ctx := Ctx.idleWith s.cfg s.ctx.buf, reply := .error .malformedFrame })) ∧
    (∀ len : BitVec 6,
      (128 + len.toNat ≤ s.cfg.maxFrame → 1 + payload.length = 128 + len.toNat →
        exec (.nonfragHi len payload) s = .next { s with reply := .ok (.datagram payload) }) ∧
      (¬ (128 + len.toNat ≤ s.cfg.maxFrame ∧ 1 + payload.length = 128 + len.toNat) →
        exec (.nonfragHi len payload) s = .next { s with
          ctx := Ctx.idleWith s.cfg s.ctx.buf, reply := .error .malformedFrame }))

/-- A fragment handed in whole is ingested: the model's reading of the rows FRAG1 and FRAGN
(DESIGN CHOICE, log 16). -/
def Obligations.FragRows : Prop :=
  ∀ (size : BitVec 13) (tag : Tag) (payload : Bytes) (s : State),
    (cfgLegal s.cfg = true → lengthOk s.cfg size.toNat →
      payload.length = min size.toNat s.cfg.firstCap → s.ctx.idle = true ∨ s.ctx.tag ≠ tag →
      exec (.frag1 size tag payload) s = .next { s with
        ctx := openedCtx s.cfg s.ctx.buf size.toNat tag payload
        reply := .ok (.ingested (if s.ctx.idle then .started else .restarted)) }) ∧
    (∃ u, exec (.frag1 size tag payload) s = .next u ∧
      exec (.rsmIngest (headerBytes (.first size tag) ++ payload)) s = .next u) ∧
    ∀ off8 : BitVec 8,
      (∀ p, otherValid s.cfg size off8 →
        payload.length = min s.cfg.otherCap (size.toNat - 8 * off8.toNat) →
        s.ctx.idle = false → s.ctx.tag = tag → s.ctx.expectedSize = size.toNat →
        p = 1 + (8 * off8.toNat - s.cfg.firstCap) / s.cfg.otherCap →
        s.ctx.received[p]? ≠ some true →
        exec (.fragn size tag off8 payload) s = .next { s with
          ctx := grownCtx s.ctx p (8 * off8.toNat) payload
          reply := .ok (.ingested .accepted) }) ∧
      (∃ u, exec (.fragn size tag off8 payload) s = .next u ∧
        exec (.rsmIngest (headerBytes (.other size tag off8) ++ payload)) s = .next u)

/-- A physical write handed in behind bytes that are still unread waits at the end of the stream.
With none before it: the two physical writes of a frame wider than W, handed in one after the other
on an idle port, are held and complete the frame; a marked frame that fits one write is malformed;
byte 0x02 at a frame start is a length. The model's reading of the rows CHUNK1 and CHUNK2 (DESIGN
CHOICE, log 17; that surplus and waiting bytes are there at once, log 29). -/
def Obligations.ChunkRows : Prop :=
  ∀ (p : Port) (s : State), cfgLegal s.cfg = true →
    (streamBytes (s.env.rx.get p) ≠ [] → ∀ data : Bytes,
      exec (.chunk1 p data) s = .next { s with
        env := { s.env with rx := s.env.rx.set p (s.env.rx.get p ++ promptly (0x01#8 :: data)) }
        reply := .ok .nothing } ∧
      exec (.chunk2 p data) s = .next { s with
        env := { s.env with rx := s.env.rx.set p (s.env.rx.get p ++ promptly (0x02#8 :: data)) }
        reply := .ok .nothing }) ∧
    (streamBytes (s.env.rx.get p) = [] →
      (∀ f : Bytes, formatValid s.cfg f = true → s.cfg.writeLimit < f.length →
        (getAcc s p = [] →
          exec (.chunk1 p (f.take s.cfg.writeLimit)) s = .next { s with
            lr := s.lr.set p (0x01#8 :: f.take s.cfg.writeLimit), reply := .ok .nothing }) ∧
        (getAcc s p = 0x01#8 :: f.take s.cfg.writeLimit →
          exec (.chunk2 p (f.drop s.cfg.writeLimit)) s = .next { s with
            lr := s.lr.set p [], reply := .ok (.frame f) })) ∧
      (∀ (b0 : Byte) (more : Bytes), getAcc s p = [] → 2 ≤ b0.toNat →
        b0.toNat ≤ s.cfg.writeLimit → b0.toNat < 0xC0 →
        exec (.chunk1 p (b0 :: more)) s = .next { s with
          ctx := Ctx.idleWith s.cfg s.ctx.buf
          lr := s.lr.set p []
          env := { s.env with rx := s.env.rx.set p (promptly more ++ s.env.rx.get p) }
          reply := .error .malformedFrame }) ∧
      (∀ (b : Byte) (more : Bytes), getAcc s p = [] →
        exec (.chunk2 p (b :: more)) s = .next { s with
          lr := s.lr.set p []
          env := { s.env with rx := s.env.rx.set p (promptly more ++ s.env.rx.get p) }
          reply := .ok (.frame [0x02, b]) }))

/-- The acknowledgement frames are format-valid, pairwise different, and the only format-valid
frames recognised as acknowledgements, each of its own role. -/
def Obligations.AckRecognition : Prop :=
  ∀ (c : Cfg) (f : Bytes) (r : Role), cfgLegal c = true →
    formatValid c (ackFrame c r) = true ∧
    ackFrame c r = BitVec.ofNat 8 (1 + (ackToken c r).length) :: ackToken c r ∧
    (formatValid c f = true →
      (isAckOf c f r = true ↔ kindOf (f.headD 0) = .nonFrag ∧ f.drop 1 = ackToken c r) ∧
      (isAckOf c f r = true ↔ f = ackFrame c r) ∧
      (isAck c f = true ↔ ∃ q, isAckOf c f q = true)) ∧
    ∀ q, q ≠ r → ackFrame c q ≠ ackFrame c r

/-- An acknowledgement frame handed in whole, with no unread bytes before it, goes to who waits for
it: the sender, or the relay with a frame in flight on `DOWN`, whose receive attempt leaves no bytes
held for the port. Where no one waits, or bytes stand before it, it stands at the end of `rx[p]`,
and the relay takes it as the acknowledgement of the next frame in flight. The model's reading of
the rows ACK_CLIENT, ACK_RELAY, ACK_SERVER, which are `ackInstr r p` (DESIGN CHOICE, log 18, with
the 0 ticks of the receive attempt that takes one at once; that the bytes are there at once, log 29;
that an unfilled slot, which the invariant rules out, is an empty frame, log 30). -/
def Obligations.AckRows : Prop :=
  ∀ (r : Role) (p : Port) (s v : State), cfgLegal s.cfg = true →
    v = { s with lr := s.lr.set p [] } →
    (s.cfg.role ≠ .relay → s.arq.state = .awaitingAck → streamBytes (s.env.rx.get p) = [] →
      (r = s.cfg.peerRole → s.arq.idx + 1 = s.arq.nframes →
        exec (ackInstr r p) s = .next { v with
          arq := { s.arq with retries := 0, idx := s.arq.idx + 1, state := .done }
          reply := .ok (.arqState .done) }) ∧
      (r = s.cfg.peerRole → s.arq.idx + 1 ≠ s.arq.nframes → ∃ u,
        exec (ackInstr r p) s = .next u ∧
        senderWrote p (s.arq.frames.getD (s.arq.idx + 1) [])
          { s.arq with retries := 0, idx := s.arq.idx + 1 } (.arqState .awaitingAck) v u) ∧
      (r ≠ s.cfg.peerRole → ∃ u, exec (ackInstr r p) s = .next u ∧ senderWaited v u)) ∧
    (s.cfg.role ≠ .relay → s.arq.state ≠ .awaitingAck ∨ streamBytes (s.env.rx.get p) ≠ [] →
      exec (ackInstr r p) s = .next { standing p (ackFrame s.cfg r) s with
        reply := .ok (.arqState s.arq.state) }) ∧
    (s.cfg.role = .relay → p = .down → s.relay.inFlight = true →
      streamBytes (s.env.rx.get p) = [] →
      (r = s.cfg.peerRole → exec (ackInstr r p) s = .next (relayAdvanced v)) ∧
      (r ≠ s.cfg.peerRole → ∃ u, exec (ackInstr r p) s = .next u ∧ relayWaited v u)) ∧
    (s.cfg.role = .relay →
      p ≠ .down ∨ s.relay.inFlight = false ∨ streamBytes (s.env.rx.get p) ≠ [] →
      exec (ackInstr r p) s = .next { standing p (ackFrame s.cfg r) s with
        reply := .ok (.num s.relay.queue.length) }) ∧
    (s.cfg.role = .relay → p = .down → r = s.cfg.peerRole → s.relay.inFlight = false →
      ∀ g rest later, s.relay.queue = g :: rest → s.env.rx.up = [] → s.env.rx.down = [] →
        s.env.lapses = List.replicate
          (1 + (writesOf s.cfg (ackFrame s.cfg r)).flatten.length) 0 ++ later →
        ∃ u, runAll [ackInstr r p, .relayPoll, .relayPoll] s = some u ∧
          u.relay.queue = rest ∧ u.relay.inFlight = false ∧ u.relay.retries = 0 ∧
          u.env.rx.down = [] ∧ u.env.lapses = later ∧
          u.env.tx.down = s.env.tx.down ++ writesOf s.cfg g)

/-! ## ARQ Controller -/

/-- ARQ_SEND_START: the three refusals, each before any state change, and else the draw, the
fragmentation, the write of frame 0 and the deadline. -/
def Obligations.ArqSendStartOutcome : Prop :=
  ∀ (p : Port) (d : Bytes) (s : State), cfgLegal s.cfg = true →
    (s.arq.state = .awaitingAck ∨ s.arq.state = .retrying →
      exec (.arqSendStart p d) s = .next { s with reply := .refused .busy }) ∧
    (s.arq.state ≠ .awaitingAck → s.arq.state ≠ .retrying →
      (¬ lengthOk s.cfg d.length →
        exec (.arqSendStart p d) s = .next { s with reply := .refused .lengthRange }) ∧
      (lengthOk s.cfg d.length → tokenDatagram s.cfg d →
        exec (.arqSendStart p d) s = .next { s with reply := .refused .payloadIsAckToken }) ∧
      (lengthOk s.cfg d.length → ¬ tokenDatagram s.cfg d → ∃ (u : State) (t : Tag)
          (fs : List Bytes) (f0 : Bytes),
        exec (.arqSendStart p d) s = .next u ∧
        exec (.fragment d t fs.length) s = .next { s with reply := .ok (.units fs) } ∧
        fs[0]? = some f0 ∧
        (∀ drawn ds, s.env.draws = drawn :: ds → t = drawn ∧ u.env.draws = ds) ∧
        senderWrote p f0
          { state := .awaitingAck, retries := 0, deadline := 0, nframes := fs.length, idx := 0,
            frames := fs } (.num fs.length) s u))

/-- ARQ_SEND_POLL, every state of the sender. In AwaitingAck the receive attempt is
LR_RECV_FRAME, whose next state is `v`. In a state whose slot is unfilled, which the invariant rules
out, the frame written is empty by the model's choice (DESIGN CHOICE, log 30). -/
def Obligations.ArqSendPollOutcome : Prop :=
  ∀ (p : Port) (s : State),
    (s.arq.state = .idle ∨ s.arq.state = .done ∨ s.arq.state = .failed →
      exec (.arqSendPoll p) s = .next { s with reply := .ok (.arqState s.arq.state) }) ∧
    (s.arq.state = .retrying → ∃ u, exec (.arqSendPoll p) s = .next u ∧
      senderWrote p (s.arq.frames.getD s.arq.idx [])
        { s.arq with retries := s.arq.retries + 1 } (.arqState .awaitingAck) s u) ∧
    (s.arq.state = .awaitingAck → cfgLegal s.cfg = true → ∃ v u,
      exec (.lrRecvFrame p) s = .next v ∧ exec (.arqSendPoll p) s = .next u ∧
      ((broughtAck v ∧ s.arq.idx + 1 = s.arq.nframes ∧
          u = { v with
            arq := { s.arq with retries := 0, idx := s.arq.idx + 1, state := .done }
            reply := .ok (.arqState .done) }) ∨
        (broughtAck v ∧ s.arq.idx + 1 ≠ s.arq.nframes ∧
          senderWrote p (s.arq.frames.getD (s.arq.idx + 1) [])
            { s.arq with retries := 0, idx := s.arq.idx + 1 } (.arqState .awaitingAck) v u) ∨
        (¬ broughtAck v ∧ senderWaited v u)))

/-- A poll writes at most one frame, the outstanding one, on its own port only, never changes the
stored frames, and goes on to the next frame only when its receive attempt brought the matching
acknowledgement. An unfilled slot, which the invariant rules out, is an empty frame by the model's
choice (DESIGN CHOICE, log 30). -/
def Obligations.SenderWritesOnlyOutstanding : Prop :=
  ∀ (p : Port) (s t : State), exec (.arqSendPoll p) s = .next t →
    (∀ q, q ≠ p → t.env.tx.get q = s.env.tx.get q) ∧
    t.arq.frames = s.arq.frames ∧ t.arq.nframes = s.arq.nframes ∧
    (t.env.tx.get p = s.env.tx.get p ∨
      (t.arq.state = .awaitingAck ∧ t.env.tx.get p =
        s.env.tx.get p ++ writesOf s.cfg (t.arq.frames.getD t.arq.idx []))) ∧
    (t.arq.idx = s.arq.idx ∨
      (t.arq.idx = s.arq.idx + 1 ∧ s.arq.state = .awaitingAck ∧
        ∃ v f, exec (.lrRecvFrame p) s = .next v ∧ v.reply = .ok (.frame f) ∧
          isAckOf s.cfg f s.cfg.peerRole = true))

/-- On a silent link whose clock moves by at least the acknowledgement timeout between readings,
the first frame is written 1 + MAX_RETRY times, the datagram is aborted with RetriesExhausted,
and the error is raised once. -/
def Obligations.GivesUpAfterMaxRetry : Prop :=
  ∀ (p : Port) (d : Bytes) (s : State) (laps later : List Nat), cfgLegal s.cfg = true →
    s.arq.state ≠ .awaitingAck → s.arq.state ≠ .retrying → lengthOk s.cfg d.length →
    ¬ tokenDatagram s.cfg d → s.env.rx.get p = [] → s.env.lapses = laps ++ later →
    laps.length = 2 * s.cfg.maxRetry + 2 → (∀ l ∈ laps, s.cfg.tAck ≤ l) →
    ∃ u f0, runAll (.arqSendStart p d ::
        List.replicate (2 * s.cfg.maxRetry + 1) (.arqSendPoll p)) s = some u ∧
      u.arq.state = .failed ∧ u.reply = .error .retriesExhausted ∧ u.arq.idx = 0 ∧
      u.arq.frames[0]? = some f0 ∧
      u.env.tx.get p = s.env.tx.get p ++
        (List.replicate (1 + s.cfg.maxRetry) (writesOf s.cfg f0)).flatten ∧
      exec (.arqSendPoll p) u = .next { u with reply := .ok (.arqState .failed) }

/-- With the matching acknowledgements arriving at once, a datagram is sent whole: as many polls as
frames end in Done, and what was written is every frame of the datagram, once and in order. -/
def Obligations.SendsWholeDatagram : Prop :=
  ∀ (p : Port) (d : Bytes) (n : Nat) (s : State) (later : List Nat) (rest : List RxEvent),
    cfgLegal s.cfg = true → s.arq.state ≠ .awaitingAck → s.arq.state ≠ .retrying →
    lengthOk s.cfg d.length → ¬ tokenDatagram s.cfg d →
    exec (.fragCount d.length) s = .next { s with reply := .ok (.num n) } →
    s.env.rx.get p =
      promptly (List.replicate n (ackFrame s.cfg s.cfg.peerRole)).flatten ++ rest →
    s.env.lapses =
      List.replicate (1 + n * (2 + (ackToken s.cfg s.cfg.peerRole).length)) 0 ++ later →
    ∃ u t, runAll (.arqSendStart p d :: List.replicate n (.arqSendPoll p)) s = some u ∧
      u.arq.state = .done ∧ u.arq.idx = n ∧ u.reply = .ok (.arqState .done) ∧
      exec (.fragment d t n) s = .next { s with reply := .ok (.units u.arq.frames) } ∧
      u.env.tx.get p = s.env.tx.get p ++ (u.arq.frames.map (writesOf s.cfg)).flatten ∧
      u.env.rx.get p = rest

/-- ARQ_RECV_DATAGRAM: the refusal, and else one of its two ends, with no bytes held for the port; a
Timeout only after T_DGRAM ticks and with the context Idle. -/
def Obligations.RecvDatagramOutcome : Prop :=
  ∀ (p : Port) (cap : Nat) (s : State), cfgLegal s.cfg = true →
    (cap < max s.cfg.maxDatagram (s.cfg.maxFrame - 1) →
      exec (.arqRecvDatagram p cap) s = .next { s with reply := .refused .bufferTooSmall }) ∧
    (max s.cfg.maxDatagram (s.cfg.maxFrame - 1) ≤ cap → ∃ t,
      exec (.arqRecvDatagram p cap) s = .next t ∧ t.arq = s.arq ∧ t.relay = s.relay ∧
      t.requests = s.requests ∧ lrCount t p = 0 ∧
      ((t.reply = .error .timeout ∧ t.ctx.idle = true ∧
          s.env.clock + s.cfg.tDgram ≤ t.env.clock) ∨
        (∃ out, t.reply = .ok (.datagram out) ∧ 1 ≤ out.length ∧ out.length ≤ cap)))

/-- The frames of a datagram, written by a sender and arriving at once, are received as exactly
that datagram, with one acknowledgement of this instance's role for each frame, nothing read
beyond them, and the context Idle again after a fragmented datagram. -/
def Obligations.ReceivesWholeDatagram : Prop :=
  ∀ (p : Port) (cap : Nat) (d : Bytes) (t : Tag) (slots : Nat) (s : State) (fs : List Bytes)
    (raw : Bytes) (later : List Nat) (rest : List RxEvent), cfgLegal s.cfg = true →
    max s.cfg.maxDatagram (s.cfg.maxFrame - 1) ≤ cap → ¬ tokenDatagram s.cfg d →
    s.ctx.idle = true ∨ s.ctx.tag ≠ t →
    exec (.fragment d t slots) s = .next { s with reply := .ok (.units fs) } →
    raw = (fs.map (writesOf s.cfg)).flatten.flatten →
    s.env.rx.get p = promptly raw ++ rest →
    s.env.lapses = List.replicate (1 + 2 * raw.length) 0 ++ later →
    ∃ u, exec (.arqRecvDatagram p cap) s = .next u ∧ u.reply = .ok (.datagram d) ∧
      u.env.rx.get p = rest ∧
      u.env.tx.get p =
        s.env.tx.get p ++ List.replicate fs.length (ackFrame s.cfg s.cfg.role) ∧
      (s.cfg.nonfragCap < d.length → u.ctx = Ctx.idleWith s.cfg u.ctx.buf) ∧
      (d.length ≤ s.cfg.nonfragCap → u.ctx = s.ctx)

/-- One acknowledgement for each data frame that is not malformed, duplicates included, and none for
a malformed frame, for bytes that are no frame, or for an acknowledgement frame: whatever frames and
broken bytes arrive, in any state, ARQ_RECV_DATAGRAM writes the acknowledgements `reception` counts,
ends with the datagram or the Timeout it gives, and leaves the context and the unread bytes it
says. -/
def Obligations.ReceiverAcknowledges : Prop :=
  ∀ (p : Port) (cap : Nat) (arrivals : List Arrival) (s : State) (raw : Bytes)
    (later : List Nat) (r : Reception), cfgLegal s.cfg = true →
    max s.cfg.maxDatagram (s.cfg.maxFrame - 1) ≤ cap →
    (∀ a ∈ arrivals, a.readable s.cfg) →
    raw = (arrivals.map (Arrival.raw s.cfg)).flatten →
    s.env.rx.get p = promptly raw →
    s.env.lapses = List.replicate (1 + 2 * raw.length) 0 ++ later →
    r = reception cap arrivals s →
    ∃ u, exec (.arqRecvDatagram p cap) s = .next u ∧
      u.env.tx.get p = s.env.tx.get p ++ List.replicate r.acks (ackFrame s.cfg s.cfg.role) ∧
      (∀ out, r.out = some out → u.reply = .ok (.datagram out)) ∧
      (r.out = none → u.reply = .error .timeout) ∧
      u.ctx = r.ctx ∧
      u.env.rx.get p = promptly (r.unread.map (Arrival.raw s.cfg)).flatten

/-- All ARQ_RECV_DATAGRAM ever writes is acknowledgement frames of its own role, on its own port;
the other ports' streams and framing states are untouched. -/
def Obligations.ReceiverWritesOnlyAcks : Prop :=
  ∀ (p : Port) (cap : Nat) (s t : State), cfgLegal s.cfg = true →
    exec (.arqRecvDatagram p cap) s = .next t →
    (∃ k, t.env.tx.get p =
      s.env.tx.get p ++ List.replicate k (ackFrame s.cfg s.cfg.role)) ∧
    ∀ q, q ≠ p → t.env.tx.get q = s.env.tx.get q ∧ t.env.rx.get q = s.env.rx.get q ∧
      getAcc t q = getAcc s q

/-- RELAY_POLL on a non-relay, and on a relay with nothing in flight: the intake from `UP`, whose
receive attempt leaves `v`, then the write of the head of the queue to `DOWN`. -/
def Obligations.RelayTakesAndForwards : Prop :=
  ∀ s : State,
    (s.cfg.role ≠ .relay → exec .relayPoll s = .next { s with reply := .refused .wrongRole }) ∧
    (s.cfg.role = .relay → cfgLegal s.cfg = true → s.relay.inFlight = false → ∃ v u,
      exec (.lrRecvFrame .up) s = .next v ∧ exec .relayPoll s = .next u ∧
      (((relayIntake v).relay.queue = [] ∧ u = { relayIntake v with reply := .ok (.num 0) }) ∨
        ∃ g rest, (relayIntake v).relay.queue = g :: rest ∧
          (relayIntake v).env.clock ≤ u.env.clock ∧ u.env.rx = (relayIntake v).env.rx ∧
          u.env.tx = (wrote .down (writesOf s.cfg g) (relayIntake v)).env.tx ∧
          u = { relayIntake v with
            env := u.env
            relay := { (relayIntake v).relay with
              inFlight := true, deadline := u.env.clock + s.cfg.tAck }
            reply := .ok (.num (rest.length + 1)) }))

/-- RELAY_POLL on a relay with a frame in flight: the intake from `UP`, then the receive attempt on
`DOWN`, whose next state is `x`: the matching acknowledgement advances the queue; else, past the
deadline, the head is written again or, with the retries used up, dropped. -/
def Obligations.RelayInFlight : Prop :=
  ∀ s : State, s.cfg.role = .relay → cfgLegal s.cfg = true → s.relay.inFlight = true →
    ∃ v x u, exec (.lrRecvFrame .up) s = .next v ∧
      exec (.lrRecvFrame .down) (relayIntake v) = .next x ∧ exec .relayPoll s = .next u ∧
      ((broughtAck x ∧ u = relayAdvanced x) ∨ (¬ broughtAck x ∧ relayWaited x u))

/-! ## The whole block -/

/-- LFB_INIT puts every piece of state at its reset value, keeps `ctx.buf`, `arq.frames`, CFG and
the environment, does the same twice, and leaves the power-on state as it is. -/
def Obligations.LfbInitEffect : Prop :=
  (∀ s : State,
    exec .lfbInit s = .next { s with
      ctx := {
        idle := true
        tag := 0
        expectedSize := 0
        filled := 0
        fragCount := 0
        sizeTable := List.replicate (nmax s.cfg) 0
        curIndex := 0
        received := List.replicate (nmax s.cfg) false
        buf := s.ctx.buf }
      lr := ⟨[], [], []⟩
      arq := {
        state := .idle, retries := 0, deadline := 0, nframes := 0, idx := 0
        frames := s.arq.frames }
      relay := { queue := [], inFlight := false, retries := 0, deadline := 0 }
      reply := .ok .unit } ∧
    runAll [.lfbInit, .lfbInit] s = runAll [.lfbInit] s) ∧
  ∀ c : Cfg, exec .lfbInit (State.resetWith c) =
    .next { State.resetWith c with reply := .ok .unit }

/-- A step: none under an illegal configuration (00_scope.md R6: a model must refuse to be
instantiated with one; that it is `step` which refuses is the model's choice, log 6); with nothing
requested the block waits, which is the model's choice (log 1); else the oldest request is taken off the queue and the instruction it
decodes to is executed. -/
def Obligations.StepRunsDecodedRequest : Prop :=
  ∀ s : State,
    (cfgLegal s.cfg = false → step s = .refused .illegalConfig) ∧
    (cfgLegal s.cfg = true → s.requests = [] → step s = .next s) ∧
    (cfgLegal s.cfg = true → ∀ r rest i, s.requests = r :: rest → decode s.cfg r = .ok i →
      step s = exec i { s with requests := rest })

/-- What a step does with a request that decodes to no instruction: an unknown selector is
refused; an empty or truncated frame and a physical write without a marker are MalformedFrame
(DESIGN CHOICE for the last two, log 25); operand bytes that are no operands in the model's layout
end in the model's own refusal of the step (DESIGN CHOICE, log 3). -/
def Obligations.RequestsTurnedAway : Prop :=
  ∀ (s : State) (r : Request) (rest : List Request), cfgLegal s.cfg = true →
    s.requests = r :: rest →
    (r.fmt = .operation → ∀ sel ops, r.bytes = sel :: ops → 0x11 < sel.toNat →
      step s = .next { s with requests := rest, reply := .refused .unknownOperation }) ∧
    (r.fmt = .frame →
      r.bytes = [] ∨ (∃ b0 more, r.bytes = b0 :: more ∧
        ((0xC0 ≤ b0.toNat ∧ b0.toNat < 0xE0 ∧ more.length < 3) ∨
          (0xE0 ≤ b0.toNat ∧ more.length < 4))) →
      step s = .next { s with
        requests := rest
        ctx := Ctx.idleWith s.cfg s.ctx.buf
        reply := .error .malformedFrame }) ∧
    (r.fmt = .chunk → r.bytes.head? ≠ some 0x01#8 → r.bytes.head? ≠ some 0x02#8 →
      step s = .next { s with
        requests := rest
        ctx := Ctx.idleWith s.cfg s.ctx.buf
        lr := s.lr.set r.port []
        reply := .error .malformedFrame }) ∧
    (r.fmt = .kind ∨ (r.fmt = .operation ∧ ∀ sel ops, r.bytes = sel :: ops → sel.toNat ≤ 0x11) →
      (∀ i, decode s.cfg r ≠ .ok i) → step s = .refused .badRequest)

/-- The invariant of the state is kept by every step, from every state that has it. -/
def Obligations.StepKeepsInvariant : Prop :=
  ∀ s t : State, StateInv s → step s = .next t → StateInv t

/-- The invariant holds right after reset, under CFG_REF and under every legal configuration. What
reset leaves in `ctx.buf`, `lr[p].acc` and `arq.frames` is the model's choice (DESIGN CHOICE, log 11
and 30). -/
def Obligations.ResetInvariant : Prop :=
  StateInv State.reset ∧ ∀ c : Cfg, cfgLegal c = true → StateInv (State.resetWith c)

/-- No instruction writes the configuration or the requests; the clock never goes back; what was
written to a port stays written; and each port delivers its bytes in the order in which they came:
bytes are taken off the front only, and the rows that put any into a stream put them behind those
that are still unread. The clauses on those rows are the model's choice (DESIGN CHOICE): that a
chunk row puts there the bytes of the write that are not taken (log 17), an acknowledgement row those
of the frame when no one takes it (log 18), and that the events put there are bytes of 0 ticks
(log 29). -/
def Obligations.EnvironmentOrder : Prop :=
  ∀ (i : Instr) (s t : State), exec i s = .next t →
    t.cfg = s.cfg ∧ t.requests = s.requests ∧ s.env.clock ≤ t.env.clock ∧
    (∀ p, s.env.tx.get p <+: t.env.tx.get p) ∧
    ((∀ p data, i ≠ .chunk1 p data ∧ i ≠ .chunk2 p data) → (∀ r p, i ≠ ackInstr r p) →
      ∀ p, t.env.rx.get p <:+ s.env.rx.get p) ∧
    (∀ p unit data, (unit = 0x01#8 :: data ∧ i = .chunk1 p data) ∨
        (unit = 0x02#8 :: data ∧ i = .chunk2 p data) →
      (∀ q, q ≠ p → t.env.rx.get q = s.env.rx.get q) ∧
      ∃ n, streamBytes (t.env.rx.get p) = streamBytes (s.env.rx.get p) ++ unit.drop n ∧
        (streamBytes (s.env.rx.get p) = [] →
          t.env.rx.get p = promptly (unit.drop n) ++ s.env.rx.get p) ∧
        (streamBytes (s.env.rx.get p) ≠ [] →
          t.env.rx.get p = s.env.rx.get p ++ promptly unit)) ∧
    (∀ r p, i = ackInstr r p →
      (∀ q, q ≠ p → t.env.rx.get q = s.env.rx.get q) ∧
      (t.env.rx = s.env.rx ∨ t.env.rx = (standing p (ackFrame s.cfg r) s).env.rx))

/-- A refused request changes nothing but the outcome. -/
def Obligations.RefusedChangesNothing : Prop :=
  ∀ (i : Instr) (s t : State) (r : Reason), exec i s = .next t → t.reply = .refused r →
    t = { s with reply := .refused r }

/-- Which operation can end in which outcome, both ways: no operation ends in an outcome outside its
row, and every entry of a row is an outcome of that operation in some legal state. -/
def Obligations.OutcomesByOperation : Prop :=
  (∀ (i : Instr) (sel : Nat) (s t : State), selectorOf i = some sel → exec i s = .next t →
    outcomeAllowed sel t.reply) ∧
  (∀ sel e, e ∈ errorsOf sel → ∃ i s t, cfgLegal s.cfg = true ∧ selectorOf i = some sel ∧
    exec i s = .next t ∧ t.reply = .error e) ∧
  (∀ sel r, r ∈ reasonsOf sel → ∃ i s t, cfgLegal s.cfg = true ∧ selectorOf i = some sel ∧
    exec i s = .next t ∧ t.reply = .refused r)

/-- Every instruction answers a next state in every state: an error or a refusal of the spec is an
outcome after which the block goes on (DEDUCED, log 24, from 00_scope.md R11 and 60_exceptions.md
R161). -/
def Obligations.EveryInstructionCompletes : Prop :=
  ∀ (i : Instr) (s : State), ∃ t, exec i s = .next t
end

