-- ==== Sys2Proof/Laws/Memory.lean ====
section
/-! SUPPORT. The laws of the byte space: a read after a write, and that every write keeps the
canonical form. -/

namespace Sys2Proof.Machine

@[simp] theorem Memory.read_nil (a : Nat) : Memory.read [] a = none := rfl

theorem Memory.wf_iff (m : Memory) : Memory.wf m = true ↔ m.Pairwise fun x y => x.1 < y.1 := by
  simp [Memory.wf]

theorem Memory.wf_nil : Memory.wf [] = true := by simp [Memory.wf]

/-- A byte just written reads back. -/
@[simp] theorem Memory.read_write_same (m : Memory) (a : Nat) (b : Byte) :
    Memory.read (Memory.write m a b) a = some b := by
  induction m with
  | nil => simp [Memory.write, Memory.read]
  | cons x rest ih =>
    obtain ⟨x, c⟩ := x
    simp only [Memory.write]
    split
    · simp [Memory.read]
    · split
      · simp [Memory.read]
      · next h1 h2 => simp [Memory.read, Ne.symm h2, ih]

/-- In a canonical space nothing stands below its first index. -/
theorem Memory.read_below {m : Memory} {a : Nat} (h : ∀ x ∈ m, a < x.1) :
    Memory.read m a = none := by
  induction m with
  | nil => rfl
  | cons x rest ih =>
    have hx : x.1 ≠ a := Nat.ne_of_gt (h x List.mem_cons_self)
    simp only [Memory.read, hx, if_false]
    exact ih fun y hy => h y (List.mem_cons_of_mem _ hy)

/-- A write leaves every other index alone. -/
theorem Memory.read_write_ne (m : Memory) {a i : Nat} (b : Byte) (h : i ≠ a) :
    Memory.read (Memory.write m a b) i = Memory.read m i := by
  induction m with
  | nil => simp [Memory.write, Memory.read, h.symm]
  | cons x rest ih =>
    obtain ⟨x, c⟩ := x
    simp only [Memory.write]
    split
    · simp [Memory.read, h.symm]
    · split
      · next h2 => subst h2; simp [Memory.read, h.symm]
      · simp only [Memory.read]; split <;> simp_all

/-- What an index is listed at after a write: the written one, or one listed before. -/
theorem Memory.mem_write {m : Memory} {a : Nat} {b : Byte} {x : Host.Cell}
    (h : x ∈ Memory.write m a b) : x = (a, b) ∨ x ∈ m := by
  induction m with
  | nil => simpa [Memory.write] using h
  | cons y rest ih =>
    obtain ⟨y, c⟩ := y
    simp only [Memory.write] at h
    split at h
    · simpa using h
    · split at h
      · rcases List.mem_cons.mp h with h | h
        · exact .inl h
        · exact .inr (List.mem_cons_of_mem _ h)
      · rcases List.mem_cons.mp h with h | h
        · exact .inr (h ▸ List.mem_cons_self)
        · exact (ih h).imp_right (List.mem_cons_of_mem _)

/-- A write keeps the canonical form. -/
theorem Memory.wf_write {m : Memory} (h : Memory.wf m = true) (a : Nat) (b : Byte) :
    Memory.wf (Memory.write m a b) = true := by
  rw [Memory.wf_iff] at h ⊢
  induction m with
  | nil => simp [Memory.write]
  | cons x rest ih =>
    obtain ⟨x, c⟩ := x
    have ⟨hx, hr⟩ := List.pairwise_cons.mp h
    simp only [Memory.write]
    split
    · next hlt =>
      refine List.pairwise_cons.mpr ⟨fun y hy => ?_, h⟩
      rcases List.mem_cons.mp hy with rfl | hy
      · exact hlt
      · exact Nat.lt_trans hlt (hx y hy)
    · split
      · next heq => subst heq; exact List.pairwise_cons.mpr ⟨hx, hr⟩
      · refine List.pairwise_cons.mpr ⟨fun y hy => ?_, ih hr⟩
        rcases Memory.mem_write hy with rfl | hy
        · simp; omega
        · exact hx y hy

/-- A range write keeps the canonical form. -/
theorem Memory.wf_writeRange {m : Memory} (h : Memory.wf m = true) (a : Nat) (v : Bytes) :
    Memory.wf (Memory.writeRange m a v) = true := by
  induction v generalizing m a with
  | nil => exact h
  | cons b rest ih => exact ih (Memory.wf_write h a b) (a + 1)

/-- A range write leaves every index outside the range alone. -/
theorem Memory.read_writeRange_outside (m : Memory) (a : Nat) (v : Bytes) {i : Nat}
    (h : i < a ∨ a + v.length ≤ i) :
    Memory.read (Memory.writeRange m a v) i = Memory.read m i := by
  induction v generalizing m a with
  | nil => rfl
  | cons b rest ih =>
    simp only [List.length_cons] at h
    rw [Memory.writeRange, ih _ _ (by omega), Memory.read_write_ne _ _ (by omega)]

/-- A range write puts byte `k` of the sequence at index `a + k`. -/
theorem Memory.read_writeRange_inside (m : Memory) (a : Nat) (v : Bytes) {k : Nat}
    (h : k < v.length) : Memory.read (Memory.writeRange m a v) (a + k) = some v[k] := by
  induction v generalizing m a k with
  | nil => simp at h
  | cons b rest ih =>
    rw [Memory.writeRange]
    cases k with
    | zero =>
      rw [Memory.read_writeRange_outside _ _ _ (by omega), Nat.add_zero]
      exact Memory.read_write_same m a b
    | succ k =>
      have hk : k < rest.length := by simpa using h
      have := ih (Memory.write m a b) (a + 1) hk
      rw [show a + (k + 1) = a + 1 + k by omega, this]
      rfl

/-- What an index is listed at after a range write: one of the range, or one listed before. -/
theorem Memory.mem_writeRange {m : Memory} {a : Nat} {v : Bytes} {x : Host.Cell}
    (h : x ∈ Memory.writeRange m a v) : (a ≤ x.1 ∧ x.1 < a + v.length) ∨ x ∈ m := by
  induction v generalizing m a with
  | nil => exact .inr h
  | cons b rest ih =>
    rcases ih h with h | h
    · exact .inl ⟨by omega, by simp; omega⟩
    · rcases Memory.mem_write h with rfl | h
      · exact .inl ⟨Nat.le_refl _, by simp⟩
      · exact .inr h

/-- The bytes copied out are as many as asked for. -/
@[simp] theorem bufBytesTo_length (m : Memory) (n : Nat) : (bufBytesTo m n).length = n := by
  simp [bufBytesTo]

/-- A byte that was written reads as written; no free value is left in it. -/
theorem bufByte_of_read {m : Memory} {a : Nat} {b : Byte} (h : Memory.read m a = some b) :
    bufByte m a = b := by simp [bufByte, h]

end Sys2Proof.Machine
end

