-- ==== Sys2Proof/Laws/Context.lean ====
section
/-! SUPPORT. The fields of the contexts that reset, bind and accept make, and the inversion of
`ingestCtx`. -/

namespace Sys2Proof.Machine

@[simp] theorem idleWith_buf (c : Cfg) (m : Memory) : (Ctx.idleWith c m).buf = m := rfl
@[simp] theorem idleWith_idle (c : Cfg) (m : Memory) : (Ctx.idleWith c m).idle = true := rfl

@[simp] theorem bindCtx_idle (c : Cfg) (x : Ctx) (n : Nat) (t : Tag) :
    (bindCtx c x n t).idle = false := rfl
@[simp] theorem bindCtx_tag (c : Cfg) (x : Ctx) (n : Nat) (t : Tag) :
    (bindCtx c x n t).tag = t := rfl
@[simp] theorem bindCtx_expectedSize (c : Cfg) (x : Ctx) (n : Nat) (t : Tag) :
    (bindCtx c x n t).expectedSize = n := rfl
@[simp] theorem bindCtx_filled (c : Cfg) (x : Ctx) (n : Nat) (t : Tag) :
    (bindCtx c x n t).filled = 0 := rfl
@[simp] theorem bindCtx_fragCount (c : Cfg) (x : Ctx) (n : Nat) (t : Tag) :
    (bindCtx c x n t).fragCount = nfrag c n := rfl
@[simp] theorem bindCtx_sizeTable (c : Cfg) (x : Ctx) (n : Nat) (t : Tag) :
    (bindCtx c x n t).sizeTable = sizeTableOf c n ++ List.replicate (nmax c - nfrag c n) 0 := rfl
@[simp] theorem bindCtx_curIndex (c : Cfg) (x : Ctx) (n : Nat) (t : Tag) :
    (bindCtx c x n t).curIndex = 0 := rfl
@[simp] theorem bindCtx_received (c : Cfg) (x : Ctx) (n : Nat) (t : Tag) :
    (bindCtx c x n t).received = List.replicate (nmax c) false := rfl
@[simp] theorem bindCtx_buf (c : Cfg) (x : Ctx) (n : Nat) (t : Tag) :
    (bindCtx c x n t).buf = x.buf := rfl

@[simp] theorem acceptCtx_idle (x : Ctx) (p a : Nat) (v : Bytes) (n : Nat) :
    (acceptCtx x p a v n).idle = x.idle := rfl
@[simp] theorem acceptCtx_tag (x : Ctx) (p a : Nat) (v : Bytes) (n : Nat) :
    (acceptCtx x p a v n).tag = x.tag := rfl
@[simp] theorem acceptCtx_expectedSize (x : Ctx) (p a : Nat) (v : Bytes) (n : Nat) :
    (acceptCtx x p a v n).expectedSize = x.expectedSize := rfl
@[simp] theorem acceptCtx_filled (x : Ctx) (p a : Nat) (v : Bytes) (n : Nat) :
    (acceptCtx x p a v n).filled = x.filled + v.length := rfl
@[simp] theorem acceptCtx_fragCount (x : Ctx) (p a : Nat) (v : Bytes) (n : Nat) :
    (acceptCtx x p a v n).fragCount = x.fragCount := rfl
@[simp] theorem acceptCtx_sizeTable (x : Ctx) (p a : Nat) (v : Bytes) (n : Nat) :
    (acceptCtx x p a v n).sizeTable = x.sizeTable := rfl
@[simp] theorem acceptCtx_received (x : Ctx) (p a : Nat) (v : Bytes) (n : Nat) :
    (acceptCtx x p a v n).received = x.received.set p true := rfl
@[simp] theorem acceptCtx_buf (x : Ctx) (p a : Nat) (v : Bytes) (n : Nat) :
    (acceptCtx x p a v n).buf = Memory.writeRange x.buf a v := rfl

/-- All `ingestCtx` can do (42_reassembler.md R94): nothing, a reset, a bind with the payload of a
format-valid first fragment, or the acceptance of a format-valid other fragment of the bound
datagram at a position not yet received. -/
theorem ingestCtx_cases (c : Cfg) (ctx : Ctx) (f : Bytes) :
    (rsmVerdict c ctx f = .malformed ∧ ingestCtx c ctx f = Ctx.idleWith c ctx.buf) ∨
      ((rsmVerdict c ctx f = .bypass ∨ rsmVerdict c ctx f = .duplicate) ∧
        ingestCtx c ctx f = ctx) ∨
      (∃ size tag, formatHeader c f = some (.first size tag) ∧
        (ctx.idle = true ∨ ctx.tag ≠ tag) ∧
        rsmVerdict c ctx f = (if ctx.idle then .start else .restart) ∧
        ingestCtx c ctx f =
          acceptCtx (bindCtx c ctx size.toNat tag) 0 0 (f.drop 4) f.length) ∨
      (∃ size tag off8, formatHeader c f = some (.other size tag off8) ∧
        ctx.idle = false ∧ ctx.tag = tag ∧ ctx.expectedSize = size.toNat ∧
        ctx.received[hdrPos c off8]? ≠ some true ∧ rsmVerdict c ctx f = .new ∧
        ingestCtx c ctx f =
          acceptCtx ctx (hdrPos c off8) (hdrOffset off8) (f.drop 5) f.length) := by
  unfold ingestCtx rsmVerdict
  cases hf : formatHeader c f with
  | none => exact .inl ⟨rfl, rfl⟩
  | some h =>
    cases h with
    | nonFrag len => exact .inr (.inl ⟨.inl rfl, rfl⟩)
    | first size tag =>
      cases hi : ctx.idle with
      | true => exact .inr (.inr (.inl ⟨size, tag, rfl, .inl rfl, rfl, rfl⟩))
      | false =>
        by_cases ht : tag = ctx.tag
        · by_cases hs : size.toNat = ctx.expectedSize
          · exact .inr (.inl ⟨.inr (by simp [ht, hs]), by simp [ht, hs]⟩)
          · exact .inl ⟨by simp [ht, hs], by simp [ht, hs]⟩
        · exact .inr (.inr (.inl ⟨size, tag, rfl, .inr (Ne.symm ht), by simp [ht], by simp [ht]⟩))
    | other size tag off8 =>
      cases hi : ctx.idle with
      | true => exact .inl ⟨rfl, rfl⟩
      | false =>
        by_cases ht : tag = ctx.tag
        · by_cases hs : size.toNat = ctx.expectedSize
          · by_cases hr : ctx.received[hdrPos c off8]? = some true
            · exact .inr (.inl ⟨.inr (by simp [ht, hs, hr]), by simp [ht, hs, hr]⟩)
            · exact .inr (.inr (.inr ⟨size, tag, off8, rfl, rfl, ht.symm, hs.symm, hr,
                by simp [ht, hs, hr], by simp [ht, hs, hr]⟩))
          · exact .inl ⟨by simp [ht, hs], by simp [ht, hs]⟩
        · exact .inl ⟨by simp [ht], by simp [ht]⟩

/-- RSM_INGEST keeps the canonical form of `ctx.buf`. -/
theorem ingestCtx_wf {c : Cfg} {ctx : Ctx} (h : Memory.wf ctx.buf = true) (f : Bytes) :
    Memory.wf (ingestCtx c ctx f).buf = true := by
  rcases ingestCtx_cases c ctx f with ⟨-, e⟩ | ⟨-, e⟩ | ⟨_, _, -, -, -, e⟩ |
    ⟨_, _, _, -, -, -, -, -, -, e⟩ <;> rw [e]
  · exact h
  · exact h
  · exact Memory.wf_writeRange h _ _
  · exact Memory.wf_writeRange h _ _

end Sys2Proof.Machine
end

