-- ==== Sys2Proof/Laws/State.lean ====
section
/-! SUPPORT. The small lemmas of the state updates: one per field per update, so that no later
proof unfolds a record update; and the laws of the per-port values. -/

namespace Sys2Proof.Machine

/-! ## Ports -/

@[simp] theorem PerPort.get_set_same {α : Type} (v : PerPort α) (p : Port) (a : α) :
    (v.set p a).get p = a := by cases p <;> rfl

theorem PerPort.get_set_ne {α : Type} (v : PerPort α) {p q : Port} (h : q ≠ p) (a : α) :
    (v.set p a).get q = v.get q := by cases p <;> cases q <;> first | rfl | exact absurd rfl h

@[simp] theorem PerPort.set_get {α : Type} (v : PerPort α) (p : Port) : v.set p (v.get p) = v := by
  cases p <;> rfl

@[simp] theorem PerPort.set_set {α : Type} (v : PerPort α) (p : Port) (a b : α) :
    (v.set p a).set p b = v.set p b := by cases p <;> rfl

theorem getAcc_setAcc_same (s : State) (p : Port) (acc : Bytes) :
    getAcc (setAcc s p acc) p = acc := PerPort.get_set_same _ _ _

theorem getAcc_setAcc_ne (s : State) {p q : Port} (h : q ≠ p) (acc : Bytes) :
    getAcc (setAcc s p acc) q = getAcc s q := PerPort.get_set_ne _ h _

/-! ## State updates -/

@[simp] theorem withReply_cfg (s : State) (r : Reply) : (withReply s r).cfg = s.cfg := rfl
@[simp] theorem withReply_ctx (s : State) (r : Reply) : (withReply s r).ctx = s.ctx := rfl
@[simp] theorem withReply_lr (s : State) (r : Reply) : (withReply s r).lr = s.lr := rfl
@[simp] theorem withReply_arq (s : State) (r : Reply) : (withReply s r).arq = s.arq := rfl
@[simp] theorem withReply_relay (s : State) (r : Reply) : (withReply s r).relay = s.relay := rfl
@[simp] theorem withReply_env (s : State) (r : Reply) : (withReply s r).env = s.env := rfl
@[simp] theorem withReply_requests (s : State) (r : Reply) : (withReply s r).requests = s.requests := rfl
@[simp] theorem withReply_reply (s : State) (r : Reply) : (withReply s r).reply = r := rfl

@[simp] theorem replyOk_cfg (s : State) (v : OkValue) : (replyOk s v).cfg = s.cfg := rfl
@[simp] theorem replyOk_ctx (s : State) (v : OkValue) : (replyOk s v).ctx = s.ctx := rfl
@[simp] theorem replyOk_lr (s : State) (v : OkValue) : (replyOk s v).lr = s.lr := rfl
@[simp] theorem replyOk_arq (s : State) (v : OkValue) : (replyOk s v).arq = s.arq := rfl
@[simp] theorem replyOk_relay (s : State) (v : OkValue) : (replyOk s v).relay = s.relay := rfl
@[simp] theorem replyOk_env (s : State) (v : OkValue) : (replyOk s v).env = s.env := rfl
@[simp] theorem replyOk_requests (s : State) (v : OkValue) : (replyOk s v).requests = s.requests := rfl
@[simp] theorem replyOk_reply (s : State) (v : OkValue) : (replyOk s v).reply = .ok v := rfl

@[simp] theorem refuse_cfg (s : State) (r : Reason) : (refuse s r).cfg = s.cfg := rfl
@[simp] theorem refuse_ctx (s : State) (r : Reason) : (refuse s r).ctx = s.ctx := rfl
@[simp] theorem refuse_lr (s : State) (r : Reason) : (refuse s r).lr = s.lr := rfl
@[simp] theorem refuse_arq (s : State) (r : Reason) : (refuse s r).arq = s.arq := rfl
@[simp] theorem refuse_relay (s : State) (r : Reason) : (refuse s r).relay = s.relay := rfl
@[simp] theorem refuse_env (s : State) (r : Reason) : (refuse s r).env = s.env := rfl
@[simp] theorem refuse_requests (s : State) (r : Reason) : (refuse s r).requests = s.requests := rfl
@[simp] theorem refuse_reply (s : State) (r : Reason) : (refuse s r).reply = .refused r := rfl

@[simp] theorem raiseError_cfg (s : State) (e : ErrorKind) : (raiseError s e).cfg = s.cfg := rfl
@[simp] theorem raiseError_ctx (s : State) (e : ErrorKind) : (raiseError s e).ctx = s.ctx := rfl
@[simp] theorem raiseError_lr (s : State) (e : ErrorKind) : (raiseError s e).lr = s.lr := rfl
@[simp] theorem raiseError_arq (s : State) (e : ErrorKind) : (raiseError s e).arq = s.arq := rfl
@[simp] theorem raiseError_relay (s : State) (e : ErrorKind) : (raiseError s e).relay = s.relay := rfl
@[simp] theorem raiseError_env (s : State) (e : ErrorKind) : (raiseError s e).env = s.env := rfl
@[simp] theorem raiseError_requests (s : State) (e : ErrorKind) : (raiseError s e).requests = s.requests := rfl
@[simp] theorem raiseError_reply (s : State) (e : ErrorKind) : (raiseError s e).reply = .error e := rfl

@[simp] theorem setCtx_cfg (s : State) (c : Ctx) : (setCtx s c).cfg = s.cfg := rfl
@[simp] theorem setCtx_ctx (s : State) (c : Ctx) : (setCtx s c).ctx = c := rfl
@[simp] theorem setCtx_lr (s : State) (c : Ctx) : (setCtx s c).lr = s.lr := rfl
@[simp] theorem setCtx_arq (s : State) (c : Ctx) : (setCtx s c).arq = s.arq := rfl
@[simp] theorem setCtx_relay (s : State) (c : Ctx) : (setCtx s c).relay = s.relay := rfl
@[simp] theorem setCtx_env (s : State) (c : Ctx) : (setCtx s c).env = s.env := rfl
@[simp] theorem setCtx_requests (s : State) (c : Ctx) : (setCtx s c).requests = s.requests := rfl
@[simp] theorem setCtx_reply (s : State) (c : Ctx) : (setCtx s c).reply = s.reply := rfl

@[simp] theorem setArq_cfg (s : State) (a : Arq) : (setArq s a).cfg = s.cfg := rfl
@[simp] theorem setArq_ctx (s : State) (a : Arq) : (setArq s a).ctx = s.ctx := rfl
@[simp] theorem setArq_lr (s : State) (a : Arq) : (setArq s a).lr = s.lr := rfl
@[simp] theorem setArq_arq (s : State) (a : Arq) : (setArq s a).arq = a := rfl
@[simp] theorem setArq_relay (s : State) (a : Arq) : (setArq s a).relay = s.relay := rfl
@[simp] theorem setArq_env (s : State) (a : Arq) : (setArq s a).env = s.env := rfl
@[simp] theorem setArq_requests (s : State) (a : Arq) : (setArq s a).requests = s.requests := rfl
@[simp] theorem setArq_reply (s : State) (a : Arq) : (setArq s a).reply = s.reply := rfl

@[simp] theorem setRelay_cfg (s : State) (r : Relay) : (setRelay s r).cfg = s.cfg := rfl
@[simp] theorem setRelay_ctx (s : State) (r : Relay) : (setRelay s r).ctx = s.ctx := rfl
@[simp] theorem setRelay_lr (s : State) (r : Relay) : (setRelay s r).lr = s.lr := rfl
@[simp] theorem setRelay_arq (s : State) (r : Relay) : (setRelay s r).arq = s.arq := rfl
@[simp] theorem setRelay_relay (s : State) (r : Relay) : (setRelay s r).relay = r := rfl
@[simp] theorem setRelay_env (s : State) (r : Relay) : (setRelay s r).env = s.env := rfl
@[simp] theorem setRelay_requests (s : State) (r : Relay) : (setRelay s r).requests = s.requests := rfl
@[simp] theorem setRelay_reply (s : State) (r : Relay) : (setRelay s r).reply = s.reply := rfl

@[simp] theorem setEnv_cfg (s : State) (e : Env) : (setEnv s e).cfg = s.cfg := rfl
@[simp] theorem setEnv_ctx (s : State) (e : Env) : (setEnv s e).ctx = s.ctx := rfl
@[simp] theorem setEnv_lr (s : State) (e : Env) : (setEnv s e).lr = s.lr := rfl
@[simp] theorem setEnv_arq (s : State) (e : Env) : (setEnv s e).arq = s.arq := rfl
@[simp] theorem setEnv_relay (s : State) (e : Env) : (setEnv s e).relay = s.relay := rfl
@[simp] theorem setEnv_env (s : State) (e : Env) : (setEnv s e).env = e := rfl
@[simp] theorem setEnv_requests (s : State) (e : Env) : (setEnv s e).requests = s.requests := rfl
@[simp] theorem setEnv_reply (s : State) (e : Env) : (setEnv s e).reply = s.reply := rfl

@[simp] theorem setAcc_cfg (s : State) (p : Port) (acc : Bytes) : (setAcc s p acc).cfg = s.cfg := rfl
@[simp] theorem setAcc_ctx (s : State) (p : Port) (acc : Bytes) : (setAcc s p acc).ctx = s.ctx := rfl
@[simp] theorem setAcc_lr (s : State) (p : Port) (acc : Bytes) : (setAcc s p acc).lr = s.lr.set p acc := rfl
@[simp] theorem setAcc_arq (s : State) (p : Port) (acc : Bytes) : (setAcc s p acc).arq = s.arq := rfl
@[simp] theorem setAcc_relay (s : State) (p : Port) (acc : Bytes) : (setAcc s p acc).relay = s.relay := rfl
@[simp] theorem setAcc_env (s : State) (p : Port) (acc : Bytes) : (setAcc s p acc).env = s.env := rfl
@[simp] theorem setAcc_requests (s : State) (p : Port) (acc : Bytes) : (setAcc s p acc).requests = s.requests := rfl
@[simp] theorem setAcc_reply (s : State) (p : Port) (acc : Bytes) : (setAcc s p acc).reply = s.reply := rfl

@[simp] theorem resetCtx_cfg (s : State) : (resetCtx s).cfg = s.cfg := rfl
@[simp] theorem resetCtx_ctx (s : State) : (resetCtx s).ctx = Ctx.idleWith s.cfg s.ctx.buf := rfl
@[simp] theorem resetCtx_lr (s : State) : (resetCtx s).lr = s.lr := rfl
@[simp] theorem resetCtx_arq (s : State) : (resetCtx s).arq = s.arq := rfl
@[simp] theorem resetCtx_relay (s : State) : (resetCtx s).relay = s.relay := rfl
@[simp] theorem resetCtx_env (s : State) : (resetCtx s).env = s.env := rfl
@[simp] theorem resetCtx_requests (s : State) : (resetCtx s).requests = s.requests := rfl
@[simp] theorem resetCtx_reply (s : State) : (resetCtx s).reply = s.reply := rfl

@[simp] theorem raiseMalformed_cfg (s : State) : (raiseMalformed s).cfg = s.cfg := rfl
@[simp] theorem raiseMalformed_ctx (s : State) : (raiseMalformed s).ctx = Ctx.idleWith s.cfg s.ctx.buf := rfl
@[simp] theorem raiseMalformed_lr (s : State) : (raiseMalformed s).lr = s.lr := rfl
@[simp] theorem raiseMalformed_arq (s : State) : (raiseMalformed s).arq = s.arq := rfl
@[simp] theorem raiseMalformed_relay (s : State) : (raiseMalformed s).relay = s.relay := rfl
@[simp] theorem raiseMalformed_env (s : State) : (raiseMalformed s).env = s.env := rfl
@[simp] theorem raiseMalformed_requests (s : State) : (raiseMalformed s).requests = s.requests := rfl
@[simp] theorem raiseMalformed_reply (s : State) : (raiseMalformed s).reply = .error .malformedFrame := rfl

/-- An outcome overwrites the one before it. -/
@[simp] theorem withReply_withReply (s : State) (r q : Reply) :
    withReply (withReply s r) q = withReply s q := rfl

end Sys2Proof.Machine
end

