-- ==== Sys2Proof/Laws/Env.lean ====
section
/-! SUPPORT. What the environment's primitives can do, once each: `now`, `rawReadByte`,
`rawWrite`, `draw16`, `unread`, `arrive`, and `sendFrame` over them. -/

namespace Sys2Proof.Machine

/-- `s` and `t` agree on everything but the environment. -/
structure SameBlock (s t : State) : Prop where
  cfg : t.cfg = s.cfg
  ctx : t.ctx = s.ctx
  lr : t.lr = s.lr
  arq : t.arq = s.arq
  relay : t.relay = s.relay
  requests : t.requests = s.requests
  reply : t.reply = s.reply

theorem SameBlock.rfl' (s : State) : SameBlock s s := ⟨rfl, rfl, rfl, rfl, rfl, rfl, rfl⟩

theorem SameBlock.trans' {s t u : State} (h : SameBlock s t) (k : SameBlock t u) :
    SameBlock s u :=
  ⟨k.cfg.trans h.cfg, k.ctx.trans h.ctx, k.lr.trans h.lr, k.arq.trans h.arq,
    k.relay.trans h.relay, k.requests.trans h.requests, k.reply.trans h.reply⟩

/-- All `now` can do: the clock moves forward to the time it reads; the streams and the draws
stay. -/
theorem now_spec (s : State) :
    SameBlock s (now s).2 ∧ (now s).2.env.clock = (now s).1 ∧ s.env.clock ≤ (now s).1 ∧
      (now s).2.env.rx = s.env.rx ∧ (now s).2.env.tx = s.env.tx ∧
      (now s).2.env.draws = s.env.draws := by
  unfold now
  split <;> exact ⟨⟨rfl, rfl, rfl, rfl, rfl, rfl, rfl⟩, rfl, Nat.le_add_right _ _, rfl, rfl, rfl⟩

/-- `now` with a scripted lapse. -/
theorem now_scripted {s : State} {d : Nat} {ds : List Nat} (h : s.env.lapses = d :: ds) :
    now s = (s.env.clock + d, setEnv s { s.env with clock := s.env.clock + d, lapses := ds }) := by
  simp only [now, h]

/-- All `rawReadByte` can do (20_memory.md R35): it returns the first byte of the stream and takes
it off, or times out after at least `d` ticks. -/
theorem rawReadByte_spec (p : Port) (d : Nat) (s : State) :
    SameBlock s (rawReadByte p d s).2 ∧ (rawReadByte p d s).2.env.tx = s.env.tx ∧
      (rawReadByte p d s).2.env.draws = s.env.draws ∧
      (rawReadByte p d s).2.env.lapses = s.env.lapses ∧
      (∀ q, q ≠ p → (rawReadByte p d s).2.env.rx.get q = s.env.rx.get q) ∧
      ((∃ b k rest, s.env.rx.get p = .byte b k :: rest ∧ (rawReadByte p d s).1 = some b ∧
          (rawReadByte p d s).2.env.rx.get p = rest ∧
          (rawReadByte p d s).2.env.clock = s.env.clock + k) ∨
        (∃ k rest, s.env.rx.get p = .silence k :: rest ∧ (rawReadByte p d s).1 = none ∧
          (rawReadByte p d s).2.env.rx.get p = rest ∧
          (rawReadByte p d s).2.env.clock = s.env.clock + d + k) ∨
        (s.env.rx.get p = [] ∧ (rawReadByte p d s).1 = none ∧
          (rawReadByte p d s).2.env.rx.get p = [] ∧
          s.env.clock + d ≤ (rawReadByte p d s).2.env.clock)) := by
  unfold rawReadByte
  split
  · next b k rest h =>
    refine ⟨⟨rfl, rfl, rfl, rfl, rfl, rfl, rfl⟩, rfl, rfl, rfl, fun q hq => ?_, .inl ⟨b, k, rest, h, ?_⟩⟩
    · exact PerPort.get_set_ne _ hq _
    · exact ⟨rfl, PerPort.get_set_same _ _ _, rfl⟩
  · next k rest h =>
    refine ⟨⟨rfl, rfl, rfl, rfl, rfl, rfl, rfl⟩, rfl, rfl, rfl, fun q hq => ?_,
      .inr (.inl ⟨k, rest, h, ?_⟩)⟩
    · exact PerPort.get_set_ne _ hq _
    · exact ⟨rfl, PerPort.get_set_same _ _ _, rfl⟩
  · next h =>
    exact ⟨⟨rfl, rfl, rfl, rfl, rfl, rfl, rfl⟩, rfl, rfl, rfl, fun _ _ => rfl,
      .inr (.inr ⟨h, rfl, h, Nat.le_add_right _ _⟩)⟩

/-- `rawReadByte` on a stream that gives a byte. -/
theorem rawReadByte_byte {p : Port} {s : State} {b : Byte} {k : Nat} {rest : List RxEvent}
    (h : s.env.rx.get p = .byte b k :: rest) (d : Nat) :
    rawReadByte p d s =
      (some b, setEnv s { s.env with clock := s.env.clock + k, rx := s.env.rx.set p rest }) := by
  simp only [rawReadByte, h]

/-- `rawReadByte` on a stream that is silent. -/
theorem rawReadByte_silence {p : Port} {s : State} {k : Nat} {rest : List RxEvent}
    (h : s.env.rx.get p = .silence k :: rest) (d : Nat) :
    rawReadByte p d s =
      (none, setEnv s
        { s.env with clock := s.env.clock + d + k, rx := s.env.rx.set p rest }) := by
  simp only [rawReadByte, h]

/-- All a list of physical writes does: they are appended to `tx[p]` in order. -/
theorem foldl_rawWrite (p : Port) (us : List Bytes) (s : State) :
    us.foldl (rawWrite p) s =
      setEnv s { s.env with tx := s.env.tx.set p (s.env.tx.get p ++ us) } := by
  induction us generalizing s with
  | nil => simp [setEnv]
  | cons u rest ih =>
    rw [List.foldl_cons, ih]
    simp [rawWrite, setEnv]

/-- All `sendFrame` does (45_arq_controller.md R125): the writes of TF_SPLIT are appended to
`tx[p]`. -/
theorem sendFrame_eq (p : Port) (f : Bytes) (s : State) :
    sendFrame p f s = setEnv s
      { s.env with
        tx := s.env.tx.set p (s.env.tx.get p ++ (tfSplit s.cfg.writeLimit f).getD []) } :=
  foldl_rawWrite p _ s

/-- All `draw16` can do: it takes a draw and leaves the clock and the streams. -/
theorem draw16_spec (s : State) :
    SameBlock s (draw16 s).2 ∧ (draw16 s).2.env.clock = s.env.clock ∧
      (draw16 s).2.env.rx = s.env.rx ∧ (draw16 s).2.env.tx = s.env.tx ∧
      (draw16 s).2.env.lapses = s.env.lapses ∧
      ∀ t rest, s.env.draws = t :: rest → (draw16 s).1 = t ∧ (draw16 s).2.env.draws = rest := by
  unfold draw16
  split
  · next t rest h =>
    refine ⟨⟨rfl, rfl, rfl, rfl, rfl, rfl, rfl⟩, rfl, rfl, rfl, rfl, fun t' rest' h' => ?_⟩
    rw [h] at h'
    cases h'
    exact ⟨rfl, rfl⟩
  · next h =>
    exact ⟨⟨rfl, rfl, rfl, rfl, rfl, rfl, rfl⟩, rfl, rfl, rfl, rfl, fun _ _ h' => by simp [h] at h'⟩

/-- All `unread` does: the bytes stand at the front of `rx[p]`. -/
theorem unread_spec (p : Port) (bs : Bytes) (s : State) :
    SameBlock s (unread p bs s) ∧ (unread p bs s).env.clock = s.env.clock ∧
      (unread p bs s).env.tx = s.env.tx ∧
      (unread p bs s).env.rx.get p = promptly bs ++ s.env.rx.get p :=
  ⟨⟨rfl, rfl, rfl, rfl, rfl, rfl, rfl⟩, rfl, rfl, PerPort.get_set_same _ _ _⟩

/-- All `arrive` does: the bytes stand at the end of `rx[p]`. -/
theorem arrive_spec (p : Port) (bs : Bytes) (s : State) :
    SameBlock s (arrive p bs s) ∧ (arrive p bs s).env.clock = s.env.clock ∧
      (arrive p bs s).env.tx = s.env.tx ∧
      (∀ q, q ≠ p → (arrive p bs s).env.rx.get q = s.env.rx.get q) ∧
      (arrive p bs s).env.rx.get p = s.env.rx.get p ++ promptly bs :=
  ⟨⟨rfl, rfl, rfl, rfl, rfl, rfl, rfl⟩, rfl, rfl, fun _ hq => PerPort.get_set_ne _ hq _,
    PerPort.get_set_same _ _ _⟩

end Sys2Proof.Machine
end

