-- ==== Sys2Proof/Laws/LinkReader.lean ====
section
/-! SUPPORT. What the Link Reader can do, said once: what a receive attempt on a port, and a
physical unit fed to it, leave alone. -/

namespace Sys2Proof.Machine

/-- What a receive attempt on port `p` leaves of `s` in `t`: everything but the clock and its
scripts, the front of `rx[p]`, the bytes held for `p`, and `ctx`, which is either as before or
reset (44_link_reader.md R116). -/
structure LrFrame (p : Port) (s t : State) : Prop where
  cfg : t.cfg = s.cfg
  ctx : t.ctx = s.ctx ∨ t.ctx = Ctx.idleWith s.cfg s.ctx.buf
  lr : ∀ q, q ≠ p → t.lr.get q = s.lr.get q
  arq : t.arq = s.arq
  relay : t.relay = s.relay
  requests : t.requests = s.requests
  reply : t.reply = s.reply
  tx : t.env.tx = s.env.tx
  draws : t.env.draws = s.env.draws
  rx : ∀ q, q ≠ p → t.env.rx.get q = s.env.rx.get q
  rxSuffix : t.env.rx.get p <:+ s.env.rx.get p
  clock : s.env.clock ≤ t.env.clock

theorem LrFrame.refl (p : Port) (s : State) : LrFrame p s s :=
  ⟨rfl, .inl rfl, fun _ _ => rfl, rfl, rfl, rfl, rfl, rfl, rfl, fun _ _ => rfl,
    List.suffix_rfl, Nat.le_refl _⟩

theorem LrFrame.trans {p : Port} {s t u : State} (h : LrFrame p s t) (k : LrFrame p t u) :
    LrFrame p s u := by
  refine ⟨k.cfg.trans h.cfg, ?_, fun q hq => (k.lr q hq).trans (h.lr q hq), k.arq.trans h.arq,
    k.relay.trans h.relay, k.requests.trans h.requests, k.reply.trans h.reply, k.tx.trans h.tx,
    k.draws.trans h.draws, fun q hq => (k.rx q hq).trans (h.rx q hq),
    k.rxSuffix.trans h.rxSuffix, h.clock.trans k.clock⟩
  rcases k.ctx with hk | hk
  · rw [hk]; exact h.ctx
  · right
    rw [hk, h.cfg]
    rcases h.ctx with hh | hh <;> rw [hh]
    rfl

theorem lrFrame_setAcc (s : State) (p : Port) (acc : Bytes) : LrFrame p s (setAcc s p acc) :=
  ⟨rfl, .inl rfl, fun _ hq => PerPort.get_set_ne _ hq _, rfl, rfl, rfl, rfl, rfl, rfl,
    fun _ _ => rfl, List.suffix_rfl, Nat.le_refl _⟩

theorem lrFrame_resetCtx (s : State) (p : Port) : LrFrame p s (resetCtx s) :=
  ⟨rfl, .inr rfl, fun _ _ => rfl, rfl, rfl, rfl, rfl, rfl, rfl, fun _ _ => rfl,
    List.suffix_rfl, Nat.le_refl _⟩

theorem lrFrame_now (s : State) (p : Port) : LrFrame p s (now s).2 := by
  obtain ⟨h, hc, hle, hrx, htx, hd⟩ := now_spec s
  exact ⟨h.cfg, .inl h.ctx, fun _ _ => by rw [h.lr], h.arq, h.relay, h.requests, h.reply, htx, hd,
    fun _ _ => by rw [hrx], by rw [hrx], by rw [hc]; exact hle⟩

theorem lrFrame_rawReadByte (s : State) (p : Port) (d : Nat) :
    LrFrame p s (rawReadByte p d s).2 := by
  obtain ⟨h, htx, hd, -, hq, hcase⟩ := rawReadByte_spec p d s
  refine ⟨h.cfg, .inl h.ctx, fun _ _ => by rw [h.lr], h.arq, h.relay, h.requests, h.reply, htx, hd,
    hq, ?_, ?_⟩
  · rcases hcase with ⟨b, k, rest, hs, -, hr, -⟩ | ⟨k, rest, hs, -, hr, -⟩ | ⟨hs, -, hr, -⟩
    · rw [hr, hs]; exact List.suffix_cons _ _
    · rw [hr, hs]; exact List.suffix_cons _ _
    · rw [hr]; exact List.nil_suffix
  · rcases hcase with ⟨b, k, rest, -, -, -, hc⟩ | ⟨k, rest, -, -, -, hc⟩ | ⟨-, -, -, hc⟩ <;> omega

/-- The three answers of `lrSettle` (44_link_reader.md R116). -/
theorem lrSettle_cases (p : Port) (s : State) :
    (lrSettle p s = some (.malformed, resetCtx (setAcc s p [])) ∧
        lrNeed s.cfg (getAcc s p) = .bad) ∨
      (lrSettle p s = some (.frame (lrLogical s.cfg.writeLimit (getAcc s p)), setAcc s p []) ∧
        lrNeed s.cfg (getAcc s p) = .done) ∨
      (lrSettle p s = none ∧ ∃ k, lrNeed s.cfg (getAcc s p) = .need k) := by
  unfold lrSettle
  cases h : lrNeed s.cfg (getAcc s p) with
  | bad => exact .inl ⟨rfl, rfl⟩
  | done => exact .inr (.inl ⟨rfl, rfl⟩)
  | need k => exact .inr (.inr ⟨rfl, k, rfl⟩)

/-- What a finished receive attempt answers and leaves: no bytes held for `p`, and `ctx` reset
exactly on a malformed frame (44_link_reader.md R116, R117). -/
structure LrDone (p : Port) (s : State) (r : Recv × State) : Prop where
  frame : LrFrame p s r.2
  acc : getAcc r.2 p = []
  ctx : r.2.ctx = if r.1 = .malformed then Ctx.idleWith s.cfg s.ctx.buf else s.ctx

theorem lrDone_settle {p : Port} {s : State} {r : Recv × State} (h : lrSettle p s = some r) :
    LrDone p s r := by
  rcases lrSettle_cases p s with ⟨hs, -⟩ | ⟨hs, -⟩ | ⟨hs, -⟩ <;> rw [hs] at h <;> cases h
  · exact ⟨(lrFrame_setAcc s p []).trans (lrFrame_resetCtx _ p), PerPort.get_set_same _ _ _, rfl⟩
  · exact ⟨lrFrame_setAcc s p [], PerPort.get_set_same _ _ _, rfl⟩

/-- A receive attempt that goes on from `t`, which differs from `s` in no part of `ctx`. -/
theorem LrDone.after {p : Port} {s t : State} {r : Recv × State} (hf : LrFrame p s t)
    (hc : t.ctx = s.ctx) (h : LrDone p t r) : LrDone p s r :=
  ⟨hf.trans h.frame, h.acc, by rw [h.ctx, hf.cfg, hc]⟩

theorem lrDone_timeout {p : Port} {s t : State} (hf : LrFrame p s t) (hc : t.ctx = s.ctx) :
    LrDone p s (.timeout, setAcc t p []) :=
  ⟨hf.trans (lrFrame_setAcc t p []), PerPort.get_set_same _ _ _, hc⟩

/-- All the loop of LR_RECV_FRAME can do (44_link_reader.md R116). -/
theorem lrDone_lrLoop (p : Port) (deadline fuel : Nat) (s : State) :
    LrDone p s (lrLoop p deadline fuel s) := by
  induction fuel generalizing s with
  | zero => exact lrDone_timeout (LrFrame.refl p s) rfl
  | succ n ih =>
    rw [lrLoop]
    cases hs : lrSettle p s with
    | some r => exact lrDone_settle hs
    | none =>
      have hn := lrFrame_now s p
      have hnc : (now s).2.ctx = s.ctx := (now_spec s).1.ctx
      simp only
      split
      · exact lrDone_timeout hn hnc
      · have hr := hn.trans (lrFrame_rawReadByte (now s).2 p (min s.cfg.tByte (deadline - (now s).1)))
        have hrc := ((rawReadByte_spec p (min s.cfg.tByte (deadline - (now s).1))
          (now s).2).1.ctx).trans hnc
        split
        · exact (ih _).after (hr.trans (lrFrame_setAcc _ p _)) hrc
        · exact (ih _).after hr hrc

/-- All LR_RECV_FRAME can do (44_link_reader.md R116). -/
theorem lrDone_lrRecvFrame (p : Port) (s : State) : LrDone p s (lrRecvFrame p s) := by
  have hr := (lrFrame_setAcc s p []).trans (lrFrame_rawReadByte (setAcc s p []) p s.cfg.tByte)
  have hspec := rawReadByte_spec p s.cfg.tByte (setAcc s p [])
  have hrc : (rawReadByte p s.cfg.tByte (setAcc s p [])).2.ctx = s.ctx := hspec.1.ctx
  unfold lrRecvFrame
  simp only
  split
  · refine ⟨hr, ?_, hrc⟩
    rw [getAcc, hspec.1.lr]
    exact PerPort.get_set_same _ _ _
  · next b _ =>
    have ha := hr.trans (lrFrame_setAcc _ p [b])
    exact (lrDone_lrLoop _ _ _ _).after (ha.trans (lrFrame_now _ p))
      ((now_spec _).1.ctx.trans hrc)

/-- What feeding a physical unit leaves of `s` in `t` (log 17): everything but the bytes held for
`p`, the front of `rx[p]`, and `ctx` on a malformed frame. -/
structure LrFed (p : Port) (bs : Bytes) (s : State) (r : Recv × State) : Prop where
  cfg : r.2.cfg = s.cfg
  ctx : r.2.ctx = if r.1 = .malformed then Ctx.idleWith s.cfg s.ctx.buf else s.ctx
  lr : ∀ q, q ≠ p → r.2.lr.get q = s.lr.get q
  acc : r.1 ≠ .nothing → getAcc r.2 p = []
  arq : r.2.arq = s.arq
  relay : r.2.relay = s.relay
  requests : r.2.requests = s.requests
  reply : r.2.reply = s.reply
  tx : r.2.env.tx = s.env.tx
  clock : r.2.env.clock = s.env.clock
  rx : ∀ q, q ≠ p → r.2.env.rx.get q = s.env.rx.get q
  noTimeout : r.1 ≠ .timeout
  surplus : ∃ n, r.2.env.rx.get p = promptly (bs.drop n) ++ s.env.rx.get p

/-- All `lrFeed` can do (log 17). -/
theorem lrFed_lrFeed (p : Port) (bs : Bytes) (s : State) : LrFed p bs s (lrFeed p bs s) := by
  induction bs generalizing s with
  | nil =>
    exact ⟨rfl, rfl, fun _ _ => rfl, fun h => absurd rfl h, rfl, rfl, rfl, rfl, rfl, rfl,
      fun _ _ => rfl, by simp [lrFeed], 0, rfl⟩
  | cons b rest ih =>
    rw [lrFeed]
    rcases lrSettle_cases p (setAcc s p (getAcc s p ++ [b])) with ⟨hs, -⟩ | ⟨hs, -⟩ | ⟨hs, -⟩ <;>
      rw [hs]
    · refine ⟨rfl, rfl, fun q hq => ?_, fun _ => ?_, rfl, rfl, rfl, rfl, rfl, rfl, fun q hq => ?_,
        by simp, 1, PerPort.get_set_same _ _ _⟩
      · simp only [unread, setEnv_lr, resetCtx_lr, setAcc_lr, PerPort.set_set]
        exact PerPort.get_set_ne _ hq _
      · exact PerPort.get_set_same _ _ _
      · exact PerPort.get_set_ne _ hq _
    · refine ⟨rfl, rfl, fun q hq => ?_, fun _ => ?_, rfl, rfl, rfl, rfl, rfl, rfl, fun q hq => ?_,
        by simp, 1, PerPort.get_set_same _ _ _⟩
      · simp only [unread, setEnv_lr, setAcc_lr, PerPort.set_set]
        exact PerPort.get_set_ne _ hq _
      · exact PerPort.get_set_same _ _ _
      · exact PerPort.get_set_ne _ hq _
    · have h := ih (setAcc s p (getAcc s p ++ [b]))
      exact ⟨h.cfg, h.ctx, fun q hq => (h.lr q hq).trans (PerPort.get_set_ne _ hq _), h.acc, h.arq,
        h.relay, h.requests, h.reply, h.tx, h.clock, h.rx, h.noTimeout,
        h.surplus.imp' (· + 1) fun _ h => h⟩

/-- The two ways a physical unit is received (20_memory.md R49; log 17). -/
theorem unitReceived_cases (p : Port) (u : Bytes) (s : State) :
    (streamBytes (s.env.rx.get p) = [] ∧ unitReceived p u s = lrFeed p u s) ∨
      (streamBytes (s.env.rx.get p) ≠ [] ∧ unitReceived p u s = (.nothing, arrive p u s)) := by
  unfold unitReceived
  split
  · next h => exact .inl ⟨h, rfl⟩
  · next h => exact .inr ⟨h, rfl⟩

end Sys2Proof.Machine
end

