-- ==== Sys2Proof/Laws/Arq.lean ====
section
/-! SUPPORT. What LR_DELIVER and the shared operations of the ARQ Controller can do, each said
once. -/

namespace Sys2Proof.Machine

/-- All `awaitAck` does (45_arq_controller.md R130, R131): one reading of the clock, the deadline
and the state of `arq`. -/
theorem awaitAck_spec (s : State) :
    awaitAck s = setArq (now s).2
      { s.arq with deadline := (now s).1 + s.cfg.tAck, state := .awaitingAck } := by
  simp only [awaitAck, (now_spec s).1.arq]

/-- All `relaySend` does (45_arq_controller.md R142): the head of the queue is written to `DOWN`
and a deadline starts. -/
theorem relaySend_spec (s : State) :
    let u := sendFrame .down (s.relay.queue.headD []) s
    relaySend s = setRelay (now u).2 { s.relay with deadline := (now u).1 + s.cfg.tAck } := by
  have h := (now_spec (sendFrame .down (s.relay.queue.headD []) s)).1.relay
  have h2 : (sendFrame .down (s.relay.queue.headD []) s).relay = s.relay := by
    rw [sendFrame_eq]; rfl
  simp only [relaySend, h, h2]

/-- The four ways LR_DELIVER ends (44_link_reader.md R119). -/
theorem deliver_cases (f : Bytes) (cap : Nat) (s : State) :
    (rsmVerdict s.cfg s.ctx f = .malformed ∧ deliver f cap s = (.malformed, resetCtx s)) ∨
      (deliver f cap s = (.tooSmall, s)) ∨
      ((rsmVerdict s.cfg s.ctx f = .bypass ∧ deliver f cap s = (.datagram (f.drop 1), s)) ∨
        (rsmVerdict s.cfg s.ctx f = .duplicate ∧ deliver f cap s = (.datagram [], s))) ∨
      ((rsmVerdict s.cfg s.ctx f = .start ∨ rsmVerdict s.cfg s.ctx f = .restart ∨
          rsmVerdict s.cfg s.ctx f = .new) ∧ declaredSize f ≤ cap ∧
        deliver f cap s = (.datagram (extracted (ingestCtx s.cfg s.ctx f)),
          setCtx s (ingestCtx s.cfg s.ctx f))) := by
  have hlast : ∀ v : Verdict, ¬ (cap < declaredSize f) → declaredSize f ≤ cap :=
    fun _ h => Nat.le_of_not_lt h
  unfold deliver
  cases hv : rsmVerdict s.cfg s.ctx f with
  | malformed => exact .inl ⟨rfl, rfl⟩
  | bypass =>
    by_cases h : cap < f.length - 1
    · exact .inr (.inl (by simp [h]))
    · exact .inr (.inr (.inl (.inl ⟨rfl, by simp [h]⟩)))
  | duplicate => exact .inr (.inr (.inl (.inr ⟨rfl, rfl⟩)))
  | start =>
    by_cases h : cap < declaredSize f
    · exact .inr (.inl (by simp [h]))
    · exact .inr (.inr (.inr ⟨.inl rfl, hlast .start h, by simp [h]⟩))
  | restart =>
    by_cases h : cap < declaredSize f
    · exact .inr (.inl (by simp [h]))
    · exact .inr (.inr (.inr ⟨.inr (.inl rfl), hlast .start h, by simp [h]⟩))
  | new =>
    by_cases h : cap < declaredSize f
    · exact .inr (.inl (by simp [h]))
    · exact .inr (.inr (.inr ⟨.inr (.inr rfl), hlast .start h, by simp [h]⟩))

/-- The four ways `pollAfterRead` ends (45_arq_controller.md R131). -/
theorem pollAfterRead_cases (p : Port) (m : Bool) (s : State) :
    (m = true ∧ s.arq.idx + 1 = s.arq.nframes ∧
        pollAfterRead p m s = replyOk (setArq s
          { s.arq with retries := 0, idx := s.arq.idx + 1, state := .done }) (.arqState .done)) ∨
      (m = true ∧ s.arq.idx + 1 ≠ s.arq.nframes ∧
        pollAfterRead p m s = replyOk (awaitAck (sendFrame p (frameAt s.arq (s.arq.idx + 1))
          (setArq s { s.arq with retries := 0, idx := s.arq.idx + 1 }))) (.arqState .awaitingAck)) ∨
      (m = false ∧ s.arq.deadline ≤ (now s).1 ∧
        ((s.arq.retries < s.cfg.maxRetry ∧ pollAfterRead p m s =
            replyOk (setArq (now s).2 { s.arq with state := .retrying }) (.arqState .retrying)) ∨
          (s.cfg.maxRetry ≤ s.arq.retries ∧ pollAfterRead p m s =
            raiseError (setArq (now s).2 { s.arq with state := .failed }) .retriesExhausted))) ∨
      (m = false ∧ (now s).1 < s.arq.deadline ∧
        pollAfterRead p m s = replyOk (now s).2 (.arqState .awaitingAck)) := by
  have ha := (now_spec s).1.arq
  cases m with
  | true =>
    by_cases h : s.arq.idx + 1 = s.arq.nframes
    · exact .inl ⟨rfl, h, by simp [pollAfterRead, h]⟩
    · exact .inr (.inl ⟨rfl, h, by simp [pollAfterRead, h, frameAt]⟩)
  | false =>
    by_cases hd : s.arq.deadline ≤ (now s).1
    · by_cases hr : s.arq.retries < s.cfg.maxRetry
      · exact .inr (.inr (.inl ⟨rfl, hd, .inl ⟨hr, by simp [pollAfterRead, elapsed, hd, hr, ha]⟩⟩))
      · exact .inr (.inr (.inl ⟨rfl, hd,
          .inr ⟨Nat.le_of_not_lt hr, by simp [pollAfterRead, elapsed, hd, hr, ha]⟩⟩))
    · exact .inr (.inr (.inr ⟨rfl, Nat.lt_of_not_le hd, by simp [pollAfterRead, elapsed, hd]⟩))

/-- The three ways a whole acknowledgement frame ends (log 18): taken by the relay that waits for
it, taken by the sender that waits for it, or left standing in `rx[p]`. -/
theorem ackReceived_cases (r : Role) (p : Port) (s : State) :
    (s.cfg.role = .relay ∧ p = .down ∧ s.relay.inFlight = true ∧
        streamBytes (s.env.rx.get p) = [] ∧ ackReceived r p s =
          let u := relayAfterRead (isAckOf s.cfg (ackFrame s.cfg r) s.cfg.peerRole) (setAcc s p [])
          replyOk u (.num u.relay.queue.length)) ∨
      (s.cfg.role ≠ .relay ∧ s.arq.state = .awaitingAck ∧ streamBytes (s.env.rx.get p) = [] ∧
        ackReceived r p s =
          pollAfterRead p (isAckOf s.cfg (ackFrame s.cfg r) s.cfg.peerRole) (setAcc s p [])) ∨
      ((s.cfg.role = .relay ∧ (p ≠ .down ∨ s.relay.inFlight = false) ∨
          s.cfg.role ≠ .relay ∧ s.arq.state ≠ .awaitingAck ∨
          streamBytes (s.env.rx.get p) ≠ []) ∧
        ackReceived r p s = replyOk (frameArrives p (ackFrame s.cfg r) s)
          (if s.cfg.role = .relay then .num s.relay.queue.length else .arqState s.arq.state)) := by
  unfold ackReceived
  by_cases hr : s.cfg.role = .relay
  · by_cases hd : p = .down ∧ s.relay.inFlight = true ∧ streamBytes (s.env.rx.get p) = []
    · obtain ⟨rfl, hf, hs⟩ := hd
      exact .inl ⟨hr, rfl, hf, hs, by simp only [hr, hf, hs, and_self, if_true]⟩
    · refine .inr (.inr ⟨by rw [← Bool.not_eq_true]; tauto, ?_⟩)
      simp only [hr, hd, if_true, if_false]
      rfl
  · by_cases ha : s.arq.state = .awaitingAck ∧ streamBytes (s.env.rx.get p) = []
    · exact .inr (.inl ⟨hr, ha.1, ha.2, by simp only [hr, ha, and_self, if_false, if_true]⟩)
    · refine .inr (.inr ⟨by tauto, ?_⟩)
      simp only [hr, ha, if_false]

/-- The three ways a received data frame ends in ARQ_RECV_DATAGRAM (45_arq_controller.md R137,
R138, R139). -/
theorem recvData_cases (p : Port) (f : Bytes) (cap : Nat) (s : State) :
    (rsmVerdict s.cfg s.ctx f = .malformed ∧ recvData p f cap s = (none, resetCtx s)) ∨
      (rsmVerdict s.cfg s.ctx f ≠ .malformed ∧ recvData p f cap s =
        (none, (deliver f cap (sendAck p s)).2)) ∨
      (∃ out, rsmVerdict s.cfg s.ctx f ≠ .malformed ∧ out ≠ [] ∧
        (deliver f cap (sendAck p s)).1 = .datagram out ∧
        recvData p f cap s = (some out,
          if rsmVerdict s.cfg s.ctx f = .bypass then (deliver f cap (sendAck p s)).2
          else resetCtx (deliver f cap (sendAck p s)).2)) := by
  by_cases hv : rsmVerdict s.cfg s.ctx f = .malformed
  · exact .inl ⟨hv, by simp [recvData, hv]⟩
  · cases hd : (deliver f cap (sendAck p s)).1 with
    | malformed => exact .inr (.inl ⟨hv, by simp [recvData, hv, hd]⟩)
    | tooSmall => exact .inr (.inl ⟨hv, by simp [recvData, hv, hd]⟩)
    | datagram out =>
      cases out with
      | nil => exact .inr (.inl ⟨hv, by simp [recvData, hv, hd]⟩)
      | cons b rest => exact .inr (.inr ⟨b :: rest, hv, by simp, rfl, by simp [recvData, hv, hd]⟩)

end Sys2Proof.Machine
end

