-- ==== Sys2Proof/Laws/Operands.lean ====
section
/-! SUPPORT. Each operand reader reads back what its writer wrote, and leaves the rest. -/

namespace Sys2Proof.Machine

theorem readNum_numBytes {n : Nat} (h : n < 2 ^ 32) (rest : Bytes) :
    readNum (numBytes n ++ rest) = some (n, rest) := by
  simp only [numBytes, List.cons_append, List.nil_append, readNum, BitVec.toNat_ofNat]
  congr 2
  omega

theorem readTag_tagBytes (t : BitVec 16) (rest : Bytes) :
    readTag (tagBytes t ++ rest) = some (t, rest) := by
  simp only [tagBytes, List.cons_append, List.nil_append, readTag, Option.some.injEq,
    Prod.mk.injEq, and_true]
  ext i hi
  simp only [BitVec.getElem_append, BitVec.getElem_extractLsb']
  split
  · simp [BitVec.getLsbD_eq_getElem hi]
  · next h => simp [show 8 + (i - 8) = i by omega, BitVec.getLsbD_eq_getElem hi]

theorem readBuf_bufBytes {b : Bytes} (h : b.length < 2 ^ 32) (rest : Bytes) :
    readBuf (bufBytes b ++ rest) = some (b, rest) := by
  simp only [bufBytes, List.append_assoc, readBuf, readNum_numBytes h]
  simp

theorem readPort_portByte (p : Port) (rest : Bytes) :
    readPort (portByte p :: rest) = some (p, rest) := by
  cases p <;> simp [readPort, portByte]

theorem readKind_setWidth (k : BitVec 2) (rest : Bytes) :
    readKind (k.setWidth 8 :: rest) = some (k, rest) := by
  have hk : k.toNat < 4 := k.isLt
  have h8 : (k.setWidth 8).toNat = k.toNat := by
    rw [BitVec.toNat_setWidth]; exact Nat.mod_eq_of_lt (by omega)
  simp only [readKind, h8, hk, if_true, Option.some.injEq, Prod.mk.injEq, and_true]
  apply BitVec.eq_of_toNat_eq
  rw [BitVec.toNat_setWidth, h8]
  exact Nat.mod_eq_of_lt hk

theorem size_setWidth_back (size : BitVec 13) : (size.setWidth 16).setWidth 13 = size := by
  apply BitVec.eq_of_toNat_eq
  have := size.isLt
  simp only [BitVec.toNat_setWidth]
  omega

theorem size_setWidth_lt (size : BitVec 13) : (size.setWidth 16).toNat < 2 ^ 13 := by
  have := size.isLt
  rw [BitVec.toNat_setWidth]
  omega

theorem readHeader_headerOperand (h : Header) (rest : Bytes) :
    readHeader (headerOperand h ++ rest) = some (h, rest) := by
  cases h with
  | nonFrag len => simp [headerOperand, readHeader]
  | first size tag =>
    simp only [headerOperand, List.cons_append, List.append_assoc, readHeader, readTag_tagBytes,
      size_setWidth_lt, size_setWidth_back]
    simp
  | other size tag off8 =>
    simp only [headerOperand, List.cons_append, List.append_assoc, readHeader, readTag_tagBytes,
      size_setWidth_lt, size_setWidth_back]
    simp

/-- A number that was read fits its four bytes, and the rest is no longer. -/
theorem readNum_lt {bs rest : Bytes} {n : Nat} (h : readNum bs = some (n, rest)) :
    n < 2 ^ 32 := by
  unfold readNum at h
  split at h
  · next b3 b2 b1 b0 _ =>
    simp only [Option.some.injEq, Prod.mk.injEq] at h
    have := b3.isLt; have := b2.isLt; have := b1.isLt; have := b0.isLt
    omega
  · cases h

/-- A buffer that was read has a length that fits its four bytes. -/
theorem readBuf_lt {bs rest b : Bytes} (h : readBuf bs = some (b, rest)) : b.length < 2 ^ 32 := by
  unfold readBuf at h
  split at h
  · cases h
  · next n r hn =>
    have := readNum_lt hn
    split at h
    · simp only [Option.some.injEq, Prod.mk.injEq] at h
      rw [← h.1, List.length_take]
      omega
    · cases h

end Sys2Proof.Machine
end

