-- ==== Sys2Proof/Laws/Wire.lean ====
section
/-! SUPPORT. Facts about the classification of byte 0 and the header fields, as numbers. -/

namespace Sys2Proof.Machine

/-- The three kinds by the value of byte 0 (30_encoding.md R68). -/
theorem kindOf_cases (b : Byte) :
    (kindOf b = .nonFrag ∧ b.toNat < 0xC0) ∨
      (kindOf b = .first ∧ 0xC0 ≤ b.toNat ∧ b.toNat < 0xE0) ∨
      (kindOf b = .other ∧ 0xE0 ≤ b.toNat) := by
  revert b
  decide

theorem kindOf_of_lt {b : Byte} (h : b.toNat < 0xC0) : kindOf b = .nonFrag := by
  rcases kindOf_cases b with h' | h' | h'
  · exact h'.1
  · omega
  · omega

theorem kindOf_of_mid {b : Byte} (h : 0xC0 ≤ b.toNat) (h2 : b.toNat < 0xE0) :
    kindOf b = .first := by
  rcases kindOf_cases b with h' | h' | h'
  · omega
  · exact h'.1
  · omega

theorem kindOf_of_ge {b : Byte} (h : 0xE0 ≤ b.toNat) : kindOf b = .other := by
  rcases kindOf_cases b with h' | h' | h'
  · omega
  · omega
  · exact h'.1

/-- Byte 0 of a fragment as a number (30_encoding.md R56). -/
theorem fragByte0_first_toNat (size : BitVec 13) :
    (fragByte0 0xC0#8 size).toNat = 0xC0 + size.toNat / 256 := by
  have h : ∀ x : BitVec 5, (0xC0#8 ||| x.setWidth 8).toNat = 0xC0 + x.toNat := by decide
  have hs := size.isLt
  rw [fragByte0, h, BitVec.extractLsb'_toNat, Nat.shiftRight_eq_div_pow]
  omega

theorem fragByte0_other_toNat (size : BitVec 13) :
    (fragByte0 0xE0#8 size).toNat = 0xE0 + size.toNat / 256 := by
  have h : ∀ x : BitVec 5, (0xE0#8 ||| x.setWidth 8).toNat = 0xE0 + x.toNat := by decide
  have hs := size.isLt
  rw [fragByte0, h, BitVec.extractLsb'_toNat, Nat.shiftRight_eq_div_pow]
  omega

theorem kindOf_fragByte0_first (size : BitVec 13) : kindOf (fragByte0 0xC0#8 size) = .first := by
  have h := fragByte0_first_toNat size
  have := size.isLt
  exact kindOf_of_mid (by omega) (by omega)

theorem kindOf_fragByte0_other (size : BitVec 13) : kindOf (fragByte0 0xE0#8 size) = .other := by
  have h := fragByte0_other_toNat size
  exact kindOf_of_ge (by omega)

/-- The size field as a number, under the first-fragment mask (30_encoding.md R56). -/
theorem sizeField_first_toNat (b0 b1 : Byte) :
    (sizeField 0x3F#8 b0 b1).toNat = ((b0.toNat % 64) * 256 + b1.toNat) % 8192 := by
  have h : ∀ x : Byte, (x &&& 0x3F#8).toNat = x.toNat % 64 := by decide
  rw [sizeField, BitVec.toNat_setWidth, BitVec.toNat_append, h,
    Nat.shiftLeft_eq, Nat.mul_comm, ← Nat.two_pow_add_eq_or_of_lt b1.isLt]

/-- The size field as a number, under the other-fragment mask (30_encoding.md R56). -/
theorem sizeField_other_toNat (b0 b1 : Byte) :
    (sizeField 0x1F#8 b0 b1).toNat = (b0.toNat % 32) * 256 + b1.toNat := by
  have h : ∀ x : Byte, (x &&& 0x1F#8).toNat = x.toNat % 32 := by decide
  have := b1.isLt
  rw [sizeField, BitVec.toNat_setWidth, BitVec.toNat_append, h,
    Nat.shiftLeft_eq, Nat.mul_comm, ← Nat.two_pow_add_eq_or_of_lt b1.isLt]
  omega

/-- The tag field as a number (30_encoding.md R57). -/
theorem tagField_toNat (b2 b3 : Byte) : (tagField b2 b3).toNat = b2.toNat * 256 + b3.toNat := by
  rw [tagField, BitVec.toNat_append, Nat.shiftLeft_eq, Nat.mul_comm, ← Nat.two_pow_add_eq_or_of_lt b3.isLt]

/-- The low byte of a size as a number. -/
theorem size_low_toNat (size : BitVec 13) : (size.extractLsb' 0 8).toNat = size.toNat % 256 := by
  simp [BitVec.extractLsb'_toNat]

/-- The two bytes of a tag as numbers. -/
theorem tag_high_toNat (t : Tag) : (t.extractLsb' 8 8).toNat = t.toNat / 256 := by
  have := t.isLt
  rw [BitVec.extractLsb'_toNat, Nat.shiftRight_eq_div_pow]
  omega

theorem tag_low_toNat (t : Tag) : (t.extractLsb' 0 8).toNat = t.toNat % 256 := by
  simp [BitVec.extractLsb'_toNat]

@[simp] theorem headerBytes_length (h : Header) : (headerBytes h).length = hdrLen (hdrKind h) := by
  cases h <;> rfl

/-- A format-valid frame's header is the one it unpacks to, is valid, and gives its length
(40_header_codec.md R77). -/
theorem formatHeader_eq_some {c : Cfg} {f : Bytes} {h : Header} :
    formatHeader c f = some h ↔
      unpackHeader f = some h ∧ headerValid c h = true ∧ f.length = hdrFrameLength c h := by
  unfold formatHeader
  cases hu : unpackHeader f with
  | none => simp
  | some h' =>
    simp only [Option.some.injEq]
    constructor
    · intro hh
      split at hh
      · next hv => cases hh; exact ⟨rfl, hv.1, hv.2⟩
      · cases hh
    · rintro ⟨rfl, hv, hl⟩
      rw [if_pos ⟨hv, hl⟩]

end Sys2Proof.Machine
end

