-- ==== Sys2Proof/Laws/PerInstr.lean ====
section
/-! SUPPORT. One fact about every instruction as syntax: the first byte its encoding has is one
that its row of opcode_table.json matches. -/

namespace Sys2Proof.Laws.OpcodeByte

open Sys2Proof.Machine

/-- `mask` and `match` of the instruction's row of opcode_table.json. -/
def row : Instr → Byte × Byte
  | .nonfragLo .. => (0x80, 0x00)
  | .nonfragHi .. => (0xC0, 0x80)
  | .frag1 .. => (0xE0, 0xC0)
  | .fragn .. => (0xE0, 0xE0)
  | .chunk1 .. => (0xFF, 0x01)
  | .chunk2 .. => (0xFF, 0x02)
  | .ackClient .. => (0xFF, 0x07)
  | .ackRelay .. => (0xFF, 0x06)
  | .ackServer .. => (0xFF, 0x07)
  | .hdrPack .. => (0xFF, 0x00)
  | .hdrUnpack .. => (0xFF, 0x01)
  | .hdrFrameLen .. => (0xFF, 0x02)
  | .fragCount .. => (0xFF, 0x03)
  | .fragment .. => (0xFF, 0x04)
  | .rsmReset .. => (0xFF, 0x05)
  | .rsmIngest .. => (0xFF, 0x06)
  | .rsmComplete .. => (0xFF, 0x07)
  | .rsmExtract .. => (0xFF, 0x08)
  | .tfSplit .. => (0xFF, 0x09)
  | .tfJoin .. => (0xFF, 0x0A)
  | .lrRecvFrame .. => (0xFF, 0x0B)
  | .lrDeliver .. => (0xFF, 0x0C)
  | .arqSendStart .. => (0xFF, 0x0D)
  | .arqSendPoll .. => (0xFF, 0x0E)
  | .arqRecvDatagram .. => (0xFF, 0x0F)
  | .relayPoll .. => (0xFF, 0x10)
  | .lfbInit .. => (0xFF, 0x11)
  | .kindNonfrag .. => (0x03, 0x00)
  | .kindFirst .. => (0x03, 0x01)
  | .kindOther .. => (0x03, 0x02)
  | .kindUnrecognised .. => (0x03, 0x03)

/-- Under CFG_REF, byte 0 of the encoding matches the row (30_encoding.md, sections 1, 5, 6
and 7). -/
def Statement (i : Instr) : Prop :=
  ∃ b rest, (encode cfgRef i).bytes = b :: rest ∧ b &&& (row i).1 = (row i).2

theorem first_bits (x : BitVec 5) : (0xC0#8 ||| x.setWidth 8) &&& 0xE0#8 = 0xC0#8 := by
  revert x; decide

theorem other_bits (x : BitVec 5) : (0xE0#8 ||| x.setWidth 8) &&& 0xE0#8 = 0xE0#8 := by
  revert x; decide

theorem lo_bits (x : BitVec 7) : (0b0#1 ++ x) &&& 0x80#8 = 0x00#8 := by
  revert x; decide

theorem hi_bits (x : BitVec 6) : (0b10#2 ++ x) &&& 0xC0#8 = 0x80#8 := by
  revert x; decide

theorem nonfragLo (len : BitVec 7) (payload : Bytes) :
    Statement (.nonfragLo len payload) :=
  ⟨_, _, rfl, lo_bits len⟩

theorem nonfragHi (len : BitVec 6) (payload : Bytes) :
    Statement (.nonfragHi len payload) :=
  ⟨_, _, rfl, hi_bits len⟩

theorem frag1 (size : BitVec 13) (tag : Tag) (payload : Bytes) :
    Statement (.frag1 size tag payload) :=
  ⟨_, _, rfl, first_bits _⟩

theorem fragn (size : BitVec 13) (tag : Tag) (off8 : BitVec 8) (payload : Bytes) :
    Statement (.fragn size tag off8 payload) :=
  ⟨_, _, rfl, other_bits _⟩

theorem chunk1 (p : Port) (data : Bytes) :
    Statement (.chunk1 p data) :=
  ⟨_, _, rfl, by simp only [row]; decide⟩

theorem chunk2 (p : Port) (data : Bytes) :
    Statement (.chunk2 p data) :=
  ⟨_, _, rfl, by simp only [row]; decide⟩

theorem ackClient (p : Port) :
    Statement (.ackClient p) :=
  ⟨_, _, rfl, by simp only [row]; decide⟩

theorem ackRelay (p : Port) :
    Statement (.ackRelay p) :=
  ⟨_, _, rfl, by simp only [row]; decide⟩

theorem ackServer (p : Port) :
    Statement (.ackServer p) :=
  ⟨_, _, rfl, by simp only [row]; decide⟩

theorem hdrPack (k : BitVec 2) (a : Nat) (tag : Tag) (offset cap : Nat) :
    Statement (.hdrPack k a tag offset cap) :=
  ⟨_, _, rfl, by simp only [row]; decide⟩

theorem hdrUnpack (buf : Bytes) :
    Statement (.hdrUnpack buf) :=
  ⟨_, _, rfl, by simp only [row]; decide⟩

theorem hdrFrameLen (h : Header) :
    Statement (.hdrFrameLen h) :=
  ⟨_, _, rfl, by simp only [row]; decide⟩

theorem fragCount (l : Nat) :
    Statement (.fragCount l) :=
  ⟨_, _, rfl, by simp only [row]; decide⟩

theorem fragment (d : Bytes) (t : Tag) (slots : Nat) :
    Statement (.fragment d t slots) :=
  ⟨_, _, rfl, by simp only [row]; decide⟩

theorem rsmReset : Statement .rsmReset :=
  ⟨_, _, rfl, by simp only [row]; decide⟩

theorem rsmIngest (buf : Bytes) :
    Statement (.rsmIngest buf) :=
  ⟨_, _, rfl, by simp only [row]; decide⟩

theorem rsmComplete : Statement .rsmComplete :=
  ⟨_, _, rfl, by simp only [row]; decide⟩

theorem rsmExtract (cap : Nat) :
    Statement (.rsmExtract cap) :=
  ⟨_, _, rfl, by simp only [row]; decide⟩

theorem tfSplit (frame : Bytes) :
    Statement (.tfSplit frame) :=
  ⟨_, _, rfl, by simp only [row]; decide⟩

theorem tfJoin (u1 u2 : Bytes) :
    Statement (.tfJoin u1 u2) :=
  ⟨_, _, rfl, by simp only [row]; decide⟩

theorem lrRecvFrame (p : Port) :
    Statement (.lrRecvFrame p) :=
  ⟨_, _, rfl, by simp only [row]; decide⟩

theorem lrDeliver (f : Bytes) (cap : Nat) :
    Statement (.lrDeliver f cap) :=
  ⟨_, _, rfl, by simp only [row]; decide⟩

theorem arqSendStart (p : Port) (d : Bytes) :
    Statement (.arqSendStart p d) :=
  ⟨_, _, rfl, by simp only [row]; decide⟩

theorem arqSendPoll (p : Port) :
    Statement (.arqSendPoll p) :=
  ⟨_, _, rfl, by simp only [row]; decide⟩

theorem arqRecvDatagram (p : Port) (cap : Nat) :
    Statement (.arqRecvDatagram p cap) :=
  ⟨_, _, rfl, by simp only [row]; decide⟩

theorem relayPoll : Statement .relayPoll :=
  ⟨_, _, rfl, by simp only [row]; decide⟩

theorem lfbInit : Statement .lfbInit :=
  ⟨_, _, rfl, by simp only [row]; decide⟩

theorem kindNonfrag (a : Nat) (tag : Tag) (offset cap : Nat) :
    Statement (.kindNonfrag a tag offset cap) :=
  ⟨_, _, rfl, by simp only [row]; decide⟩

theorem kindFirst (a : Nat) (tag : Tag) (offset cap : Nat) :
    Statement (.kindFirst a tag offset cap) :=
  ⟨_, _, rfl, by simp only [row]; decide⟩

theorem kindOther (a : Nat) (tag : Tag) (offset cap : Nat) :
    Statement (.kindOther a tag offset cap) :=
  ⟨_, _, rfl, by simp only [row]; decide⟩

theorem kindUnrecognised (a : Nat) (tag : Tag) (offset cap : Nat) :
    Statement (.kindUnrecognised a tag offset cap) :=
  ⟨_, _, rfl, by simp only [row]; decide⟩

end Sys2Proof.Laws.OpcodeByte
end

