-- ==== Sys2Proof/Laws/Step.lean ====
section
/-! SUPPORT. The inversion of `step` and of `turnAway`: all a step can do. -/

namespace Sys2Proof.Machine

/-- All a step that gives a next state can do: nothing while no request waits; the instruction the
oldest request decodes to; or the turning away of one that decodes to none. -/
theorem step_cases {s t : State} (h : step s = .next t) :
    cfgLegal s.cfg = true ∧
      ((s.requests = [] ∧ t = s) ∨
        ∃ r rest, s.requests = r :: rest ∧
          ((∃ i, decode s.cfg r = .ok i ∧ exec i { s with requests := rest } = .next t) ∨
            (∃ e, decode s.cfg r = .bad e ∧ turnAway e { s with requests := rest } = .next t))) := by
  unfold step at h
  split at h
  · next hc =>
    refine ⟨hc, ?_⟩
    cases hr : s.requests with
    | nil =>
      simp only [fetch, hr] at h
      exact .inl ⟨rfl, by cases h; rfl⟩
    | cons r rest =>
      simp only [fetch, hr] at h
      refine .inr ⟨r, rest, rfl, ?_⟩
      split at h
      · next heq => cases heq
      · next i s1 heq =>
        simp only [Option.some.injEq, Prod.mk.injEq] at heq
        obtain ⟨hd, rfl⟩ := heq
        exact .inl ⟨i, hd, h⟩
      · next e s1 heq =>
        simp only [Option.some.injEq, Prod.mk.injEq] at heq
        obtain ⟨hd, rfl⟩ := heq
        exact .inr ⟨e, hd, h⟩
  · cases h

/-- All `turnAway` can do. -/
theorem turnAway_cases {e : DecodeError} {s t : State} (h : turnAway e s = .next t) :
    t = refuse s .unknownOperation ∨ t = raiseMalformed s ∨
      ∃ p, t = raiseMalformed (setAcc s p []) := by
  cases e with
  | unknownOperation => cases h; exact .inl rfl
  | emptyFrame => cases h; exact .inr (.inl rfl)
  | truncatedHeader => cases h; exact .inr (.inl rfl)
  | noMarker p => cases h; exact .inr (.inr ⟨p, rfl⟩)
  | badOperands => cases h

end Sys2Proof.Machine
end

