-- ==== Sys2Proof/Tests/Slice0.lean ====
section
/-! SUPPORT. The model's own tests: ill-formed instructions refused, words of the spec decoded, the
spec's worked examples executed one at a time, and for every statement with hypotheses a concrete
state and operands that meet them. Expected values are from spec/95_test_vectors.md and the worked
examples in the rules, unless a comment says otherwise. -/

namespace Sys2Proof.Tests

-- One thread for all theorems: each of the tests would else be checked on a thread of its own.
set_option Elab.async false

open Sys2Proof Sys2Proof.Machine

/-! ## Helpers -/

/-- The state an outcome goes on to. -/
def nextOf (o : Host.Outcome State Fault Refusal) : Option State :=
  match o with
  | .next s => some s
  | .fault _ => none
  | .refused _ => none

theorem exists_next {o : Host.Outcome State Fault Refusal} (h : (nextOf o).isSome = true) :
    ∃ t, o = .next t := by
  cases o with
  | next s => exact ⟨s, rfl⟩
  | fault r => cases h
  | refused r => cases h

/-- The reply after an instruction. -/
def replyOf (i : Instr) (s : State) : Option Reply := (nextOf (exec i s)).map (·.reply)

/-- `n` bytes of one value. -/
def fill (b : Byte) (n : Nat) : Bytes := List.replicate n b

/-- A configuration of small numbers, legal by 00_scope.md R6: F = O = 8, NF = 4, M = 14, W = 8, at
most 24 bytes, so at most three fragments; one retry; one-letter tokens. -/
def tiny (role : Role) : Cfg where
  firstCap := 8
  otherCap := 8
  nonfragCap := 4
  maxFrame := 14
  maxDatagram := 24
  writeLimit := 8
  maxRetry := 1
  tAck := 5
  tByte := 2
  tFrame := 6
  tDgram := 20
  tokenClient := [0x63]
  tokenRelay := [0x72]
  tokenServer := [0x73]
  role := role
  peerRole := .server
  relayQueueCap := 2

/-- After reset under a configuration, with bytes waiting on `P0` and a clock that stands still for
`n` readings. -/
def waiting (c : Cfg) (bs : Bytes) (n : Nat) : State :=
  setEnv (State.resetWith c) { (State.resetWith c).env with
    rx := ⟨promptly bs, [], []⟩, lapses := List.replicate n 0, draws := [0xBEEF] }

/-- A 20-byte datagram and its three frames under `tiny`, tag 0xBEEF, written out from
30_encoding.md R54 and R55. -/
def data : Bytes :=
  [0, 1, 2, 3, 4, 5, 6, 7, 8, 9, 10, 11, 12, 13, 14, 15, 16, 17, 18, 19]
def frameA : Bytes := [0xC0, 0x14, 0xBE, 0xEF, 0, 1, 2, 3, 4, 5, 6, 7]
def frameB : Bytes := [0xE0, 0x14, 0xBE, 0xEF, 0x01, 8, 9, 10, 11, 12, 13, 14, 15]
def frameC : Bytes := [0xE0, 0x14, 0xBE, 0xEF, 0x02, 16, 17, 18, 19]

/-- A context under `tiny` that holds the first of the three fragments. -/
def bound : State :=
  { State.resetWith (tiny .client) with
    ctx := openedCtx (tiny .client) [] 20 0xBEEF [0, 1, 2, 3, 4, 5, 6, 7] }

/-- A sender of two frames waiting for the acknowledgement of frame `idx`. -/
def sending (idx : Nat) : State :=
  { waiting (tiny .client) [] 4 with
    arq := ⟨.awaitingAck, 0, 5, 2, idx, [frameA, frameB]⟩ }

/-- A relay with `frameA` in flight. -/
def relaying : State :=
  { waiting (tiny .relay) [] 4 with relay := ⟨[frameA], true, 0, 5⟩ }

theorem test_cfgRef_legal : cfgLegal cfgRef = true := by decide +kernel
theorem test_tiny_legal (r : Role) : cfgLegal (tiny r) = true := by cases r <;> decide +kernel
/-- R7: NMAX of CFG_REF is 24. -/
theorem test_nmax : nmax cfgRef = 24 := by decide +kernel
/-- R6 (d): M above 191 is illegal. -/
theorem test_cfg_illegal : cfgLegal { cfgRef with maxFrame := 192, writeLimit := 100 } = false := by
  decide +kernel

/-! ## Well-formedness: an ill-formed term for each check -/

theorem test_wf_num : (Instr.fragCount (2 ^ 32)).wellFormed cfgRef = false := by decide +kernel
theorem test_wf_pack_a : (Instr.hdrPack 0 (2 ^ 32) 0 0 0).wellFormed cfgRef = false := by
  decide +kernel
theorem test_wf_pack_offset : (Instr.hdrPack 0 0 0 (2 ^ 32) 0).wellFormed cfgRef = false := by
  decide +kernel
theorem test_wf_pack_cap : (Instr.hdrPack 0 0 0 0 (2 ^ 32)).wellFormed cfgRef = false := by
  decide +kernel
theorem test_wf_kinds :
    (Instr.kindNonfrag (2 ^ 32) 0 0 0).wellFormed cfgRef = false ∧
    (Instr.kindFirst 0 0 (2 ^ 32) 0).wellFormed cfgRef = false ∧
    (Instr.kindOther 0 0 0 (2 ^ 32)).wellFormed cfgRef = false ∧
    (Instr.kindUnrecognised (2 ^ 32) 0 0 0).wellFormed cfgRef = false := by decide +kernel
theorem test_wf_slots : (Instr.fragment [] 0 (2 ^ 32)).wellFormed cfgRef = false := by
  decide +kernel
theorem test_wf_caps :
    (Instr.rsmExtract (2 ^ 32)).wellFormed cfgRef = false ∧
    (Instr.lrDeliver [] (2 ^ 32)).wellFormed cfgRef = false ∧
    (Instr.arqRecvDatagram .p0 (2 ^ 32)).wellFormed cfgRef = false := by decide +kernel
/-- An acknowledgement frame is no data frame. -/
theorem test_wf_ack :
    (Instr.nonfragLo 7 [0x63, 0x6C, 0x69, 0x65, 0x6E, 0x74]).wellFormed cfgRef = false := by
  decide +kernel
theorem test_wf_ack_hi :
    (Instr.nonfragHi 1 (fill 0x41 128)).wellFormed { cfgRef with tokenRelay := fill 0x41 128 } =
      false := by decide +kernel
/-- A buffer too long for its length field. -/
theorem test_wf_buffers (b : Bytes) (h : b.length = 2 ^ 32) :
    (Instr.hdrUnpack b).wellFormed cfgRef = false ∧
    (Instr.rsmIngest b).wellFormed cfgRef = false ∧
    (Instr.tfSplit b).wellFormed cfgRef = false ∧
    (Instr.tfJoin b []).wellFormed cfgRef = false ∧
    (Instr.tfJoin [] b).wellFormed cfgRef = false ∧
    (Instr.fragment b 0 0).wellFormed cfgRef = false ∧
    (Instr.lrDeliver b 0).wellFormed cfgRef = false ∧
    (Instr.arqSendStart .p0 b).wellFormed cfgRef = false := by
  simp [Instr.wellFormed, numFits, h]

/-! ## Decoding: words written out from 30_encoding.md, one for every constructor -/

theorem test_decode_nonfragLo :
    decode cfgRef ⟨.frame, .p0, [0b00000011, 0x68, 0x69]⟩ = .ok (.nonfragLo 3 [0x68, 0x69]) := by
  decide +kernel
theorem test_decode_nonfragHi :
    decode cfgRef ⟨.frame, .p0, [0b10000101, 0x68]⟩ = .ok (.nonfragHi 5 [0x68]) := by decide +kernel
theorem test_decode_frag1 :
    decode cfgRef ⟨.frame, .p0, [0b11001000, 0x30, 0x12, 0x34, 0x55]⟩ =
      .ok (.frag1 2096 0x1234 [0x55]) := by decide +kernel
theorem test_decode_fragn :
    decode cfgRef ⟨.frame, .p0, [0b11101000, 0x30, 0x12, 0x34, 0xFB, 0x55]⟩ =
      .ok (.fragn 2096 0x1234 251 [0x55]) := by decide +kernel
theorem test_decode_chunk1 :
    decode cfgRef ⟨.chunk, .up, [0b00000001, 0xC0]⟩ = .ok (.chunk1 .up [0xC0]) := by decide +kernel
theorem test_decode_chunk2 :
    decode cfgRef ⟨.chunk, .down, [0b00000010, 0xC0]⟩ = .ok (.chunk2 .down [0xC0]) := by
  decide +kernel
theorem test_decode_ackClient :
    decode cfgRef ⟨.frame, .p0, [0x07, 0x63, 0x6C, 0x69, 0x65, 0x6E, 0x74]⟩ =
      .ok (.ackClient .p0) := by decide +kernel
theorem test_decode_ackRelay :
    decode cfgRef ⟨.frame, .up, [0x06, 0x72, 0x65, 0x6C, 0x61, 0x79]⟩ = .ok (.ackRelay .up) := by
  decide +kernel
theorem test_decode_ackServer :
    decode cfgRef ⟨.frame, .down, [0x07, 0x73, 0x65, 0x72, 0x76, 0x65, 0x72]⟩ =
      .ok (.ackServer .down) := by decide +kernel
/-- One byte off, it is a data frame. -/
theorem test_decode_notAck :
    decode cfgRef ⟨.frame, .down, [0x07, 0x73, 0x65, 0x72, 0x76, 0x65, 0x73]⟩ =
      .ok (.nonfragLo 7 [0x73, 0x65, 0x72, 0x76, 0x65, 0x73]) := by decide +kernel

theorem test_decode_hdrPack :
    decode cfgRef ⟨.operation, .p0,
      [0x00, 2, 0, 0, 0, 150, 0xBE, 0xEF, 0, 0, 0, 72, 0, 0, 0, 5]⟩ =
      .ok (.hdrPack 2 150 0xBEEF 72 5) := by decide +kernel
theorem test_decode_hdrUnpack :
    decode cfgRef ⟨.operation, .p0, [0x01, 0, 0, 0, 2, 0x02, 0x41]⟩ =
      .ok (.hdrUnpack [0x02, 0x41]) := by decide +kernel
theorem test_decode_hdrFrameLen :
    decode cfgRef ⟨.operation, .p0, [0x02, 2, 0x00, 0x96, 0xBE, 0xEF, 9]⟩ =
      .ok (.hdrFrameLen (.other 150 0xBEEF 9)) := by decide +kernel
theorem test_decode_fragCount :
    decode cfgRef ⟨.operation, .p0, [0x03, 0, 0, 8, 0x30]⟩ = .ok (.fragCount 2096) := by
  decide +kernel
theorem test_decode_fragment :
    decode cfgRef ⟨.operation, .p0, [0x04, 0, 0, 0, 1, 0x77, 0xBE, 0xEF, 0, 0, 0, 24]⟩ =
      .ok (.fragment [0x77] 0xBEEF 24) := by decide +kernel
theorem test_decode_rsmReset : decode cfgRef ⟨.operation, .p0, [0x05]⟩ = .ok .rsmReset := by
  decide +kernel
theorem test_decode_rsmIngest :
    decode cfgRef ⟨.operation, .p0, [0x06, 0, 0, 0, 1, 0x00]⟩ = .ok (.rsmIngest [0x00]) := by
  decide +kernel
theorem test_decode_rsmComplete : decode cfgRef ⟨.operation, .p0, [0x07]⟩ = .ok .rsmComplete := by
  decide +kernel
theorem test_decode_rsmExtract :
    decode cfgRef ⟨.operation, .p0, [0x08, 0, 0, 0, 150]⟩ = .ok (.rsmExtract 150) := by
  decide +kernel
theorem test_decode_tfSplit :
    decode cfgRef ⟨.operation, .p0, [0x09, 0, 0, 0, 1, 0x41]⟩ = .ok (.tfSplit [0x41]) := by
  decide +kernel
theorem test_decode_tfJoin :
    decode cfgRef ⟨.operation, .p0, [0x0A, 0, 0, 0, 1, 0x01, 0, 0, 0, 1, 0x02]⟩ =
      .ok (.tfJoin [0x01] [0x02]) := by decide +kernel
theorem test_decode_lrRecvFrame :
    decode cfgRef ⟨.operation, .p0, [0x0B, 1]⟩ = .ok (.lrRecvFrame .up) := by decide +kernel
theorem test_decode_lrDeliver :
    decode cfgRef ⟨.operation, .p0, [0x0C, 0, 0, 0, 1, 0x41, 0, 0, 0, 9]⟩ =
      .ok (.lrDeliver [0x41] 9) := by decide +kernel
theorem test_decode_arqSendStart :
    decode cfgRef ⟨.operation, .p0, [0x0D, 2, 0, 0, 0, 1, 0x41]⟩ =
      .ok (.arqSendStart .down [0x41]) := by decide +kernel
theorem test_decode_arqSendPoll :
    decode cfgRef ⟨.operation, .p0, [0x0E, 0]⟩ = .ok (.arqSendPoll .p0) := by decide +kernel
theorem test_decode_arqRecvDatagram :
    decode cfgRef ⟨.operation, .p0, [0x0F, 0, 0, 0, 8, 0x30]⟩ =
      .ok (.arqRecvDatagram .p0 2096) := by decide +kernel
theorem test_decode_relayPoll : decode cfgRef ⟨.operation, .p0, [0x10]⟩ = .ok .relayPoll := by
  decide +kernel
theorem test_decode_lfbInit : decode cfgRef ⟨.operation, .p0, [0x11]⟩ = .ok .lfbInit := by
  decide +kernel
theorem test_decode_unknown :
    decode cfgRef ⟨.operation, .p0, [0x12]⟩ = .bad .unknownOperation := by decide +kernel
theorem test_decode_noOperands :
    decode cfgRef ⟨.operation, .p0, [0x03, 0, 0]⟩ = .bad .badOperands := by decide +kernel
theorem test_decode_truncated :
    decode cfgRef ⟨.frame, .p0, [0xC0, 0x96, 0xBE]⟩ = .bad .truncatedHeader := by decide +kernel
theorem test_decode_empty : decode cfgRef ⟨.frame, .p0, []⟩ = .bad .emptyFrame := by decide +kernel
theorem test_decode_noMarker :
    decode cfgRef ⟨.chunk, .up, [0x03]⟩ = .bad (.noMarker .up) := by decide +kernel
theorem test_decode_kinds :
    decode cfgRef ⟨.kind, .p0, [0, 0, 0, 0, 2, 0, 0, 0, 0, 0, 0, 0, 0, 0, 1]⟩ =
      .ok (.kindNonfrag 2 0 0 1) ∧
    decode cfgRef ⟨.kind, .p0, [1, 0, 0, 0, 150, 0xBE, 0xEF, 0, 0, 0, 0, 0, 0, 0, 4]⟩ =
      .ok (.kindFirst 150 0xBEEF 0 4) ∧
    decode cfgRef ⟨.kind, .p0, [2, 0, 0, 0, 150, 0xBE, 0xEF, 0, 0, 0, 72, 0, 0, 0, 5]⟩ =
      .ok (.kindOther 150 0xBEEF 72 5) ∧
    decode cfgRef ⟨.kind, .p0, [3, 0, 0, 0, 0, 0, 0, 0, 0, 0, 0, 0, 0, 0, 0]⟩ =
      .ok (.kindUnrecognised 0 0 0 0) := by decide +kernel
/-- The opcode-table word of an operation, as the host lays it out. -/
theorem test_tableWord : decodeTableWord 8 0x07 = some .rsmComplete := by decide +kernel

/-! ## One step each -/

theorem test_hdrPack_other :
    replyOf (.hdrPack 2 150 0xBEEF 79 5) State.reset =
      some (.ok (.bytes [0xE0, 0x96, 0xBE, 0xEF, 0x09])) := by decide +kernel
theorem test_hdrPack_range :
    replyOf (.hdrPack 0 192 0 0 1) State.reset = some (.refused .fieldRange) := by decide +kernel
theorem test_hdrUnpack_first :
    replyOf (.hdrUnpack [0xC0, 0x96, 0xBE, 0xEF]) State.reset =
      some (.ok (.header (.first 150 0xBEEF))) := by decide +kernel
theorem test_hdrUnpack_truncated :
    replyOf (.hdrUnpack [0xC0, 0x96, 0xBE]) State.reset = some (.error .malformedFrame) := by
  decide +kernel
theorem test_hdrFrameLen :
    replyOf (.hdrFrameLen (.other 150 0xBEEF 9)) State.reset = some (.ok (.num 83)) := by
  decide +kernel
theorem test_hdrFrameLen_invalid :
    replyOf (.hdrFrameLen (.nonFrag 94)) State.reset = some (.error .malformedFrame) := by
  decide +kernel
/-- The count at the exact multiple, and one beyond (41_fragmenter.md R81). -/
theorem test_fragCount :
    replyOf (.fragCount 160) State.reset = some (.ok (.num 2)) ∧
    replyOf (.fragCount 161) State.reset = some (.ok (.num 3)) := by decide +kernel
theorem test_fragCount_zero :
    replyOf (.fragCount 0) State.reset = some (.refused .lengthRange) := by decide +kernel
theorem test_fragment :
    replyOf (.fragment data 0xBEEF 3) (State.resetWith (tiny .client)) =
      some (.ok (.units [frameA, frameB, frameC])) := by decide +kernel
theorem test_fragment_single :
    replyOf (.fragment [0x68, 0x69] 0 1) State.reset =
      some (.ok (.units [[0x03, 0x68, 0x69]])) := by decide +kernel
theorem test_rsmReset :
    (nextOf (exec .rsmReset bound)).map (fun t => (t.ctx.idle, t.ctx.filled, t.ctx.buf.length)) =
      some (true, 0, 8) := by decide +kernel
/-- The example of 42_reassembler.md R94, under `tiny`. -/
theorem test_rsmIngest_first :
    (nextOf (exec (.rsmIngest frameA) (State.resetWith (tiny .client)))).map
        (fun t => (t.reply, t.ctx.filled, t.ctx.curIndex, t.ctx.sizeTable, t.ctx.received)) =
      some (.ok (.ingested .started), 8, 1, [12, 13, 9], [true, false, false]) := by decide +kernel
/-- The third fragment before the second: placed by its own offset, and the index stays. -/
theorem test_rsmIngest_outOfOrder :
    (nextOf (exec (.rsmIngest frameC) bound)).map
        (fun t => (t.reply, t.ctx.filled, t.ctx.curIndex, Memory.read t.ctx.buf 19)) =
      some (.ok (.ingested .accepted), 12, 1, some 19) := by decide +kernel
theorem test_rsmComplete : replyOf .rsmComplete bound = some (.ok (.bool false)) := by
  decide +kernel
theorem test_rsmExtract : replyOf (.rsmExtract 24) bound = some (.ok (.datagram [])) := by
  decide +kernel
/-- 42_reassembler.md R103 on the three frames, the last one first after frame 0. -/
theorem test_rsmExtract_complete :
    ((runAll [.rsmIngest frameC, .rsmIngest frameB, .rsmExtract 20] bound).map (·.reply)) =
      some (.ok (.datagram data)) := by decide +kernel
/-- Scenario 2 of the source, under W = 64. -/
theorem test_tfSplit :
    replyOf (.tfSplit (fill 0x41 64 ++ fill 0x42 26)) State.reset =
      some (.ok (.units [0x01 :: fill 0x41 64, 0x02 :: fill 0x42 26])) := by decide +kernel
theorem test_tfSplit_exact :
    replyOf (.tfSplit (fill 0x41 64)) State.reset = some (.ok (.units [fill 0x41 64])) := by
  decide +kernel
theorem test_tfJoin :
    replyOf (.tfJoin (0x01 :: fill 0x41 64) (0x02 :: fill 0x42 26)) State.reset =
      some (.ok (.bytes (fill 0x41 64 ++ fill 0x42 26))) := by decide +kernel
theorem test_tfJoin_marker :
    replyOf (.tfJoin (0x01 :: fill 0x41 64) (0x01 :: fill 0x42 26)) State.reset =
      some (.error .malformedFrame) := by decide +kernel
theorem test_lrRecvFrame :
    replyOf (.lrRecvFrame .p0) (waiting cfgRef [0x03, 0x68, 0x69, 0x05] 3) =
      some (.ok (.frame [0x03, 0x68, 0x69])) := by decide +kernel
theorem test_lrRecvFrame_oversize :
    replyOf (.lrRecvFrame .p0) (waiting cfgRef [0x5E, 0x68] 3) = some (.error .malformedFrame) := by
  decide +kernel
theorem test_lrDeliver :
    replyOf (.lrDeliver [0x03, 0x68, 0x69] 2096) State.reset =
      some (.ok (.datagram [0x68, 0x69])) := by decide +kernel
theorem test_lrDeliver_small :
    replyOf (.lrDeliver frameB 19) bound = some (.refused .bufferTooSmall) := by decide +kernel
theorem test_arqSendStart :
    (nextOf (exec (.arqSendStart .p0 data) (waiting (tiny .client) [] 2))).map
        (fun t => (t.reply, t.arq.deadline, t.env.tx.p0)) =
      some (.ok (.num 3), 5, [0x01 :: frameA.take 8, 0x02 :: frameA.drop 8]) := by decide +kernel
theorem test_arqSendStart_token :
    replyOf (.arqSendStart .p0 [0x73, 0x65, 0x72, 0x76, 0x65, 0x72]) State.reset =
      some (.refused .payloadIsAckToken) := by decide +kernel
theorem test_arqSendPoll_ack :
    (nextOf (exec (.arqSendPoll .p0)
        { sending 0 with env := (waiting (tiny .client) [0x02, 0x73] 4).env })).map
        (fun t => (t.reply, t.arq.idx, t.env.tx.p0)) =
      some (.ok (.arqState .awaitingAck), 1, [0x01 :: frameB.take 8, 0x02 :: frameB.drop 8]) := by
  decide +kernel
/-- An acknowledgement of another role is discarded; the deadline has not elapsed. -/
theorem test_arqSendPoll_otherRole :
    (nextOf (exec (.arqSendPoll .p0)
        { sending 0 with env := (waiting (tiny .client) [0x02, 0x72] 4).env })).map
        (fun t => (t.reply, t.arq.idx, t.env.tx.p0)) =
      some (.ok (.arqState .awaitingAck), 0, []) := by decide +kernel
theorem test_arqRecvDatagram :
    (nextOf (exec (.arqRecvDatagram .p0 2096)
        (waiting { cfgRef with role := .server } [0x03, 0x68, 0x69] 6))).map
        (fun t => (t.reply, t.env.tx.p0)) =
      some (.ok (.datagram [0x68, 0x69]), [[0x07, 0x73, 0x65, 0x72, 0x76, 0x65, 0x72]]) := by
  decide +kernel
theorem test_arqRecvDatagram_small :
    replyOf (.arqRecvDatagram .p0 2095) State.reset = some (.refused .bufferTooSmall) := by
  decide +kernel
theorem test_relayPoll :
    (nextOf (exec .relayPoll { waiting { cfgRef with role := .relay } [] 5 with
        env := { (waiting cfgRef [] 5).env with rx := ⟨[], promptly [0x03, 0x68, 0x69], []⟩ } })).map
        (fun t => (t.reply, t.relay.inFlight, t.env.tx.up, t.env.tx.down)) =
      some (.ok (.num 1), true, [[0x06, 0x72, 0x65, 0x6C, 0x61, 0x79]], [[0x03, 0x68, 0x69]]) := by
  decide +kernel
theorem test_relayPoll_role :
    replyOf .relayPoll State.reset = some (.refused .wrongRole) := by decide +kernel
theorem test_lfbInit :
    (nextOf (exec .lfbInit (sending 1))).map (fun t => (t.arq.state, t.arq.nframes, t.reply)) =
      some (.idle, 0, .ok .unit) := by decide +kernel
theorem test_nonfragLo :
    replyOf (.nonfragLo 3 [0x68, 0x69]) bound = some (.ok (.datagram [0x68, 0x69])) := by
  decide +kernel
theorem test_nonfragHi :
    replyOf (.nonfragHi 0 [0x68]) bound = some (.error .malformedFrame) := by decide +kernel
theorem test_frag1 :
    replyOf (.frag1 20 0xBEEF [0, 1, 2, 3, 4, 5, 6, 7]) bound =
      some (.ok (.ingested .duplicate)) := by decide +kernel
theorem test_fragn :
    replyOf (.fragn 20 0xBEE0 1 [8, 9, 10, 11, 12, 13, 14, 15]) bound =
      some (.error .malformedFrame) := by decide +kernel
theorem test_chunk1 :
    (nextOf (exec (.chunk1 .p0 (frameA.take 8)) (State.resetWith (tiny .client)))).map
        (fun t => (t.reply, t.lr.p0)) =
      some (.ok .nothing, 0x01 :: frameA.take 8) := by decide +kernel
theorem test_chunk2 :
    (nextOf (exec (.chunk2 .p0 (frameA.drop 8))
        (setAcc (State.resetWith (tiny .client)) .p0 (0x01 :: frameA.take 8)))).map
        (fun t => (t.reply, t.lr.p0)) = some (.ok (.frame frameA), []) := by decide +kernel
theorem test_ackServer :
    (nextOf (exec (.ackServer .p0) (sending 1))).map (fun t => (t.reply, t.arq.idx)) =
      some (.ok (.arqState .done), 2) := by decide +kernel
theorem test_ackClient :
    (nextOf (exec (.ackClient .p0) (sending 1))).map (fun t => (t.reply, t.arq.idx)) =
      some (.ok (.arqState .awaitingAck), 1) := by decide +kernel
/-- 20_memory.md R49: a write handed in behind an acknowledgement frame that waits is read after
it. -/
theorem test_stream_order :
    (runAll [.ackServer .p0, .chunk2 .p0 [0x41, 0x42]] bound).map (fun t =>
      (t.reply, streamBytes (t.env.rx.get .p0))) =
      some (.ok .nothing, [0x02, 0x73, 0x02, 0x41, 0x42]) := by decide +kernel

/-- 60_exceptions.md R147: after a datagram Timeout no bytes are held, a first write's neither. -/
theorem test_recvDatagram_timeout_lr :
    (nextOf (exec (.arqRecvDatagram .p0 24) (setAcc (setEnv bound { bound.env with
        lapses := [0, 20] }) .p0 [0x01, 0xC0]))).map (fun t => (t.reply, lrCount t .p0)) =
      some (.error .timeout, 0) := by decide +kernel

theorem test_ackRelay : replyOf (.ackRelay .p0) State.reset = some (.ok (.arqState .idle)) := by
  decide +kernel
theorem test_kindNonfrag :
    replyOf (.kindNonfrag 73 0 0 1) State.reset = some (.ok (.bytes [0x49])) := by decide +kernel
theorem test_kindFirst :
    replyOf (.kindFirst 8191 0xFFFF 0 4) State.reset =
      some (.ok (.bytes [0xDF, 0xFF, 0xFF, 0xFF])) := by decide +kernel
theorem test_kindOther :
    replyOf (.kindOther 8191 0 2047 5) State.reset =
      some (.ok (.bytes [0xFF, 0xFF, 0x00, 0x00, 0xFF])) := by decide +kernel
theorem test_kindUnrecognised :
    replyOf (.kindUnrecognised 0 0 0 5) State.reset = some (.error .unknownFragmentKind) := by
  decide +kernel
/-- A whole step: the oldest request is executed and taken off the queue. -/
theorem test_step :
    (nextOf (step { State.reset with requests := [⟨.operation, .p0, [0x07]⟩] })).map
        (fun t => (t.requests, t.reply)) = some ([], .ok (.bool false)) := by decide +kernel

/-! ## Witnesses: for every statement with hypotheses, a state and operands that meet them -/

/-- A Complete context under `tiny`: a datagram of one fragment. -/
def whole : State :=
  { State.resetWith (tiny .client) with
    ctx := openedCtx (tiny .client) [] 8 0xBEEF [0, 1, 2, 3, 4, 5, 6, 7] }

theorem witness_ctxInv_bound : CtxInv (tiny .client) bound.ctx where
  bufWf := by decide +kernel
  bufBounds := by decide +kernel
  tableLength := by decide +kernel
  receivedLength := by decide +kernel
  idle := fun h => absurd h (by decide)
  bound := fun _ =>
    { size := by decide +kernel
      fragCount := by decide +kernel
      sizeTable := by decide +kernel
      first := by decide +kernel
      beyond := fun p hp => by
        have hl : bound.ctx.received.length = 3 := by decide +kernel
        have hc : bound.ctx.fragCount = 3 := by decide +kernel
        rw [List.getElem?_eq_none (by omega)]
        simp
      filled := by decide +kernel
      curIndex := by decide +kernel
      written := fun p hp => by
        have hr : bound.ctx.received = [true, false, false] := by decide +kernel
        rw [hr] at hp
        match p with
        | 0 => decide +kernel
        | 1 => simp at hp
        | 2 => simp at hp
        | n + 3 => simp at hp }

theorem witness_ctxInv_whole : CtxInv (tiny .client) whole.ctx where
  bufWf := by decide +kernel
  bufBounds := by decide +kernel
  tableLength := by decide +kernel
  receivedLength := by decide +kernel
  idle := fun h => absurd h (by decide)
  bound := fun _ =>
    { size := by decide +kernel
      fragCount := by decide +kernel
      sizeTable := by decide +kernel
      first := by decide +kernel
      beyond := fun p hp => by
        have hr : whole.ctx.received = [true, false, false] := by decide +kernel
        have hc : whole.ctx.fragCount = 1 := by decide +kernel
        rw [hc] at hp
        rw [hr]
        match p with
        | 0 => omega
        | 1 => simp
        | 2 => simp
        | n + 3 => simp
      filled := by decide +kernel
      curIndex := by decide +kernel
      written := fun p hp => by
        have hr : whole.ctx.received = [true, false, false] := by decide +kernel
        rw [hr] at hp
        match p with
        | 0 => decide +kernel
        | 1 => simp at hp
        | 2 => simp at hp
        | n + 3 => simp at hp }

theorem witness_DecodeEncodeRoundTrip :
    cfgLegal cfgRef = true ∧
    (Instr.fragn 2096 0x1234 251 [0x55]).wellFormed cfgRef = true ∧
    (Instr.fragCount (2 ^ 32 - 1)).wellFormed cfgRef = true := by decide +kernel

theorem witness_DecodedInstrWellFormed :
    cfgLegal cfgRef = true ∧
    decode cfgRef ⟨.operation, .p0, [0x08, 0xFF, 0xFF, 0xFF, 0xFF]⟩ =
      .ok (.rsmExtract (2 ^ 32 - 1)) := by decide +kernel

theorem witness_FrameBytesSurviveDecode :
    decode cfgRef ⟨.frame, .up, [0xDF, 0xFF, 0xBE, 0xEF]⟩ = .ok (.frag1 8191 0xBEEF []) ∧
    decode cfgRef ⟨.chunk, .up, [0x02]⟩ = .ok (.chunk2 .up []) := by decide +kernel

/-- The values of byte 0 where the clauses meet. -/
theorem witness_HdrUnpackOutcome :
    (0 : Byte).toNat = 0 ∧ (1 ≤ (0xBF : Byte).toNat ∧ (0xBF : Byte).toNat < 0xC0) ∧
    (0xC0 ≤ (0xC0 : Byte).toNat ∧ (0xDF : Byte).toNat < 0xE0) ∧ 0xE0 ≤ (0xE0 : Byte).toNat := by
  decide +kernel

theorem witness_HeaderCodecRoundTrip :
    exec (packInstr (.nonFrag 191) 1) State.reset =
      .next { State.reset with reply := .ok (.bytes [0xBF]) } ∧
    exec (packInstr (.other 8191 0 255) 5) State.reset =
      .next { State.reset with reply := .ok (.bytes [0xFF, 0xFF, 0, 0, 0xFF]) } ∧
    exec (.hdrUnpack [0xFF, 0xFF, 0, 0, 0xFF]) State.reset =
      .next { State.reset with reply := .ok (.header (.other 8191 0 255)) } := ⟨rfl, rfl, rfl⟩

theorem witness_OffsetQuantization : 2047 ≤ 2047 ∧ 8191 ≤ 8191 := by decide

theorem witness_HdrFrameLenOutcome :
    otherValid (tiny .client) 20 2 ∧ ¬ otherValid (tiny .client) 16 2 ∧
    cfgLegal bound.cfg = true ∧ CtxInv bound.cfg bound.ctx ∧ bound.ctx.idle = false ∧
    (20 : BitVec 13).toNat = bound.ctx.expectedSize ∧
    exec (.hdrFrameLen (.other 20 0xBEEF 2)) bound = .next { bound with reply := .ok (.num 9) } :=
  ⟨by unfold otherValid; decide +kernel, by unfold otherValid; decide +kernel, by decide +kernel,
    witness_ctxInv_bound, rfl, rfl, rfl⟩

/-- The lengths where the clauses of FRAG_COUNT and FRAGMENT meet, under CFG_REF. -/
theorem witness_FragCountOutcome :
    cfgLegal State.reset.cfg = true ∧ ¬ lengthOk cfgRef 0 ∧ lengthOk cfgRef 1 ∧
    lengthOk cfgRef 72 ∧ 72 ≤ cfgRef.nonfragCap ∧ cfgRef.nonfragCap < 73 ∧
    lengthOk cfgRef 2096 ∧ ¬ lengthOk cfgRef 2097 ∧
    exec (.fragCount 73) State.reset = .next { State.reset with reply := .ok (.num 2) } := by
  refine ⟨by decide +kernel, ?_, ?_, ?_, ?_, ?_, ?_, ?_, rfl⟩ <;> simp [lengthOk, cfgRef]

theorem witness_FragmentOutcome :
    cfgLegal (tiny .client) = true ∧ lengthOk (tiny .client) data.length ∧
    (tiny .client).nonfragCap < data.length ∧ lengthOk (tiny .client) [0x41].length ∧
    [0x41#8].length ≤ (tiny .client).nonfragCap ∧ ¬ lengthOk (tiny .client) ([] : Bytes).length ∧
    3 = 1 + (data.length - (tiny .client).firstCap + (tiny .client).otherCap - 1) /
      (tiny .client).otherCap := by
  unfold lengthOk
  decide +kernel

theorem witness_FragmentProperties :
    cfgLegal (tiny .client) = true ∧ (tiny .client).nonfragCap < data.length ∧
    exec (.fragment data 0xBEEF 3) (State.resetWith (tiny .client)) =
      .next { State.resetWith (tiny .client) with
        reply := .ok (.units [frameA, frameB, frameC]) } :=
  ⟨by decide +kernel, by decide +kernel, rfl⟩

theorem witness_SlicesPartition :
    cfgLegal (tiny .client) = true ∧ 1 ≤ 20 ∧ 0 + 1 < nfrag (tiny .client) 20 ∧
    (tiny .client).firstCap < 20 := by decide +kernel

theorem witness_SizeTableEntries :
    cfgLegal (tiny .client) = true ∧ 1 ≤ 1 ∧ 1 + 2 ≤ nfrag (tiny .client) 20 ∧
    2 ≤ nfrag (tiny .client) 20 ∧ 8 ≤ (tiny .client).firstCap := by decide +kernel

theorem witness_IngestFirstBinds :
    cfgLegal bound.cfg = true ∧ lengthOk bound.cfg (24 : BitVec 13).toNat ∧
    ([0, 1, 2, 3, 4, 5, 6, 7] : Bytes).length =
      min (24 : BitVec 13).toNat bound.cfg.firstCap ∧
    bound.ctx.tag ≠ 0x0000 ∧ (State.resetWith (tiny .client)).ctx.idle = true := by
  unfold lengthOk
  decide +kernel

theorem witness_IngestOtherAccepts :
    otherValid bound.cfg 20 2 ∧
    ([16, 17, 18, 19] : Bytes).length =
      min bound.cfg.otherCap ((20 : BitVec 13).toNat - 8 * (2 : BitVec 8).toNat) ∧
    bound.ctx.idle = false ∧ bound.ctx.tag = 0xBEEF ∧
    bound.ctx.expectedSize = (20 : BitVec 13).toNat ∧
    2 = 1 + (8 * (2 : BitVec 8).toNat - bound.cfg.firstCap) / bound.cfg.otherCap ∧
    bound.ctx.received[2]? ≠ some true := by
  unfold otherValid
  decide +kernel

theorem witness_IngestDuplicateOrBypass :
    cfgLegal bound.cfg = true ∧ lengthOk bound.cfg (20 : BitVec 13).toNat ∧
    ([0, 1, 2, 3, 4, 5, 6, 7] : Bytes).length =
      min (20 : BitVec 13).toNat bound.cfg.firstCap ∧
    bound.ctx.idle = false ∧ bound.ctx.tag = 0xBEEF ∧
    bound.ctx.expectedSize = (20 : BitVec 13).toNat ∧
    (runAll [.rsmIngest frameC] bound).map (fun t => t.ctx.received[2]?) = some (some true) ∧
    1 ≤ (0x0E : Byte).toNat ∧ (0x0E : Byte).toNat ≤ bound.cfg.maxFrame := by
  unfold lengthOk
  decide +kernel

theorem witness_IngestMalformed :
    formatValid bound.cfg [0xC0] = false ∧
    unpackHeader frameB = some (.other 20 0xBEEF 1) ∧
    (State.resetWith (tiny .client)).ctx.idle = true ∧
    unpackHeader [0xC0, 0x15, 0xBE, 0xEF] = some (.first 21 bound.ctx.tag) ∧
    bound.ctx.idle = false ∧ bound.ctx.expectedSize ≠ (21 : BitVec 13).toNat := by decide +kernel

theorem witness_RsmCompleteOutcome :
    (whole.ctx.idle = false ∧ whole.ctx.filled = whole.ctx.expectedSize) ∧
    ¬ (bound.ctx.idle = false ∧ bound.ctx.filled = bound.ctx.expectedSize) ∧
    cfgLegal whole.cfg = true ∧ CtxInv whole.cfg whole.ctx :=
  ⟨by decide +kernel, by decide +kernel, by decide +kernel, witness_ctxInv_whole⟩

/-- Both sides of the capacity. -/
theorem witness_RsmExtractOutcome :
    whole.ctx.idle = false ∧ whole.ctx.filled = whole.ctx.expectedSize ∧ 7 < whole.ctx.filled ∧
    whole.ctx.filled ≤ 8 ∧ cfgLegal whole.cfg = true ∧ CtxInv whole.cfg whole.ctx :=
  ⟨rfl, rfl, by decide +kernel, by decide +kernel, by decide +kernel, witness_ctxInv_whole⟩

/-- Also the single-frame clause. -/
theorem witness_ReassembleRoundTrip :
    cfgLegal (tiny .client) = true ∧ (tiny .client).nonfragCap < data.length ∧
    exec (.fragment data 0xBEEF 3) (State.resetWith (tiny .client)) =
      .next { State.resetWith (tiny .client) with
        reply := .ok (.units [frameA, frameB, frameC]) } ∧
    (∀ p ∈ [2, 0, 1, 2], p < [frameA, frameB, frameC].length) ∧
    (∀ p, 1 ≤ p → p < [frameA, frameB, frameC].length → p ∈ [2, 0, 1, 2]) ∧
    exec (.fragment [0x41] 0 1) State.reset =
      .next { State.reset with reply := .ok (.units [[0x02, 0x41]]) } ∧
    [0x41#8].length ≤ State.reset.cfg.nonfragCap :=
  ⟨by decide +kernel, by decide +kernel, rfl, by decide, fun p h1 h2 => by
    have h3 : p < 3 := h2
    interval_cases p <;> decide, rfl, by decide +kernel⟩

theorem witness_TagIsolation :
    cfgLegal bound.cfg = true ∧ bound.cfg.nonfragCap < data.length ∧ bound.ctx.tag ≠ 0x0001 ∧
    exec (.fragment data 0x0001 3) bound = .next { bound with
      reply := .ok (.units (fragmentFrames (tiny .client) data 0x0001)) } :=
  ⟨by decide +kernel, by decide +kernel, by decide +kernel, rfl⟩

theorem witness_MalformedLeavesIdle :
    replyOf (.rsmIngest [0x00]) bound = some (.error .malformedFrame) ∧
    replyOf (.hdrUnpack [0x00]) bound = some (.error .malformedFrame) ∧
    replyOf (.lrRecvFrame .p0) (waiting cfgRef [0x00] 1) = some (.error .malformedFrame) := by
  decide +kernel

theorem witness_TfSplitOutcome :
    2 * State.reset.cfg.writeLimit < (fill 0 129).length ∧ 1 ≤ (fill 0 64).length ∧
    (fill 0 64).length ≤ State.reset.cfg.writeLimit ∧
    State.reset.cfg.writeLimit < (fill 0 65).length ∧
    (fill 0 128).length ≤ 2 * State.reset.cfg.writeLimit := by decide +kernel

theorem witness_TfJoinOutcome :
    (0x01#8 :: fill 0 64).length = State.reset.cfg.writeLimit + 1 ∧
    2 ≤ (0x02#8 :: fill 0 1).length ∧
    (0x02#8 :: fill 0 64).length ≤ State.reset.cfg.writeLimit + 1 ∧
    State.reset.cfg.writeLimit + 1 < (0x02#8 :: fill 0 65).length := by decide +kernel

theorem witness_TfRoundTrip :
    1 ≤ State.reset.cfg.writeLimit ∧ State.reset.cfg.writeLimit < (fill 0 65).length ∧
    (fill 0 65).length ≤ 2 * State.reset.cfg.writeLimit := by decide +kernel

/-- `frameA` is two physical writes under `tiny`; its 14 raw bytes with a pause of 2 ticks and a read
that times out before the second one. -/
def spaced : List RxEvent :=
  match promptly (writesOf (tiny .client) frameA).flatten with
  | first :: .byte b _ :: rest => first :: .silence 1 :: .byte b 2 :: rest
  | other => other

/-- After reset under `tiny`, with the first `m` of those events and then `rest` waiting. -/
def linkState (m : Nat) (rest : List RxEvent) (laps : List Nat) : State :=
  setEnv (State.resetWith (tiny .client)) { (State.resetWith (tiny .client)).env with
    rx := ⟨spaced.take m ++ rest, [], []⟩, lapses := laps }

theorem witness_brings_spaced :
    Brings (tiny .client) (writesOf (tiny .client) frameA).flatten spaced (List.replicate 15 0) :=
  ⟨by decide +kernel, ⟨0x01, 0, by decide +kernel⟩, ⟨7, 0, by decide +kernel⟩, by decide +kernel,
    by decide +kernel⟩

theorem witness_LinkReaderReadsSentFrame :
    cfgLegal (tiny .client) = true ∧ formatValid (tiny .client) frameA = true ∧
    frameA.head? ≠ some 0x01#8 ∧
    Brings (tiny .client) (writesOf (tiny .client) frameA).flatten spaced (List.replicate 15 0) ∧
    (linkState 15 [.silence 0] (List.replicate 15 0 ++ [7])).env.rx.get .p0 =
      spaced ++ [.silence 0] ∧
    (linkState 15 [.silence 0] (List.replicate 15 0 ++ [7])).env.lapses =
      List.replicate 15 0 ++ [7] :=
  ⟨by decide +kernel, by decide +kernel, by decide +kernel, witness_brings_spaced,
    by decide +kernel, rfl⟩

theorem witness_LinkReaderNothing (b : Byte) (k : Nat) (rest : List RxEvent) :
    (linkState 0 [.silence 3] []).env.rx.get .p0 ≠ .byte b k :: rest ∧
    (linkState 0 [] []).env.rx.get .p0 ≠ .byte b k :: rest :=
  ⟨(by intro h; cases h), (by intro h; cases h)⟩

/-- A raw sequence for every cause of `badRaw` under `tiny` (W = 8): an invalid size, an unmarked
frame of 12 bytes, a marked one of 8, and a wrong second marker. -/
theorem witness_badRaw :
    badRaw (tiny .client) [0x00] ∧ badRaw (tiny .client) [0x01, 0x00] ∧
    badRaw (tiny .client) [0xC0, 0x19, 0xBE, 0xEF] ∧
    badRaw (tiny .client) [0xC0, 0x14, 0xBE, 0xEF] ∧ badRaw (tiny .client) [0x01, 0x08] ∧
    badRaw (tiny .client) [0x01, 0xC0, 0x14, 0xBE, 0xEF, 0, 1, 2, 3, 0x03] := by
  refine ⟨.inl rfl, .inr (.inl rfl), .inr (.inr ⟨[0xC0, 0x19, 0xBE, 0xEF], .first 25 0xBEEF, ?_⟩),
    .inr (.inr ⟨[0xC0, 0x14, 0xBE, 0xEF], .first 20 0xBEEF, ?_⟩),
    .inr (.inr ⟨[0x08], .nonFrag 8, ?_⟩),
    .inr (.inr ⟨[0xC0, 0x14, 0xBE, 0xEF], .first 20 0xBEEF, ?_⟩)⟩
  · exact ⟨by decide +kernel, rfl, .inl (by decide +kernel)⟩
  · exact ⟨by decide +kernel, rfl, .inl (by decide +kernel)⟩
  · exact ⟨by decide +kernel, rfl, .inr (.inl (by decide +kernel))⟩
  · exact ⟨by decide +kernel, rfl, .inr (.inr ⟨by decide +kernel, by decide +kernel,
      [0, 1, 2, 3], 0x03, by decide +kernel, by decide +kernel, rfl⟩)⟩

/-- One state for each clause: a zero byte; a wrong second marker; a frame of which the last byte
does not come before the clock is at the deadline, or comes to no read. -/
theorem witness_LinkReaderAborts :
    (linkState 0 [.byte 0 1, .byte 5 0] []).env.rx.get .p0 = .byte 0 1 :: [.byte 5 0] ∧
    Brings (tiny .client) [0x01, 0x08] [.byte 0x01 0, .silence 0, .byte 0x08 9] [3, 0, 1] ∧
    cfgLegal (tiny .client) = true ∧ formatValid (tiny .client) frameA = true ∧
    frameA.head? ≠ some 0x01#8 ∧ 13 < (writesOf (tiny .client) frameA).flatten.length ∧
    Brings (tiny .client) ((writesOf (tiny .client) frameA).flatten.take 13) (spaced.take 14)
      (List.replicate 14 0) ∧
    (linkState 14 [] (List.replicate 14 0 ++ [4])).env.rx.get .p0 = spaced.take 14 ++ [] ∧
    (tiny .client).tFrame ≤ ((spaced.take 14).tail.map (eventCost (tiny .client))).sum +
      (List.replicate 14 0).tail.sum + 4 ∧
    (linkState 14 (List.replicate 6 (.silence 0) ++ [.byte 7 0]) (List.replicate 14 0)).env.rx.get
      .p0 = spaced.take 14 ++ ((List.replicate 6 0).map .silence ++ [.byte 7 0]) ∧
    (tiny .client).tFrame ≤ (List.replicate 6 0).length :=
  ⟨by decide +kernel,
    ⟨by decide +kernel, ⟨0x01, 0, rfl⟩, ⟨0x08, 9, rfl⟩, rfl, by decide +kernel⟩,
    by decide +kernel, by decide +kernel, by decide +kernel, by decide +kernel,
    ⟨by decide +kernel, ⟨0x01, 0, by decide +kernel⟩, ⟨6, 0, by decide +kernel⟩,
      by decide +kernel, by decide +kernel⟩,
    by decide +kernel, by decide +kernel, by decide +kernel, by decide +kernel⟩

theorem witness_LinkReaderBounded :
    cfgLegal (tiny .client) = true ∧
    getAcc (setAcc (linkState 0 [] []) .p0 [0xC0]) .p0 = [0xC0] ∧
    6 ≤ (setAcc (linkState 0 [] []) .p0 [0xC0]).env.clock + (tiny .client).tFrame ∧
    replyOf (.lrRecvFrame .p0) (linkState 0 [.silence 0] []) = some (.ok .nothing) := by
  decide +kernel

theorem witness_LinkReaderExits :
    cfgLegal (tiny .client) = true ∧
    replyOf (.lrRecvFrame .p0) (waiting (tiny .client) [0x02, 0x41] 2) =
      some (.ok (.frame [0x02, 0x41])) := by decide +kernel

/-- One frame for each clause. -/
theorem witness_LrDeliverOutcome :
    replyOf (.rsmIngest [0x00]) bound = some (.error .malformedFrame) ∧
    replyOf (.rsmIngest [0x02, 0x41]) bound = some (.ok (.ingested .bypass)) ∧
    replyOf (.rsmIngest frameA) bound = some (.ok (.ingested .duplicate)) ∧
    replyOf (.rsmIngest frameB) bound = some (.ok (.ingested .accepted)) ∧
    ((nextOf (exec (.rsmIngest (frameA.take 1 ++ [0x08] ++ frameA.drop 2))
        (State.resetWith (tiny .client)))).map fun u =>
      (u.reply, u.ctx.filled, u.ctx.expectedSize)) = some (.ok (.ingested .started), 8, 8) := by
  decide +kernel

theorem witness_NonfragRows :
    cfgLegal cfgRef = true ∧ 1 ≤ (93 : BitVec 7).toNat ∧ (93 : BitVec 7).toNat ≤ cfgRef.maxFrame ∧
    1 + (fill 0 92).length = (93 : BitVec 7).toNat ∧
    ¬ (128 + (0 : BitVec 6).toNat ≤ cfgRef.maxFrame) ∧
    cfgLegal { cfgRef with maxFrame := 128 } = true ∧
    128 + (0 : BitVec 6).toNat ≤ ({ cfgRef with maxFrame := 128 } : Cfg).maxFrame ∧
    1 + (fill 0 127).length = 128 + (0 : BitVec 6).toNat := by decide +kernel

theorem witness_FragRows :
    cfgLegal bound.cfg = true ∧ lengthOk bound.cfg (24 : BitVec 13).toNat ∧
    ([0, 1, 2, 3, 4, 5, 6, 7] : Bytes).length =
      min (24 : BitVec 13).toNat bound.cfg.firstCap ∧ bound.ctx.tag ≠ 0x0000 ∧
    otherValid bound.cfg 20 2 ∧
    ([16, 17, 18, 19] : Bytes).length =
      min bound.cfg.otherCap ((20 : BitVec 13).toNat - 8 * (2 : BitVec 8).toNat) ∧
    bound.ctx.idle = false ∧ bound.ctx.tag = 0xBEEF ∧
    bound.ctx.expectedSize = (20 : BitVec 13).toNat ∧
    2 = 1 + (8 * (2 : BitVec 8).toNat - bound.cfg.firstCap) / bound.cfg.otherCap ∧
    bound.ctx.received[2]? ≠ some true := by
  unfold lengthOk otherValid
  decide +kernel

theorem witness_ChunkRows :
    cfgLegal (tiny .client) = true ∧ formatValid (tiny .client) frameA = true ∧
    (tiny .client).writeLimit < frameA.length ∧
    getAcc (State.resetWith (tiny .client)) .up = [] ∧
    streamBytes ((State.resetWith (tiny .client)).env.rx.get .up) = [] ∧
    streamBytes ((waiting (tiny .client) [0x02] 0).env.rx.get .p0) ≠ [] ∧
    2 ≤ (0x08 : Byte).toNat ∧ (0x08 : Byte).toNat ≤ (tiny .client).writeLimit := by decide +kernel

theorem witness_AckRecognition :
    cfgLegal cfgRef = true ∧ formatValid cfgRef [0x06, 0x72, 0x65, 0x6C, 0x61, 0x79] = true ∧
    Role.client ≠ Role.relay := by decide +kernel

/-- A relay that has dropped a frame, with `frameC` next in its queue. -/
def late : State :=
  { waiting (tiny .relay) [] 3 with
    relay := ⟨[frameC], false, 0, 5⟩
    env := { (waiting (tiny .relay) [] 3).env with lapses := List.replicate 3 0 ++ [9] } }

/-- 70_reset_and_hazards.md R179: the late acknowledgement is that of the next frame in flight. -/
theorem test_ackServer_late :
    (runAll [.ackServer .down, .relayPoll, .relayPoll] (setEnv late { late.env with
        rx := ⟨[], [.silence 0, .silence 0], []⟩ })).map (fun t =>
      (t.reply, t.relay.queue, t.relay.inFlight, t.env.rx.down)) =
      some (.ok (.num 0), [], false, []) := by decide +kernel

/-- One state for each clause. -/
theorem witness_AckRows :
    cfgLegal (tiny .client) = true ∧ cfgLegal (tiny .relay) = true ∧
    (sending 1).cfg.role ≠ .relay ∧ (sending 1).arq.state = .awaitingAck ∧
    (sending 1).arq.idx + 1 = (sending 1).arq.nframes ∧
    (sending 0).arq.idx + 1 ≠ (sending 0).arq.nframes ∧ (sending 0).cfg.peerRole = .server ∧
    bound.arq.state ≠ .awaitingAck ∧ relaying.cfg.role = .relay ∧
    relaying.relay.inFlight = true ∧ (State.resetWith (tiny .relay)).relay.inFlight = false ∧
    streamBytes ((sending 1).env.rx.get .p0) = [] ∧ streamBytes (relaying.env.rx.get .down) = [] ∧
    streamBytes ((waiting (tiny .client) [0x02] 0).env.rx.get .p0) ≠ [] ∧
    late.cfg.role = .relay ∧ late.cfg.peerRole = .server ∧ late.relay.inFlight = false ∧
    late.relay.queue = frameC :: [] ∧ late.env.rx.up = [] ∧ late.env.rx.down = [] ∧
    late.env.lapses = List.replicate
      (1 + (writesOf late.cfg (ackFrame late.cfg .server)).flatten.length) 0 ++ [9] := by
  decide +kernel

theorem witness_tokenDatagram :
    tokenDatagram (tiny .client) [0x73] ∧ ¬ tokenDatagram (tiny .client) data :=
  ⟨⟨by decide, .server, rfl⟩, fun h => absurd h.1 (by decide +kernel)⟩

theorem witness_ArqSendStartOutcome :
    cfgLegal (tiny .client) = true ∧ (sending 0).arq.state = .awaitingAck ∧
    bound.arq.state ≠ .awaitingAck ∧ bound.arq.state ≠ .retrying ∧
    ¬ lengthOk bound.cfg 25 ∧ lengthOk bound.cfg data.length ∧ lengthOk bound.cfg 1 ∧
    (waiting (tiny .client) [] 2).env.draws = 0xBEEF :: [] := by
  unfold lengthOk
  decide +kernel

/-- One state for each clause of ARQ_SEND_POLL. -/
theorem witness_ArqSendPollOutcome :
    bound.arq.state = .idle ∧
    { (sending 0) with arq := ⟨.retrying, 0, 5, 2, 0, [frameA, frameB]⟩ }.arq.state = .retrying ∧
    (sending 1).arq.state = .awaitingAck ∧ cfgLegal (sending 1).cfg = true ∧
    (∃ v, exec (.lrRecvFrame .p0)
        { sending 1 with env := (waiting (tiny .client) [0x02, 0x73] 4).env } = .next v ∧
      broughtAck v ∧ v.arq.idx + 1 = v.arq.nframes) ∧
    (∃ v, exec (.lrRecvFrame .p0)
        { sending 0 with env := (waiting (tiny .client) [0x02, 0x73] 4).env } = .next v ∧
      broughtAck v ∧ v.arq.idx + 1 ≠ v.arq.nframes) ∧
    (∃ v, exec (.lrRecvFrame .p0)
        { sending 0 with env := (waiting (tiny .client) [0x02, 0x72] 4).env } = .next v ∧
      ¬ broughtAck v) := by
  refine ⟨rfl, rfl, rfl, by decide +kernel, ⟨_, rfl, ?_⟩, ⟨_, rfl, ?_⟩, ⟨_, rfl, ?_⟩⟩ <;>
    unfold broughtAck <;> decide +kernel

theorem witness_SenderWritesOnlyOutstanding :
    ∃ t, exec (.arqSendPoll .p0)
      { sending 0 with env := (waiting (tiny .client) [0x02, 0x73] 4).env } = .next t :=
  ⟨_, rfl⟩

theorem witness_GivesUpAfterMaxRetry :
    ¬ tokenDatagram (tiny .client) data ∧ cfgLegal (tiny .client) = true ∧
    (linkState 0 [] [5, 5, 5, 5, 9]).arq.state ≠ .awaitingAck ∧
    (linkState 0 [] [5, 5, 5, 5, 9]).arq.state ≠ .retrying ∧
    lengthOk (tiny .client) data.length ∧
    (linkState 0 [] [5, 5, 5, 5, 9]).env.rx.get .p0 = [] ∧
    (linkState 0 [] [5, 5, 5, 5, 9]).env.lapses = [5, 5, 5, 5] ++ [9] ∧
    [5, 5, 5, 5].length = 2 * (tiny .client).maxRetry + 2 ∧
    (∀ l ∈ [5, 5, 5, 5], (tiny .client).tAck ≤ l) := by
  refine ⟨witness_tokenDatagram.2, ?_⟩
  unfold lengthOk
  decide +kernel

theorem witness_SendsWholeDatagram :
    cfgLegal (tiny .client) = true ∧ lengthOk (tiny .client) data.length ∧
    ¬ tokenDatagram (tiny .client) data ∧
    (waiting (tiny .client) [2, 0x73, 2, 0x73, 2, 0x73] 10).arq.state ≠ .awaitingAck ∧
    (waiting (tiny .client) [2, 0x73, 2, 0x73, 2, 0x73] 10).arq.state ≠ .retrying ∧
    exec (.fragCount data.length) (waiting (tiny .client) [2, 0x73, 2, 0x73, 2, 0x73] 10) =
      .next { waiting (tiny .client) [2, 0x73, 2, 0x73, 2, 0x73] 10 with
        reply := .ok (.num 3) } ∧
    (waiting (tiny .client) [2, 0x73, 2, 0x73, 2, 0x73] 10).env.rx.get .p0 =
      promptly (List.replicate 3 (ackFrame (tiny .client) .server)).flatten ++ [] ∧
    (waiting (tiny .client) [2, 0x73, 2, 0x73, 2, 0x73] 10).env.lapses =
      List.replicate (1 + 3 * (2 + (ackToken (tiny .client) .server).length)) 0 ++ [] :=
  ⟨by decide +kernel, by unfold lengthOk; decide +kernel, witness_tokenDatagram.2,
    by decide +kernel, by decide +kernel, rfl, by decide +kernel, by decide +kernel⟩

/-- Both sides of the capacity. -/
theorem witness_RecvDatagramOutcome :
    cfgLegal cfgRef = true ∧ 2095 < max cfgRef.maxDatagram (cfgRef.maxFrame - 1) ∧
    max cfgRef.maxDatagram (cfgRef.maxFrame - 1) ≤ 2096 := by decide +kernel

/-- A server's state with the writes of the three frames of `data` waiting. -/
def incoming : State :=
  waiting (tiny .server) ([frameA, frameB, frameC].map (writesOf (tiny .server))).flatten.flatten 81

theorem witness_ReceivesWholeDatagram :
    cfgLegal incoming.cfg = true ∧
    max incoming.cfg.maxDatagram (incoming.cfg.maxFrame - 1) ≤ 24 ∧
    ¬ tokenDatagram incoming.cfg data ∧ incoming.ctx.idle = true ∧
    exec (.fragment data 0xBEEF 3) incoming =
      .next { incoming with reply := .ok (.units [frameA, frameB, frameC]) } ∧
    incoming.env.rx.get .p0 =
      promptly ([frameA, frameB, frameC].map (writesOf incoming.cfg)).flatten.flatten ++ [] ∧
    incoming.env.lapses = List.replicate
      (1 + 2 * ([frameA, frameB, frameC].map (writesOf incoming.cfg)).flatten.flatten.length) 0 ++
        [] :=
  ⟨by decide +kernel, by decide +kernel, fun h => absurd h.1 (by decide +kernel), rfl, rfl,
    by decide +kernel, by decide +kernel⟩

/-- A duplicate, a malformed other fragment that resets the context, broken bytes, an acknowledgement
frame, and a non-fragmented frame: two acknowledgements are owed. -/
def arrivals : List Arrival :=
  [.frame frameA, .frame [0xE0, 0x15, 0xBE, 0xEF, 0x01, 8, 9, 10, 11, 12, 13, 14, 15],
    .broken [0x01, 0x00], .frame [0x02, 0x72], .frame [0x02, 0x41]]

theorem witness_ReceiverAcknowledges :
    cfgLegal (tiny .client) = true ∧
    max (tiny .client).maxDatagram ((tiny .client).maxFrame - 1) ≤ 24 ∧
    (∀ a ∈ arrivals, a.readable (tiny .client)) ∧
    (reception 24 arrivals bound).acks = 2 ∧ (reception 24 arrivals bound).out = some [0x41] := by
  refine ⟨by decide +kernel, by decide +kernel, ?_, by decide +kernel, by decide +kernel⟩
  simp only [arrivals, List.forall_mem_cons]
  exact ⟨⟨by decide +kernel, by decide +kernel⟩, ⟨by decide +kernel, by decide +kernel⟩,
    .inr (.inl rfl), ⟨by decide +kernel, by decide +kernel⟩,
    ⟨by decide +kernel, by decide +kernel⟩, by simp⟩

theorem witness_ReceiverWritesOnlyAcks :
    cfgLegal (tiny .server) = true ∧
    ∃ t, exec (.arqRecvDatagram .p0 24) (waiting (tiny .server) [0x02, 0x41] 5) = .next t :=
  ⟨by decide +kernel, _, rfl⟩

/-- A relay's state with bytes waiting on `UP` and `DOWN`. -/
def relayState (inFlight : Bool) (up down : Bytes) : State :=
  { State.resetWith (tiny .relay) with
    relay := ⟨if inFlight then [frameA] else [], inFlight, 0, 5⟩
    env := { (State.resetWith (tiny .relay)).env with
      rx := ⟨[], promptly up, promptly down⟩, lapses := List.replicate 9 0 } }

theorem witness_RelayTakesAndForwards :
    bound.cfg.role ≠ .relay ∧ cfgLegal (tiny .relay) = true ∧
    (∃ v, exec (.lrRecvFrame .up) (relayState false [0x00] []) = .next v ∧
      (relayIntake v).relay.queue = []) ∧
    (∃ v, exec (.lrRecvFrame .up) (relayState false [0x02, 0x41] []) = .next v ∧
      (relayIntake v).relay.queue = [[0x02, 0x41]]) :=
  ⟨by decide +kernel, by decide +kernel, ⟨_, rfl, by decide +kernel⟩, ⟨_, rfl, by decide +kernel⟩⟩

theorem witness_RelayInFlight :
    (relayState true [] []).cfg.role = .relay ∧ cfgLegal (relayState true [] []).cfg = true ∧
    (relayState true [] []).relay.inFlight = true ∧
    (∃ v x, exec (.lrRecvFrame .up) (relayState true [0x00] [0x02, 0x73]) = .next v ∧
      exec (.lrRecvFrame .down) (relayIntake v) = .next x ∧ broughtAck x) ∧
    (∃ v x, exec (.lrRecvFrame .up) (relayState true [0x00] [0x00]) = .next v ∧
      exec (.lrRecvFrame .down) (relayIntake v) = .next x ∧ ¬ broughtAck x) := by
  refine ⟨rfl, by decide +kernel, rfl, ⟨_, _, rfl, rfl, ?_⟩, ⟨_, _, rfl, rfl, ?_⟩⟩ <;>
    unfold broughtAck <;> decide +kernel

theorem witness_StepRunsDecodedRequest :
    cfgLegal { cfgRef with maxFrame := 192 } = false ∧ cfgLegal State.reset.cfg = true ∧
    State.reset.requests = [] ∧
    decode cfgRef ⟨.operation, .p0, [0x07]⟩ = .ok .rsmComplete := by decide +kernel

theorem witness_RequestsTurnedAway :
    cfgLegal cfgRef = true ∧ 0x11 < (0x12 : Byte).toNat ∧
    (0xC0 ≤ (0xDF : Byte).toNat ∧ (0xDF : Byte).toNat < 0xE0 ∧ ([0, 0] : Bytes).length < 3) ∧
    (0xE0 ≤ (0xE0 : Byte).toNat ∧ ([0, 0, 0] : Bytes).length < 4) ∧
    ([0x03] : Bytes).head? ≠ some 0x01#8 ∧ ([] : Bytes).head? ≠ some 0x02#8 ∧
    (0x11 : Byte).toNat ≤ 0x11 ∧
    decode cfgRef ⟨.operation, .p0, [0x03, 0x00]⟩ = .bad .badOperands ∧
    decode cfgRef ⟨.operation, .p0, []⟩ = .bad .badOperands ∧
    decode cfgRef ⟨.kind, .p0, [0x04]⟩ = .bad .badOperands := by decide +kernel

/-- A state with the invariant that a step moves on: a bound context and a request for
RSM_RESET. -/
theorem witness_StepKeepsInvariant :
    StateInv { bound with requests := [⟨.operation, .p0, [0x05]⟩] } ∧
    ∃ t, step { bound with requests := [⟨.operation, .p0, [0x05]⟩] } = .next t := by
  refine ⟨⟨by decide +kernel, witness_ctxInv_bound, fun p => ⟨?_, 1, ?_⟩, ?_, ?_, ?_⟩, ?_⟩
  · cases p <;> decide +kernel
  · cases p <;> rfl
  · constructor <;> decide +kernel
  · constructor <;> decide +kernel
  · intro p
    cases p <;> decide +kernel
  · exact exists_next (by decide +kernel)

theorem witness_EnvironmentOrder :
    (∃ t, exec .rsmComplete bound = .next t) ∧ (∃ t, exec (.chunk2 .up [1, 2]) bound = .next t) ∧
    ∃ t, exec (ackInstr .server .up) bound = .next t := ⟨⟨_, rfl⟩, ⟨_, rfl⟩, ⟨_, rfl⟩⟩

theorem witness_RefusedChangesNothing :
    exec (.fragCount 0) State.reset =
      .next { State.reset with reply := .refused .lengthRange } := rfl

theorem witness_OutcomesByOperation :
    selectorOf .rsmComplete = some 0x07 ∧ ErrorKind.timeout ∈ errorsOf 0x0B ∧
    Reason.busy ∈ reasonsOf 0x0D := by decide

end Sys2Proof.Tests
end

section
/-! The scope of the block (00_scope.md): operations run to completion. -/

namespace Sys2Proof.Proofs.Scope

open Sys2Proof.Machine

/-- Settles O60. The split is by instruction: the meaning of each is a next state before any of its
own case distinctions is made, so what it refuses or raises as an error is chosen within that
state. -/
theorem everyInstructionCompletes : Obligations.EveryInstructionCompletes := by
  intro i s
  cases i <;> exact ⟨_, rfl⟩

end Sys2Proof.Proofs.Scope
end

section
/-! The environment (20_memory.md): no instruction writes the configuration or the requests, turns
the clock back, takes back a write, or reorders the bytes of a stream. -/

namespace Sys2Proof.Proofs.Environment

open Sys2Proof.Machine

/-! ## What an operation leaves of the environment -/

/-- From `s` to `t` the configuration and the requests stay, the clock does not go back, and the
physical writes made stay in front (10_state.md R28, 00_scope.md R10, 20_memory.md R49). -/
structure Onward (s t : State) : Prop where
  cfg : t.cfg = s.cfg
  requests : t.requests = s.requests
  clock : s.env.clock ≤ t.env.clock
  tx : ∀ p, s.env.tx.get p <+: t.env.tx.get p

/-- Besides, the incoming streams are not touched. -/
structure LeavesStreams (s t : State) : Prop extends Onward s t where
  rx : t.env.rx = s.env.rx

/-- Besides, the incoming streams lose events at their front only. -/
structure TakesFront (s t : State) : Prop extends Onward s t where
  rx : ∀ p, t.env.rx.get p <:+ s.env.rx.get p

theorem Onward.trans {s t u : State} (h : Onward s t) (k : Onward t u) : Onward s u :=
  ⟨k.cfg.trans h.cfg, k.requests.trans h.requests, h.clock.trans k.clock,
    fun p => (h.tx p).trans (k.tx p)⟩

theorem LeavesStreams.trans {s t u : State} (h : LeavesStreams s t) (k : LeavesStreams t u) :
    LeavesStreams s u :=
  ⟨h.toOnward.trans k.toOnward, k.rx.trans h.rx⟩

theorem TakesFront.trans {s t u : State} (h : TakesFront s t) (k : TakesFront t u) :
    TakesFront s u :=
  ⟨h.toOnward.trans k.toOnward, fun p => (k.rx p).trans (h.rx p)⟩

theorem LeavesStreams.takesFront {s t : State} (h : LeavesStreams s t) : TakesFront s t :=
  ⟨h.toOnward, fun p => by rw [h.rx]⟩

/-- An update of the block's own registers or of the outcome. -/
theorem LeavesStreams.of_env_eq {s t : State} (hcfg : t.cfg = s.cfg)
    (hreq : t.requests = s.requests) (henv : t.env = s.env) : LeavesStreams s t :=
  ⟨⟨hcfg, hreq, by rw [henv], fun p => by rw [henv]⟩, by rw [henv]⟩

theorem LeavesStreams.refl (s : State) : LeavesStreams s s := .of_env_eq rfl rfl rfl

theorem leavesStreams_setArq (s : State) (a : Arq) : LeavesStreams s (setArq s a) :=
  .of_env_eq rfl rfl rfl

theorem leavesStreams_setRelay (s : State) (r : Relay) : LeavesStreams s (setRelay s r) :=
  .of_env_eq rfl rfl rfl

/-- An update of the block's own registers or of the outcome, after `t`. -/
theorem Onward.update {s t u : State} (h : Onward s t) (hcfg : u.cfg = t.cfg)
    (hreq : u.requests = t.requests) (henv : u.env = t.env) : Onward s u :=
  h.trans (LeavesStreams.of_env_eq hcfg hreq henv).toOnward

/-- An update of the block's own registers or of the outcome, after `t`. -/
theorem LeavesStreams.update {s t u : State} (h : LeavesStreams s t) (hcfg : u.cfg = t.cfg)
    (hreq : u.requests = t.requests) (henv : u.env = t.env) : LeavesStreams s u :=
  h.trans (.of_env_eq hcfg hreq henv)

/-- An update of the block's own registers or of the outcome, after `t`. -/
theorem TakesFront.update {s t u : State} (h : TakesFront s t) (hcfg : u.cfg = t.cfg)
    (hreq : u.requests = t.requests) (henv : u.env = t.env) : TakesFront s u :=
  h.trans (LeavesStreams.of_env_eq hcfg hreq henv).takesFront

/-! ## The primitives of the environment -/

theorem now_leavesStreams (s : State) : LeavesStreams s (now s).2 := by
  obtain ⟨hblock, hread, hle, hrx, htx, -⟩ := now_spec s
  exact ⟨⟨hblock.cfg, hblock.requests, hle.trans_eq hread.symm, fun p => by rw [htx]⟩, hrx⟩

theorem draw16_leavesStreams (s : State) : LeavesStreams s (draw16 s).2 := by
  obtain ⟨hblock, hclock, hrx, htx, -⟩ := draw16_spec s
  exact ⟨⟨hblock.cfg, hblock.requests, hclock.ge, fun p => by rw [htx]⟩, hrx⟩

/-- A send puts its writes behind those made before (20_memory.md R49). -/
theorem sendFrame_leavesStreams (p : Port) (f : Bytes) (s : State) :
    LeavesStreams s (sendFrame p f s) := by
  rw [sendFrame_eq]
  refine ⟨⟨rfl, rfl, Nat.le_refl _, fun q => ?_⟩, rfl⟩
  rw [setEnv_env]
  by_cases hq : q = p
  · rw [hq, PerPort.get_set_same]
    exact List.prefix_append _ _
  · rw [PerPort.get_set_ne _ hq]

/-- A receive attempt takes the front of its own port's stream. -/
theorem lrRecvFrame_takesFront (p : Port) (s : State) : TakesFront s (lrRecvFrame p s).2 := by
  have h := (lrDone_lrRecvFrame p s).frame
  refine ⟨⟨h.cfg, h.requests, h.clock, fun q => by rw [h.tx]⟩, fun q => ?_⟩
  by_cases hq : q = p
  · rw [hq]
    exact h.rxSuffix
  · rw [h.rx q hq]

/-! ## The Link Reader's delivery -/

theorem deliver_leavesStreams (f : Bytes) (cap : Nat) (s : State) :
    LeavesStreams s (deliver f cap s).2 := by
  rcases deliver_cases f cap s with ⟨-, e⟩ | e | (⟨-, e⟩ | ⟨-, e⟩) | ⟨-, -, e⟩ <;> rw [e] <;>
    exact .of_env_eq rfl rfl rfl

/-! ## The sender -/

theorem awaitAck_leavesStreams (s : State) : LeavesStreams s (awaitAck s) :=
  (now_leavesStreams s).update rfl rfl rfl

/-- A frame is written and its acknowledgement awaited. -/
theorem awaitAck_sendFrame_leavesStreams (p : Port) (f : Bytes) (s : State) :
    LeavesStreams s (awaitAck (sendFrame p f s)) :=
  (sendFrame_leavesStreams p f s).trans (awaitAck_leavesStreams _)

theorem startSend_leavesStreams (p : Port) (d : Bytes) (s : State) :
    LeavesStreams s (startSend p d s) :=
  (((draw16_leavesStreams s).trans (leavesStreams_setArq _ _)).trans
    (awaitAck_sendFrame_leavesStreams p _ _)).update rfl rfl rfl

theorem retransmit_leavesStreams (p : Port) (s : State) : LeavesStreams s (retransmit p s) :=
  ((leavesStreams_setArq s _).trans (awaitAck_sendFrame_leavesStreams p _ _)).update rfl rfl rfl

theorem pollAfterRead_leavesStreams (p : Port) (matched : Bool) (s : State) :
    LeavesStreams s (pollAfterRead p matched s) := by
  have hnow := now_leavesStreams s
  rcases pollAfterRead_cases p matched s with ⟨-, -, e⟩ | ⟨-, -, e⟩ | ⟨-, -, ⟨-, e⟩ | ⟨-, e⟩⟩ |
    ⟨-, -, e⟩ <;> rw [e]
  · exact .of_env_eq rfl rfl rfl
  · exact ((leavesStreams_setArq s _).trans
      (awaitAck_sendFrame_leavesStreams p _ _)).update rfl rfl rfl
  · exact hnow.update rfl rfl rfl
  · exact hnow.update rfl rfl rfl
  · exact hnow.update rfl rfl rfl

/-! ## The receiver -/

theorem recvData_leavesStreams (p : Port) (f : Bytes) (cap : Nat) (s : State) :
    LeavesStreams s (recvData p f cap s).2 := by
  have hsent : LeavesStreams s (sendAck p s) := sendFrame_leavesStreams p _ s
  have hdeliver := hsent.trans (deliver_leavesStreams f cap _)
  rcases recvData_cases p f cap s with ⟨-, e⟩ | ⟨-, e⟩ | ⟨out, -, -, -, e⟩ <;> rw [e]
  · exact .of_env_eq rfl rfl rfl
  · exact hdeliver
  · dsimp only
    split
    · exact hdeliver
    · exact hdeliver.update rfl rfl rfl

/-- Each round of ARQ_RECV_DATAGRAM reads the clock, takes what its receive attempt takes and
writes at most an acknowledgement (45_arq_controller.md R137). -/
theorem recvLoop_takesFront (p : Port) (cap deadline fuel : Nat) (s : State) :
    TakesFront s (recvLoop p cap deadline fuel s) := by
  induction fuel generalizing s with
  | zero => exact (LeavesStreams.refl s).takesFront.update rfl rfl rfl
  | succ n ih =>
    have hnow := (now_leavesStreams s).takesFront
    have hrecv := hnow.trans (lrRecvFrame_takesFront p _)
    rw [recvLoop]
    dsimp only
    split
    · exact hnow.update rfl rfl rfl
    · split
      · next f _ =>
        have hdata := hrecv.trans (recvData_leavesStreams p f cap _).takesFront
        split
        · exact hrecv.trans (ih _)
        · split
          · exact hdata.update rfl rfl rfl
          · exact hdata.trans (ih _)
      · exact hrecv.trans (ih _)

/-! ## The relay -/

theorem relayTake_leavesStreams (r : Recv) (s : State) : LeavesStreams s (relayTake r s) := by
  unfold relayTake
  split
  · split
    · exact (leavesStreams_setRelay s _).trans (sendFrame_leavesStreams .up _ _)
    · exact .refl s
  · exact .refl s

theorem relaySend_leavesStreams (s : State) : LeavesStreams s (relaySend s) :=
  ((sendFrame_leavesStreams .down _ s).trans (now_leavesStreams _)).update rfl rfl rfl

theorem relayAfterRead_leavesStreams (matched : Bool) (s : State) :
    LeavesStreams s (relayAfterRead matched s) := by
  have hnow := now_leavesStreams s
  unfold relayAfterRead
  dsimp only
  split
  · exact .of_env_eq rfl rfl rfl
  · split
    · split
      · exact (hnow.trans (leavesStreams_setRelay _ _)).trans (relaySend_leavesStreams _)
      · exact hnow.update rfl rfl rfl
    · exact hnow

theorem relayForward_takesFront (s : State) : TakesFront s (relayForward s) := by
  unfold relayForward
  dsimp only
  split
  · exact (lrRecvFrame_takesFront .down s).trans (relayAfterRead_leavesStreams _ _).takesFront
  · split
    · exact (LeavesStreams.refl s).takesFront
    · exact ((leavesStreams_setRelay s _).trans (relaySend_leavesStreams _)).takesFront

/-! ## The rows that put bytes into a stream -/

@[simp] theorem streamBytes_append (a b : List RxEvent) :
    streamBytes (a ++ b) = streamBytes a ++ streamBytes b := List.filterMap_append

@[simp] theorem streamBytes_promptly (bs : Bytes) : streamBytes (promptly bs) = bs := by
  simp [streamBytes, promptly, List.filterMap_map, Function.comp_def, eventByte]

theorem arrive_onward (p : Port) (bs : Bytes) (s : State) : Onward s (arrive p bs s) := by
  obtain ⟨hblock, hclock, htx, -⟩ := arrive_spec p bs s
  exact ⟨hblock.cfg, hblock.requests, hclock.ge, fun q => by rw [htx]⟩

theorem unitReceived_onward (p : Port) (u : Bytes) (s : State) :
    Onward s (unitReceived p u s).2 := by
  rcases unitReceived_cases p u s with ⟨-, e⟩ | ⟨-, e⟩ <;> rw [e]
  · have h := lrFed_lrFeed p u s
    exact ⟨h.cfg, h.requests, h.clock.ge, fun q => by rw [h.tx]⟩
  · exact arrive_onward p u s

theorem unitReceived_rx_ne {p q : Port} (hq : q ≠ p) (u : Bytes) (s : State) :
    (unitReceived p u s).2.env.rx.get q = s.env.rx.get q := by
  rcases unitReceived_cases p u s with ⟨-, e⟩ | ⟨-, e⟩ <;> rw [e]
  · exact (lrFed_lrFeed p u s).rx q hq
  · exact PerPort.get_set_ne _ hq _

/-- What is left of a physical unit is read after the bytes that were unread before it
(20_memory.md R49; log 17): with none unread it stands at the front, behind them the whole unit
waits at the end. -/
theorem unitReceived_rx (p : Port) (u : Bytes) (s : State) :
    ∃ n, streamBytes ((unitReceived p u s).2.env.rx.get p) =
        streamBytes (s.env.rx.get p) ++ u.drop n ∧
      (streamBytes (s.env.rx.get p) = [] →
        (unitReceived p u s).2.env.rx.get p = promptly (u.drop n) ++ s.env.rx.get p) ∧
      (streamBytes (s.env.rx.get p) ≠ [] →
        (unitReceived p u s).2.env.rx.get p = s.env.rx.get p ++ promptly u) := by
  rcases unitReceived_cases p u s with ⟨hempty, e⟩ | ⟨hunread, e⟩ <;> rw [e]
  · obtain ⟨n, hn⟩ := (lrFed_lrFeed p u s).surplus
    exact ⟨n, by simp [hn, hempty], fun _ => hn, fun hne => absurd hempty hne⟩
  · obtain ⟨-, -, -, -, hrx⟩ := arrive_spec p u s
    exact ⟨0, by simp [hrx], fun hempty => absurd hempty hunread, fun _ => hrx⟩

theorem exec_ackInstr (r : Role) (p : Port) (s : State) :
    exec (ackInstr r p) s = .next (ackReceived r p s) := by
  cases r <;> rfl

/-- An acknowledgement frame is taken by whoever waits for it, and leaves the streams, or it stands
at the end of its port's stream (log 18). -/
theorem ackReceived_streams (r : Role) (p : Port) (s : State) :
    LeavesStreams s (ackReceived r p s) ∨
      Onward s (ackReceived r p s) ∧
        (ackReceived r p s).env = (standing p (ackFrame s.cfg r) s).env := by
  have hfresh : LeavesStreams s (setAcc s p []) := .of_env_eq rfl rfl rfl
  rcases ackReceived_cases r p s with ⟨-, -, -, -, e⟩ | ⟨-, -, -, e⟩ | ⟨-, e⟩ <;> rw [e]
  · exact .inl ((hfresh.trans (relayAfterRead_leavesStreams _ _)).update rfl rfl rfl)
  · exact .inl (hfresh.trans (pollAfterRead_leavesStreams p _ _))
  · exact .inr ⟨(arrive_onward p (writesOf s.cfg (ackFrame s.cfg r)).flatten s).update rfl rfl rfl,
      rfl⟩

theorem ackReceived_onward (r : Role) (p : Port) (s : State) : Onward s (ackReceived r p s) :=
  (ackReceived_streams r p s).elim LeavesStreams.toOnward And.left

theorem standing_rx_ne {p q : Port} (hq : q ≠ p) (f : Bytes) (s : State) :
    (standing p f s).env.rx.get q = s.env.rx.get q :=
  PerPort.get_set_ne _ hq _

/-! ## Every other instruction -/

theorem deliverWhole_leavesStreams (f : Bytes) (s : State) : LeavesStreams s (deliverWhole f s) :=
  (deliver_leavesStreams f _ s).update rfl rfl rfl

/-- An instruction that puts no bytes into a stream takes them off the front only. -/
theorem exec_takesFront {i : Instr} {s t : State} (h : exec i s = .next t)
    (hnotChunk : ∀ p data, i ≠ .chunk1 p data ∧ i ≠ .chunk2 p data)
    (hnotAck : ∀ r p, i ≠ ackInstr r p) : TakesFront s t := by
  have hsame {u : State} (hcfg : u.cfg = s.cfg) (hreq : u.requests = s.requests)
      (henv : u.env = s.env) : TakesFront s u := (LeavesStreams.of_env_eq hcfg hreq henv).takesFront
  cases i with
  | chunk1 p data => exact absurd rfl (hnotChunk p data).1
  | chunk2 p data => exact absurd rfl (hnotChunk p data).2
  | ackClient p => exact absurd rfl (hnotAck .client p)
  | ackRelay p => exact absurd rfl (hnotAck .relay p)
  | ackServer p => exact absurd rfl (hnotAck .server p)
  | nonfragLo len payload => cases h; exact (deliverWhole_leavesStreams _ s).takesFront
  | nonfragHi len payload => cases h; exact (deliverWhole_leavesStreams _ s).takesFront
  | lrDeliver f cap =>
    cases h; exact (deliver_leavesStreams f cap s).takesFront.update rfl rfl rfl
  | lrRecvFrame p => cases h; exact (lrRecvFrame_takesFront p s).update rfl rfl rfl
  | arqSendStart p d =>
    cases h
    split
    · exact hsame rfl rfl rfl
    · split
      · exact hsame rfl rfl rfl
      · split
        · exact hsame rfl rfl rfl
        · exact (startSend_leavesStreams p d s).takesFront
  | arqSendPoll p =>
    cases h
    split
    · exact hsame rfl rfl rfl
    · exact hsame rfl rfl rfl
    · exact hsame rfl rfl rfl
    · exact (retransmit_leavesStreams p s).takesFront
    · exact (lrRecvFrame_takesFront p s).trans (pollAfterRead_leavesStreams p _ _).takesFront
  | arqRecvDatagram p cap =>
    cases h
    split
    · exact hsame rfl rfl rfl
    · exact (now_leavesStreams s).takesFront.trans (recvLoop_takesFront p cap _ _ _)
  | relayPoll =>
    cases h
    split
    · exact hsame rfl rfl rfl
    · have hrecv := lrRecvFrame_takesFront .up s
      have htake := hrecv.trans (relayTake_leavesStreams (lrRecvFrame .up s).1 _).takesFront
      exact (htake.trans (relayForward_takesFront _)).update rfl rfl rfl
  | hdrUnpack buf => cases h; split <;> exact hsame rfl rfl rfl
  | hdrFrameLen hd => cases h; split <;> exact hsame rfl rfl rfl
  | fragCount l => cases h; split <;> exact hsame rfl rfl rfl
  | fragment d tag slots =>
    cases h
    split
    · exact hsame rfl rfl rfl
    · split <;> exact hsame rfl rfl rfl
  | rsmExtract cap => cases h; split <;> exact hsame rfl rfl rfl
  | tfSplit frame => cases h; split <;> exact hsame rfl rfl rfl
  | tfJoin u1 u2 => cases h; split <;> exact hsame rfl rfl rfl
  | _ => cases h; exact hsame rfl rfl rfl

theorem exec_onward {i : Instr} {s t : State} (h : exec i s = .next t) : Onward s t := by
  by_cases hnotChunk : ∀ p data, i ≠ .chunk1 p data ∧ i ≠ .chunk2 p data
  · by_cases hnotAck : ∀ r p, i ≠ ackInstr r p
    · exact (exec_takesFront h hnotChunk hnotAck).toOnward
    · push Not at hnotAck
      obtain ⟨r, p, rfl⟩ := hnotAck
      rw [exec_ackInstr] at h
      cases h
      exact ackReceived_onward r p s
  · simp only [not_forall, not_and_or, not_not] at hnotChunk
    obtain ⟨p, data, rfl | rfl⟩ := hnotChunk <;> cases h
    · exact (unitReceived_onward p (0x01#8 :: data) s).update rfl rfl rfl
    · exact (unitReceived_onward p (0x02#8 :: data) s).update rfl rfl rfl

/-- Settles O57. What every instruction keeps is `exec_onward`; the split after it is by whether
the instruction puts bytes into a stream: none but a chunk row and an acknowledgement row does. -/
theorem environmentOrder : Obligations.EnvironmentOrder := by
  intro i s t h
  have hon := exec_onward h
  refine ⟨hon.cfg, hon.requests, hon.clock, hon.tx, fun hnotChunk hnotAck => ?_, ?_, ?_⟩
  · exact (exec_takesFront h hnotChunk hnotAck).rx
  · rintro p unit data (⟨rfl, rfl⟩ | ⟨rfl, rfl⟩) <;> cases h <;>
      exact ⟨fun q hq => unitReceived_rx_ne hq _ s, unitReceived_rx p _ s⟩
  · rintro r p rfl
    rw [exec_ackInstr] at h
    cases h
    rcases ackReceived_streams r p s with hleft | ⟨-, hstands⟩
    · exact ⟨fun q _ => by rw [hleft.rx], .inl hleft.rx⟩
    · exact ⟨fun q hq => by rw [hstands, standing_rx_ne hq], .inr (by rw [hstands])⟩

end Sys2Proof.Proofs.Environment
end

section
/-! PROOFS. 30_encoding.md: the classification of byte 0 (O5). The kinds by value are read off
`kindOf_cases`; the top bits are the quotient of the value by 32 or by 64. -/

namespace Sys2Proof.Proofs.Encoding

open Sys2Proof.Machine

/-! ## The kind by the value of byte 0 -/

theorem kindOf_eq_other_iff (b : Byte) : kindOf b = .other ↔ 0xE0 ≤ b.toNat := by
  rcases kindOf_cases b with ⟨hkind, _⟩ | ⟨hkind, _⟩ | ⟨hkind, _⟩ <;>
    simp only [hkind, reduceCtorEq, true_iff, false_iff] <;> omega

theorem kindOf_eq_first_iff (b : Byte) :
    kindOf b = .first ↔ 0xC0 ≤ b.toNat ∧ b.toNat ≤ 0xDF := by
  rcases kindOf_cases b with ⟨hkind, _⟩ | ⟨hkind, _⟩ | ⟨hkind, _⟩ <;>
    simp only [hkind, reduceCtorEq, true_iff, false_iff] <;> omega

theorem kindOf_eq_nonFrag_iff (b : Byte) : kindOf b = .nonFrag ↔ b.toNat ≤ 0xBF := by
  rcases kindOf_cases b with ⟨hkind, _⟩ | ⟨hkind, _⟩ | ⟨hkind, _⟩ <;>
    simp only [hkind, reduceCtorEq, true_iff, false_iff] <;> omega

/-! ## The top bits of byte 0 -/

theorem topThree_eq_iff (b : Byte) (t : BitVec 3) :
    b.extractLsb' 5 3 = t ↔ b.toNat / 32 = t.toNat := by
  have hlt := b.isLt
  rw [← BitVec.toNat_inj, BitVec.extractLsb'_toNat, Nat.shiftRight_eq_div_pow]
  omega

theorem topTwo_eq_iff (b : Byte) (t : BitVec 2) :
    b.extractLsb' 6 2 = t ↔ b.toNat / 64 = t.toNat := by
  have hlt := b.isLt
  rw [← BitVec.toNat_inj, BitVec.extractLsb'_toNat, Nat.shiftRight_eq_div_pow]
  omega

/-- Settles O5. The clauses by value are the lemmas above; in each clause by bits both sides become
ranges of the value: `111` is a quotient of 7 by 32, `110` of 6, and `11` is a quotient of 3 by
64. -/
theorem byteZeroClassification : Obligations.ByteZeroClassification := by
  intro b
  have hlt := b.isLt
  refine ⟨?_, ?_, ?_, kindOf_eq_other_iff b, kindOf_eq_first_iff b, kindOf_eq_nonFrag_iff b⟩
  · rw [kindOf_eq_other_iff, topThree_eq_iff]
    simp only [BitVec.toNat_ofNat]
    omega
  · rw [kindOf_eq_first_iff, topThree_eq_iff]
    simp only [BitVec.toNat_ofNat]
    omega
  · rw [kindOf_eq_nonFrag_iff, Ne, topTwo_eq_iff]
    simp only [BitVec.toNat_ofNat]
    omega

end Sys2Proof.Proofs.Encoding
end

section
/-! PROOFS. 40_header_codec.md: what HDR_UNPACK reads (O8), that packing and unpacking are inverse
(O9), offsets in multiples of 8 (O10), and the frame length of a header with its place in the size
table (O11). -/

namespace Sys2Proof.Proofs.HeaderCodec

open Sys2Proof.Machine

/-! ## The outcomes of HDR_PACK, HDR_UNPACK and HDR_FRAME_LEN -/

theorem exec_hdrPack (k : BitVec 2) (a : Nat) (tag : Tag) (offset cap : Nat) (s : State) :
    exec (.hdrPack k a tag offset cap) s =
      .next { s with reply := packReply k a tag offset cap } := rfl

theorem exec_hdrUnpack_of_some {buf : Bytes} {h : Header} (hu : unpackHeader buf = some h)
    (s : State) : exec (.hdrUnpack buf) s = .next { s with reply := .ok (.header h) } := by
  simp only [exec, execHdrUnpack, hu, replyOk, withReply]

theorem exec_hdrUnpack_of_none {buf : Bytes} (hu : unpackHeader buf = none) (s : State) :
    exec (.hdrUnpack buf) s = .next { s with reply := .error .malformedFrame } := by
  simp only [exec, execHdrUnpack, hu, raiseError, withReply]

/-- A header in the outcome is the one the buffer unpacks to. -/
theorem unpackHeader_of_exec {buf : Bytes} {h : Header} {s t : State}
    (hexec : exec (.hdrUnpack buf) s = .next t) (hreply : t.reply = .ok (.header h)) :
    unpackHeader buf = some h := by
  cases hu : unpackHeader buf with
  | none =>
    rw [exec_hdrUnpack_of_none hu] at hexec
    cases hexec
    cases hreply
  | some h' =>
    rw [exec_hdrUnpack_of_some hu] at hexec
    cases hexec
    cases hreply
    rfl

theorem exec_hdrFrameLen_of_valid {s : State} {h : Header} (hv : headerValid s.cfg h = true) :
    exec (.hdrFrameLen h) s = .next { s with reply := .ok (.num (hdrFrameLength s.cfg h)) } := by
  have hsome : frameLen s.cfg h = some (hdrFrameLength s.cfg h) := if_pos hv
  simp only [exec, execHdrFrameLen, hsome, replyOk, withReply]

theorem exec_hdrFrameLen_of_not_valid {s : State} {h : Header} (hv : ¬ headerValid s.cfg h = true) :
    exec (.hdrFrameLen h) s = .next { s with reply := .error .malformedFrame } := by
  have hnone : frameLen s.cfg h = none := if_neg hv
  simp only [exec, execHdrFrameLen, hnone, raiseError, withReply]

/-- A length in the outcome is that of a valid header. -/
theorem headerValid_of_exec {h : Header} {s : State} {n : Nat}
    (hexec : exec (.hdrFrameLen h) s = .next { s with reply := .ok (.num n) }) :
    headerValid s.cfg h = true ∧ n = hdrFrameLength s.cfg h := by
  by_cases hv : headerValid s.cfg h = true
  · rw [exec_hdrFrameLen_of_valid hv] at hexec
    injection hexec with hstate
    injection congrArg State.reply hstate with hval
    injection hval with hlen
    exact ⟨hv, hlen.symm⟩
  · rw [exec_hdrFrameLen_of_not_valid hv] at hexec
    injection hexec with hstate
    cases congrArg State.reply hstate

theorem putBytes_of_le {cap : Nat} {bs : Bytes} (h : bs.length ≤ cap) :
    putBytes cap bs = .ok (.bytes bs) := if_neg (by omega)

theorem putBytes_eq_ok {cap : Nat} {bs out : Bytes} (h : putBytes cap bs = .ok (.bytes out)) :
    out = bs := by
  unfold putBytes at h
  split at h
  · cases h
  · cases h
    rfl

/-! ## What a buffer unpacks to, by the value of byte 0 -/

theorem unpackHeader_nonFrag {b0 : Byte} (h1 : 1 ≤ b0.toNat) (h2 : b0.toNat < 0xC0) (rest : Bytes) :
    unpackHeader (b0 :: rest) = some (.nonFrag b0) := by
  have hne : b0 ≠ 0 := by
    rintro rfl
    exact absurd h1 (by decide)
  simp only [unpackHeader, kindOf_of_lt h2, if_neg hne]

theorem unpackHeader_zero (rest : Bytes) : unpackHeader (0 :: rest) = none := rfl

theorem unpackHeader_first {b0 : Byte} (h1 : 0xC0 ≤ b0.toNat) (h2 : b0.toNat < 0xE0)
    (b1 b2 b3 : Byte) (more : Bytes) : unpackHeader (b0 :: b1 :: b2 :: b3 :: more) =
      some (.first (sizeField 0x3F#8 b0 b1) (tagField b2 b3)) := by
  simp only [unpackHeader, kindOf_of_mid h1 h2]

theorem unpackHeader_first_short {b0 : Byte} (h1 : 0xC0 ≤ b0.toNat) (h2 : b0.toNat < 0xE0)
    {rest : Bytes} (hlen : rest.length < 3) : unpackHeader (b0 :: rest) = none := by
  match rest, hlen with
  | [], _ | [_], _ | [_, _], _ => simp only [unpackHeader, kindOf_of_mid h1 h2]

theorem unpackHeader_other {b0 : Byte} (h1 : 0xE0 ≤ b0.toNat) (b1 b2 b3 b4 : Byte) (more : Bytes) :
    unpackHeader (b0 :: b1 :: b2 :: b3 :: b4 :: more) =
      some (.other (sizeField 0x1F#8 b0 b1) (tagField b2 b3) b4) := by
  simp only [unpackHeader, kindOf_of_ge h1]

theorem unpackHeader_other_short {b0 : Byte} (h1 : 0xE0 ≤ b0.toNat) {rest : Bytes}
    (hlen : rest.length < 4) : unpackHeader (b0 :: rest) = none := by
  match rest, hlen with
  | [], _ | [_], _ | [_, _], _ | [_, _, _], _ => simp only [unpackHeader, kindOf_of_ge h1]

/-- The buffers that unpack to a header, by the header's kind. -/
theorem unpackHeader_eq_some_cases {buf : Bytes} {h : Header} (hu : unpackHeader buf = some h) :
    (∃ b0 rest, buf = b0 :: rest ∧ h = .nonFrag b0 ∧ 1 ≤ b0.toNat ∧ b0.toNat < 0xC0) ∨
    (∃ b0 b1 b2 b3 more, buf = b0 :: b1 :: b2 :: b3 :: more ∧
      h = .first (sizeField 0x3F#8 b0 b1) (tagField b2 b3) ∧
      0xC0 ≤ b0.toNat ∧ b0.toNat < 0xE0) ∨
    (∃ b0 b1 b2 b3 b4 more, buf = b0 :: b1 :: b2 :: b3 :: b4 :: more ∧
      h = .other (sizeField 0x1F#8 b0 b1) (tagField b2 b3) b4 ∧ 0xE0 ≤ b0.toNat) := by
  rcases buf with _ | ⟨b0, rest⟩
  · cases hu
  rcases kindOf_cases b0 with ⟨hkind, hlt⟩ | ⟨hkind, hge, hlt⟩ | ⟨hkind, hge⟩ <;>
    simp only [unpackHeader, hkind] at hu <;> split at hu <;> cases hu
  · next hne =>
    have hpos : b0.toNat ≠ 0 := fun h0 => hne (BitVec.eq_of_toNat_eq h0)
    exact .inl ⟨_, _, rfl, rfl, by omega, hlt⟩
  · exact .inr (.inl ⟨_, _, _, _, _, rfl, rfl, hge, hlt⟩)
  · exact .inr (.inr ⟨_, _, _, _, _, _, rfl, rfl, hge⟩)

/-! ## The fields of a header and their bytes -/

theorem sizeField_first_eq_ofNat (b0 b1 : Byte) :
    sizeField 0x3F#8 b0 b1 = BitVec.ofNat 13 (b0.toNat % 64 * 256 + b1.toNat) :=
  BitVec.eq_of_toNat_eq (by rw [sizeField_first_toNat, BitVec.toNat_ofNat])

theorem sizeField_other_eq_ofNat (b0 b1 : Byte) :
    sizeField 0x1F#8 b0 b1 = BitVec.ofNat 13 (b0.toNat % 32 * 256 + b1.toNat) :=
  BitVec.eq_of_toNat_eq (by
    have := b1.isLt
    rw [sizeField_other_toNat, BitVec.toNat_ofNat]
    omega)

theorem tagField_eq_ofNat (b2 b3 : Byte) :
    tagField b2 b3 = BitVec.ofNat 16 (b2.toNat * 256 + b3.toNat) :=
  BitVec.eq_of_toNat_eq (by
    have := b2.isLt
    have := b3.isLt
    rw [tagField_toNat, BitVec.toNat_ofNat]
    omega)

theorem sizeField_fragByte0_first (size : BitVec 13) :
    sizeField 0x3F#8 (fragByte0 0xC0#8 size) (size.extractLsb' 0 8) = size :=
  BitVec.eq_of_toNat_eq (by
    have := size.isLt
    rw [sizeField_first_toNat, fragByte0_first_toNat, size_low_toNat]
    omega)

theorem sizeField_fragByte0_other (size : BitVec 13) :
    sizeField 0x1F#8 (fragByte0 0xE0#8 size) (size.extractLsb' 0 8) = size :=
  BitVec.eq_of_toNat_eq (by
    have := size.isLt
    rw [sizeField_other_toNat, fragByte0_other_toNat, size_low_toNat]
    omega)

theorem tagField_extractLsb' (t : Tag) : tagField (t.extractLsb' 8 8) (t.extractLsb' 0 8) = t :=
  BitVec.eq_of_toNat_eq (by
    rw [tagField_toNat, tag_high_toNat, tag_low_toNat]
    omega)

theorem fragByte0_sizeField_first {b0 : Byte} (h1 : 0xC0 ≤ b0.toNat) (h2 : b0.toNat < 0xE0)
    (b1 : Byte) : fragByte0 0xC0#8 (sizeField 0x3F#8 b0 b1) = b0 :=
  BitVec.eq_of_toNat_eq (by
    have := b1.isLt
    rw [fragByte0_first_toNat, sizeField_first_toNat]
    omega)

theorem fragByte0_sizeField_other {b0 : Byte} (h1 : 0xE0 ≤ b0.toNat) (b1 : Byte) :
    fragByte0 0xE0#8 (sizeField 0x1F#8 b0 b1) = b0 :=
  BitVec.eq_of_toNat_eq (by
    have := b0.isLt
    have := b1.isLt
    rw [fragByte0_other_toNat, sizeField_other_toNat]
    omega)

theorem sizeField_low (mask b0 b1 : Byte) : (sizeField mask b0 b1).extractLsb' 0 8 = b1 :=
  BitVec.eq_of_toNat_eq (by
    have := b1.isLt
    rw [size_low_toNat, sizeField, BitVec.toNat_setWidth, BitVec.toNat_append, Nat.shiftLeft_eq,
      Nat.mul_comm, ← Nat.two_pow_add_eq_or_of_lt b1.isLt]
    omega)

theorem tagField_high (b2 b3 : Byte) : (tagField b2 b3).extractLsb' 8 8 = b2 :=
  BitVec.eq_of_toNat_eq (by
    have := b3.isLt
    rw [tag_high_toNat, tagField_toNat]
    omega)

theorem tagField_low (b2 b3 : Byte) : (tagField b2 b3).extractLsb' 0 8 = b3 :=
  BitVec.eq_of_toNat_eq (by
    have := b3.isLt
    rw [tag_low_toNat, tagField_toNat]
    omega)

/-! ## Packing and unpacking are inverse -/

/-- A header HDR_PACK takes: the length of a non-fragmented frame is within 1 to 191
(40_header_codec.md R72); every fragment header is in range. -/
def Packable (h : Header) : Prop := ∀ len, h = .nonFrag len → 1 ≤ len.toNat ∧ len.toNat ≤ 191

theorem packable_nonFrag {len : BitVec 8} :
    Packable (.nonFrag len) ↔ 1 ≤ len.toNat ∧ len.toNat ≤ 191 :=
  ⟨fun h => h len rfl, fun h _ he => by cases he; exact h⟩

theorem packable_first (size : BitVec 13) (tag : Tag) : Packable (.first size tag) := nofun

theorem packable_other (size : BitVec 13) (tag : Tag) (off8 : BitVec 8) :
    Packable (.other size tag off8) := nofun

theorem unpackHeader_headerBytes {h : Header} (hp : Packable h) (rest : Bytes) :
    unpackHeader (headerBytes h ++ rest) = some h := by
  cases h with
  | nonFrag len =>
    obtain ⟨h1, h2⟩ := packable_nonFrag.mp hp
    exact unpackHeader_nonFrag h1 (by omega) rest
  | first size tag =>
    have hbyte := fragByte0_first_toNat size
    have hsize := size.isLt
    refine (unpackHeader_first (by omega) (by omega) _ _ _ rest).trans ?_
    rw [sizeField_fragByte0_first, tagField_extractLsb']
  | other size tag off8 =>
    have hbyte := fragByte0_other_toNat size
    refine (unpackHeader_other (by omega) _ _ _ _ rest).trans ?_
    rw [sizeField_fragByte0_other, tagField_extractLsb']

theorem packable_and_headerBytes_of_unpackHeader {buf : Bytes} {h : Header}
    (hu : unpackHeader buf = some h) :
    Packable h ∧ headerBytes h = buf.take (hdrLen (hdrKind h)) := by
  rcases unpackHeader_eq_some_cases hu with ⟨b0, rest, rfl, rfl, h1, h2⟩ |
    ⟨b0, b1, b2, b3, more, rfl, rfl, h1, h2⟩ | ⟨b0, b1, b2, b3, b4, more, rfl, rfl, h1⟩
  · exact ⟨packable_nonFrag.mpr ⟨h1, by omega⟩, rfl⟩
  · refine ⟨packable_first _ _, ?_⟩
    rw [headerBytes, fragByte0_sizeField_first h1 h2, sizeField_low, tagField_high, tagField_low]
    rfl
  · refine ⟨packable_other _ _ _, ?_⟩
    rw [headerBytes, fragByte0_sizeField_other h1, sizeField_low, tagField_high, tagField_low]
    rfl

/-! ## What HDR_PACK writes -/

theorem packReply_nonFrag {len : Nat} (h1 : 1 ≤ len) (h2 : len ≤ 191) (tag : Tag)
    (offset cap : Nat) : packReply 0 len tag offset cap =
      putBytes cap (headerBytes (.nonFrag (BitVec.ofNat 8 len))) := by
  rw [packReply, if_neg (by decide), if_pos (by decide), if_neg (by omega)]

theorem packReply_nonFrag_outside {len : Nat} (h : ¬ (1 ≤ len ∧ len ≤ 191)) (tag : Tag)
    (offset cap : Nat) : packReply 0 len tag offset cap = .refused .fieldRange := by
  rw [packReply, if_neg (by decide), if_pos (by decide), if_pos (by omega)]

theorem packReply_first {size : Nat} (h : size ≤ 8191) (tag : Tag) (offset cap : Nat) :
    packReply 1 size tag offset cap =
      putBytes cap (headerBytes (.first (BitVec.ofNat 13 size) tag)) := by
  rw [packReply, if_neg (by decide), if_neg (by decide), if_neg (by omega), if_pos (by decide)]

theorem packReply_other {size offset : Nat} (h : size ≤ 8191) (ho : offset ≤ 2047) (tag : Tag)
    (cap : Nat) : packReply 2 size tag offset cap =
      putBytes cap
        (headerBytes (.other (BitVec.ofNat 13 size) tag (BitVec.ofNat 8 (offset / 8)))) := by
  rw [packReply, if_neg (by decide), if_neg (by decide), if_neg (by omega), if_neg (by decide),
    if_neg (by omega)]

/-- A header in range is written as its bytes, if the buffer holds them. -/
theorem exec_packInstr_of_packable {h : Header} (hp : Packable h) (cap : Nat) (s : State) :
    exec (packInstr h cap) s = .next { s with reply := putBytes cap (headerBytes h) } := by
  cases h with
  | nonFrag len =>
    obtain ⟨h1, h2⟩ := packable_nonFrag.mp hp
    rw [packInstr, exec_hdrPack, packReply_nonFrag h1 h2, BitVec.ofNat_toNat, BitVec.setWidth_eq]
  | first size tag =>
    have hsize := size.isLt
    rw [packInstr, exec_hdrPack, packReply_first (by omega), BitVec.ofNat_toNat,
      BitVec.setWidth_eq]
  | other size tag off8 =>
    have hsize := size.isLt
    have hoff := off8.isLt
    rw [packInstr, exec_hdrPack, hdrOffset, packReply_other (by omega) (by omega),
      Nat.mul_div_cancel_left _ (by omega), BitVec.ofNat_toNat, BitVec.ofNat_toNat,
      BitVec.setWidth_eq, BitVec.setWidth_eq]

/-- What HDR_PACK writes is the bytes of a header in range. -/
theorem packable_of_exec {h : Header} {cap : Nat} {s t : State} {out : Bytes}
    (hexec : exec (packInstr h cap) s = .next t) (hreply : t.reply = .ok (.bytes out)) :
    Packable h ∧ out = headerBytes h := by
  have hp : Packable h := by
    rintro len rfl
    by_contra hrange
    rw [packInstr, exec_hdrPack, packReply_nonFrag_outside hrange] at hexec
    cases hexec
    cases hreply
  rw [exec_packInstr_of_packable hp] at hexec
  cases hexec
  exact ⟨hp, putBytes_eq_ok hreply⟩

/-- Five bytes hold every header. -/
theorem putBytes_five_headerBytes (h : Header) :
    putBytes 5 (headerBytes h) = .ok (.bytes (headerBytes h)) :=
  putBytes_of_le (by rw [headerBytes_length]; cases hdrKind h <;> decide)

/-! ## The length of a frame by its header -/

theorem headerValid_nonFrag_iff (c : Cfg) (len : BitVec 8) :
    headerValid c (.nonFrag len) = true ↔ 1 ≤ len.toNat ∧ len.toNat ≤ c.maxFrame := by
  simp [headerValid]

theorem headerValid_first_iff (c : Cfg) (size : BitVec 13) (tag : Tag) :
    headerValid c (.first size tag) = true ↔ 1 ≤ size.toNat ∧ size.toNat ≤ c.maxDatagram := by
  simp [headerValid]

theorem headerValid_other_iff (c : Cfg) (size : BitVec 13) (tag : Tag) (off8 : BitVec 8) :
    headerValid c (.other size tag off8) = true ↔ otherValid c size off8 := by
  simp only [headerValid, Bool.and_eq_true, decide_eq_true_eq, and_assoc]
  rfl

/-- What 00_scope.md R6 (a) and (c) say of the capacities. -/
theorem cfgLegal_capacities {c : Cfg} (h : cfgLegal c = true) :
    0 < c.otherCap ∧ 4 + c.firstCap ≤ c.maxFrame ∧ 5 + c.otherCap ≤ c.maxFrame := by
  obtain ⟨⟨-, -, -, hother⟩, -, ⟨hfirstFits, hotherFits, -⟩, -⟩ := of_decide_eq_true h
  exact ⟨by omega, hfirstFits, hotherFits⟩

theorem hdrFrameLength_le_maxFrame {c : Cfg} (hc : cfgLegal c = true) {h : Header}
    (hv : headerValid c h = true) : hdrFrameLength c h ≤ c.maxFrame := by
  obtain ⟨-, hfirst, hother⟩ := cfgLegal_capacities hc
  cases h with
  | nonFrag len => exact ((headerValid_nonFrag_iff c len).mp hv).2
  | first size tag => exact (Nat.add_le_add_left (Nat.min_le_right _ _) 4).trans hfirst
  | other size tag off8 => exact (Nat.add_le_add_left (Nat.min_le_left _ _) 5).trans hother

/-! ## The header's entry in the size table -/

/-- Before the fragment count, the table of a bound context is that of its datagram
(42_reassembler.md R91). -/
theorem sizeTable_getElem? {c : Cfg} {x : Ctx} (hb : CtxBound c x) {p : Nat}
    (hp : p < nfrag c x.expectedSize) :
    x.sizeTable[p]? = some (posHdrLen p + sliceLen c x.expectedSize p) := by
  rw [hb.sizeTable, List.getElem?_append_left (by simpa [sizeTableOf] using hp)]
  simp [sizeTableOf, hp]

theorem nfrag_pos (c : Cfg) (size : Nat) : 0 < nfrag c size := Nat.add_pos_left Nat.one_pos _

theorem hdrPos_ne_zero (c : Cfg) (off8 : BitVec 8) : hdrPos c off8 ≠ 0 :=
  Nat.ne_of_gt (Nat.add_pos_left Nat.one_pos _)

theorem sliceStart_hdrPos {c : Cfg} {size : BitVec 13} {off8 : BitVec 8}
    (hv : otherValid c size off8) : sliceStart c (hdrPos c off8) = hdrOffset off8 := by
  obtain ⟨-, -, hfirst, hmod, -⟩ := hv
  have hmul := Nat.div_mul_cancel (Nat.dvd_of_mod_eq_zero hmod)
  rw [sliceStart, if_neg (hdrPos_ne_zero c off8), hdrPos, Nat.add_sub_cancel_left, hdrOffset, hmul]
  omega

/-- The position of a valid other fragment is one of its datagram's: its slice starts before the
end, so at least one more slice is counted. -/
theorem hdrPos_lt_nfrag {c : Cfg} (hO : 0 < c.otherCap) {size : BitVec 13} {off8 : BitVec 8}
    (hv : otherValid c size off8) : hdrPos c off8 < nfrag c size.toNat := by
  obtain ⟨-, -, hfirst, hmod, hlt⟩ := hv
  have hmul := Nat.div_mul_cancel (Nat.dvd_of_mod_eq_zero hmod)
  have hcount : (hdrOffset off8 - c.firstCap) / c.otherCap + 1 ≤
      ceilDiv (size.toNat - c.firstCap) c.otherCap := by
    rw [ceilDiv, Nat.le_div_iff_mul_le hO, Nat.add_mul, hdrOffset, hmul]
    omega
  rw [hdrPos, nfrag]
  omega

/-! ## The obligations -/

/-- Settles O8, clause by clause from what the buffer unpacks to. -/
theorem hdrUnpackOutcome : Obligations.HdrUnpackOutcome := by
  intro s
  refine ⟨exec_hdrUnpack_of_none rfl s, fun b0 rest => ⟨?zero, ?nonFrag, ?firstShort, ?first,
    ?otherShort, ?other⟩⟩
  case zero =>
    intro h0
    obtain rfl : b0 = 0 := BitVec.eq_of_toNat_eq h0
    exact exec_hdrUnpack_of_none (unpackHeader_zero rest) s
  case nonFrag => exact fun h1 h2 => exec_hdrUnpack_of_some (unpackHeader_nonFrag h1 h2 rest) s
  case firstShort =>
    exact fun h1 h2 hlen => exec_hdrUnpack_of_none (unpackHeader_first_short h1 h2 hlen) s
  case first =>
    rintro h1 h2 b1 b2 b3 more rfl
    rw [exec_hdrUnpack_of_some (unpackHeader_first h1 h2 b1 b2 b3 more), sizeField_first_eq_ofNat,
      tagField_eq_ofNat]
  case otherShort =>
    exact fun h1 hlen => exec_hdrUnpack_of_none (unpackHeader_other_short h1 hlen) s
  case other =>
    rintro h1 b1 b2 b3 b4 more rfl
    rw [exec_hdrUnpack_of_some (unpackHeader_other h1 b1 b2 b3 b4 more), sizeField_other_eq_ofNat,
      tagField_eq_ofNat]

/-- Settles O9: `unpackHeader` and `headerBytes` are inverse on the headers HDR_PACK takes, and
HDR_UNPACK reads no other. -/
theorem headerCodecRoundTrip : Obligations.HeaderCodecRoundTrip := by
  refine ⟨fun h cap s t out hexec hreply => ?_, fun h s hrange => ⟨headerBytes h, ?_⟩,
    fun buf h s t hexec hreply => ?_⟩
  · obtain ⟨hp, rfl⟩ := packable_of_exec hexec hreply
    have hu := unpackHeader_headerBytes hp []
    rw [List.append_nil] at hu
    exact exec_hdrUnpack_of_some hu t
  · rw [exec_packInstr_of_packable hrange, putBytes_five_headerBytes]
  · have hu := unpackHeader_of_exec hexec hreply
    obtain ⟨hp, hbytes⟩ := packable_and_headerBytes_of_unpackHeader hu
    rw [exec_packInstr_of_packable hp, putBytes_five_headerBytes, hbytes]

/-- Settles O10: the stored byte is `x / 8`, which fits its eight bits. -/
theorem offsetQuantization : Obligations.OffsetQuantization := by
  intro x a tag s hx ha
  have hoffset : hdrOffset (BitVec.ofNat 8 (x / 8)) = 8 * (x / 8) := by
    rw [hdrOffset, BitVec.toNat_ofNat, Nat.mod_eq_of_lt (by omega)]
  have hu := unpackHeader_headerBytes
    (packable_other (BitVec.ofNat 13 a) tag (BitVec.ofNat 8 (x / 8))) []
  rw [List.append_nil] at hu
  refine ⟨_, _, ?_, exec_hdrUnpack_of_some hu s, hoffset, by omega⟩
  rw [exec_hdrPack, packReply_other ha hx, putBytes_five_headerBytes]

/-- Settles O11. For a header of the bound datagram the length is header length plus slice length
at the header's position, which is how the size table is made. -/
theorem hdrFrameLenOutcome : Obligations.HdrFrameLenOutcome := by
  intro s
  refine ⟨fun len => ?nonFrag, fun size tag => ?first, fun size tag off8 => ⟨?other, ?invalid⟩,
    fun hc h n hexec => ?bound, fun hc hctx hbusy size tag hsize => ⟨?firstEntry, ?otherEntry⟩⟩
  case nonFrag =>
    split
    · next hv => exact exec_hdrFrameLen_of_valid ((headerValid_nonFrag_iff _ _).mpr hv)
    · next hv => exact exec_hdrFrameLen_of_not_valid (mt (headerValid_nonFrag_iff _ _).mp hv)
  case first =>
    split
    · next hv => exact exec_hdrFrameLen_of_valid ((headerValid_first_iff _ _ _).mpr hv)
    · next hv => exact exec_hdrFrameLen_of_not_valid (mt (headerValid_first_iff _ _ _).mp hv)
  case other =>
    exact fun hv => exec_hdrFrameLen_of_valid ((headerValid_other_iff _ _ _ _).mpr hv)
  case invalid =>
    exact fun hv => exec_hdrFrameLen_of_not_valid (mt (headerValid_other_iff _ _ _ _).mp hv)
  case bound =>
    obtain ⟨hv, rfl⟩ := headerValid_of_exec hexec
    exact hdrFrameLength_le_maxFrame hc hv
  case firstEntry =>
    intro n hexec
    obtain ⟨-, rfl⟩ := headerValid_of_exec hexec
    have hentry := sizeTable_getElem? (hctx.bound hbusy) (nfrag_pos _ _)
    rw [hentry, ← hsize]
    rfl
  case otherEntry =>
    intro off8 n hexec
    obtain ⟨hvalid, rfl⟩ := headerValid_of_exec hexec
    have hv := (headerValid_other_iff _ _ _ _).mp hvalid
    have hlt := hdrPos_lt_nfrag (cfgLegal_capacities hc).1 hv
    rw [hsize] at hlt
    have hentry := sizeTable_getElem? (hctx.bound hbusy) hlt
    rw [posHdrLen, sliceLen, if_neg (hdrPos_ne_zero _ _), if_neg (hdrPos_ne_zero _ _),
      sliceStart_hdrPos hv, ← hsize] at hentry
    exact hentry

end Sys2Proof.Proofs.HeaderCodec
end

section
/-! PROOFS. 41_fragmenter.md: the slices of a datagram (O15), FRAG_COUNT (O12), FRAGMENT byte for
byte (O13) and the properties of its frames (O14). All four rest on two facts about `sliceStart`:
it is below the datagram's size exactly at the positions below `nfrag`, and every slice runs up to
the start of the next one or to the end of the datagram. -/

namespace Sys2Proof.Proofs.Fragmenter

open Sys2Proof.Machine Sys2Proof.Proofs.HeaderCodec

/-! ## What a legal configuration says of the slices -/

/-- 00_scope.md R6 (a). -/
theorem cfgLegal_fragmentCaps {c : Cfg} (h : cfgLegal c = true) :
    c.firstCap % 8 = 0 ∧ c.otherCap % 8 = 0 ∧ 0 < c.firstCap ∧ 0 < c.otherCap := by
  obtain ⟨⟨hfirst8, hother8, hfirst, hother⟩, -⟩ := of_decide_eq_true h
  exact ⟨hfirst8, hother8, by omega, by omega⟩

/-- 00_scope.md R6 (f): a size fits the 13 bits of its field. -/
theorem cfgLegal_maxDatagram_le {c : Cfg} (h : cfgLegal c = true) : c.maxDatagram ≤ 8191 := by
  obtain ⟨-, -, -, -, -, ⟨-, hmax⟩, -⟩ := of_decide_eq_true h
  exact hmax

/-- 00_scope.md R6 (g): the offsets of the longest datagram fit the offset byte. -/
theorem cfgLegal_offset_le {c : Cfg} (h : cfgLegal c = true) (hlong : c.firstCap < c.maxDatagram) :
    c.firstCap + c.otherCap * (nmax c - 2) ≤ 2040 := by
  obtain ⟨-, -, -, -, -, -, hoffset, -⟩ := of_decide_eq_true h
  exact hoffset hlong

/-! ## Where slices start -/

@[simp] theorem sliceStart_zero (c : Cfg) : sliceStart c 0 = 0 := rfl

@[simp] theorem sliceStart_succ (c : Cfg) (p : Nat) :
    sliceStart c (p + 1) = c.firstCap + p * c.otherCap := rfl

theorem sliceStart_strictMono {c : Cfg} (hF : 0 < c.firstCap) (hO : 0 < c.otherCap) :
    StrictMono (sliceStart c) := by
  refine strictMono_nat_of_lt_succ fun p => ?_
  cases p with
  | zero => simpa using hF
  | succ q => simp only [sliceStart_succ, Nat.add_mul]; omega

theorem sliceStart_mod_eight {c : Cfg} (hc : cfgLegal c = true) (p : Nat) :
    sliceStart c p % 8 = 0 := by
  obtain ⟨hfirst8, hother8, -, -⟩ := cfgLegal_fragmentCaps hc
  cases p with
  | zero => rfl
  | succ q => rw [sliceStart_succ, Nat.add_mod, Nat.mul_mod, hfirst8, hother8]; rfl

/-! ## The fragment count -/

theorem ceilDiv_le_iff {a b k : Nat} (hb : 0 < b) : ceilDiv a b ≤ k ↔ a ≤ k * b := by
  rw [ceilDiv, ← Nat.ceilDiv_eq_add_pred_div, ceilDiv_le_iff_le_smul hb, smul_eq_mul, Nat.mul_comm]

/-- The fragment count is at most `m` exactly when the capacities of `m` frames hold the
datagram (41_fragmenter.md R81). -/
theorem nfrag_le_iff {c : Cfg} (hO : 0 < c.otherCap) {size m : Nat} (hm : 1 ≤ m) :
    nfrag c size ≤ m ↔ size ≤ c.firstCap + (m - 1) * c.otherCap := by
  have hceil := ceilDiv_le_iff (a := size - c.firstCap) (k := m - 1) hO
  rw [nfrag]
  omega

/-- The positions of a datagram's slices are those whose slice starts inside it. -/
theorem lt_nfrag_iff {c : Cfg} (hO : 0 < c.otherCap) {size : Nat} (hsize : 1 ≤ size) (p : Nat) :
    p < nfrag c size ↔ sliceStart c p < size := by
  cases p with
  | zero => exact iff_of_true (nfrag_pos c size) hsize
  | succ q =>
    have hle := nfrag_le_iff (size := size) hO (Nat.le_add_left 1 q)
    rw [Nat.add_sub_cancel] at hle
    rw [sliceStart_succ]
    omega

/-! ## Slices -/

theorem sliceLen_le (c : Cfg) (size p : Nat) : sliceLen c size p ≤ size - sliceStart c p := by
  cases p with
  | zero => exact Nat.min_le_left _ _
  | succ q => exact Nat.min_le_right _ _

/-- A slice ends where the next one starts, or where the datagram ends. -/
theorem sliceStart_add_sliceLen {c : Cfg} {size p : Nat} (hp : sliceStart c p ≤ size) :
    sliceStart c p + sliceLen c size p = min (sliceStart c (p + 1)) size := by
  cases p with
  | zero => simp [sliceLen, Nat.min_comm]
  | succ q =>
    simp only [sliceLen, Nat.add_one_ne_zero, if_false, sliceStart_succ, Nat.add_mul] at hp ⊢
    omega

/-- The slices leave no gap. -/
theorem exists_sliceStart_le_lt {c : Cfg} (hmono : StrictMono (sliceStart c)) (i : Nat) :
    ∃ p, sliceStart c p ≤ i ∧ i < sliceStart c (p + 1) := by
  induction i with
  | zero => exact ⟨0, Nat.le_refl 0, hmono (Nat.lt_add_one 0)⟩
  | succ i ih =>
    obtain ⟨p, hge, hlt⟩ := ih
    have hnext := hmono (Nat.lt_add_one (p + 1))
    by_cases hsame : i + 1 < sliceStart c (p + 1)
    · exact ⟨p, by omega, hsame⟩
    · exact ⟨p + 1, by omega, by omega⟩

/-- The slices do not overlap. -/
theorem slice_position_le {c : Cfg} (hmono : StrictMono (sliceStart c)) {i p q : Nat}
    (hq : sliceStart c q ≤ i) (hp : i < sliceStart c (p + 1)) : q ≤ p :=
  Nat.le_of_lt_succ (hmono.lt_iff_lt.mp (Nat.lt_of_le_of_lt hq hp))

/-- The last slice has the length of 41_fragmenter.md R82's `tail`. -/
theorem sliceLen_last {c : Cfg} (hO : 0 < c.otherCap) {size : Nat} (hlong : c.firstCap < size) :
    sliceLen c size (nfrag c size - 1) = tailLen c size := by
  have hinside := lt_nfrag_iff hO (Nat.one_le_of_lt hlong)
  have hsecond : 1 < nfrag c size := (hinside 1).mpr (by simpa using hlong)
  obtain ⟨k, hk⟩ := Nat.exists_eq_add_of_lt hsecond
  have hstart := (hinside (k + 1)).mp (by omega)
  have hend := mt (hinside (k + 2)).mpr (by omega)
  rw [sliceStart_succ] at hstart hend
  rw [Nat.add_mul] at hend
  obtain ⟨m, rfl⟩ := Nat.exists_eq_add_of_lt hstart
  have hrest : c.firstCap + k * c.otherCap + m + 1 - c.firstCap - 1 = m + k * c.otherCap := by omega
  have hlast : nfrag c (c.firstCap + k * c.otherCap + m + 1) - 1 = k + 1 := by omega
  rw [tailLen, hrest, Nat.add_mul_mod_self_right, Nat.mod_eq_of_lt (by omega), hlast, sliceLen,
    if_neg (Nat.succ_ne_zero k), sliceStart_succ]
  omega

/-- The two forms of `tail` in 41_fragmenter.md R82. -/
theorem tailLen_eq_ite {c : Cfg} (hO : 0 < c.otherCap) {size : Nat} (hlong : c.firstCap < size) :
    tailLen c size = if (size - c.firstCap) % c.otherCap = 0 then c.otherCap
      else (size - c.firstCap) % c.otherCap := by
  obtain ⟨r, hr⟩ : ∃ r, size - c.firstCap = r + 1 := ⟨size - c.firstCap - 1, by omega⟩
  rw [tailLen, hr, Nat.add_sub_cancel, ← Nat.mod_add_mod r c.otherCap 1]
  rcases Nat.eq_or_lt_of_le (Nat.mod_lt r hO) with hfull | hpart
  · rw [Nat.succ_eq_add_one] at hfull
    rw [hfull, Nat.mod_self, if_pos rfl]
  · rw [Nat.mod_eq_of_lt hpart, if_neg (Nat.succ_ne_zero _)]

/-- Settles O15. A byte lies in the slice of the one position `p` with
`sliceStart p ≤ i < sliceStart (p + 1)`. -/
theorem slicesPartition : Obligations.SlicesPartition := by
  intro c size hc hsize
  obtain ⟨-, -, hF, hO⟩ := cfgLegal_fragmentCaps hc
  have hmono := sliceStart_strictMono hF hO
  have hinside (p : Nat) := lt_nfrag_iff hO hsize p
  refine ⟨⟨rfl, rfl⟩, ?formulas, ?contiguous, ?cover, ?bounds, ?tail⟩
  case formulas => exact fun p hp => ⟨if_neg (by omega), if_neg (by omega)⟩
  case contiguous =>
    intro p hp
    have hnext := (hinside _).mp hp
    have hstep := hmono (Nat.lt_add_one p)
    rw [sliceStart_add_sliceLen (by omega), Nat.min_eq_left (by omega)]
  case cover =>
    intro i hi
    obtain ⟨p, hge, hlt⟩ := exists_sliceStart_le_lt hmono i
    refine ⟨p, ⟨(hinside p).mpr (by omega), hge, ?_⟩, fun q _ hqge hqlt => ?_⟩
    · rw [sliceStart_add_sliceLen (by omega)]
      omega
    · rw [sliceStart_add_sliceLen (by omega)] at hqlt
      exact Nat.le_antisymm (slice_position_le hmono hqge hlt)
        (slice_position_le hmono hge (by omega))
  case bounds =>
    intro p hp
    have hstart := (hinside p).mp hp
    have hstep := hmono (Nat.lt_add_one p)
    have hend := sliceStart_add_sliceLen (Nat.le_of_lt hstart)
    exact ⟨by omega, by omega, sliceStart_mod_eight hc p⟩
  case tail =>
    intro hlong
    rw [sliceLen_last hO hlong]
    exact ⟨rfl, tailLen_eq_ite hO hlong⟩

/-! ## The outcomes of FRAG_COUNT and FRAGMENT -/

theorem badLength_eq_true_iff (c : Cfg) (l : Nat) : badLength c l = true ↔ ¬ lengthOk c l := by
  simp only [badLength, lengthOk, Bool.or_eq_true, decide_eq_true_eq]
  omega

theorem frameCount_of_le {c : Cfg} {l : Nat} (h : l ≤ c.nonfragCap) : frameCount c l = 1 :=
  if_pos h

theorem frameCount_of_lt {c : Cfg} {l : Nat} (h : c.nonfragCap < l) : frameCount c l = nfrag c l :=
  if_neg (Nat.not_le_of_lt h)

theorem exec_fragCount_of_not_lengthOk {s : State} {l : Nat} (h : ¬ lengthOk s.cfg l) :
    exec (.fragCount l) s = .next { s with reply := .refused .lengthRange } := by
  simp only [exec, execFragCount, if_pos ((badLength_eq_true_iff _ _).mpr h), refuse, withReply]

theorem exec_fragCount_of_lengthOk {s : State} {l : Nat} (h : lengthOk s.cfg l) :
    exec (.fragCount l) s = .next { s with reply := .ok (.num (frameCount s.cfg l)) } := by
  have hgood := mt (badLength_eq_true_iff s.cfg l).mp (not_not_intro h)
  simp only [exec, execFragCount, if_neg hgood, replyOk, withReply]

theorem exec_fragment_of_not_lengthOk {s : State} {d : Bytes} (h : ¬ lengthOk s.cfg d.length)
    (t : Tag) (slots : Nat) :
    exec (.fragment d t slots) s = .next { s with reply := .refused .lengthRange } := by
  simp only [exec, execFragment, if_pos ((badLength_eq_true_iff _ _).mpr h), refuse, withReply]

theorem exec_fragment_of_few_slots {s : State} {d : Bytes} (h : lengthOk s.cfg d.length)
    {slots : Nat} (hslots : slots < frameCount s.cfg d.length) (t : Tag) :
    exec (.fragment d t slots) s = .next { s with reply := .refused .bufferTooSmall } := by
  have hgood := mt (badLength_eq_true_iff s.cfg d.length).mp (not_not_intro h)
  simp only [exec, execFragment, if_neg hgood, if_pos hslots, refuse, withReply]

theorem exec_fragment_of_enough_slots {s : State} {d : Bytes} (h : lengthOk s.cfg d.length)
    {slots : Nat} (hslots : frameCount s.cfg d.length ≤ slots) (t : Tag) :
    exec (.fragment d t slots) s =
      .next { s with reply := .ok (.units (fragmentFrames s.cfg d t)) } := by
  have hgood := mt (badLength_eq_true_iff s.cfg d.length).mp (not_not_intro h)
  simp only [exec, execFragment, if_neg hgood, if_neg (Nat.not_lt_of_le hslots), replyOk, withReply]

theorem reply_eq_of_next {s : State} {r q : Reply}
    (h : (.next { s with reply := r } : Host.Outcome State Fault Refusal) =
      .next { s with reply := q }) : r = q := by
  injection h with hstate
  exact congrArg State.reply hstate

/-- Frames in the outcome are those of a datagram of legal length. -/
theorem fragmentFrames_of_exec {s : State} {d : Bytes} {t : Tag} {slots : Nat} {fs : List Bytes}
    (hexec : exec (.fragment d t slots) s = .next { s with reply := .ok (.units fs) }) :
    lengthOk s.cfg d.length ∧ fs = fragmentFrames s.cfg d t := by
  by_cases hlen : lengthOk s.cfg d.length
  · refine ⟨hlen, ?_⟩
    by_cases hslots : slots < frameCount s.cfg d.length
    · rw [exec_fragment_of_few_slots hlen hslots] at hexec
      cases reply_eq_of_next hexec
    · rw [exec_fragment_of_enough_slots hlen (Nat.le_of_not_lt hslots)] at hexec
      cases reply_eq_of_next hexec
      rfl
  · rw [exec_fragment_of_not_lengthOk hlen] at hexec
    cases reply_eq_of_next hexec

/-- Settles O12. That the count is least is `nfrag_le_iff`, read in both directions. -/
theorem fragCountOutcome : Obligations.FragCountOutcome := by
  intro l s hc
  obtain ⟨-, -, -, hO⟩ := cfgLegal_fragmentCaps hc
  refine ⟨exec_fragCount_of_not_lengthOk, fun hlen hshort => ?single,
    fun hlen hlong => ⟨?count, fun n hexec => ?least⟩⟩
  case single => rw [exec_fragCount_of_lengthOk hlen, frameCount_of_le hshort]
  case count => rw [exec_fragCount_of_lengthOk hlen, frameCount_of_lt hlong]; rfl
  case least =>
    rw [exec_fragCount_of_lengthOk hlen, frameCount_of_lt hlong] at hexec
    cases reply_eq_of_next hexec
    have hpos := nfrag_pos s.cfg l
    exact ⟨hpos, (nfrag_le_iff hO hpos).mp (Nat.le_refl _),
      fun m hm hholds => (nfrag_le_iff hO hm).mpr hholds⟩

/-! ## The bytes of a fragment's header -/

theorem tag_high_eq_ofNat (t : Tag) : t.extractLsb' 8 8 = BitVec.ofNat 8 (t.toNat / 256) :=
  BitVec.eq_of_toNat_eq (by
    have := t.isLt
    rw [tag_high_toNat, BitVec.toNat_ofNat]
    omega)

theorem tag_low_eq_ofNat (t : Tag) : t.extractLsb' 0 8 = BitVec.ofNat 8 t.toNat :=
  BitVec.eq_of_toNat_eq (by rw [tag_low_toNat, BitVec.toNat_ofNat])

theorem size_toNat_ofNat {size : Nat} (h : size ≤ 8191) : (BitVec.ofNat 13 size).toNat = size := by
  rw [BitVec.toNat_ofNat, Nat.mod_eq_of_lt (by omega)]

theorem size_low_eq_ofNat {size : Nat} (h : size ≤ 8191) :
    (BitVec.ofNat 13 size).extractLsb' 0 8 = BitVec.ofNat 8 size :=
  BitVec.eq_of_toNat_eq (by rw [size_low_toNat, size_toNat_ofNat h, BitVec.toNat_ofNat])

/-- The header of a first fragment in numbers (30_encoding.md R54). -/
theorem headerBytes_first_ofNat {size : Nat} (h : size ≤ 8191) (t : Tag) :
    headerBytes (.first (BitVec.ofNat 13 size) t) =
      [BitVec.ofNat 8 (0xC0 + size / 256), BitVec.ofNat 8 size,
        BitVec.ofNat 8 (t.toNat / 256), BitVec.ofNat 8 t.toNat] := by
  have hbyte0 : fragByte0 0xC0#8 (BitVec.ofNat 13 size) = BitVec.ofNat 8 (0xC0 + size / 256) :=
    BitVec.eq_of_toNat_eq (by
      rw [fragByte0_first_toNat, size_toNat_ofNat h, BitVec.toNat_ofNat]
      omega)
  rw [headerBytes, hbyte0, size_low_eq_ofNat h, tag_high_eq_ofNat, tag_low_eq_ofNat]

/-- The header of an other fragment in numbers (30_encoding.md R55). -/
theorem headerBytes_other_ofNat {size : Nat} (h : size ≤ 8191) (t : Tag) (off8 : BitVec 8) :
    headerBytes (.other (BitVec.ofNat 13 size) t off8) =
      [BitVec.ofNat 8 (0xE0 + size / 256), BitVec.ofNat 8 size,
        BitVec.ofNat 8 (t.toNat / 256), BitVec.ofNat 8 t.toNat, off8] := by
  have hbyte0 : fragByte0 0xE0#8 (BitVec.ofNat 13 size) = BitVec.ofNat 8 (0xE0 + size / 256) :=
    BitVec.eq_of_toNat_eq (by
      rw [fragByte0_other_toNat, size_toNat_ofNat h, BitVec.toNat_ofNat]
      omega)
  rw [headerBytes, hbyte0, size_low_eq_ofNat h, tag_high_eq_ofNat, tag_low_eq_ofNat]

/-! ## The frames of FRAGMENT -/

theorem fragmentFrames_of_le {c : Cfg} {d : Bytes} (h : d.length ≤ c.nonfragCap) (t : Tag) :
    fragmentFrames c d t = [BitVec.ofNat 8 (d.length + 1) :: d] := if_pos h

theorem fragmentFrames_of_lt {c : Cfg} {d : Bytes} (h : c.nonfragCap < d.length) (t : Tag) :
    fragmentFrames c d t = (List.range (nfrag c d.length)).map (fragFrame c d t) :=
  if_neg (Nat.not_le_of_lt h)

theorem fragmentFrames_length {c : Cfg} {d : Bytes} (h : c.nonfragCap < d.length) (t : Tag) :
    (fragmentFrames c d t).length = nfrag c d.length := by
  rw [fragmentFrames_of_lt h, List.length_map, List.length_range]

theorem fragmentFrames_getElem?_eq_some {c : Cfg} {d : Bytes} (h : c.nonfragCap < d.length)
    (t : Tag) {p : Nat} {f : Bytes} :
    (fragmentFrames c d t)[p]? = some f ↔ p < nfrag c d.length ∧ f = fragFrame c d t p := by
  rw [fragmentFrames_of_lt h, List.getElem?_eq_some_iff]
  simp [eq_comm (a := f)]

theorem fragHeader_zero (c : Cfg) (size : Nat) (t : Tag) :
    fragHeader c size t 0 = .first (BitVec.ofNat 13 size) t := rfl

theorem fragHeader_succ (c : Cfg) (size : Nat) (t : Tag) (p : Nat) :
    fragHeader c size t (p + 1) =
      .other (BitVec.ofNat 13 size) t (BitVec.ofNat 8 (sliceStart c (p + 1) / 8)) := rfl

/-- Settles O13, branch by branch of the operation; the frame at a position is its header, in
numbers, before its slice. -/
theorem fragmentOutcome : Obligations.FragmentOutcome := by
  intro d t slots s hc
  refine ⟨fun hlen => exec_fragment_of_not_lengthOk hlen t slots,
    fun hlen hshort => ⟨fun hslots => ?noSlot, fun hslots => ?single⟩, fun hlen hlong n hn => ?_⟩
  case noSlot => exact exec_fragment_of_few_slots hlen (by rwa [frameCount_of_le hshort]) t
  case single =>
    rw [exec_fragment_of_enough_slots hlen (by rwa [frameCount_of_le hshort]),
      fragmentFrames_of_le hshort]
  obtain rfl : n = nfrag s.cfg d.length := hn
  have hfits : d.length ≤ 8191 := hlen.2.trans (cfgLegal_maxDatagram_le hc)
  refine ⟨fun hslots => ?fewSlots, fun hslots => ⟨fragmentFrames s.cfg d t, ?frames, ?length,
    ?first, ?other⟩⟩
  case fewSlots => exact exec_fragment_of_few_slots hlen (by rwa [frameCount_of_lt hlong]) t
  case frames => exact exec_fragment_of_enough_slots hlen (by rwa [frameCount_of_lt hlong]) t
  case length => exact fragmentFrames_length hlong t
  case first =>
    refine (fragmentFrames_getElem?_eq_some hlong t).mpr ⟨nfrag_pos _ _, ?_⟩
    rw [fragFrame, fragHeader_zero, headerBytes_first_ofNat hfits]
    rfl
  case other =>
    rintro p h1 hp _ rfl
    obtain ⟨q, rfl⟩ := Nat.exists_eq_add_of_le' h1
    refine (fragmentFrames_getElem?_eq_some hlong t).mpr ⟨hp, ?_⟩
    rw [fragFrame, fragHeader_succ, headerBytes_other_ofNat hfits]
    rfl

/-! ## What a fragment's frame reads as -/

theorem packable_fragHeader (c : Cfg) (size : Nat) (t : Tag) (p : Nat) :
    Packable (fragHeader c size t p) := by
  cases p with
  | zero => exact packable_first _ _
  | succ q => exact packable_other _ _ _

theorem unpackHeader_fragFrame (c : Cfg) (d : Bytes) (t : Tag) (p : Nat) :
    unpackHeader (fragFrame c d t p) = some (fragHeader c d.length t p) :=
  unpackHeader_headerBytes (packable_fragHeader c d.length t p) _

theorem headerBytes_fragHeader_length (c : Cfg) (size : Nat) (t : Tag) (p : Nat) :
    (headerBytes (fragHeader c size t p)).length = posHdrLen p := by
  cases p <;> rfl

theorem fragFrame_length (c : Cfg) (d : Bytes) (t : Tag) (p : Nat) :
    (fragFrame c d t p).length = posHdrLen p + sliceLen c d.length p := by
  have hle := sliceLen_le c d.length p
  rw [fragFrame, List.length_append, headerBytes_fragHeader_length, List.length_take,
    List.length_drop, Nat.min_eq_left hle]

/-- Byte 0 of a buffer tells the kind of the header it unpacks to. -/
theorem kindOf_headD_of_unpackHeader {buf : Bytes} {h : Header} (hu : unpackHeader buf = some h) :
    kindOf (buf.headD 0) = hdrKind h := by
  rcases unpackHeader_eq_some_cases hu with ⟨b0, rest, rfl, rfl, -, hlt⟩ |
    ⟨b0, b1, b2, b3, more, rfl, rfl, hge, hlt⟩ | ⟨b0, b1, b2, b3, b4, more, rfl, rfl, hge⟩
  · exact kindOf_of_lt hlt
  · exact kindOf_of_mid hge hlt
  · exact kindOf_of_ge hge

/-- The payload of a fragment's frame is the slice of its position. -/
theorem fragFrame_payload (c : Cfg) (d : Bytes) (t : Tag) (p : Nat) :
    (fragFrame c d t p).drop (hdrLen (kindOf ((fragFrame c d t p).headD 0))) =
      (d.drop (sliceStart c p)).take (sliceLen c d.length p) := by
  rw [kindOf_headD_of_unpackHeader (unpackHeader_fragFrame c d t p), ← headerBytes_length, fragFrame,
    List.drop_left]

/-- The slices before position `n`, one after the other, are the datagram up to the start of the
slice at `n`. -/
theorem flatten_slices {c : Cfg} (hO : 0 < c.otherCap) {d : Bytes} (hd : 1 ≤ d.length) {n : Nat}
    (hn : n ≤ nfrag c d.length) :
    ((List.range n).map fun p => (d.drop (sliceStart c p)).take (sliceLen c d.length p)).flatten =
      d.take (sliceStart c n) := by
  induction n with
  | zero => rfl
  | succ n ih =>
    have hstart := (lt_nfrag_iff hO hd n).mp hn
    rw [List.range_succ, List.map_append, List.flatten_append, ih (Nat.le_of_succ_le hn),
      List.map_singleton, List.flatten_singleton, ← List.take_add,
      sliceStart_add_sliceLen (Nat.le_of_lt hstart), ← List.take_eq_take_min]

/-- 41_fragmenter.md R86 (d). -/
theorem flatten_payloads {c : Cfg} (hO : 0 < c.otherCap) {d : Bytes} (hd : 1 ≤ d.length) (t : Tag) :
    (((List.range (nfrag c d.length)).map (fragFrame c d t)).map fun f =>
      f.drop (hdrLen (kindOf (f.headD 0)))).flatten = d := by
  have hall : d.length ≤ sliceStart c (nfrag c d.length) :=
    Nat.le_of_not_lt (mt (lt_nfrag_iff hO hd _).mpr (Nat.lt_irrefl _))
  simp only [List.map_map, Function.comp_def, fragFrame_payload]
  rw [flatten_slices hO hd (Nat.le_refl _), List.take_of_length_le hall]

/-! ## The frames are format-valid -/

/-- What the offset byte has to hold is within the bound of 00_scope.md R6 (g): every position is
one of the longest datagram's too. -/
theorem sliceStart_le_offsetMax {c : Cfg} (hc : cfgLegal c = true) {size p : Nat}
    (hsize : lengthOk c size) (hp : p < nfrag c size) : sliceStart c p ≤ 2040 := by
  obtain ⟨hpos, hmax⟩ := hsize
  obtain ⟨-, -, -, hO⟩ := cfgLegal_fragmentCaps hc
  have hstart := (lt_nfrag_iff hO hpos p).mp hp
  have hlongest : p < nmax c := (lt_nfrag_iff hO (by omega) p).mpr (Nat.lt_of_lt_of_le hstart hmax)
  cases p with
  | zero => exact Nat.zero_le _
  | succ q =>
    rw [sliceStart_succ] at hstart ⊢
    have hbound := cfgLegal_offset_le hc (by omega)
    have hmul : q * c.otherCap ≤ (nmax c - 2) * c.otherCap := Nat.mul_le_mul_right _ (by omega)
    rw [Nat.mul_comm c.otherCap] at hbound
    omega

theorem hdrOffset_sliceStart {c : Cfg} (hc : cfgLegal c = true) {size p : Nat}
    (hsize : lengthOk c size) (hp : p < nfrag c size) :
    hdrOffset (BitVec.ofNat 8 (sliceStart c p / 8)) = sliceStart c p := by
  have hmax := sliceStart_le_offsetMax hc hsize hp
  have hmod := sliceStart_mod_eight hc p
  rw [hdrOffset, BitVec.toNat_ofNat]
  omega

theorem headerValid_fragHeader {c : Cfg} (hc : cfgLegal c = true) {size p : Nat}
    (hsize : lengthOk c size) (hp : p < nfrag c size) (t : Tag) :
    headerValid c (fragHeader c size t p) = true := by
  obtain ⟨-, -, -, hO⟩ := cfgLegal_fragmentCaps hc
  have hfits := size_toNat_ofNat (hsize.2.trans (cfgLegal_maxDatagram_le hc))
  have hstart := (lt_nfrag_iff hO hsize.1 p).mp hp
  cases p with
  | zero => exact (headerValid_first_iff _ _ _).mpr (by rwa [hfits])
  | succ q =>
    refine (headerValid_other_iff _ _ _ _).mpr ?_
    rw [otherValid, ← hdrOffset, hdrOffset_sliceStart hc hsize hp, hfits]
    refine ⟨hsize.1, hsize.2, Nat.le_add_right _ _, ?_, hstart⟩
    rw [sliceStart_succ, Nat.add_sub_cancel_left, Nat.mul_mod_left]

theorem hdrFrameLength_fragHeader {c : Cfg} (hc : cfgLegal c = true) {size p : Nat}
    (hsize : lengthOk c size) (hp : p < nfrag c size) (t : Tag) :
    hdrFrameLength c (fragHeader c size t p) = posHdrLen p + sliceLen c size p := by
  have hfits := size_toNat_ofNat (hsize.2.trans (cfgLegal_maxDatagram_le hc))
  cases p with
  | zero => rw [fragHeader_zero, hdrFrameLength, hfits]; rfl
  | succ q =>
    rw [fragHeader_succ, hdrFrameLength, hdrOffset_sliceStart hc hsize hp, hfits]
    rfl

theorem formatValid_fragFrame {c : Cfg} (hc : cfgLegal c = true) {d : Bytes}
    (hsize : lengthOk c d.length) {p : Nat} (hp : p < nfrag c d.length) (t : Tag) :
    formatValid c (fragFrame c d t p) = true := by
  have hlength : (fragFrame c d t p).length = hdrFrameLength c (fragHeader c d.length t p) := by
    rw [fragFrame_length, hdrFrameLength_fragHeader hc hsize hp]
  rw [formatValid, formatHeader_eq_some.mpr
    ⟨unpackHeader_fragFrame c d t p, headerValid_fragHeader hc hsize hp t, hlength⟩]
  rfl

/-- Settles O14. What is in the list at `p` is the frame of position `p`, so each property is one of
`fragFrame`; only (d) is about all positions together. -/
theorem fragmentProperties : Obligations.FragmentProperties := by
  intro d t slots s fs hc hlong hexec
  obtain ⟨hsize, rfl⟩ := fragmentFrames_of_exec hexec
  obtain ⟨-, -, -, hO⟩ := cfgLegal_fragmentCaps hc
  have hposition {p f} := fragmentFrames_getElem?_eq_some (p := p) (f := f) hlong t
  refine ⟨?count, ?lengths, fun f hf => ?valid, ?payloads, fun f hf => ?first,
    size_toNat_ofNat (hsize.2.trans (cfgLegal_maxDatagram_le hc)), fun p f h1 hf => ?other⟩
  case count =>
    rw [exec_fragCount_of_lengthOk hsize, frameCount_of_lt hlong, fragmentFrames_length hlong]
  case lengths =>
    simp only [fragmentFrames_of_lt hlong, List.map_map, Function.comp_def, fragFrame_length,
      sizeTableOf]
  case valid =>
    obtain ⟨p, hget⟩ := List.mem_iff_getElem?.mp hf
    obtain ⟨hp, rfl⟩ := hposition.mp hget
    exact formatValid_fragFrame hc hsize hp t
  case payloads => rw [fragmentFrames_of_lt hlong, flatten_payloads hO hsize.1]
  case first =>
    obtain ⟨-, rfl⟩ := hposition.mp hf
    exact unpackHeader_fragFrame s.cfg d t 0
  case other =>
    obtain ⟨hp, rfl⟩ := hposition.mp hf
    obtain ⟨q, rfl⟩ := Nat.exists_eq_add_of_le' h1
    exact ⟨_, unpackHeader_fragFrame s.cfg d t (q + 1), hdrOffset_sliceStart hc hsize hp,
      sliceStart_mod_eight hc _⟩

end Sys2Proof.Proofs.Fragmenter
end

section
/-! PROOFS. 42_reassembler.md: the size table (O16), RSM_RESET (O17), RSM_INGEST by verdict (O18 to
O21), RSM_COMPLETE (O22) and RSM_EXTRACT (O23). RSM_INGEST rests on one lemma per verdict.
Completion rests on one fact: `filled` and `expected_size` are sums over the same positions, of the
slices accepted and of all slices. -/

namespace Sys2Proof.Proofs.Reassembler

open Sys2Proof.Machine Sys2Proof.Proofs.HeaderCodec Sys2Proof.Proofs.Fragmenter

/-! ## The size table -/

@[simp] theorem sizeTableOf_length (c : Cfg) (size : Nat) :
    (sizeTableOf c size).length = nfrag c size := by
  rw [sizeTableOf, List.length_map, List.length_range]

theorem sizeTableOf_getElem? {c : Cfg} {size p : Nat} (hp : p < nfrag c size) :
    (sizeTableOf c size)[p]? = some (posHdrLen p + sliceLen c size p) := by
  rw [sizeTableOf, List.getElem?_map, List.getElem?_range hp, Option.map_some]

/-- A slice before the last one is full. -/
theorem sliceLen_of_succ_lt_nfrag {c : Cfg} (hO : 0 < c.otherCap) {size p : Nat} (hp : 1 ≤ p)
    (hnext : p + 1 < nfrag c size) : sliceLen c size p = c.otherCap := by
  have hsize : ¬ size ≤ c.firstCap + p * c.otherCap := by
    simpa using mt (nfrag_le_iff hO (Nat.le_add_left 1 p)).mpr (Nat.not_le_of_lt hnext)
  obtain ⟨q, rfl⟩ := Nat.exists_eq_add_of_le' hp
  rw [Nat.add_mul] at hsize
  rw [sliceLen, if_neg q.succ_ne_zero, sliceStart_succ]
  omega

theorem nfrag_of_le_firstCap {c : Cfg} (hO : 0 < c.otherCap) {size : Nat}
    (hshort : size ≤ c.firstCap) : nfrag c size = 1 :=
  Nat.le_antisymm ((nfrag_le_iff hO (Nat.le_refl 1)).mpr (by simpa using hshort)) (nfrag_pos c size)

/-- Settles O16: every entry is the one formula of R91, with the slice lengths of the Fragmenter. -/
theorem sizeTableEntries : Obligations.SizeTableEntries := by
  intro c size hc hsize
  obtain ⟨-, -, -, hO⟩ := cfgLegal_fragmentCaps hc
  refine ⟨sizeTableOf_length c size, sizeTableOf_getElem? (nfrag_pos c size), ?middle, ?last,
    fun p => sizeTableOf_getElem?, ?single⟩
  case middle =>
    intro i hi hnext
    rw [sizeTableOf_getElem? (by omega), sliceLen_of_succ_lt_nfrag hO hi (by omega), posHdrLen,
      if_neg (by omega)]
  case last =>
    intro htwo
    have hlong : c.firstCap < size := by
      by_contra hshort
      rw [nfrag_of_le_firstCap hO (Nat.le_of_not_lt hshort)] at htwo
      omega
    rw [sizeTableOf_getElem? (by omega), sliceLen_last hO hlong, posHdrLen, if_neg (by omega),
      tailLen]
  case single =>
    intro hshort
    rw [sizeTableOf, nfrag_of_le_firstCap hO hshort, List.range_one, List.map_singleton, sliceLen,
      if_pos rfl, Nat.min_eq_left hshort]
    rfl

/-! ## RSM_RESET -/

theorem exec_rsmReset (s : State) : exec .rsmReset s =
    .next { s with ctx := Ctx.idleWith s.cfg s.ctx.buf, reply := .ok .unit } := rfl

/-- Settles O17: a second reset finds the configuration and the buffer the first one read. -/
theorem rsmResetEffect : Obligations.RsmResetEffect := by
  refine fun s => ⟨exec_rsmReset s, ?_⟩
  simp only [runAll, exec_rsmReset, idleWith_buf]

/-! ## The header of a frame -/

/-- A valid header before as many payload bytes as it declares is a format-valid frame. -/
theorem formatHeader_headerBytes {c : Cfg} {h : Header} (hp : Packable h)
    (hv : headerValid c h = true) {payload : Bytes}
    (hlen : hdrLen (hdrKind h) + payload.length = hdrFrameLength c h) :
    formatHeader c (headerBytes h ++ payload) = some h :=
  formatHeader_eq_some.mpr ⟨unpackHeader_headerBytes hp payload, hv, by
    rw [List.length_append, headerBytes_length, hlen]⟩

theorem formatHeader_first {c : Cfg} {size : BitVec 13} (hsize : lengthOk c size.toNat) (tag : Tag)
    {payload : Bytes} (hlen : payload.length = min size.toNat c.firstCap) :
    formatHeader c (headerBytes (.first size tag) ++ payload) = some (.first size tag) :=
  formatHeader_headerBytes (packable_first size tag) ((headerValid_first_iff c size tag).mpr hsize)
    (congrArg (4 + ·) hlen)

theorem formatHeader_other {c : Cfg} {size : BitVec 13} {off8 : BitVec 8}
    (hv : otherValid c size off8) (tag : Tag) {payload : Bytes}
    (hlen : payload.length = min c.otherCap (size.toNat - 8 * off8.toNat)) :
    formatHeader c (headerBytes (.other size tag off8) ++ payload) = some (.other size tag off8) :=
  formatHeader_headerBytes (packable_other size tag off8)
    ((headerValid_other_iff c size tag off8).mpr hv) (congrArg (5 + ·) hlen)

/-- 00_scope.md R6 (d): a frame length is never a fragment's byte 0. -/
theorem formatHeader_nonFrag {c : Cfg} (hc : cfgLegal c = true) {len : Byte} {payload : Bytes}
    (hpos : 1 ≤ len.toNat) (hmax : len.toNat ≤ c.maxFrame)
    (hlen : 1 + payload.length = len.toNat) :
    formatHeader c (len :: payload) = some (.nonFrag len) := by
  obtain ⟨-, -, -, hframe, -⟩ := of_decide_eq_true hc
  exact formatHeader_headerBytes (packable_nonFrag.mpr ⟨hpos, hmax.trans hframe⟩)
    ((headerValid_nonFrag_iff c len).mpr ⟨hpos, hmax⟩) hlen

theorem formatHeader_eq_none_of_not_valid {c : Cfg} {f : Bytes} (h : formatValid c f = false) :
    formatHeader c f = none := by
  rwa [formatValid, Option.isSome_eq_false_iff, Option.isNone_iff_eq_none] at h

/-- The only header a format-valid frame can have is the one it unpacks to. -/
theorem formatHeader_eq_none_or_of_unpackHeader {f : Bytes} {h : Header}
    (hu : unpackHeader f = some h) (c : Cfg) :
    formatHeader c f = none ∨ formatHeader c f = some h := by
  cases hf : formatHeader c f with
  | none => exact .inl rfl
  | some h' => rw [(formatHeader_eq_some.mp hf).1] at hu; exact .inr hu

/-! ## The verdicts of RSM_INGEST -/

/-- The context is bound to this tag and size. -/
def BoundTo (x : Ctx) (size : BitVec 13) (tag : Tag) : Prop :=
  x.idle = false ∧ x.tag = tag ∧ x.expectedSize = size.toNat

section Verdicts

variable {c : Cfg} {x : Ctx} {buf : Bytes} {size : BitVec 13} {tag : Tag} {off8 : BitVec 8}

theorem rsmVerdict_of_none (hf : formatHeader c buf = none) : rsmVerdict c x buf = .malformed := by
  rw [rsmVerdict, hf]

theorem rsmVerdict_of_nonFrag {len : BitVec 8} (hf : formatHeader c buf = some (.nonFrag len)) :
    rsmVerdict c x buf = .bypass := by
  rw [rsmVerdict, hf]

theorem rsmVerdict_first_of_unbound (hf : formatHeader c buf = some (.first size tag))
    (hnew : x.idle = true ∨ x.tag ≠ tag) :
    rsmVerdict c x buf = if x.idle then .start else .restart := by
  simp only [rsmVerdict, hf]
  cases hidle : x.idle with
  | true => rfl
  | false =>
    have htag : tag ≠ x.tag := fun h => hnew.elim (by simp [hidle]) (· h.symm)
    exact if_pos htag

theorem rsmVerdict_first_of_other_size (hf : formatHeader c buf = some (.first size tag))
    (hidle : x.idle = false) (htag : x.tag = tag) (hsize : x.expectedSize ≠ size.toNat) :
    rsmVerdict c x buf = .malformed := by
  simp only [rsmVerdict, hf, hidle, htag, if_pos hsize.symm, ne_eq, not_true, if_false,
    Bool.false_eq_true]

theorem rsmVerdict_first_of_boundTo (hf : formatHeader c buf = some (.first size tag))
    (hb : BoundTo x size tag) : rsmVerdict c x buf = .duplicate := by
  obtain ⟨hidle, htag, hsize⟩ := hb
  simp only [rsmVerdict, hf, hidle, htag, hsize, ne_eq, not_true, if_false, Bool.false_eq_true]

theorem rsmVerdict_other_of_not_boundTo (hf : formatHeader c buf = some (.other size tag off8))
    (hb : ¬ BoundTo x size tag) : rsmVerdict c x buf = .malformed := by
  simp only [rsmVerdict, hf]
  split
  · rfl
  · next hidle =>
    split
    · rfl
    · next htag =>
      have hsize : size.toNat ≠ x.expectedSize := fun hs =>
        hb ⟨Bool.eq_false_of_not_eq_true hidle, (not_not.mp htag).symm, hs.symm⟩
      exact if_pos hsize

theorem rsmVerdict_other_of_boundTo (hf : formatHeader c buf = some (.other size tag off8))
    (hb : BoundTo x size tag) : rsmVerdict c x buf =
      if x.received[hdrPos c off8]? = some true then .duplicate else .new := by
  obtain ⟨hidle, htag, hsize⟩ := hb
  simp only [rsmVerdict, hf, hidle, htag, hsize, ne_eq, not_true, if_false, Bool.false_eq_true]

end Verdicts

/-! ## RSM_INGEST by verdict -/

section Ingest

variable {s : State} {buf : Bytes}

theorem exec_rsmIngest (buf : Bytes) (s : State) : exec (.rsmIngest buf) s = .next { s with
    ctx := ingestCtx s.cfg s.ctx buf
    reply := ingestReply (rsmVerdict s.cfg s.ctx buf) } := rfl

theorem exec_rsmIngest_of_malformed (hv : rsmVerdict s.cfg s.ctx buf = .malformed) :
    exec (.rsmIngest buf) s = .next { s with
      ctx := Ctx.idleWith s.cfg s.ctx.buf, reply := .error .malformedFrame } := by
  rw [exec_rsmIngest, ingestCtx, hv]
  rfl

theorem exec_rsmIngest_of_bypass (hv : rsmVerdict s.cfg s.ctx buf = .bypass) :
    exec (.rsmIngest buf) s = .next { s with reply := .ok (.ingested .bypass) } := by
  rw [exec_rsmIngest, ingestCtx, hv]
  rfl

theorem exec_rsmIngest_of_duplicate (hv : rsmVerdict s.cfg s.ctx buf = .duplicate) :
    exec (.rsmIngest buf) s = .next { s with reply := .ok (.ingested .duplicate) } := by
  rw [exec_rsmIngest, ingestCtx, hv]
  rfl

/-- The verdict is Start or Restart: the context is bound and the payload accepted at position 0
(42_reassembler.md R95, R97). -/
theorem exec_rsmIngest_of_opening {size : BitVec 13} {tag : Tag}
    (hf : formatHeader s.cfg buf = some (.first size tag))
    (hnew : s.ctx.idle = true ∨ s.ctx.tag ≠ tag) :
    exec (.rsmIngest buf) s = .next { s with
      ctx := acceptCtx (bindCtx s.cfg s.ctx size.toNat tag) 0 0 (buf.drop 4) buf.length
      reply := .ok (.ingested (if s.ctx.idle then .started else .restarted)) } := by
  rw [exec_rsmIngest, ingestCtx, rsmVerdict_first_of_unbound hf hnew, hf]
  cases s.ctx.idle <;> rfl

/-- The verdict is New: the payload is accepted at the decoded offset (42_reassembler.md R96). -/
theorem exec_rsmIngest_of_new {size : BitVec 13} {tag : Tag} {off8 : BitVec 8}
    (hf : formatHeader s.cfg buf = some (.other size tag off8))
    (hv : rsmVerdict s.cfg s.ctx buf = .new) :
    exec (.rsmIngest buf) s = .next { s with
      ctx := acceptCtx s.ctx (hdrPos s.cfg off8) (hdrOffset off8) (buf.drop 5) buf.length
      reply := .ok (.ingested .accepted) } := by
  rw [exec_rsmIngest, ingestCtx, hv, hf]
  rfl

end Ingest

/-! ## The contexts after a fragment -/

/-- The length of a first fragment's frame is entry 0 of its datagram's table, so that accepting it
moves `cur_index` to 1. -/
theorem acceptCtx_bindCtx (c : Cfg) (x : Ctx) (size : Nat) (tag : Tag) (payload : Bytes) :
    acceptCtx (bindCtx c x size tag) 0 0 payload (4 + min size c.firstCap) =
      openedCtx c x.buf size tag payload := by
  have hentry : (bindCtx c x size tag).sizeTable[(bindCtx c x size tag).curIndex]? =
      some (4 + min size c.firstCap) := by
    rw [bindCtx_sizeTable, bindCtx_curIndex, List.getElem?_append_left
      (by rw [sizeTableOf_length]; exact nfrag_pos c size), sizeTableOf_getElem? (nfrag_pos c size)]
    rfl
  rw [acceptCtx, if_pos hentry, bindCtx_filled, Nat.zero_add]
  rfl

theorem acceptCtx_eq_grownCtx (x : Ctx) (p start : Nat) (payload : Bytes) :
    acceptCtx x p start payload (5 + payload.length) = grownCtx x p start payload := rfl

/-- What a range write puts inside its range. -/
theorem read_writeRange_eq_getElem? (m : Memory) (a : Nat) (v : Bytes) {i : Nat}
    (hi : i < v.length) : Memory.read (Memory.writeRange m a v) (a + i) = v[i]? := by
  rw [Memory.read_writeRange_inside m a v hi, List.getElem?_eq_getElem hi]

/-- Settles O18. The payload is written from index 0 of `ctx.buf`, whatever the context was before. -/
theorem ingestFirstBinds : Obligations.IngestFirstBinds := by
  intro size tag payload s _ hsize hlen hnew
  refine ⟨?next, fun i hi => ?inside, fun i hi => ?outside⟩
  case next =>
    have hframe : (headerBytes (.first size tag) ++ payload).length =
        4 + min size.toNat s.cfg.firstCap := List.length_append.trans (congrArg (4 + ·) hlen)
    have hpayload : (headerBytes (.first size tag) ++ payload).drop 4 = payload := rfl
    rw [exec_rsmIngest_of_opening (formatHeader_first hsize tag hlen) hnew, hframe, hpayload,
      acceptCtx_bindCtx]
  case inside =>
    have hread := read_writeRange_eq_getElem? s.ctx.buf 0 payload hi
    rwa [Nat.zero_add] at hread
  case outside =>
    exact Memory.read_writeRange_outside s.ctx.buf 0 payload (.inr (by rwa [Nat.zero_add]))

/-- Settles O19. The position and the start are the ones the offset byte decodes to. -/
theorem ingestOtherAccepts : Obligations.IngestOtherAccepts := by
  rintro size tag off8 payload p s hvalid hlen hidle htag hsize rfl hreceived
  refine ⟨?next, fun i hi => read_writeRange_eq_getElem? s.ctx.buf _ payload hi,
    fun i hi => Memory.read_writeRange_outside s.ctx.buf _ payload hi⟩
  have hf := formatHeader_other hvalid tag hlen
  have hv := rsmVerdict_other_of_boundTo hf ⟨hidle, htag, hsize⟩
  have hframe : (headerBytes (.other size tag off8) ++ payload).length = 5 + payload.length :=
    List.length_append
  have hpayload : (headerBytes (.other size tag off8) ++ payload).drop 5 = payload := rfl
  rw [exec_rsmIngest_of_new hf (hv.trans (if_neg hreceived)), hframe, hpayload,
    acceptCtx_eq_grownCtx]
  rfl

/-! ## Duplicates and the bypass -/

/-- LR_DELIVER of a non-fragmented frame hands out its payload and leaves the Reassembler alone. -/
theorem exec_lrDeliver_of_bypass {s : State} {f : Bytes} {cap : Nat}
    (hv : rsmVerdict s.cfg s.ctx f = .bypass) (hcap : f.length - 1 ≤ cap) :
    exec (.lrDeliver f cap) s = .next { s with reply := .ok (.datagram (f.drop 1)) } := by
  have hdeliver : deliver f cap s = (.datagram (f.drop 1), s) := by
    rw [deliver, hv]
    exact if_neg (Nat.not_lt_of_le hcap)
  rw [exec, execLrDeliver, hdeliver]
  rfl

/-- Settles O20: both kinds of duplicate have one verdict, and a non-fragmented frame has the bypass
whatever the context is. -/
theorem ingestDuplicateOrBypass : Obligations.IngestDuplicateOrBypass := by
  intro s hc
  refine ⟨?first, ?other, ?bypass⟩
  case first =>
    intro size tag payload hsize hlen hidle htag hexpected
    exact exec_rsmIngest_of_duplicate (rsmVerdict_first_of_boundTo
      (formatHeader_first hsize tag hlen) ⟨hidle, htag, hexpected⟩)
  case other =>
    intro size tag off8 payload hvalid hlen hidle htag hexpected hreceived
    have hv := rsmVerdict_other_of_boundTo (formatHeader_other hvalid tag hlen)
      ⟨hidle, htag, hexpected⟩
    exact exec_rsmIngest_of_duplicate (hv.trans (if_pos hreceived))
  case bypass =>
    intro len payload cap hpos hmax hlen
    have hv : rsmVerdict s.cfg s.ctx (len :: payload) = .bypass :=
      rsmVerdict_of_nonFrag (formatHeader_nonFrag hc hpos hmax hlen)
    exact ⟨exec_rsmIngest_of_bypass hv, fun hcap => exec_lrDeliver_of_bypass hv hcap⟩

/-! ## Malformed frames -/

/-- Settles O21. A frame whose header is at odds with the context has the verdict Malformed whether
or not it is format-valid. -/
theorem ingestMalformed : Obligations.IngestMalformed := by
  intro buf s hcause
  refine exec_rsmIngest_of_malformed ?_
  rcases hcause with hformat | ⟨size, tag, off8, hu, hforeign⟩ | ⟨size, hu, hidle, hsize⟩
  · exact rsmVerdict_of_none (formatHeader_eq_none_of_not_valid hformat)
  · rcases formatHeader_eq_none_or_of_unpackHeader hu s.cfg with hf | hf
    · exact rsmVerdict_of_none hf
    · refine rsmVerdict_other_of_not_boundTo hf fun ⟨hidle, htag, hsize⟩ => ?_
      simp [hidle, htag, hsize] at hforeign
  · rcases formatHeader_eq_none_or_of_unpackHeader hu s.cfg with hf | hf
    · exact rsmVerdict_of_none hf
    · exact rsmVerdict_first_of_other_size hf hidle rfl hsize

/-! ## Bytes accepted and bytes expected -/

/-- How many bytes of the slice of position `p` a context has accepted: all of them or none. -/
def acceptedLen (c : Cfg) (x : Ctx) (p : Nat) : Nat :=
  if x.received[p]? = some true then sliceLen c x.expectedSize p else 0

theorem acceptedLen_le (c : Cfg) (x : Ctx) (p : Nat) :
    acceptedLen c x p ≤ sliceLen c x.expectedSize p := by
  rw [acceptedLen]
  split
  · exact Nat.le_refl _
  · exact Nat.zero_le _

theorem acceptedLen_eq_sliceLen_iff {c : Cfg} {x : Ctx} {p : Nat}
    (hpos : 1 ≤ sliceLen c x.expectedSize p) :
    acceptedLen c x p = sliceLen c x.expectedSize p ↔ x.received[p]? = some true := by
  rw [acceptedLen]
  split
  · next hreceived => exact iff_of_true rfl hreceived
  · next hmissing => exact iff_of_false (by omega) hmissing

/-- The slices before position `n` add up to where the slice of `n` starts, or to the whole
datagram. -/
theorem sum_sliceLen {c : Cfg} (hO : 0 < c.otherCap) {size : Nat} (hsize : 1 ≤ size) {n : Nat}
    (hn : n ≤ nfrag c size) :
    ∑ p ∈ Finset.range n, sliceLen c size p = min (sliceStart c n) size := by
  induction n with
  | zero => simp
  | succ n ih =>
    have hstart := (lt_nfrag_iff hO hsize n).mp hn
    rw [Finset.sum_range_succ, ih (Nat.le_of_succ_le hn), Nat.min_eq_left (Nat.le_of_lt hstart),
      sliceStart_add_sliceLen (Nat.le_of_lt hstart)]

theorem sum_sliceLen_nfrag {c : Cfg} (hO : 0 < c.otherCap) {size : Nat} (hsize : 1 ≤ size) :
    ∑ p ∈ Finset.range (nfrag c size), sliceLen c size p = size := by
  have hend : size ≤ sliceStart c (nfrag c size) :=
    Nat.le_of_not_lt (mt (lt_nfrag_iff hO hsize _).mpr (Nat.lt_irrefl _))
  rw [sum_sliceLen hO hsize (Nat.le_refl _), Nat.min_eq_right hend]

/-- NMAX is the fragment count of the longest datagram. -/
theorem nfrag_le_nmax {c : Cfg} (hO : 0 < c.otherCap) {size : Nat} (hmax : size ≤ c.maxDatagram) :
    nfrag c size ≤ nmax c :=
  have hpos : 1 ≤ nmax c := nfrag_pos c c.maxDatagram
  (nfrag_le_iff hO hpos).mpr (hmax.trans ((nfrag_le_iff hO hpos).mp (Nat.le_refl _)))

section Bound

variable {c : Cfg} {x : Ctx}

/-- Invariant I3 (10_state.md R23) over the positions of the bound datagram alone. -/
theorem filled_eq_sum (hO : 0 < c.otherCap) (hctx : CtxInv c x) (hbusy : x.idle = false) :
    x.filled = ∑ p ∈ Finset.range x.fragCount, acceptedLen c x p := by
  have hb := hctx.bound hbusy
  have hfits : x.fragCount ≤ x.received.length := by
    rw [hb.fragCount, hctx.receivedLength]
    exact nfrag_le_nmax hO hb.size.2
  have hsum : receivedBytes x = ∑ p ∈ Finset.range x.received.length,
      if x.received[p]? = some true then x.sizeTable.getD p 0 - posHdrLen p else 0 := rfl
  rw [hb.filled, hsum]
  refine (Finset.sum_subset_zero_on_sdiff (Finset.range_mono hfits) (fun p hp => ?beyond)
    (fun p hp => ?within)).symm
  case beyond =>
    obtain ⟨-, hge⟩ := Finset.mem_sdiff.mp hp
    exact if_neg (hb.beyond p (Nat.le_of_not_lt (mt Finset.mem_range.mpr hge)))
  case within =>
    have hentry := sizeTable_getElem? hb (hb.fragCount ▸ Finset.mem_range.mp hp)
    rw [acceptedLen, List.getD_eq_getElem?_getD, hentry, Option.getD_some, Nat.add_sub_cancel_left]

theorem expectedSize_eq_sum (hO : 0 < c.otherCap) (hb : CtxBound c x) :
    x.expectedSize = ∑ p ∈ Finset.range x.fragCount, sliceLen c x.expectedSize p := by
  rw [hb.fragCount, sum_sliceLen_nfrag hO hb.size.1]

/-- `cur_index` counts no more than the positions accepted, all of which are the datagram's. -/
theorem curIndex_le_fragCount (hb : CtxBound c x) : x.curIndex ≤ x.fragCount := by
  have hrest : (x.received.drop x.fragCount).count true = 0 := by
    refine List.count_eq_zero.mpr fun hmem => ?_
    obtain ⟨i, hi⟩ := List.mem_iff_getElem?.mp hmem
    rw [List.getElem?_drop] at hi
    exact hb.beyond _ (Nat.le_add_right _ _) hi
  calc x.curIndex
      ≤ x.received.count true := hb.curIndex
    _ = (x.received.take x.fragCount).count true := by
        rw [← List.take_append_drop x.fragCount x.received, List.count_append, hrest]
        simp
    _ ≤ x.fragCount := List.count_le_length.trans (List.length_take_le _ _)

theorem filled_le_expectedSize (hO : 0 < c.otherCap) (hctx : CtxInv c x) (hbusy : x.idle = false) :
    x.filled ≤ x.expectedSize := by
  rw [filled_eq_sum hO hctx hbusy, expectedSize_eq_sum hO (hctx.bound hbusy)]
  exact Finset.sum_le_sum fun p _ => acceptedLen_le c x p

/-- Every slice has a byte, so the two sums agree only if no position is missing. -/
theorem filled_eq_expectedSize_iff (hc : cfgLegal c = true) (hctx : CtxInv c x)
    (hbusy : x.idle = false) :
    x.filled = x.expectedSize ↔ ∀ p, p < x.fragCount → x.received[p]? = some true := by
  obtain ⟨-, -, -, hO⟩ := cfgLegal_fragmentCaps hc
  have hb := hctx.bound hbusy
  obtain ⟨-, -, -, -, hslice, -⟩ := slicesPartition c x.expectedSize hc hb.size.1
  have hiff (p : Nat) (hp : p < x.fragCount) :=
    acceptedLen_eq_sliceLen_iff (hslice p (hb.fragCount ▸ hp)).1
  calc x.filled = x.expectedSize
    _ ↔ ∑ p ∈ Finset.range x.fragCount, acceptedLen c x p =
          ∑ p ∈ Finset.range x.fragCount, sliceLen c x.expectedSize p := by
        rw [filled_eq_sum hO hctx hbusy, ← expectedSize_eq_sum hO hb]
    _ ↔ ∀ p ∈ Finset.range x.fragCount, acceptedLen c x p = sliceLen c x.expectedSize p :=
        Finset.sum_eq_sum_iff_of_le fun p _ => acceptedLen_le c x p
    _ ↔ ∀ p, p < x.fragCount → x.received[p]? = some true := by
        simp only [Finset.mem_range]
        exact forall₂_congr hiff

/-- The bytes of a datagram of which every position was accepted were all written: each is in some
slice. -/
theorem written_of_complete (hc : cfgLegal c = true) (hctx : CtxInv c x) (hbusy : x.idle = false)
    (hfull : x.filled = x.expectedSize) {i : Nat} (hi : i < x.expectedSize) :
    ∃ b, Memory.read x.buf i = some b := by
  have hb := hctx.bound hbusy
  obtain ⟨-, -, -, hcover, -⟩ := slicesPartition c x.expectedSize hc hb.size.1
  obtain ⟨p, ⟨hp, hge, hlt⟩, -⟩ := hcover i hi
  have hreceived := (filled_eq_expectedSize_iff hc hctx hbusy).mp hfull p (hb.fragCount ▸ hp)
  have hsome := hb.written p hreceived (i - sliceStart c p) (by omega)
  rw [Nat.add_sub_cancel' hge] at hsome
  exact Option.isSome_iff_exists.mp hsome

end Bound

/-! ## RSM_COMPLETE -/

theorem isComplete_eq_true_iff (x : Ctx) :
    isComplete x = true ↔ x.idle = false ∧ x.filled = x.expectedSize := by
  simp [isComplete]

theorem exec_rsmComplete (s : State) :
    exec .rsmComplete s = .next { s with reply := .ok (.bool (isComplete s.ctx)) } := rfl

theorem exec_rsmComplete_true_iff (s : State) :
    exec .rsmComplete s = .next { s with reply := .ok (.bool true) } ↔
      s.ctx.idle = false ∧ s.ctx.filled = s.ctx.expectedSize := by
  rw [exec_rsmComplete, ← isComplete_eq_true_iff]
  refine ⟨fun h => ?_, fun h => by rw [h]⟩
  injection reply_eq_of_next h with hvalue
  injection hvalue

/-- The bounds of 10_state.md R17 and R20; the idle context has both numbers at 0. -/
theorem filled_and_curIndex_bounds {c : Cfg} (hO : 0 < c.otherCap) {x : Ctx} (hctx : CtxInv c x) :
    x.filled ≤ x.expectedSize ∧ x.curIndex ≤ x.fragCount := by
  cases hidle : x.idle with
  | true =>
    rw [hctx.idle hidle]
    exact ⟨Nat.le_refl 0, Nat.le_refl 0⟩
  | false =>
    exact ⟨filled_le_expectedSize hO hctx hidle, curIndex_le_fragCount (hctx.bound hidle)⟩

/-- Settles O22. Under the invariant, completion is that the two sums agree. -/
theorem rsmCompleteOutcome : Obligations.RsmCompleteOutcome := by
  intro s
  refine ⟨(exec_rsmComplete_true_iff s).mpr, fun hnot => ?no, fun hc hctx => ?inv⟩
  case no =>
    rw [exec_rsmComplete, Bool.eq_false_of_not_eq_true (mt (isComplete_eq_true_iff _).mp hnot)]
  case inv =>
    obtain ⟨-, -, -, hO⟩ := cfgLegal_fragmentCaps hc
    obtain ⟨hfilled, hcur⟩ := filled_and_curIndex_bounds hO hctx
    exact ⟨hfilled, hcur, (exec_rsmComplete_true_iff s).trans
      (and_congr_right (filled_eq_expectedSize_iff hc hctx))⟩

/-! ## RSM_EXTRACT -/

section Extract

variable {s : State} {cap : Nat}

theorem exec_rsmExtract_of_not_complete (h : isComplete s.ctx = false) :
    exec (.rsmExtract cap) s = .next { s with reply := .ok (.datagram []) } := by
  rw [exec, execRsmExtract, extracted, h]
  rfl

theorem exec_rsmExtract_of_small (h : isComplete s.ctx = true) (hcap : cap < s.ctx.filled) :
    exec (.rsmExtract cap) s = .next { s with reply := .refused .bufferTooSmall } := by
  rw [exec, execRsmExtract, h, decide_eq_true hcap]
  rfl

theorem exec_rsmExtract_of_complete (h : isComplete s.ctx = true) (hcap : s.ctx.filled ≤ cap) :
    exec (.rsmExtract cap) s =
      .next { s with reply := .ok (.datagram (bufBytesTo s.ctx.buf s.ctx.filled)) } := by
  rw [exec, execRsmExtract, extracted, h, decide_eq_false (Nat.not_lt_of_le hcap)]
  rfl

end Extract

/-- The bytes copied out are the ones written. -/
theorem bufBytesTo_getElem?_of_read {m : Memory} {n i : Nat} {b : Byte} (hi : i < n)
    (hread : Memory.read m i = some b) : (bufBytesTo m n)[i]? = some b := by
  rw [bufBytesTo, List.getElem?_map, List.getElem?_range hi, Option.map_some,
    bufByte_of_read hread]

/-- Settles O23. Complete means that every position was accepted, so no byte that is
copied is stale. -/
theorem rsmExtractOutcome : Obligations.RsmExtractOutcome := by
  intro cap s
  refine ⟨fun hnot => ?nothing, fun hbusy hfull hcap => ?small, fun hbusy hfull hcap =>
    ⟨bufBytesTo s.ctx.buf s.ctx.filled, ?next, bufBytesTo_length _ _,
      fun i b => bufBytesTo_getElem?_of_read, fun hc hctx => ⟨?nonempty, fun i hi => ?written⟩⟩⟩
  case nothing =>
    exact exec_rsmExtract_of_not_complete
      (Bool.eq_false_of_not_eq_true (mt (isComplete_eq_true_iff _).mp hnot))
  case small =>
    exact exec_rsmExtract_of_small ((isComplete_eq_true_iff _).mpr ⟨hbusy, hfull⟩) hcap
  case next =>
    exact exec_rsmExtract_of_complete ((isComplete_eq_true_iff _).mpr ⟨hbusy, hfull⟩) hcap
  case nonempty =>
    rw [bufBytesTo_length, hfull]
    exact (hctx.bound hbusy).size.1
  case written => exact written_of_complete hc hctx hbusy hfull (hfull ▸ hi)

end Sys2Proof.Proofs.Reassembler
end

section
/-! PROOFS. 43_transport_framer.md: TF_SPLIT on every frame (O27), TF_JOIN on every pair of units
(O28), and that joining the two writes of a split gives the frame back (O29). Each case of the two
pure functions is one equation, which the operations and the round trip share. -/

namespace Sys2Proof.Proofs.TransportFramer

open Sys2Proof.Machine

/-! ## The writes of a frame -/

theorem tfSplit_of_outside {w : Nat} {f : Bytes} (h : f.length < 1 ∨ 2 * w < f.length) :
    tfSplit w f = none :=
  if_pos h

theorem tfSplit_of_fits {w : Nat} {f : Bytes} (hpos : 1 ≤ f.length) (hfits : f.length ≤ w) :
    tfSplit w f = some [f] := by
  have hinside : ¬ (f.length < 1 ∨ 2 * w < f.length) := by omega
  rw [tfSplit, if_neg hinside, if_pos hfits]

theorem tfSplit_of_long {w : Nat} {f : Bytes} (hlong : w < f.length) (hmax : f.length ≤ 2 * w) :
    tfSplit w f = some [0x01#8 :: f.take w, 0x02#8 :: f.drop w] := by
  have hinside : ¬ (f.length < 1 ∨ 2 * w < f.length) := by omega
  rw [tfSplit, if_neg hinside, if_neg (Nat.not_le_of_lt hlong)]

/-! ## The frame of two units -/

theorem tfJoin_of_marked {w : Nat} {u1 u2 : Bytes} (hlen1 : u1.length = w + 1)
    (hmark1 : u1.head? = some 0x01#8) (hmin2 : 2 ≤ u2.length) (hmax2 : u2.length ≤ w + 1)
    (hmark2 : u2.head? = some 0x02#8) : tfJoin w u1 u2 = some (u1.drop 1 ++ u2.drop 1) := by
  have hfirst : ¬ (u1.length ≠ w + 1 ∨ u1.head? ≠ some 0x01#8) :=
    not_or.mpr ⟨not_not_intro hlen1, not_not_intro hmark1⟩
  have hsecond : ¬ (u2.length < 2 ∨ w + 1 < u2.length ∨ u2.head? ≠ some 0x02#8) :=
    not_or.mpr ⟨Nat.not_lt_of_le hmin2, not_or.mpr ⟨Nat.not_lt_of_le hmax2, not_not_intro hmark2⟩⟩
  rw [tfJoin, if_neg hfirst, if_neg hsecond]

theorem tfJoin_of_bad_first {w : Nat} {u1 : Bytes}
    (h : u1.length ≠ w + 1 ∨ u1.head? ≠ some 0x01#8) (u2 : Bytes) : tfJoin w u1 u2 = none :=
  if_pos h

theorem tfJoin_of_bad_second {w : Nat} {u2 : Bytes}
    (h : u2.length < 2 ∨ w + 1 < u2.length ∨ u2.head? ≠ some 0x02#8) (u1 : Bytes) :
    tfJoin w u1 u2 = none := by
  rw [tfJoin, if_pos h, ite_self]

/-- The law of R108: the units of a split pass every check of the join. -/
theorem tfJoin_chunks {w : Nat} {f : Bytes} (hlong : w < f.length) (hmax : f.length ≤ 2 * w) :
    tfJoin w (0x01#8 :: f.take w) (0x02#8 :: f.drop w) = some f := by
  have hlen1 : (0x01#8 :: f.take w).length = w + 1 := by
    rw [List.length_cons, List.length_take_of_le hlong.le]
  have hlen2 : (0x02#8 :: f.drop w).length = f.length - w + 1 := by
    rw [List.length_cons, List.length_drop]
  calc tfJoin w (0x01#8 :: f.take w) (0x02#8 :: f.drop w)
      = some (f.take w ++ f.drop w) :=
        tfJoin_of_marked hlen1 rfl (by omega) (by omega) rfl
    _ = some f := by rw [List.take_append_drop]

/-! ## The outcomes of TF_SPLIT and TF_JOIN -/

theorem exec_tfSplit_of_some {s : State} {f : Bytes} {us : List Bytes}
    (h : tfSplit s.cfg.writeLimit f = some us) :
    exec (.tfSplit f) s = .next { s with reply := .ok (.units us) } := by
  simp only [exec, execTfSplit, h, replyOk, withReply]

theorem exec_tfSplit_of_none {s : State} {f : Bytes} (h : tfSplit s.cfg.writeLimit f = none) :
    exec (.tfSplit f) s = .next { s with reply := .refused .lengthRange } := by
  simp only [exec, execTfSplit, h, refuse, withReply]

theorem exec_tfJoin_of_some {s : State} {u1 u2 f : Bytes}
    (h : tfJoin s.cfg.writeLimit u1 u2 = some f) :
    exec (.tfJoin u1 u2) s = .next { s with reply := .ok (.bytes f) } := by
  simp only [exec, execTfJoin, h, replyOk, withReply]

theorem exec_tfJoin_of_none {s : State} {u1 u2 : Bytes}
    (h : tfJoin s.cfg.writeLimit u1 u2 = none) :
    exec (.tfJoin u1 u2) s = .next { s with reply := .error .malformedFrame } := by
  simp only [exec, execTfJoin, h, raiseError, withReply]

/-! ## The obligations -/

/-- Settles O27, by the three cases of the length. -/
theorem tfSplitOutcome : Obligations.TfSplitOutcome := fun _ _ =>
  ⟨fun houtside => exec_tfSplit_of_none (tfSplit_of_outside houtside),
    fun hpos hfits => exec_tfSplit_of_some (tfSplit_of_fits hpos hfits),
    fun _ hlong hmax => exec_tfSplit_of_some (tfSplit_of_long hlong hmax)⟩

/-- Settles O28, by which of the two units fails its checks, if either does. -/
theorem tfJoinOutcome : Obligations.TfJoinOutcome := by
  refine fun u1 u2 s => ⟨fun hlen1 hmark1 hmin2 hmax2 hmark2 => ⟨?joined, ?length⟩,
    fun hbad => ?bad⟩
  case joined => exact exec_tfJoin_of_some (tfJoin_of_marked hlen1 hmark1 hmin2 hmax2 hmark2)
  case length =>
    rw [List.length_append, List.length_drop, List.length_drop]
    omega
  case bad =>
    obtain hfirst | hsecond := or_assoc.mpr hbad
    · exact exec_tfJoin_of_none (tfJoin_of_bad_first hfirst u2)
    · exact exec_tfJoin_of_none (tfJoin_of_bad_second hsecond u1)

/-- Settles O29. The premise that the write limit is positive is not needed: a frame longer than
`W` and no longer than `2 * W` exists only above it. -/
theorem tfRoundTrip : Obligations.TfRoundTrip := fun f s _ =>
  ⟨fun hlong hmax => ⟨0x01#8 :: f.take s.cfg.writeLimit, 0x02#8 :: f.drop s.cfg.writeLimit,
      exec_tfSplit_of_some (tfSplit_of_long hlong hmax),
      exec_tfJoin_of_some (tfJoin_chunks hlong hmax)⟩,
    fun hpos hfits => exec_tfSplit_of_some (tfSplit_of_fits hpos hfits)⟩

end Sys2Proof.Proofs.TransportFramer
end

section
/-! PROOFS. 44_link_reader.md: LR_RECV_FRAME when its first read times out (O31), and LR_DELIVER in
terms of RSM_INGEST and RSM_EXTRACT (O35). LR_DELIVER checks its capacity against the size the
header declares before it ingests; that this is the size the context is bound to afterwards is what
ties the two. -/

namespace Sys2Proof.Proofs.LinkReader

open Sys2Proof.Machine Sys2Proof.Proofs.Reassembler

/-! ## A receive attempt that reads no byte -/

/-- A read that finds no byte times out: it takes the silence, if there is one, off the stream, and
only the environment knows (20_memory.md R35). -/
theorem rawReadByte_of_no_byte {p : Port} {s : State}
    (h : ∀ b k rest, s.env.rx.get p ≠ .byte b k :: rest) (d : Nat) :
    ∃ e, rawReadByte p d s = (none, setEnv s e) ∧ e.tx = s.env.tx ∧
      e.rx = s.env.rx.set p (s.env.rx.get p).tail ∧ s.env.clock + d ≤ e.clock := by
  cases hs : s.env.rx.get p with
  | nil =>
    have hkeep : s.env.rx.set p [] = s.env.rx := by rw [← hs, PerPort.set_get]
    simp only [rawReadByte, hs]
    exact ⟨_, rfl, rfl, hkeep.symm, Nat.le_add_right _ _⟩
  | cons ev rest =>
    cases ev with
    | byte b k => exact absurd hs (h b k rest)
    | silence k => exact ⟨_, rawReadByte_silence hs d, rfl, rfl, Nat.le_add_right _ _⟩

/-- LR_RECV_FRAME ends with its first read when that times out (44_link_reader.md R114). -/
theorem exec_lrRecvFrame_of_no_byte {p : Port} {s : State} {e : Env}
    (h : rawReadByte p s.cfg.tByte (setAcc s p []) = (none, setEnv (setAcc s p []) e)) :
    exec (.lrRecvFrame p) s =
      .next { s with lr := s.lr.set p [], env := e, reply := .ok .nothing } := by
  have hrecv : lrRecvFrame p s = (.nothing, setEnv (setAcc s p []) e) := by rw [lrRecvFrame, h]
  rw [exec, execLrRecvFrame, hrecv]
  rfl

/-- Settles O31: clearing the held bytes leaves the streams, so the first read finds no byte. -/
theorem linkReaderNothing : Obligations.LinkReaderNothing := by
  intro p s hnone
  obtain ⟨e, hread, htx, hrx, hclock⟩ :=
    rawReadByte_of_no_byte (s := setAcc s p []) hnone s.cfg.tByte
  exact ⟨_, exec_lrRecvFrame_of_no_byte hread, rfl, htx, hrx, hclock⟩

/-! ## The frames the Reassembler accepts -/

/-- The verdicts under which RSM_INGEST accepts the frame's payload (42_reassembler.md R94). -/
def Accepting (v : Verdict) : Prop := v = .start ∨ v = .restart ∨ v = .new

theorem verdict_cases (v : Verdict) :
    v = .malformed ∨ v = .bypass ∨ v = .duplicate ∨ Accepting v := by
  cases v <;> simp [Accepting]

theorem ingestReply_of_accepting {v : Verdict} (hv : Accepting v) :
    ingestReply v = .ok (.ingested .started) ∨ ingestReply v = .ok (.ingested .restarted) ∨
      ingestReply v = .ok (.ingested .accepted) := by
  obtain rfl | rfl | rfl := hv <;> simp [ingestReply]

theorem declaredSize_first {c : Cfg} {f : Bytes} {size : BitVec 13} {tag : Tag}
    (hf : formatHeader c f = some (.first size tag)) : declaredSize f = size.toNat := by
  rw [declaredSize, (formatHeader_eq_some.mp hf).1]

theorem declaredSize_other {c : Cfg} {f : Bytes} {size : BitVec 13} {tag : Tag} {off8 : BitVec 8}
    (hf : formatHeader c f = some (.other size tag off8)) : declaredSize f = size.toNat := by
  rw [declaredSize, (formatHeader_eq_some.mp hf).1]

/-- After a frame was accepted the context is bound to the size its header declares: a first
fragment binds it, and another fragment is accepted only if it agrees. -/
theorem ingestCtx_of_accepting {c : Cfg} {x : Ctx} {f : Bytes}
    (hv : Accepting (rsmVerdict c x f)) :
    (ingestCtx c x f).idle = false ∧ (ingestCtx c x f).expectedSize = declaredSize f := by
  rcases ingestCtx_cases c x f with ⟨hbad, -⟩ | ⟨hkeep | hkeep, -⟩ | ⟨size, tag, hf, -, -, hctx⟩ |
    ⟨size, tag, off8, hf, hidle, -, hsize, -, -, hctx⟩
  · simp [hbad, Accepting] at hv
  · simp [hkeep, Accepting] at hv
  · simp [hkeep, Accepting] at hv
  · rw [hctx, acceptCtx_idle, acceptCtx_expectedSize, declaredSize_first hf]
    exact ⟨rfl, rfl⟩
  · rw [hctx, acceptCtx_idle, acceptCtx_expectedSize, declaredSize_other hf]
    exact ⟨hidle, hsize⟩

/-! ## LR_DELIVER by verdict -/

section Deliver

variable {s : State} {f : Bytes} {cap : Nat}

theorem exec_lrDeliver_of_malformed (hv : rsmVerdict s.cfg s.ctx f = .malformed) :
    exec (.lrDeliver f cap) s = .next { s with
      ctx := Ctx.idleWith s.cfg s.ctx.buf, reply := .error .malformedFrame } := by
  rw [exec, execLrDeliver, deliver, hv]
  rfl

theorem exec_lrDeliver_of_duplicate (hv : rsmVerdict s.cfg s.ctx f = .duplicate) :
    exec (.lrDeliver f cap) s = .next { s with reply := .ok (.datagram []) } := by
  rw [exec, execLrDeliver, deliver, hv]
  rfl

/-- An answer of `tooSmall` is a refusal that changes nothing. -/
theorem exec_lrDeliver_of_tooSmall (h : deliver f cap s = (.tooSmall, s)) :
    exec (.lrDeliver f cap) s = .next { s with reply := .refused .bufferTooSmall } := by
  rw [exec, execLrDeliver, h]
  rfl

theorem exec_lrDeliver_of_bypass_small (hv : rsmVerdict s.cfg s.ctx f = .bypass)
    (hcap : cap < f.length - 1) :
    exec (.lrDeliver f cap) s = .next { s with reply := .refused .bufferTooSmall } := by
  refine exec_lrDeliver_of_tooSmall ?_
  rw [deliver, hv]
  exact if_pos hcap

theorem deliver_of_accepting (hv : Accepting (rsmVerdict s.cfg s.ctx f)) :
    deliver f cap s =
      if cap < (ingestCtx s.cfg s.ctx f).expectedSize then (.tooSmall, s)
      else (.datagram (extracted (ingestCtx s.cfg s.ctx f)),
        setCtx s (ingestCtx s.cfg s.ctx f)) := by
  rw [(ingestCtx_of_accepting hv).2]
  obtain hv | hv | hv := hv <;> rw [deliver, hv] <;> rfl

theorem exec_lrDeliver_of_accepting_small (hv : Accepting (rsmVerdict s.cfg s.ctx f))
    (hcap : cap < (ingestCtx s.cfg s.ctx f).expectedSize) :
    exec (.lrDeliver f cap) s = .next { s with reply := .refused .bufferTooSmall } :=
  exec_lrDeliver_of_tooSmall ((deliver_of_accepting hv).trans (if_pos hcap))

theorem exec_lrDeliver_of_accepting (hv : Accepting (rsmVerdict s.cfg s.ctx f))
    (hcap : (ingestCtx s.cfg s.ctx f).expectedSize ≤ cap) :
    exec (.lrDeliver f cap) s = .next { s with
      ctx := ingestCtx s.cfg s.ctx f
      reply := .ok (.datagram (extracted (ingestCtx s.cfg s.ctx f))) } := by
  rw [exec, execLrDeliver, deliver_of_accepting hv, if_neg (Nat.not_lt_of_le hcap)]
  rfl

end Deliver

theorem extracted_of_not_filled {x : Ctx} (h : x.filled ≠ x.expectedSize) : extracted x = [] :=
  if_neg fun hcomplete => h ((isComplete_eq_true_iff x).mp hcomplete).2

theorem extracted_of_filled {x : Ctx} (hbusy : x.idle = false) (h : x.filled = x.expectedSize) :
    extracted x = bufBytesTo x.buf x.filled :=
  if_pos ((isComplete_eq_true_iff x).mpr ⟨hbusy, h⟩)

/-- Settles O35, by the verdict; an accepted frame by its capacity and whether it completes the
datagram. -/
theorem lrDeliverOutcome : Obligations.LrDeliverOutcome := by
  intro f cap s
  rcases verdict_cases (rsmVerdict s.cfg s.ctx f) with hv | hv | hv | hv
  · exact ⟨_, _, exec_rsmIngest_of_malformed hv, exec_lrDeliver_of_malformed hv, .inl ⟨rfl, rfl⟩⟩
  · rcases Nat.lt_or_ge cap (f.length - 1) with hcap | hcap
    · exact ⟨_, _, exec_rsmIngest_of_bypass hv, exec_lrDeliver_of_bypass_small hv hcap,
        .inr (.inl ⟨rfl, .inl ⟨hcap, rfl⟩⟩)⟩
    · exact ⟨_, _, exec_rsmIngest_of_bypass hv, exec_lrDeliver_of_bypass hv hcap,
        .inr (.inl ⟨rfl, .inr ⟨hcap, rfl⟩⟩)⟩
  · exact ⟨_, _, exec_rsmIngest_of_duplicate hv, exec_lrDeliver_of_duplicate hv,
      .inr (.inr (.inl ⟨rfl, rfl⟩))⟩
  · have hreply := ingestReply_of_accepting hv
    obtain ⟨hbusy, -⟩ := ingestCtx_of_accepting hv
    rcases Nat.lt_or_ge cap (ingestCtx s.cfg s.ctx f).expectedSize with hcap | hcap
    · exact ⟨_, _, exec_rsmIngest f s, exec_lrDeliver_of_accepting_small hv hcap,
        .inr (.inr (.inr ⟨hreply, .inl ⟨hcap, rfl⟩⟩))⟩
    refine ⟨_, _, exec_rsmIngest f s, exec_lrDeliver_of_accepting hv hcap,
      .inr (.inr (.inr ⟨hreply, .inr ?_⟩))⟩
    by_cases hfull : (ingestCtx s.cfg s.ctx f).filled = (ingestCtx s.cfg s.ctx f).expectedSize
    · rw [extracted_of_filled hbusy hfull]
      exact .inr ⟨hcap, hfull, exec_rsmExtract_of_complete
        ((isComplete_eq_true_iff _).mpr ⟨hbusy, hfull⟩) (hfull.trans_le hcap), _, rfl⟩
    · rw [extracted_of_not_filled hfull]
      exact .inl ⟨hcap, hfull, rfl⟩

end Sys2Proof.Proofs.LinkReader
end

section
/-! PROOFS. 44_link_reader.md R111, R112, R116: what `lr_need` says of raw bytes, byte by byte, and
what it makes LR_RECV_FRAME return. Raw bytes are a lead (marker 1 or nothing) before a header and
what follows it; until the header is whole more bytes are needed, and from then on `lr_need` looks
at the header and the length only, but for the one byte where marker 2 has to stand. From this
follow that a returned frame is format-valid, and what a receive attempt ends with when the bytes of
a frame, or of none, are there. -/

namespace Sys2Proof.Proofs.RawBytes

open Sys2Proof.Machine Sys2Proof.Proofs.HeaderCodec Sys2Proof.Proofs.Fragmenter
  Sys2Proof.Proofs.Reassembler Sys2Proof.Proofs.TransportFramer

/-! ## What a legal configuration says of frames and writes -/

/-- 00_scope.md R6 (c), (e): a header is within the first write, and a frame within two. -/
theorem cfgLegal_frameSizes {c : Cfg} (h : cfgLegal c = true) :
    5 ≤ c.writeLimit ∧ 6 ≤ c.maxFrame ∧ c.maxFrame ≤ 2 * c.writeLimit := by
  obtain ⟨⟨-, -, -, hother⟩, -, ⟨-, hfits, -⟩, -, ⟨hsplit, hwrite⟩, -⟩ := of_decide_eq_true h
  exact ⟨hwrite, by omega, hsplit⟩

/-- 00_scope.md R6 (j). -/
theorem cfgLegal_timeouts {c : Cfg} (h : cfgLegal c = true) :
    0 < c.tFrame ∧ 0 < c.tDgram := by
  obtain ⟨-, -, -, -, -, -, -, -, -, -, hbyte, hframe, hdgram, -⟩ := of_decide_eq_true h
  omega

/-! ## The lead of raw bytes -/

/-- What stands before the header in raw bytes: marker 1 if they are marked
(44_link_reader.md R111). -/
def lead (m : Bool) : Bytes := if m then [0x01#8] else []

theorem isMarked_lead_append {m : Bool} {body : Bytes}
    (h : m = false → body.head? ≠ some 0x01#8) : isMarked (lead m ++ body) = m := by
  cases m with
  | true => rfl
  | false => exact decide_eq_false (h rfl)

theorem lrLogical_of_not_marked {w : Nat} {acc : Bytes} (h : isMarked acc = false) :
    lrLogical w acc = acc := by
  simp [lrLogical, h]

theorem lrLogical_marked (w : Nat) (body : Bytes) :
    lrLogical w (0x01#8 :: body) = body.take w ++ body.drop (w + 1) := rfl

/-- The bytes after the lead are the first of the frame, as far as the first write goes. -/
theorem lrLogical_lead_append {m : Bool} {w : Nat} {front rest : Bytes} (hw : front.length ≤ w)
    (hm : isMarked (lead m ++ (front ++ rest)) = m) :
    ∃ more, lrLogical w (lead m ++ (front ++ rest)) = front ++ more := by
  cases m with
  | false => exact ⟨rest, lrLogical_of_not_marked hm⟩
  | true =>
    refine ⟨rest.take (w - front.length) ++ (front ++ rest).drop (w + 1), ?_⟩
    rw [lead, if_pos rfl, List.singleton_append, lrLogical_marked, List.take_append,
      List.take_of_length_le hw, List.append_assoc]

/-! ## `lr_need` before the header is whole, and from then on -/

theorem headD_ne_zero_of_unpackHeader {buf : Bytes} {h : Header} (hu : unpackHeader buf = some h) :
    buf.headD 0 ≠ 0 := by
  cases buf with
  | nil => cases hu
  | cons b0 rest =>
    rintro rfl
    cases hu

theorem hdrLen_le_five (k : Kind) : 1 ≤ hdrLen k ∧ hdrLen k ≤ 5 := by
  cases k <;> decide

/-- Until more than the lead is there, a byte more is needed. -/
theorem lrNeed_take_lead {c : Cfg} {m : Bool} {n : Nat} (hn : n ≤ (lead m).length) (body : Bytes) :
    ∃ k, lrNeed c ((lead m ++ body).take n) = .need k := by
  rw [List.take_append_of_le_length hn]
  cases m with
  | false => exact ⟨1, by simp [lead, lrNeed]⟩
  | true =>
    obtain rfl | rfl := Nat.le_one_iff_eq_zero_or_eq_one.mp hn
    · exact ⟨1, rfl⟩
    · exact ⟨2, rfl⟩

section Header

variable {c : Cfg} {m : Bool} {h : Header} {acc : Bytes}

theorem lead_length (m : Bool) : (lead m).length = if m = true then 1 else 0 := by
  cases m <;> rfl

/-- Past the lead, the first two tests of `lr_need` are over (44_link_reader.md R112). -/
theorem length_past_lead (hlen : (lead m).length < acc.length) :
    acc.length ≠ 0 ∧ ¬ (m && decide (acc.length = 1)) = true := by
  refine ⟨by omega, ?_⟩
  cases m with
  | false => simp
  | true =>
    have hsecond : acc.length ≠ 1 := Nat.ne_of_gt hlen
    simp [hsecond]

/-- Byte 0 of the frame is there, but not yet its whole header. -/
theorem lrNeed_of_short (hm : isMarked acc = m) (hlen : (lead m).length < acc.length)
    (hb0 : (lrLogical c.writeLimit acc).headD 0 ≠ 0)
    (hshort : acc.length <
      hdrLen (kindOf ((lrLogical c.writeLimit acc).headD 0)) + (lead m).length) :
    ∃ k, lrNeed c acc = .need k := by
  obtain ⟨hpos, hsecond⟩ := length_past_lead hlen
  rw [lead_length] at hshort
  simp only [lrNeed, hm, if_neg hpos, if_neg hsecond, if_neg hb0, if_pos hshort]
  exact ⟨_, rfl⟩

/-- Byte 0 of the frame is there and is no frame's. -/
theorem lrNeed_of_zero (hm : isMarked acc = m) (hlen : (lead m).length < acc.length)
    (hb0 : (lrLogical c.writeLimit acc).headD 0 = 0) : lrNeed c acc = .bad := by
  obtain ⟨hpos, hsecond⟩ := length_past_lead hlen
  simp only [lrNeed, hm, if_neg hpos, if_neg hsecond, if_pos hb0]

/-- The whole header is there. -/
theorem lrNeed_of_unpackHeader (hm : isMarked acc = m)
    (hu : unpackHeader (lrLogical c.writeLimit acc) = some h)
    (hlen : hdrLen (hdrKind h) + (lead m).length ≤ acc.length) :
    lrNeed c acc = lrNeedBody c acc h := by
  have hhdr := hdrLen_le_five (hdrKind h)
  obtain ⟨hpos, hsecond⟩ := length_past_lead (m := m) (acc := acc) (by omega)
  have hwhole := Nat.not_lt_of_le hlen
  rw [lead_length, ← kindOf_headD_of_unpackHeader hu] at hwhole
  simp only [lrNeed, hm, if_neg hpos, if_neg hsecond, if_neg (headD_ne_zero_of_unpackHeader hu),
    if_neg hwhole, hu]

/-- A header is bad if it is invalid, or marked although its frame fits one write, or not marked
although it does not (44_link_reader.md R112). -/
theorem lrNeedBody_of_misfit (hm : isMarked acc = m)
    (hbad : headerValid c h = false ∨ m ≠ decide (c.writeLimit < hdrFrameLength c h)) :
    lrNeedBody c acc h = .bad := by
  simp only [lrNeedBody, hm]
  cases hv : headerValid c h with
  | false => rfl
  | true =>
    have hmis := hbad.resolve_left (by simp [hv])
    cases m with
    | false =>
      have hlong : c.writeLimit < hdrFrameLength c h := by simpa using hmis
      simp [hlong]
    | true =>
      have hshort : hdrFrameLength c h ≤ c.writeLimit := by simpa using hmis
      simp [hshort]

/-- A valid header is in raw bytes of the shape its frame's length asks for: from then on only
marker 2 can be wrong. -/
theorem lrNeedBody_of_fit (hm : isMarked acc = m) (hv : headerValid c h = true)
    (hfit : m = decide (c.writeLimit < hdrFrameLength c h)) :
    lrNeedBody c acc h =
      if m = true ∧ c.writeLimit + 2 ≤ acc.length ∧ acc[c.writeLimit + 1]? ≠ some 0x02#8 then .bad
      else if acc.length < hdrFrameLength c h + 2 * (lead m).length then
        .need (hdrFrameLength c h + 2 * (lead m).length)
      else .done := by
  simp only [lrNeedBody, hm, hv, lead_length]
  cases m with
  | false =>
    have hle : ¬ c.writeLimit < hdrFrameLength c h := by simpa using hfit
    simp [hle]
  | true =>
    have hlt : c.writeLimit < hdrFrameLength c h := by simpa using hfit
    simp [Nat.not_le_of_lt hlt]

end Header

/-! ## Raw bytes that hold a header -/

section Raw

variable {c : Cfg} {m : Bool} {h : Header} {data : Bytes}

theorem lrNeed_of_part_of_header (hw : 5 ≤ c.writeLimit) (hp : Packable h)
    (hm : m = false → (headerBytes h).head? ≠ some 0x01#8) {k : Nat} (hk : 1 ≤ k)
    (hpart : k < hdrLen (hdrKind h)) :
    ∃ j, lrNeed c (lead m ++ (headerBytes h).take k) = .need j := by
  have hfive := hdrLen_le_five (hdrKind h)
  have hlength : ((headerBytes h).take k).length = k := by
    rw [List.length_take, headerBytes_length]
    omega
  have hmark : isMarked (lead m ++ ((headerBytes h).take k ++ [])) = m := by
    rw [List.append_nil]
    refine isMarked_lead_append fun hfalse => ?_
    rw [List.head?_take, if_neg (by omega)]
    exact hm hfalse
  obtain ⟨more, hlogical⟩ := lrLogical_lead_append (w := c.writeLimit) (by omega) hmark
  rw [List.append_nil] at hmark hlogical
  have hu := unpackHeader_headerBytes hp []
  rw [List.append_nil] at hu
  have hhead : (lrLogical c.writeLimit (lead m ++ (headerBytes h).take k)).headD 0 =
      (headerBytes h).headD 0 := by
    rw [hlogical, List.headD_eq_head?_getD, List.headD_eq_head?_getD, List.head?_append,
      List.head?_take, if_neg (by omega)]
    cases h <;> rfl
  refine lrNeed_of_short hmark ?_ ?_ ?_
  · rw [List.length_append, hlength]
    omega
  · rw [hhead]
    exact headD_ne_zero_of_unpackHeader hu
  · rw [hhead, kindOf_headD_of_unpackHeader hu, List.length_append, hlength]
    omega

theorem isMarked_lead_header (hm : m = false → (headerBytes h).head? ≠ some 0x01#8)
    (data : Bytes) : isMarked (lead m ++ (headerBytes h ++ data)) = m := by
  refine isMarked_lead_append fun hfalse => ?_
  have hhead : (headerBytes h ++ data).head? = (headerBytes h).head? := by cases h <;> rfl
  rw [hhead]
  exact hm hfalse

theorem lrNeed_of_header (hw : 5 ≤ c.writeLimit) (hp : Packable h)
    (hm : isMarked (lead m ++ (headerBytes h ++ data)) = m) :
    lrNeed c (lead m ++ (headerBytes h ++ data)) =
      lrNeedBody c (lead m ++ (headerBytes h ++ data)) h := by
  have hfive := hdrLen_le_five (hdrKind h)
  obtain ⟨more, hlogical⟩ := lrLogical_lead_append (w := c.writeLimit)
    (by rw [headerBytes_length]; omega) hm
  refine lrNeed_of_unpackHeader hm ?_ ?_
  · rw [hlogical]
    exact unpackHeader_headerBytes hp more
  · simp only [List.length_append, headerBytes_length]
    omega

/-- The Link Reader asks for more until it has all of `bs`, and then comes to `v`. -/
structure Reads (c : Cfg) (bs : Bytes) (v : Need) : Prop where
  before : ∀ n, n < bs.length → ∃ k, lrNeed c (bs.take n) = .need k
  whole : lrNeed c bs = v

/-- With a header in front, only what comes after it has to be looked at. -/
theorem reads_of_header (hw : 5 ≤ c.writeLimit) (hp : Packable h)
    (hm : m = false → (headerBytes h).head? ≠ some 0x01#8) {raw : Bytes} {v : Need}
    (hraw : raw = lead m ++ (headerBytes h ++ data))
    (hafter : ∀ acc, isMarked acc = m → acc <+: raw →
      (lead m).length + hdrLen (hdrKind h) ≤ acc.length → acc.length < raw.length →
      ∃ k, lrNeedBody c acc h = .need k)
    (hwhole : isMarked raw = m → lrNeedBody c raw h = v) : Reads c raw v := by
  subst hraw
  have hmark := isMarked_lead_header hm data
  refine ⟨fun n hn => ?_, (lrNeed_of_header hw hp hmark).trans (hwhole hmark)⟩
  rcases Nat.lt_or_ge (lead m).length n with hlead | hlead
  case inr => exact lrNeed_take_lead hlead _
  obtain ⟨k, rfl⟩ := Nat.exists_eq_add_of_le hlead.le
  rcases Nat.lt_or_ge k (headerBytes h).length with hk | hk
  · rw [List.take_length_add_append, List.take_append_of_le_length hk.le]
    exact lrNeed_of_part_of_header hw hp hm (by omega) (by rwa [← headerBytes_length])
  · obtain ⟨j, rfl⟩ := Nat.exists_eq_add_of_le hk
    have htake : (lead m ++ (headerBytes h ++ data)).take
        ((lead m).length + ((headerBytes h).length + j)) =
          lead m ++ (headerBytes h ++ data.take j) := by
      rw [List.take_length_add_append, List.take_length_add_append]
    have hmark' := isMarked_lead_header hm (data.take j)
    rw [htake, lrNeed_of_header hw hp hmark']
    refine hafter _ hmark' (htake ▸ List.take_prefix _ _) ?_ ?_
    · simp only [List.length_append, headerBytes_length]
      omega
    · rw [← htake, List.length_take]
      omega

end Raw

/-! ## What the Link Reader ends with -/

section Done

variable {c : Cfg} {m : Bool} {h : Header} {acc : Bytes}

theorem exists_lead_append (acc : Bytes) : ∃ body, acc = lead (isMarked acc) ++ body := by
  cases hm : isMarked acc with
  | false => exact ⟨acc, rfl⟩
  | true =>
    obtain ⟨rest, rfl⟩ := List.head?_eq_some_iff.mp (of_decide_eq_true hm)
    exact ⟨rest, rfl⟩

theorem lrLogical_length {w : Nat} (hm : isMarked acc = m) (hlong : m = true → w + 2 ≤ acc.length) :
    (lrLogical w acc).length + 2 * (lead m).length = acc.length := by
  obtain ⟨body, hbody⟩ := exists_lead_append acc
  rw [hm] at hbody
  cases m with
  | false => simp [lrLogical_of_not_marked hm, lead]
  | true =>
    have hbig := hlong rfl
    rw [hbody, lead, if_pos rfl, List.singleton_append] at hbig ⊢
    simp only [lrLogical_marked, List.length_append, List.length_take, List.length_drop,
      List.length_cons, List.length_nil] at hbig ⊢
    omega

/-- A header found in the frame stands behind the lead of its raw bytes. -/
theorem exists_header_append {body : Bytes} (hw : 5 ≤ c.writeLimit)
    (hm : isMarked (lead m ++ body) = m)
    (hu : unpackHeader (lrLogical c.writeLimit (lead m ++ body)) = some h)
    (hlen : hdrLen (hdrKind h) ≤ body.length) :
    Packable h ∧ ∃ rest, body = headerBytes h ++ rest := by
  obtain ⟨hp, hbytes⟩ := packable_and_headerBytes_of_unpackHeader hu
  have hfive := hdrLen_le_five (hdrKind h)
  have hfront : (body.take (hdrLen (hdrKind h))).length ≤ c.writeLimit := by
    rw [List.length_take]
    omega
  obtain ⟨more, hlogical⟩ := lrLogical_lead_append (rest := body.drop (hdrLen (hdrKind h))) hfront
    (by rwa [List.take_append_drop])
  rw [List.take_append_drop] at hlogical
  rw [hlogical, List.take_left' (List.length_take_of_le hlen)] at hbytes
  exact ⟨hp, _, by rw [hbytes, List.take_append_drop]⟩

/-- `Done` comes from the header's checks only (44_link_reader.md R112). -/
theorem unpackHeader_of_done (hm : isMarked acc = m) (hdone : lrNeed c acc = .done) :
    ∃ h, unpackHeader (lrLogical c.writeLimit acc) = some h ∧ lrNeedBody c acc h = .done := by
  simp only [lrNeed, hm, ← lead_length] at hdone
  split at hdone
  · cases hdone
  split at hdone
  · cases hdone
  split at hdone
  · cases hdone
  split at hdone
  · cases hdone
  split at hdone
  · cases hdone
  next h hu => exact ⟨h, hu, hdone⟩

theorem lrNeedBody_eq_done (hm : isMarked acc = m) (hdone : lrNeedBody c acc h = .done) :
    headerValid c h = true ∧ m = decide (c.writeLimit < hdrFrameLength c h) ∧
      hdrFrameLength c h + 2 * (lead m).length ≤ acc.length := by
  by_cases hbad : headerValid c h = false ∨ m ≠ decide (c.writeLimit < hdrFrameLength c h)
  · rw [lrNeedBody_of_misfit hm hbad] at hdone
    cases hdone
  obtain ⟨hv, hfit⟩ := not_or.mp hbad
  rw [Bool.not_eq_false] at hv
  rw [not_not] at hfit
  rw [lrNeedBody_of_fit hm hv hfit] at hdone
  split at hdone
  · cases hdone
  split at hdone
  · cases hdone
  next hall => exact ⟨hv, hfit, Nat.le_of_not_lt hall⟩

theorem hdrLen_le_hdrFrameLength {c : Cfg} (hv : headerValid c h = true) :
    hdrLen (hdrKind h) ≤ hdrFrameLength c h := by
  cases h with
  | nonFrag len => exact ((headerValid_nonFrag_iff c len).mp hv).1
  | first size tag => exact Nat.le_add_right 4 _
  | other size tag off8 => exact Nat.le_add_right 5 _

theorem isMarked_append (hne : acc ≠ []) (rest : Bytes) :
    isMarked (acc ++ rest) = isMarked acc := by
  rw [isMarked, List.head?_append_of_ne_nil _ hne, isMarked]

/-- Where one byte more makes the raw bytes whole, they are not longer than their header says: with
all of them already there, no byte more was needed. -/
theorem length_le_of_need (hw : 5 ≤ c.writeLimit) {k : Nat} {b : Byte}
    (hneed : lrNeed c acc = .need k)
    (hu : unpackHeader (lrLogical c.writeLimit (acc ++ [b])) = some h)
    (hm : isMarked (acc ++ [b]) = m) (hv : headerValid c h = true)
    (hfit : m = decide (c.writeLimit < hdrFrameLength c h)) :
    (acc ++ [b]).length ≤ hdrFrameLength c h + 2 * (lead m).length := by
  by_contra hover
  rw [List.length_append, List.length_singleton] at hover
  have hhdr := hdrLen_le_hdrFrameLength hv
  have hpos := (hdrLen_le_five (hdrKind h)).1
  have hmark : isMarked acc = m := by
    rw [← hm, isMarked_append (List.ne_nil_of_length_pos (by omega))]
  obtain ⟨body, hbody⟩ := exists_lead_append acc
  rw [hmark] at hbody
  subst hbody
  rw [List.length_append] at hover
  rw [List.append_assoc] at hm hu
  obtain ⟨hp, rest, hsplit⟩ := exists_header_append hw hm hu
    (by rw [List.length_append, List.length_singleton]; omega)
  obtain ⟨data, rfl⟩ : headerBytes h <+: body :=
    List.prefix_of_prefix_length_le (hsplit ▸ List.prefix_append _ _) (List.prefix_append body [b])
      (by rw [headerBytes_length]; omega)
  rw [lrNeed_of_header hw hp hmark, lrNeedBody_of_fit hmark hv hfit] at hneed
  split at hneed
  · cases hneed
  · rw [if_neg (by rw [List.length_append]; omega)] at hneed
    cases hneed

/-- What the Link Reader returns is format-valid: it evaluates `lr_need` after every byte, so it
stops at the length the header says (44_link_reader.md R112, R116). -/
theorem formatValid_of_done (hw : 5 ≤ c.writeLimit) {k : Nat} {b : Byte}
    (hneed : lrNeed c acc = .need k) (hdone : lrNeed c (acc ++ [b]) = .done) :
    formatValid c (lrLogical c.writeLimit (acc ++ [b])) = true := by
  generalize hm : isMarked (acc ++ [b]) = m
  obtain ⟨h, hu, hbody⟩ := unpackHeader_of_done hm hdone
  obtain ⟨hv, hfit, hge⟩ := lrNeedBody_eq_done hm hbody
  have hle := length_le_of_need hw hneed hu hm hv hfit
  have hlength : (lrLogical c.writeLimit (acc ++ [b])).length = hdrFrameLength c h := by
    have hlogical := lrLogical_length (w := c.writeLimit) hm fun htrue => by
      have hlong : c.writeLimit < hdrFrameLength c h := of_decide_eq_true (hfit ▸ htrue)
      rw [htrue, lead_length, if_pos rfl] at hge
      omega
    omega
  rw [formatValid, formatHeader_eq_some.mpr ⟨hu, hv, hlength⟩]
  rfl

end Done

/-! ## The raw bytes of a frame -/

section Frame

variable {c : Cfg} {f : Bytes} {h : Header}

/-- A format-valid frame is its header before the rest. -/
theorem exists_header_of_formatValid (hf : formatValid c f = true) :
    ∃ h payload, formatHeader c f = some h ∧ Packable h ∧ f = headerBytes h ++ payload := by
  obtain ⟨h, hh⟩ := Option.isSome_iff_exists.mp hf
  obtain ⟨hp, htake⟩ := packable_and_headerBytes_of_unpackHeader (formatHeader_eq_some.mp hh).1
  exact ⟨h, f.drop (hdrLen (hdrKind h)), hh, hp, by rw [htake, List.take_append_drop]⟩

theorem writesOf_of_fits (hpos : 1 ≤ f.length) (hfits : f.length ≤ c.writeLimit) :
    writesOf c f = [f] := by
  rw [writesOf, tfSplit_of_fits hpos hfits, Option.getD_some]

/-- The raw bytes of a frame in two writes: marker 2 stands after the first `w` bytes of the frame
(44_link_reader.md R111). -/
def chunked (w : Nat) (f : Bytes) : Bytes := 0x01#8 :: (f.take w ++ 0x02#8 :: f.drop w)

theorem writesOf_flatten_of_long (hlong : c.writeLimit < f.length)
    (hmax : f.length ≤ 2 * c.writeLimit) :
    (writesOf c f).flatten = chunked c.writeLimit f := by
  rw [writesOf, tfSplit_of_long hlong hmax, Option.getD_some]
  simp [chunked]

theorem formatHeader_length_le_maxFrame (hc : cfgLegal c = true) (hf : formatHeader c f = some h) :
    f.length ≤ c.maxFrame := by
  obtain ⟨-, hv, hlen⟩ := formatHeader_eq_some.mp hf
  exact hlen.trans_le (hdrFrameLength_le_maxFrame hc hv)

/-- The raw bytes of a frame in one write are the frame (44_link_reader.md R111). -/
theorem reads_short_frame (hc : cfgLegal c = true) (hf : formatValid c f = true)
    (hfits : f.length ≤ c.writeLimit) (hhead : f.head? ≠ some 0x01#8) :
    Reads c f .done ∧ lrLogical c.writeLimit f = f := by
  obtain ⟨h, payload, hh, hp, hsplit⟩ := exists_header_of_formatValid hf
  obtain ⟨-, hv, hlen⟩ := formatHeader_eq_some.mp hh
  have hfit : false = decide (c.writeLimit < hdrFrameLength c h) := by
    rw [← hlen, decide_eq_false (Nat.not_lt_of_le hfits)]
  refine ⟨reads_of_header (m := false) (cfgLegal_frameSizes hc).1 hp (fun _ => ?_) hsplit
    (fun acc hm _ _ hshort => ?_) (fun hm => ?_),
    lrLogical_of_not_marked (decide_eq_false hhead)⟩
  · rw [hsplit] at hhead
    cases h <;> exact hhead
  · rw [lrNeedBody_of_fit hm hv hfit, if_neg (by simp), ← hlen, if_pos (by omega)]
    exact ⟨_, rfl⟩
  · rw [lrNeedBody_of_fit hm hv hfit, if_neg (by simp), ← hlen, if_neg (by simp [lead])]

/-- Marker 2 is where `lr_need` looks for it, and the frame is what is left without the markers
(44_link_reader.md R111, R112). -/
theorem reads_long_frame (hc : cfgLegal c = true) (hf : formatValid c f = true)
    (hlong : c.writeLimit < f.length) :
    Reads c (chunked c.writeLimit f) .done ∧
      lrLogical c.writeLimit (chunked c.writeLimit f) = f := by
  obtain ⟨h, payload, hh, hp, hsplit⟩ := exists_header_of_formatValid hf
  obtain ⟨-, hv, hlen⟩ := formatHeader_eq_some.mp hh
  obtain ⟨hw, -, -⟩ := cfgLegal_frameSizes hc
  have hfive := hdrLen_le_five (hdrKind h)
  have htake : (f.take c.writeLimit).length = c.writeLimit := List.length_take_of_le hlong.le
  have hfit : true = decide (c.writeLimit < hdrFrameLength c h) := by
    rw [← hlen, decide_eq_true hlong]
  have hfront : f.take c.writeLimit =
      headerBytes h ++ payload.take (c.writeLimit - (headerBytes h).length) := by
    rw [hsplit, List.take_append, List.take_of_length_le (by rw [headerBytes_length]; omega)]
  have hraw : 0x01#8 :: (f.take c.writeLimit ++ 0x02#8 :: f.drop c.writeLimit) =
      chunked c.writeLimit f := rfl
  generalize chunked c.writeLimit f = raw at hraw ⊢
  have hmarker : raw[c.writeLimit + 1]? = some 0x02#8 := by
    rw [← hraw, List.getElem?_cons_succ, List.getElem?_append_right htake.le, htake, Nat.sub_self]
    rfl
  have hlength : raw.length = f.length + 2 := by
    rw [← hraw, List.length_cons, List.length_append, List.length_cons, htake, List.length_drop]
    omega
  refine ⟨reads_of_header (m := true) hw hp nofun
    (data := payload.take (c.writeLimit - (headerBytes h).length) ++ 0x02#8 :: f.drop c.writeLimit)
    (by rw [← hraw, hfront, List.append_assoc]; rfl) (fun acc hm hpre _ hshort => ?_)
    (fun hm => ?_), ?_⟩
  · have hsecond : ¬ (true = true ∧ c.writeLimit + 2 ≤ acc.length ∧
        acc[c.writeLimit + 1]? ≠ some 0x02#8) := by
      rintro ⟨-, hat, hne⟩
      rw [List.prefix_iff_eq_take.mp hpre, List.getElem?_take_of_lt (by omega)] at hne
      exact hne hmarker
    rw [lrNeedBody_of_fit hm hv hfit, if_neg hsecond, ← hlen, if_pos (by simp [lead]; omega)]
    exact ⟨_, rfl⟩
  · rw [lrNeedBody_of_fit hm hv hfit, if_neg (by simp [hmarker]), ← hlen,
      if_neg (by simp [lead, hlength])]
  · rw [← hraw, lrLogical_marked, List.take_left' htake, ← List.drop_drop, List.drop_left' htake]
    exact List.take_append_drop _ _

/-- The writes of a frame are read as that frame (44_link_reader.md R116). -/
theorem reads_writesOf (hc : cfgLegal c = true) (hf : formatValid c f = true)
    (hhead : f.head? ≠ some 0x01#8) :
    Reads c (writesOf c f).flatten .done ∧
      lrLogical c.writeLimit (writesOf c f).flatten = f ∧
      (writesOf c f).flatten.length ≤ c.maxFrame + 2 := by
  obtain ⟨h, hh⟩ := Option.isSome_iff_exists.mp hf
  obtain ⟨-, hv, hlen⟩ := formatHeader_eq_some.mp hh
  have hmax := formatHeader_length_le_maxFrame hc hh
  obtain ⟨-, -, hsplit⟩ := cfgLegal_frameSizes hc
  have hpos : 1 ≤ f.length :=
    hlen ▸ (hdrLen_le_five (hdrKind h)).1.trans (hdrLen_le_hdrFrameLength hv)
  rcases Nat.lt_or_ge c.writeLimit f.length with hlong | hfits
  · obtain ⟨hreads, hlogical⟩ := reads_long_frame hc hf hlong
    rw [writesOf_flatten_of_long hlong (by omega)]
    refine ⟨hreads, hlogical, ?_⟩
    simp only [chunked, List.length_cons, List.length_append, List.length_take, List.length_drop]
    omega
  · obtain ⟨hreads, hlogical⟩ := reads_short_frame hc hf hfits hhead
    rw [writesOf_of_fits hpos hfits, List.flatten_singleton]
    exact ⟨hreads, hlogical, by omega⟩

end Frame

/-! ## Raw bytes that are no frame -/

section Bad

variable {c : Cfg} {m : Bool} {h : Header}

theorem reads_zero (c : Cfg) : Reads c [0x00] .bad :=
  ⟨fun n hn => lrNeed_take_lead (m := false) (by simpa [lead] using hn) [0x00], rfl⟩

theorem reads_marked_zero (hw : 5 ≤ c.writeLimit) : Reads c [0x01#8, 0x00#8] .bad := by
  refine ⟨fun n hn => lrNeed_take_lead (m := true) (Nat.le_of_lt_succ hn) [0x00#8],
    lrNeed_of_zero (m := true) rfl (by decide) ?_⟩
  rw [lrLogical_marked, List.take_of_length_le (by simp; omega)]
  rfl

/-- A header that is invalid, or of a length that its lead does not fit. -/
theorem reads_misfit (hw : 5 ≤ c.writeLimit) (hp : Packable h)
    (hm : m = false → (headerBytes h).head? ≠ some 0x01#8)
    (hbad : headerValid c h = false ∨ m ≠ decide (c.writeLimit < hdrFrameLength c h)) :
    Reads c (lead m ++ headerBytes h) .bad := by
  refine reads_of_header (data := []) hw hp hm (by rw [List.append_nil])
    (fun acc _ _ hge hlt => ?_) (fun hmark => lrNeedBody_of_misfit hmark hbad)
  rw [List.length_append, headerBytes_length] at hlt
  omega

/-- A byte other than marker 2 at its place. -/
theorem reads_wrong_marker (hw : 5 ≤ c.writeLimit) (hp : Packable h)
    (hv : headerValid c h = true) (hlong : c.writeLimit < hdrFrameLength c h) {data : Bytes}
    (hlen : (headerBytes h).length + data.length = c.writeLimit) {b : Byte} (hb : b ≠ 0x02#8) :
    Reads c (0x01#8 :: (headerBytes h ++ data) ++ [b]) .bad := by
  have hfit : true = decide (c.writeLimit < hdrFrameLength c h) := (decide_eq_true hlong).symm
  generalize hraw : 0x01#8 :: (headerBytes h ++ data) ++ [b] = raw
  have hlength : raw.length = c.writeLimit + 2 := by
    rw [← hraw, ← hlen, List.length_append, List.length_cons, List.length_append]
    rfl
  have hlast : raw[c.writeLimit + 1]? = some b := by
    rw [← hraw, ← hlen, List.getElem?_append_right (by simp)]
    simp
  refine reads_of_header (m := true) (data := data ++ [b]) hw hp nofun
    (by rw [← hraw]; simp [lead]) (fun acc hm _ _ hshort => ?_) (fun hm => ?_)
  · rw [lrNeedBody_of_fit hm hv hfit, if_neg (by omega),
      if_pos (by rw [lead_length, if_pos rfl]; omega)]
    exact ⟨_, rfl⟩
  · rw [lrNeedBody_of_fit hm hv hfit, if_pos ⟨rfl, hlength.ge, by simpa [hlast] using hb⟩]

/-- The causes of MalformedFrame show at the last byte of `badRaw`, and no earlier
(44_link_reader.md R112, R117). -/
theorem reads_badRaw (hc : cfgLegal c = true) {bs : Bytes} (hbad : badRaw c bs) :
    Reads c bs .bad ∧ bs.length ≤ c.maxFrame + 2 := by
  obtain ⟨hw, hmax, -⟩ := cfgLegal_frameSizes hc
  rcases hbad with rfl | rfl | ⟨hd, h, hu, hlen, hcase⟩
  · exact ⟨reads_zero c, by simp⟩
  · exact ⟨reads_marked_zero hw, by simp⟩
  obtain ⟨hp, hbytes⟩ := packable_and_headerBytes_of_unpackHeader hu
  rw [← hlen, List.take_length] at hbytes
  subst hbytes
  have hfive := hdrLen_le_five (hdrKind h)
  have hheader := headerBytes_length h
  rcases hcase with ⟨rfl, hhead, hcause⟩ | ⟨rfl, hcause⟩ | ⟨hv, hlong, data, b, hdata, hb, rfl⟩
  · exact ⟨reads_misfit (m := false) hw hp (fun _ => hhead) (hcause.imp_right (by simp)), by omega⟩
  · refine ⟨reads_misfit (m := true) hw hp nofun
      (hcause.imp_right (by simp)), ?_⟩
    rw [List.length_cons]
    omega
  · refine ⟨reads_wrong_marker hw hp hv hlong hdata hb, ?_⟩
    have hframe := hdrFrameLength_le_maxFrame hc hv
    simp only [List.length_append, List.length_cons, List.length_nil]
    omega

end Bad

/-! ## The frames of the Link Reader -/

/-- What a receive attempt returns as a frame is format-valid. -/
def FrameValid (c : Cfg) (r : Recv) : Prop := ∀ f, r = .frame f → formatValid c f = true

/-- The bytes held are one more than some of which more were needed. -/
def GrownByOne (c : Cfg) (acc : Bytes) : Prop :=
  ∃ shorter b k, acc = shorter ++ [b] ∧ lrNeed c shorter = .need k

theorem lrLoop_frameValid {p : Port} {deadline fuel : Nat} {s : State} (hw : 5 ≤ s.cfg.writeLimit)
    (hgrown : GrownByOne s.cfg (getAcc s p)) :
    FrameValid s.cfg (lrLoop p deadline fuel s).1 := by
  induction fuel generalizing s with
  | zero => exact nofun
  | succ n ih =>
    rw [lrLoop]
    rcases lrSettle_cases p s with ⟨hs, -⟩ | ⟨hs, hdone⟩ | ⟨hs, k, hneed⟩ <;> rw [hs]
    · exact nofun
    · obtain ⟨shorter, b, k, hacc, hshort⟩ := hgrown
      rintro f ⟨⟩
      rw [hacc] at hdone ⊢
      exact formatValid_of_done hw hshort hdone
    · dsimp only
      split
      · exact nofun
      · have hread := (now_spec s).1.trans'
          (rawReadByte_spec p (min s.cfg.tByte (deadline - (now s).1)) (now s).2).1
        generalize rawReadByte p (min s.cfg.tByte (deadline - (now s).1)) (now s).2 = r at hread ⊢
        have hacc : getAcc r.2 p = getAcc s p := by rw [getAcc, hread.lr, getAcc]
        rw [← hread.cfg] at hw hgrown hneed ⊢
        split
        · next b _ =>
          refine ih hw ⟨getAcc s p, b, k, ?_, hneed⟩
          rw [getAcc_setAcc_same, hacc]
        · exact ih hw (hacc ▸ hgrown)

/-- 44_link_reader.md R116. -/
theorem lrRecvFrame_frameValid {p : Port} {s : State} (hw : 5 ≤ s.cfg.writeLimit) :
    FrameValid s.cfg (lrRecvFrame p s).1 := by
  have hread := (rawReadByte_spec p s.cfg.tByte (setAcc s p [])).1
  rw [lrRecvFrame]
  generalize rawReadByte p s.cfg.tByte (setAcc s p []) = r at hread ⊢
  dsimp only
  split
  · exact nofun
  · next b _ =>
    have hnow := (now_spec (setAcc r.2 p [b])).1
    have hcfg : (now (setAcc r.2 p [b])).2.cfg = s.cfg := hnow.cfg.trans hread.cfg
    rw [← hcfg] at hw ⊢
    refine lrLoop_frameValid hw ⟨[], b, 1, ?_, rfl⟩
    rw [getAcc, hnow.lr]
    exact getAcc_setAcc_same _ _ _

/-! ## A receive attempt on bytes that are there -/

/-- `s` in the middle of a receive attempt on `p` that has taken `acc` off the stream and some
readings of the clock, none of which moved it. -/
def midway (p : Port) (s : State) (acc : Bytes) (rx : List RxEvent) (lapses : List Nat) : State :=
  setEnv (setAcc s p acc) { s.env with rx := s.env.rx.set p rx, lapses := lapses }

section Receive

variable {p : Port} {s : State} {bs : Bytes} {v : Need} {rest : List RxEvent} {more : List Nat}

theorem getAcc_midway (p : Port) (s : State) (acc : Bytes) (rx : List RxEvent) (lapses : List Nat) :
    getAcc (midway p s acc rx lapses) p = acc := getAcc_setAcc_same s p acc

/-- A reading of the clock that does not move it. -/
theorem midway_now (acc : Bytes) (rx : List RxEvent) :
    now (midway p s acc rx (0 :: more)) = (s.env.clock, midway p s acc rx more) :=
  now_scripted (s := midway p s acc rx (0 :: more)) rfl

/-- A byte that is there. -/
theorem midway_rawReadByte (acc : Bytes) (b : Byte) (d : Nat) :
    rawReadByte p d (midway p s acc (.byte b 0 :: rest) more) =
      (some b, midway p s acc rest more) := by
  refine (rawReadByte_byte (PerPort.get_set_same _ _ _) d).trans ?_
  simp only [midway, setEnv_env, PerPort.set_set]
  rfl

theorem midway_self (p : Port) (s : State) (acc : Bytes) :
    midway p s acc (s.env.rx.get p) s.env.lapses = setAcc s p acc := by
  rw [midway, PerPort.set_get]
  rfl

theorem setAcc_midway (acc acc' : Bytes) :
    setAcc (midway p s acc rest more) p acc' = midway p s acc' rest more := by
  simp only [midway, setAcc, setEnv, PerPort.set_set]

theorem lrSettle_of_need {k : Nat} (h : lrNeed s.cfg (getAcc s p) = .need k) :
    lrSettle p s = none := by
  rw [lrSettle, h]

/-- The loop of LR_RECV_FRAME takes byte after byte until `lr_need` settles the matter
(44_link_reader.md R116). -/
theorem lrLoop_of_reads {r : Recv × State} {deadline : Nat} (hreads : Reads s.cfg bs v)
    (hdeadline : s.env.clock < deadline) (hsettle : lrSettle p (midway p s bs rest more) = some r)
    {acc left : Bytes} (hbs : bs = acc ++ left) {fuel : Nat} (hfuel : left.length < fuel) :
    lrLoop p deadline fuel
      (midway p s acc (promptly left ++ rest) (List.replicate left.length 0 ++ more)) = r := by
  obtain ⟨fuel, rfl⟩ := Nat.exists_eq_add_of_le' (Nat.one_le_of_lt hfuel)
  induction left generalizing acc fuel with
  | nil =>
    rw [List.append_nil] at hbs
    subst hbs
    rw [lrLoop, List.length_nil, List.replicate_zero, promptly, List.map_nil, List.nil_append,
      List.nil_append, hsettle]
  | cons b left ih =>
    obtain ⟨k, hneed⟩ := hreads.before acc.length (by simp [hbs])
    rw [hbs, List.take_left] at hneed
    have hstart : midway p s acc (promptly (b :: left) ++ rest)
        (List.replicate (b :: left).length 0 ++ more) =
          midway p s acc (.byte b 0 :: (promptly left ++ rest))
            (0 :: (List.replicate left.length 0 ++ more)) := rfl
    have hopen : ¬ elapsed s.env.clock deadline = true := by simp [elapsed, hdeadline]
    rw [hstart, lrLoop, lrSettle_of_need (by rw [getAcc_midway]; exact hneed)]
    simp only [midway_now, if_neg hopen, midway_rawReadByte, getAcc_midway, setAcc_midway]
    rw [List.length_cons] at hfuel
    obtain ⟨fuel, rfl⟩ := Nat.exists_eq_add_of_le' (Nat.pos_of_ne_zero (n := fuel) (by omega))
    exact ih (by rw [hbs, List.append_assoc]; rfl) fuel (by omega)

/-- A receive attempt on bytes that are there ends with them, as `lr_need` settles it, in no time:
it takes them off the stream, and one reading of the clock for each (44_link_reader.md R116). -/
theorem lrRecvFrame_of_reads {r : Recv × State} (hc : cfgLegal s.cfg = true)
    (hreads : Reads s.cfg bs v) (hv : ∀ k, v ≠ .need k) (hlen : bs.length ≤ s.cfg.maxFrame + 2)
    (hrx : s.env.rx.get p = promptly bs ++ rest)
    (hlapses : s.env.lapses = List.replicate bs.length 0 ++ more)
    (hsettle : lrSettle p (midway p s bs rest more) = some r) : lrRecvFrame p s = r := by
  obtain ⟨hframe, -⟩ := cfgLegal_timeouts hc
  cases bs with
  | nil => exact absurd hreads.whole.symm (hv 1)
  | cons b left =>
    have hstart : setAcc s p [] = midway p s [] (.byte b 0 :: (promptly left ++ rest))
        (0 :: (List.replicate left.length 0 ++ more)) := by
      rw [← midway_self, hrx, hlapses]
      rfl
    rw [lrRecvFrame, hstart, midway_rawReadByte]
    simp only [setAcc_midway, midway_now]
    refine lrLoop_of_reads hreads (Nat.lt_add_of_pos_right hframe) hsettle rfl ?_
    rw [List.length_cons] at hlen
    rw [lrFuel]
    omega

theorem lrRecvFrame_of_writesOf {f : Bytes} (hc : cfgLegal s.cfg = true)
    (hf : formatValid s.cfg f = true) (hhead : f.head? ≠ some 0x01#8)
    (hrx : s.env.rx.get p = promptly (writesOf s.cfg f).flatten ++ rest)
    (hlapses : s.env.lapses = List.replicate (writesOf s.cfg f).flatten.length 0 ++ more) :
    lrRecvFrame p s = (.frame f, midway p s [] rest more) := by
  obtain ⟨hreads, hlogical, hlen⟩ := reads_writesOf hc hf hhead
  refine lrRecvFrame_of_reads hc hreads (by simp) hlen hrx hlapses ?_
  have hwhole : lrNeed (midway p s (writesOf s.cfg f).flatten rest more).cfg
      (writesOf s.cfg f).flatten = .done := hreads.whole
  rw [lrSettle, getAcc_midway, hwhole, setAcc_midway]
  exact congrArg (fun g => some (Recv.frame g, midway p s [] rest more)) hlogical

theorem lrRecvFrame_of_badRaw (hc : cfgLegal s.cfg = true) (hbad : badRaw s.cfg bs)
    (hrx : s.env.rx.get p = promptly bs ++ rest)
    (hlapses : s.env.lapses = List.replicate bs.length 0 ++ more) :
    lrRecvFrame p s = (.malformed, resetCtx (midway p s [] rest more)) := by
  obtain ⟨hreads, hlen⟩ := reads_badRaw hc hbad
  refine lrRecvFrame_of_reads hc hreads (by simp) hlen hrx hlapses ?_
  have hwhole : lrNeed (midway p s bs rest more).cfg bs = .bad := hreads.whole
  rw [lrSettle, getAcc_midway, hwhole, setAcc_midway]

end Receive

end Sys2Proof.Proofs.RawBytes
end

section
/-! PROOFS. 45_arq_controller.md: ARQ_SEND_START (O41), ARQ_SEND_POLL (O42) and the
acknowledgements of ARQ_RECV_DATAGRAM (O48). The sender rests on one equation for `send, then start
the deadline`, and on the Link Reader's frames being format-valid, so that a matching payload makes
the whole acknowledgement frame. The receiver rests on one equation for a receive attempt on bytes
that are there, and on an induction over the arrivals that follows `reception`. -/

namespace Sys2Proof.Proofs.ArqController

open Sys2Proof.Machine Sys2Proof.Proofs.HeaderCodec Sys2Proof.Proofs.Fragmenter
  Sys2Proof.Proofs.Reassembler Sys2Proof.Proofs.RawBytes

/-! ## Acknowledgement frames -/

/-- 00_scope.md R6 (i): every token fits a non-fragmented frame and one write. -/
theorem cfgLegal_tokens {c : Cfg} (h : cfgLegal c = true) (r : Role) :
    (ackToken c r).length + 1 ≤ 191 ∧ (ackToken c r).length + 1 ≤ c.writeLimit := by
  obtain ⟨-, ⟨-, hcap⟩, -, hmax, ⟨-, hw⟩, -, -, ⟨hclient, hrelay, hserver⟩, -⟩ :=
    of_decide_eq_true h
  have hlegal : tokenLegal c (ackToken c r) := by
    cases r with
    | client => exact hclient
    | relay => exact hrelay
    | server => exact hserver
  obtain ⟨-, -, hfits, hwrite⟩ := hlegal
  omega

/-- Among format-valid frames, `is_ack_of` says that the frame is ACK(r) (30_encoding.md R64): the
length byte leaves no byte behind the token. -/
theorem isAckOf_iff_of_formatValid {c : Cfg} (hc : cfgLegal c = true) {f : Bytes}
    (hf : formatValid c f = true) (r : Role) : isAckOf c f r = true ↔ f = ackFrame c r := by
  obtain ⟨htoken, -⟩ := cfgLegal_tokens hc r
  constructor
  · intro hack
    obtain ⟨h, hh⟩ := Option.isSome_iff_exists.mp hf
    obtain ⟨hu, -, hlen⟩ := formatHeader_eq_some.mp hh
    rcases unpackHeader_eq_some_cases hu with ⟨b0, rest, rfl, rfl, hpos, -⟩ |
      ⟨b0, b1, b2, b3, more, rfl, -, hge, hlt⟩ | ⟨b0, b1, b2, b3, b4, more, rfl, -, hge⟩
    · have hrest : rest.length = b0.toNat - 1 := by
        rw [List.length_cons, hdrFrameLength] at hlen
        omega
      simp only [isAckOf, ← hrest, List.take_length, Bool.and_eq_true, decide_eq_true_eq] at hack
      obtain ⟨-, rfl⟩ := hack
      have hb0 : b0 = BitVec.ofNat 8 (1 + (ackToken c r).length) :=
        BitVec.eq_of_toNat_eq (by rw [BitVec.toNat_ofNat]; omega)
      rw [ackFrame, ← hb0]
    · simp [isAckOf, kindOf_of_mid hge hlt] at hack
    · simp [isAckOf, kindOf_of_ge hge] at hack
  · rintro rfl
    have hb0 : (BitVec.ofNat 8 (1 + (ackToken c r).length)).toNat = 1 + (ackToken c r).length := by
      rw [BitVec.toNat_ofNat]
      omega
    simp [isAckOf, ackFrame, kindOf_of_lt (b := BitVec.ofNat 8 (1 + (ackToken c r).length))
      (by omega), hb0]

theorem writesOf_ackFrame {c : Cfg} (hc : cfgLegal c = true) (r : Role) :
    writesOf c (ackFrame c r) = [ackFrame c r] := by
  obtain ⟨-, hw⟩ := cfgLegal_tokens hc r
  exact writesOf_of_fits (Nat.le_add_left 1 _) hw

/-! ## The sender's writes and waits -/

/-- A state that differs in the environment only, as the primitives of the environment leave it. -/
theorem eq_of_sameBlock {s t : State} (h : SameBlock s t) : t = { s with env := t.env } := by
  obtain ⟨hcfg, hctx, hlr, harq, hrelay, hrequests, hreply⟩ := h
  cases s
  cases t
  simp only at hcfg hctx hlr harq hrelay hrequests hreply
  subst hcfg hctx hlr harq hrelay hrequests hreply
  rfl

/-- A frame is written and its acknowledgement awaited (45_arq_controller.md R130, R131). -/
theorem senderWrote_awaitAck (p : Port) (f : Bytes) (a : Arq) (v : OkValue) (x : State) :
    senderWrote p f a v x (replyOk (awaitAck (sendFrame p f (setArq x a))) v) := by
  rw [awaitAck_spec, sendFrame_eq]
  generalize hsent : setEnv (setArq x a) _ = y
  obtain ⟨hblock, hread, hle, hrx, htx, -⟩ := now_spec y
  rw [eq_of_sameBlock hblock, ← hread]
  subst hsent
  exact ⟨hle.trans hread.ge, hrx, htx, rfl⟩

/-- What the sender writes and waits for does not depend on the draws. -/
theorem senderWrote_of_drawn {p : Port} {f : Bytes} {a : Arq} {v : OkValue} {s x u : State}
    (hblock : SameBlock s x) (hclock : x.env.clock = s.env.clock) (hrx : x.env.rx = s.env.rx)
    (htx : x.env.tx = s.env.tx) (h : senderWrote p f a v x u) : senderWrote p f a v s u := by
  rw [eq_of_sameBlock hblock] at h
  obtain ⟨hle, hrx', htx', hu⟩ := h
  refine ⟨hclock ▸ hle, hrx'.trans hrx, ?_, hu⟩
  rw [htx', wrote, wrote, setEnv_env, setEnv_env, htx]

/-- A sender that goes on overwrites the reply it goes on from. -/
theorem senderWrote_withReply {p : Port} {f : Bytes} {a : Arq} {v : OkValue} {x u : State}
    (h : senderWrote p f a v x u) (r : Reply) : senderWrote p f a v (withReply x r) u := h

theorem senderWaited_withReply {x u : State} (h : senderWaited x u) (r : Reply) :
    senderWaited (withReply x r) u := h

/-! ## ARQ_SEND_START -/

section Start

variable {p : Port} {d : Bytes} {s : State}

theorem exec_arqSendStart_of_busy (h : s.arq.state = .awaitingAck ∨ s.arq.state = .retrying) :
    exec (.arqSendStart p d) s = .next { s with reply := .refused .busy } := by
  have hbusy : isSending s.arq.state = true := by rcases h with h | h <;> rw [h] <;> rfl
  rw [exec, execArqSendStart, if_pos hbusy]
  rfl

theorem exists_ackToken_iff (c : Cfg) (d : Bytes) :
    (∃ r : Role, d = ackToken c r) ↔
      d = c.tokenClient ∨ d = c.tokenRelay ∨ d = c.tokenServer := by
  constructor
  · rintro ⟨r, rfl⟩
    cases r with
    | client => exact .inl rfl
    | relay => exact .inr (.inl rfl)
    | server => exact .inr (.inr rfl)
  · rintro (h | h | h)
    exacts [⟨.client, h⟩, ⟨.relay, h⟩, ⟨.server, h⟩]

theorem isTokenPayload_iff (c : Cfg) (d : Bytes) :
    isTokenPayload c d = true ↔ tokenDatagram c d := by
  rw [tokenDatagram, exists_ackToken_iff]
  simp [isTokenPayload, or_assoc]

/-- Past the Busy check, the length and then the token are checked. -/
theorem exec_arqSendStart_of_ready (h1 : s.arq.state ≠ .awaitingAck)
    (h2 : s.arq.state ≠ .retrying) :
    exec (.arqSendStart p d) s = .next (
      if badLength s.cfg d.length then refuse s .lengthRange
      else if isTokenPayload s.cfg d then refuse s .payloadIsAckToken
      else startSend p d s) := by
  have hready : ¬ isSending s.arq.state = true := by simp [isSending, h1, h2]
  rw [exec, execArqSendStart, if_neg hready]

theorem fragmentFrames_length_eq (c : Cfg) (d : Bytes) (t : Tag) :
    (fragmentFrames c d t).length = frameCount c d.length := by
  rcases Nat.lt_or_ge c.nonfragCap d.length with hlong | hshort
  · rw [fragmentFrames_length hlong, frameCount_of_lt hlong]
  · rw [fragmentFrames_of_le hshort, frameCount_of_le hshort, List.length_singleton]

theorem frameCount_pos (c : Cfg) (l : Nat) : 0 < frameCount c l := by
  rw [frameCount]
  split
  · exact Nat.one_pos
  · exact nfrag_pos c l

/-- ARQ_SEND_START draws a tag, fills the slots with the frames of FRAGMENT, writes the first and
waits. -/
theorem startSend_senderWrote (p : Port) (d : Bytes) (s : State) :
    let fs := fragmentFrames s.cfg d (draw16 s).1
    senderWrote p (fs.getD 0 [])
      { state := .awaitingAck, retries := 0, deadline := 0, nframes := fs.length, idx := 0,
        frames := fs }
      (.num fs.length) s (startSend p d s) := by
  obtain ⟨hblock, hclock, hrx, htx, -⟩ := draw16_spec s
  exact senderWrote_of_drawn hblock hclock hrx htx (senderWrote_awaitAck p _ _ _ (draw16 s).2)

/-- The draws that are left are those of `draw16`: what is sent afterwards takes none. -/
theorem startSend_draws (p : Port) (d : Bytes) (s : State) :
    (startSend p d s).env.draws = (draw16 s).2.env.draws := by
  have hdraws (y : State) : (awaitAck y).env.draws = y.env.draws := by
    obtain ⟨-, -, -, -, -, hnow⟩ := now_spec y
    rw [awaitAck_spec]
    exact hnow
  rw [startSend, replyOk_env, hdraws, sendFrame_eq]
  rfl

end Start

/-- Settles O41: the three refusals in their order, and else `startSend`, whose tag is the draw. -/
theorem arqSendStartOutcome : Obligations.ArqSendStartOutcome := by
  intro p d s _
  refine ⟨exec_arqSendStart_of_busy, fun h1 h2 => ?_⟩
  rw [exec_arqSendStart_of_ready h1 h2]
  refine ⟨fun hlen => ?length, fun hlen htoken => ?token, fun hlen htoken => ?started⟩
  case length =>
    rw [if_pos ((badLength_eq_true_iff _ _).mpr hlen)]
    rfl
  case token =>
    rw [if_neg (mt (badLength_eq_true_iff _ _).mp (not_not_intro hlen)),
      if_pos ((isTokenPayload_iff _ _).mpr htoken)]
    rfl
  case started =>
    rw [if_neg (mt (badLength_eq_true_iff _ _).mp (not_not_intro hlen)),
      if_neg (mt (isTokenPayload_iff _ _).mp htoken)]
    have hcount := fragmentFrames_length_eq s.cfg d (draw16 s).1
    have hpos := hcount.symm ▸ frameCount_pos s.cfg d.length
    refine ⟨_, (draw16 s).1, fragmentFrames s.cfg d (draw16 s).1, _, rfl,
      exec_fragment_of_enough_slots hlen hcount.ge _, ?_, fun drawn ds hdraws => ?_,
      startSend_senderWrote p d s⟩
    · rw [List.getD_eq_getElem _ _ hpos, List.getElem?_eq_getElem hpos]
    · obtain ⟨-, -, -, -, -, hdrawn⟩ := draw16_spec s
      rw [startSend_draws]
      exact hdrawn drawn ds hdraws

/-! ## ARQ_SEND_POLL -/

section Poll

variable {p : Port} {s : State}

theorem exec_arqSendPoll_of_resting
    (h : s.arq.state = .idle ∨ s.arq.state = .done ∨ s.arq.state = .failed) :
    exec (.arqSendPoll p) s = .next { s with reply := .ok (.arqState s.arq.state) } := by
  rw [exec, execArqSendPoll]
  rcases h with h | h | h <;> rw [h] <;> rfl

theorem exec_arqSendPoll_of_retrying (h : s.arq.state = .retrying) :
    exec (.arqSendPoll p) s = .next (retransmit p s) := by
  rw [exec, execArqSendPoll, h]

theorem exec_arqSendPoll_of_awaitingAck (h : s.arq.state = .awaitingAck) :
    exec (.arqSendPoll p) s =
      .next (pollAfterRead p (recvMatches s.cfg (lrRecvFrame p s).1) (lrRecvFrame p s).2) := by
  rw [exec, execArqSendPoll, h]

/-- Past a receive attempt that brought no matching acknowledgement only the clock counts. -/
theorem senderWaited_pollAfterRead (p : Port) (x : State) :
    senderWaited x (pollAfterRead p false x) := by
  obtain ⟨hblock, hread, hle, hrx, htx, hdraws⟩ := now_spec x
  have hcases := pollAfterRead_cases p false x
  rw [← hread] at hle hcases
  rcases hcases with ⟨hf, -⟩ | ⟨hf, -⟩ | ⟨-, hlate, ⟨hretry, e⟩ | ⟨hgiveUp, e⟩⟩ | ⟨-, hearly, e⟩
  · cases hf
  · cases hf
  all_goals rw [e, eq_of_sameBlock hblock]
  · exact ⟨hle, hrx, htx, hdraws, .inr (.inl ⟨hlate, hretry, rfl⟩)⟩
  · exact ⟨hle, hrx, htx, hdraws, .inr (.inr ⟨hlate, hgiveUp, rfl⟩)⟩
  · exact ⟨hle, hrx, htx, hdraws, .inl ⟨hearly, rfl⟩⟩

/-- The matching acknowledgement of the last frame ends the datagram; that of another is answered
with the next frame. -/
theorem pollAfterRead_matched (p : Port) (x : State) :
    (x.arq.idx + 1 = x.arq.nframes ∧ pollAfterRead p true x = { x with
        arq := { x.arq with retries := 0, idx := x.arq.idx + 1, state := .done }
        reply := .ok (.arqState .done) }) ∨
      (x.arq.idx + 1 ≠ x.arq.nframes ∧ senderWrote p (x.arq.frames.getD (x.arq.idx + 1) [])
        { x.arq with retries := 0, idx := x.arq.idx + 1 } (.arqState .awaitingAck) x
        (pollAfterRead p true x)) := by
  rcases pollAfterRead_cases p true x with ⟨-, hlast, e⟩ | ⟨-, hmore, e⟩ | ⟨hf, -⟩ | ⟨hf, -⟩
  · exact .inl ⟨hlast, e⟩
  · exact .inr ⟨hmore, e ▸ senderWrote_awaitAck p _ _ _ x⟩
  · cases hf
  · cases hf

/-- What the receive attempt is asked for (45_arq_controller.md R127) is whether its outcome is the
acknowledgement frame of the peer. -/
theorem broughtAck_iff_recvMatches (hc : cfgLegal s.cfg = true) :
    broughtAck (withReply (lrRecvFrame p s).2 (recvReply (lrRecvFrame p s).1)) ↔
      recvMatches s.cfg (lrRecvFrame p s).1 = true := by
  have hvalid := lrRecvFrame_frameValid (p := p) (cfgLegal_frameSizes hc).1
  have hcfg := (lrDone_lrRecvFrame p s).frame.cfg
  rw [broughtAck, withReply_reply, withReply_cfg, hcfg]
  cases hr : (lrRecvFrame p s).1 with
  | frame f =>
    rw [recvMatches, isAckOf_iff_of_formatValid hc (hvalid f hr)]
    simp [recvReply]
  | nothing | timeout | malformed => simp [recvReply, recvMatches]

end Poll

/-- Settles O42, by the sender's state. In AwaitingAck `v` is what the receive attempt leaves, but
for the reply it has of LR_RECV_FRAME. -/
theorem arqSendPollOutcome : Obligations.ArqSendPollOutcome := by
  refine fun p s => ⟨exec_arqSendPoll_of_resting, fun h => ⟨_, exec_arqSendPoll_of_retrying h,
    senderWrote_awaitAck p _ _ _ s⟩, fun h hc => ⟨_, _, rfl, exec_arqSendPoll_of_awaitingAck h, ?_⟩⟩
  have hack := broughtAck_iff_recvMatches (p := p) hc
  have harq := (lrDone_lrRecvFrame p s).frame.arq
  generalize lrRecvFrame p s = r at hack harq ⊢
  cases hmatch : recvMatches s.cfg r.1 with
  | false =>
    have hnot := mt hack.mp (by simp [hmatch])
    exact .inr (.inr ⟨hnot, senderWaited_withReply (senderWaited_pollAfterRead p r.2) _⟩)
  | true =>
    have hnext := pollAfterRead_matched p r.2
    rw [harq] at hnext
    rcases hnext with ⟨hlast, e⟩ | ⟨hmore, hwrote⟩
    · exact .inl ⟨hack.mpr hmatch, hlast, e⟩
    · exact .inr (.inl ⟨hack.mpr hmatch, hmore, senderWrote_withReply hwrote _⟩)

/-! ## LR_DELIVER inside ARQ_RECV_DATAGRAM -/

section Deliver

variable {p : Port} {s t : State} {f : Bytes} {cap : Nat} {out : Bytes}

/-- LR_DELIVER changes `ctx` only. -/
theorem deliver_snd (f : Bytes) (cap : Nat) (s : State) :
    (deliver f cap s).2 = setCtx s (deliver f cap s).2.ctx := by
  rcases deliver_cases f cap s with ⟨-, e⟩ | e | (⟨-, e⟩ | ⟨-, e⟩) | ⟨-, -, e⟩ <;> rw [e] <;> rfl

/-- LR_DELIVER looks at the configuration and `ctx` only. -/
theorem deliver_congr (hcfg : t.cfg = s.cfg) (hctx : t.ctx = s.ctx) (f : Bytes) (cap : Nat) :
    deliver f cap t = ((deliver f cap s).1, setCtx t (deliver f cap s).2.ctx) := by
  have hself : t = setCtx t s.ctx := by rw [← hctx]; rfl
  simp only [deliver, hcfg, hctx]
  cases rsmVerdict s.cfg s.ctx f with
  | malformed => rw [resetCtx, hcfg, hctx]; rfl
  | bypass => dsimp only; split <;> exact Prod.ext rfl hself
  | duplicate => exact Prod.ext rfl hself
  | start | restart | new =>
    dsimp only
    split
    · exact Prod.ext rfl hself
    · rfl

theorem exists_formatHeader_of_verdict {c : Cfg} {x : Ctx} (h : rsmVerdict c x f ≠ .malformed) :
    ∃ h, formatHeader c f = some h :=
  Option.ne_none_iff_exists'.mp (mt rsmVerdict_of_none h)

theorem declaredSize_le_maxDatagram {c : Cfg} {h : Header} (hf : formatHeader c f = some h) :
    declaredSize f ≤ c.maxDatagram := by
  obtain ⟨hu, hv, -⟩ := formatHeader_eq_some.mp hf
  rw [declaredSize, hu]
  cases h with
  | nonFrag len => exact Nat.zero_le _
  | first size tag => exact ((headerValid_first_iff _ _ _).mp hv).2
  | other size tag off8 =>
    obtain ⟨-, hmax, -⟩ := (headerValid_other_iff _ _ _ _).mp hv
    exact hmax

/-- The capacity that ARQ_RECV_DATAGRAM asks for is enough for every delivery
(45_arq_controller.md R137; log 27). -/
theorem deliver_ne_tooSmall (hc : cfgLegal s.cfg = true) (hcap : fullCap s.cfg ≤ cap) :
    (deliver f cap s).1 ≠ .tooSmall := by
  rw [fullCap] at hcap
  by_cases hv : rsmVerdict s.cfg s.ctx f = .malformed
  · rw [deliver, hv]
    exact nofun
  obtain ⟨h, hf⟩ := exists_formatHeader_of_verdict hv
  have hdatagram := declaredSize_le_maxDatagram hf
  have hframe := formatHeader_length_le_maxFrame hc hf
  have hbig : ¬ cap < f.length - 1 ∧ ¬ cap < declaredSize f := by omega
  rw [deliver]
  split <;> simp [hbig]

/-- A whole datagram bypasses the Reassembler exactly when it came in a non-fragmented frame
(42_reassembler.md R102). -/
theorem rsmVerdict_eq_bypass_iff {c : Cfg} {x : Ctx} {h : Header} (hf : formatHeader c f = some h) :
    rsmVerdict c x f = .bypass ↔ kindOf (f.headD 0) = .nonFrag := by
  rw [kindOf_headD_of_unpackHeader (formatHeader_eq_some.mp hf).1]
  cases h with
  | nonFrag len => exact iff_of_true (rsmVerdict_of_nonFrag hf) rfl
  | first size tag =>
    refine iff_of_false ?_ nofun
    simp only [rsmVerdict, hf]
    split_ifs <;> exact nofun
  | other size tag off8 =>
    refine iff_of_false ?_ nofun
    simp only [rsmVerdict, hf]
    split_ifs <;> exact nofun

theorem deliver_malformed_iff :
    (deliver f cap s).1 = .malformed ↔ rsmVerdict s.cfg s.ctx f = .malformed := by
  refine ⟨fun hd => ?_, fun hv => by rw [deliver, hv]⟩
  rcases deliver_cases f cap s with ⟨hv, -⟩ | e | (⟨-, e⟩ | ⟨-, e⟩) | ⟨-, -, e⟩
  · exact hv
  all_goals
    rw [e] at hd
    cases hd

theorem verdict_ne_malformed_of_datagram (hd : (deliver f cap s).1 = .datagram out) :
    rsmVerdict s.cfg s.ctx f ≠ .malformed := by
  intro hv
  rw [deliver_malformed_iff.mpr hv] at hd
  cases hd

/-- In ARQ_RECV_DATAGRAM the acknowledgement goes out before the delivery, which does not see it
(45_arq_controller.md R138). -/
theorem deliver_sendAck (hcfg : t.cfg = s.cfg) (hctx : t.ctx = s.ctx) :
    deliver f cap (sendAck p t) =
      ((deliver f cap s).1, setCtx (sendAck p t) (deliver f cap s).2.ctx) := by
  refine deliver_congr ?_ ?_ f cap <;> rw [sendAck, sendFrame_eq]
  · exact hcfg
  · exact hctx

/-- A malformed frame is not acknowledged (45_arq_controller.md R137). -/
theorem recvData_of_malformed (hcfg : t.cfg = s.cfg) (hctx : t.ctx = s.ctx)
    (hd : (deliver f cap s).1 = .malformed) :
    recvData p f cap t = (none, setCtx t (deliver f cap s).2.ctx) := by
  have hv := deliver_malformed_iff.mp hd
  rw [recvData, hcfg, hctx, if_pos hv, deliver, hv, resetCtx, hcfg, hctx]
  rfl

/-- A frame that delivers nothing is acknowledged (45_arq_controller.md R138). -/
theorem recvData_of_nothing (hcfg : t.cfg = s.cfg) (hctx : t.ctx = s.ctx)
    (hd : (deliver f cap s).1 = .datagram []) :
    recvData p f cap t = (none, setCtx (sendAck p t) (deliver f cap s).2.ctx) := by
  have hv := verdict_ne_malformed_of_datagram hd
  simp only [recvData, hcfg, hctx, if_neg hv, deliver_sendAck hcfg hctx, hd]

/-- The context that ARQ_RECV_DATAGRAM leaves after a datagram: a reassembled one is done with
(45_arq_controller.md R139). -/
def ctxAfter (c : Cfg) (f : Bytes) (x : Ctx) : Ctx :=
  if kindOf (f.headD 0) = .nonFrag then x else Ctx.idleWith c x.buf

/-- A frame that delivers a datagram is acknowledged, and ends the operation
(45_arq_controller.md R138, R139). -/
theorem recvData_of_datagram (hcfg : t.cfg = s.cfg) (hctx : t.ctx = s.ctx) (hne : out ≠ [])
    (hd : (deliver f cap s).1 = .datagram out) :
    recvData p f cap t =
      (some out, setCtx (sendAck p t) (ctxAfter s.cfg f (deliver f cap s).2.ctx)) := by
  have hv := verdict_ne_malformed_of_datagram hd
  obtain ⟨h, hf⟩ := exists_formatHeader_of_verdict hv
  have hsent : (sendAck p t).cfg = s.cfg := by rw [sendAck, sendFrame_eq]; exact hcfg
  obtain ⟨b, out, rfl⟩ := List.exists_cons_of_ne_nil hne
  simp only [recvData, hcfg, hctx, if_neg hv, deliver_sendAck hcfg hctx, hd,
    rsmVerdict_eq_bypass_iff hf, ctxAfter]
  split
  · rfl
  · rw [resetCtx, setCtx_cfg, hsent]
    rfl

end Deliver

/-! ## The arrivals, one by one -/

section Reception

variable {cap : Nat} {f : Bytes} {rest : List Arrival} {s : State} {out : Bytes}

theorem reception_ack (h : isAck s.cfg f = true) :
    reception cap (.frame f :: rest) s = reception cap rest s := by
  rw [reception, if_pos h]

theorem exec_lrDeliver (f : Bytes) (cap : Nat) (s : State) : exec (.lrDeliver f cap) s =
    .next (withReply (deliver f cap s).2 (deliveryReply (deliver f cap s).1)) := rfl

theorem reception_malformed (h : isAck s.cfg f = false) (hd : (deliver f cap s).1 = .malformed) :
    reception cap (.frame f :: rest) s =
      reception cap rest (withReply (deliver f cap s).2 (.error .malformedFrame)) := by
  simp only [reception, h, exec_lrDeliver, hd, deliveryReply, withReply_reply, Bool.false_eq_true,
    if_false]

theorem reception_nothing (h : isAck s.cfg f = false) (hd : (deliver f cap s).1 = .datagram []) :
    reception cap (.frame f :: rest) s =
      let r := reception cap rest (withReply (deliver f cap s).2 (.ok (.datagram [])))
      { r with acks := r.acks + 1 } := by
  simp only [reception, h, exec_lrDeliver, hd, deliveryReply, withReply_reply, Bool.false_eq_true,
    if_false]

theorem reception_datagram (h : isAck s.cfg f = false) (hne : out ≠ [])
    (hd : (deliver f cap s).1 = .datagram out) :
    reception cap (.frame f :: rest) s =
      ⟨1, some out, ctxAfter s.cfg f (deliver f cap s).2.ctx, rest⟩ := by
  obtain ⟨b, out, rfl⟩ := List.exists_cons_of_ne_nil hne
  have hcfg : (deliver f cap s).2.cfg = s.cfg := by rw [deliver_snd]; rfl
  simp only [reception, h, exec_lrDeliver, hd, deliveryReply, withReply_reply, withReply_ctx,
    withReply_cfg, Bool.false_eq_true, if_false, hcfg, ctxAfter]

end Reception

/-! ## The rounds of ARQ_RECV_DATAGRAM -/

section Round

variable {p : Port} {cap deadline fuel : Nat} {t u : State} {f : Bytes}

theorem recvLoop_of_late (h : deadline ≤ (now t).1) :
    recvLoop p cap deadline (fuel + 1) t = recvTimeout p (now t).2 := by
  simp only [recvLoop, elapsed, decide_eq_true h, if_true]

/-- A receive attempt that brings no frame starts the next round. -/
theorem recvLoop_of_no_frame {r : Recv} (hopen : (now t).1 < deadline)
    (hr : lrRecvFrame p (now t).2 = (r, u)) (hnone : ∀ f, r ≠ .frame f) :
    recvLoop p cap deadline (fuel + 1) t = recvLoop p cap deadline fuel u := by
  simp only [recvLoop, elapsed, decide_eq_false (Nat.not_le_of_lt hopen), hr, Bool.false_eq_true,
    if_false]

/-- So does one that brings an acknowledgement frame. -/
theorem recvLoop_of_ack (hopen : (now t).1 < deadline)
    (hr : lrRecvFrame p (now t).2 = (.frame f, u)) (hack : isAck t.cfg f = true) :
    recvLoop p cap deadline (fuel + 1) t = recvLoop p cap deadline fuel u := by
  simp only [recvLoop, elapsed, decide_eq_false (Nat.not_le_of_lt hopen), hr, hack,
    Bool.false_eq_true, if_false, if_true]

/-- And one that brings a frame which delivers nothing. -/
theorem recvLoop_of_data_none {w : State} (hopen : (now t).1 < deadline)
    (hr : lrRecvFrame p (now t).2 = (.frame f, u)) (hack : isAck t.cfg f = false)
    (hdata : recvData p f cap u = (none, w)) :
    recvLoop p cap deadline (fuel + 1) t = recvLoop p cap deadline fuel w := by
  simp only [recvLoop, elapsed, decide_eq_false (Nat.not_le_of_lt hopen), hr, hack, hdata,
    Bool.false_eq_true, if_false]

/-- A datagram ends the operation. -/
theorem recvLoop_of_data_some {w : State} {out : Bytes} (hopen : (now t).1 < deadline)
    (hr : lrRecvFrame p (now t).2 = (.frame f, u)) (hack : isAck t.cfg f = false)
    (hdata : recvData p f cap u = (some out, w)) :
    recvLoop p cap deadline (fuel + 1) t = replyOk w (.datagram out) := by
  simp only [recvLoop, elapsed, decide_eq_false (Nat.not_le_of_lt hopen), hr, hack, hdata,
    Bool.false_eq_true, if_false]

end Round

/-! ## The receiver over its arrivals -/

/-- What receiving a datagram comes to, where `sent` had been written to the port before. -/
structure Received (c : Cfg) (p : Port) (sent : List Bytes) (r : Reception) (u : State) : Prop where
  tx : u.env.tx.get p = sent ++ List.replicate r.acks (ackFrame c c.role)
  delivered : ∀ out, r.out = some out → u.reply = .ok (.datagram out)
  timedOut : r.out = none → u.reply = .error .timeout
  ctx : u.ctx = r.ctx
  rx : u.env.rx.get p = promptly (r.unread.map (Arrival.raw c)).flatten

/-- A receiver before a round: its context is `x`, it has written `sent`, the arrivals stand in
`rx[p]`, and the clock will not move while they are read: a round reads it once and once for each
byte, so twice for each byte is enough. -/
structure Receiving (c : Cfg) (p : Port) (x : Ctx) (arrivals : List Arrival) (sent : List Bytes)
    (deadline : Nat) (t : State) : Prop where
  cfg : t.cfg = c
  ctx : t.ctx = x
  tx : t.env.tx.get p = sent
  rx : t.env.rx.get p = promptly (arrivals.map (Arrival.raw c)).flatten
  lapses : ∃ n later, 2 * (arrivals.map (Arrival.raw c)).flatten.length ≤ n ∧
    t.env.lapses = List.replicate n 0 ++ later
  early : t.env.clock < deadline

section Receiving

variable {c : Cfg} {p : Port} {x : Ctx} {a : Arrival} {rest : List Arrival} {sent : List Bytes}
  {deadline : Nat} {t : State}

theorem Receiving.setCtx (h : Receiving c p x rest sent deadline t) (y : Ctx) :
    Receiving c p y rest sent deadline (setCtx t y) :=
  ⟨h.cfg, rfl, h.tx, h.rx, h.lapses, h.early⟩

/-- 45_arq_controller.md R126. -/
theorem Receiving.sendAck (hc : cfgLegal c = true) (h : Receiving c p x rest sent deadline t) :
    Receiving c p x rest (sent ++ [ackFrame c c.role]) deadline (sendAck p t) := by
  obtain ⟨hcfg, hctx, htx, hrx, hlapses, hearly⟩ := h
  subst hcfg
  have hwrites : (tfSplit t.cfg.writeLimit (ackFrame t.cfg t.cfg.role)).getD [] =
      [ackFrame t.cfg t.cfg.role] := writesOf_ackFrame hc t.cfg.role
  rw [Machine.sendAck, sendFrame_eq, hwrites, htx]
  exact ⟨rfl, hctx, PerPort.get_set_same _ _ _, hrx, hlapses, hearly⟩

theorem one_le_raw_length (hc : cfgLegal c = true) (ha : a.readable c) : 1 ≤ (a.raw c).length := by
  have hpos {bs : Bytes} {v : Need} (h : Reads c bs v) (hv : ∀ k, v ≠ .need k) : 1 ≤ bs.length := by
    refine List.length_pos_iff.mpr fun hnil => ?_
    rw [hnil] at h
    exact hv 1 h.whole.symm
  cases a with
  | frame f => exact hpos (reads_writesOf hc ha.1 ha.2).1 (by simp)
  | broken bs => exact hpos (reads_badRaw hc ha).1 (by simp)

theorem length_le_raw (hc : cfgLegal c = true) {arrivals : List Arrival}
    (hreadable : ∀ a ∈ arrivals, a.readable c) :
    arrivals.length ≤ (arrivals.map (Arrival.raw c)).flatten.length := by
  have hsum := List.length_le_sum_of_one_le (arrivals.map fun a => (a.raw c).length) fun n hn => by
    obtain ⟨a, ha, rfl⟩ := List.mem_map.mp hn
    exact one_le_raw_length hc (hreadable a ha)
  rwa [List.length_map, ← Function.comp_def, ← List.map_map, ← List.length_flatten] at hsum

/-- The round's reading of the clock, and what the receive attempt then meets. -/
theorem Receiving.round (hc : cfgLegal c = true) (ha : a.readable c)
    (h : Receiving c p x (a :: rest) sent deadline t) :
    (now t).1 < deadline ∧ ∃ more,
      (now t).2.env.rx.get p =
        promptly (a.raw c) ++ promptly (rest.map (Arrival.raw c)).flatten ∧
      (now t).2.env.lapses = List.replicate (a.raw c).length 0 ++ more ∧
      Receiving c p x rest sent deadline
        (midway p (now t).2 [] (promptly (rest.map (Arrival.raw c)).flatten) more) := by
  obtain ⟨hcfg, hctx, htx, hrx, ⟨n, later, hn, hlapses⟩, hearly⟩ := h
  have hpos := one_le_raw_length hc ha
  rw [List.map_cons, List.flatten_cons] at hrx hn
  rw [List.length_append] at hn
  obtain ⟨k, rfl⟩ : ∃ k, n = 1 + (a.raw c).length + k := Nat.exists_eq_add_of_le (by omega)
  rw [← List.replicate_append_replicate, ← List.replicate_append_replicate, List.append_assoc,
    List.append_assoc] at hlapses
  rw [now_scripted hlapses]
  refine ⟨hearly, List.replicate k 0 ++ later, hrx.trans List.map_append, rfl,
    hcfg, hctx, htx, PerPort.get_set_same _ _ _, ⟨k, later, by omega, rfl⟩, hearly⟩

/-- The receive attempt of a round brings the frame that has arrived. -/
theorem Receiving.frame (hc : cfgLegal c = true) {f : Bytes} (ha : (Arrival.frame f).readable c)
    (h : Receiving c p x (.frame f :: rest) sent deadline t) :
    (now t).1 < deadline ∧ ∃ u, lrRecvFrame p (now t).2 = (.frame f, u) ∧
      Receiving c p x rest sent deadline u := by
  obtain ⟨hearly, more, hrx, hlapses, hnext⟩ := h.round hc ha
  obtain rfl : (now t).2.cfg = c := hnext.cfg
  exact ⟨hearly, _, lrRecvFrame_of_writesOf hc ha.1 ha.2 hrx hlapses, hnext⟩

/-- The receive attempt of a round turns broken bytes away and resets the context
(44_link_reader.md R117). -/
theorem Receiving.broken (hc : cfgLegal c = true) {bs : Bytes}
    (ha : (Arrival.broken bs).readable c)
    (h : Receiving c p x (.broken bs :: rest) sent deadline t) :
    (now t).1 < deadline ∧ ∃ u, lrRecvFrame p (now t).2 = (.malformed, u) ∧
      Receiving c p (Ctx.idleWith c x.buf) rest sent deadline u := by
  obtain ⟨hearly, more, hrx, hlapses, hnext⟩ := h.round hc ha
  obtain rfl : (now t).2.cfg = c := hnext.cfg
  refine ⟨hearly, _, lrRecvFrame_of_badRaw hc ha hrx hlapses, ?_⟩
  rw [resetCtx, hnext.ctx]
  exact hnext.setCtx _

/-- With nothing left to come, every round that is not the last ends without a frame. -/
theorem lrRecvFrame_of_empty {s : State} (h : s.env.rx.get p = []) :
    ∃ u, lrRecvFrame p s = (.nothing, u) ∧ u.env.rx.get p = [] := by
  obtain ⟨e, hread, -, hrx, -⟩ := LinkReader.rawReadByte_of_no_byte (p := p)
    (s := setAcc s p []) (fun b k rest hb => by rw [setAcc_env, h] at hb; cases hb) s.cfg.tByte
  rw [lrRecvFrame, hread]
  refine ⟨_, rfl, ?_⟩
  rw [setEnv_env, hrx, PerPort.get_set_same, setAcc_env, h]
  rfl

theorem received_recvTimeout (hcfg : t.cfg = c) (htx : t.env.tx.get p = sent)
    (hrx : t.env.rx.get p = []) :
    Received c p sent ⟨0, none, Ctx.idleWith c t.ctx.buf, []⟩ (recvTimeout p t) :=
  ⟨htx.trans (List.append_nil _).symm, nofun, fun _ => rfl, by rw [← hcfg]; rfl, hrx⟩

/-- Silence ends in the datagram Timeout, at the deadline (45_arq_controller.md R137). -/
theorem received_of_silence (cap fuel : Nat) (hcfg : t.cfg = c) (htx : t.env.tx.get p = sent)
    (hrx : t.env.rx.get p = []) :
    Received c p sent ⟨0, none, Ctx.idleWith c t.ctx.buf, []⟩ (recvLoop p cap deadline fuel t) := by
  induction fuel generalizing t with
  | zero => exact received_recvTimeout hcfg htx hrx
  | succ fuel ih =>
    obtain ⟨hblock, -, -, hnowRx, hnowTx, -⟩ := now_spec t
    rw [← hblock.ctx]
    rw [← hblock.cfg] at hcfg
    rw [← hnowRx] at hrx
    rw [← hnowTx] at htx
    rcases Nat.lt_or_ge (now t).1 deadline with hopen | hlate
    · obtain ⟨u, hr, hempty⟩ := lrRecvFrame_of_empty hrx
      have hdone := lrDone_lrRecvFrame p (now t).2
      rw [hr] at hdone
      have hctx : u.ctx = (now t).2.ctx := hdone.ctx
      rw [recvLoop_of_no_frame hopen hr nofun, ← hctx]
      exact ih (hdone.frame.cfg.trans hcfg) (by rw [hdone.frame.tx, htx]) hempty
    · rw [recvLoop_of_late hlate]
      exact received_recvTimeout hcfg htx hrx

/-- An acknowledgement more. -/
theorem Received.succ {r : Reception} {u : State} {n : Nat}
    (h : Received c p (sent ++ [ackFrame c c.role]) r u) (hn : n = r.acks + 1) :
    Received c p sent { r with acks := n } u := by
  refine ⟨?_, h.delivered, h.timedOut, h.ctx, h.rx⟩
  rw [h.tx, hn, List.append_assoc, List.singleton_append, ← List.replicate_succ]

/-- A datagram ends the operation with what is still to come unread. -/
theorem Receiving.received_datagram
    (h : Receiving c p x rest (sent ++ [ackFrame c c.role]) deadline t) (out : Bytes) :
    Received c p sent ⟨1, some out, x, rest⟩ (replyOk t (.datagram out)) :=
  ⟨h.tx, fun _ hout => by cases hout; rfl, nofun, h.ctx, h.rx⟩

/-- ARQ_RECV_DATAGRAM follows `reception`, arrival by arrival. -/
theorem received_reception (hc : cfgLegal c = true) {cap : Nat} (hcap : fullCap c ≤ cap)
    {arrivals : List Arrival} (hreadable : ∀ a ∈ arrivals, a.readable c) {s : State}
    (hs : s.cfg = c) (h : Receiving c p s.ctx arrivals sent deadline t) {fuel : Nat}
    (hfuel : arrivals.length ≤ fuel) :
    Received c p sent (reception cap arrivals s) (recvLoop p cap deadline fuel t) := by
  induction arrivals generalizing s t sent fuel with
  | nil =>
    rw [reception, hs, ← h.ctx]
    exact received_of_silence cap fuel h.cfg h.tx h.rx
  | cons a rest ih =>
    obtain ⟨fuel, rfl⟩ := Nat.exists_eq_add_of_le' (Nat.le_of_add_left_le hfuel)
    obtain ⟨ha, hrest⟩ := List.forall_mem_cons.mp hreadable
    have hfuel' : rest.length ≤ fuel := Nat.le_of_succ_le_succ hfuel
    cases a with
    | broken bs =>
      obtain ⟨hopen, u, hr, hnext⟩ := h.broken hc ha
      rw [recvLoop_of_no_frame hopen hr nofun]
      subst hs
      exact ih (s := { s with ctx := Ctx.idleWith s.cfg s.ctx.buf }) hrest rfl hnext hfuel'
    | frame f =>
      obtain ⟨hopen, u, hr, hnext⟩ := h.frame hc ha
      subst hs
      cases hack : isAck s.cfg f with
      | true =>
        rw [reception_ack hack, recvLoop_of_ack hopen hr (by rw [h.cfg, hack])]
        exact ih hrest rfl hnext hfuel'
      | false =>
        have hdata : isAck t.cfg f = false := by rw [h.cfg, hack]
        have hdelivered : (deliver f cap s).2.cfg = s.cfg := by rw [deliver_snd]; rfl
        cases hd : (deliver f cap s).1 with
        | tooSmall => exact absurd hd (deliver_ne_tooSmall hc hcap)
        | malformed =>
          rw [reception_malformed hack hd, recvLoop_of_data_none hopen hr hdata
            (recvData_of_malformed hnext.cfg hnext.ctx hd)]
          exact ih (s := withReply _ (.error .malformedFrame)) hrest hdelivered (hnext.setCtx _)
            hfuel'
        | datagram out =>
          have hacked := (hnext.sendAck hc).setCtx
          by_cases hout : out = []
          · subst hout
            rw [reception_nothing hack hd, recvLoop_of_data_none hopen hr hdata
              (recvData_of_nothing hnext.cfg hnext.ctx hd)]
            have hreceived := ih (s := withReply _ (.ok (.datagram []))) hrest hdelivered
              (hacked _) hfuel'
            exact hreceived.succ rfl
          · rw [reception_datagram hack hout hd, recvLoop_of_data_some hopen hr hdata
              (recvData_of_datagram hnext.cfg hnext.ctx hout hd)]
            exact (hacked _).received_datagram out

end Receiving

/-- Settles O48: after the first reading of the clock ARQ_RECV_DATAGRAM is its loop, with a deadline
still to come and a round for every arrival, since each has a byte at least. -/
theorem receiverAcknowledges : Obligations.ReceiverAcknowledges := by
  rintro p cap arrivals s raw later r hc hcap hreadable rfl hrx hlapses rfl
  obtain ⟨-, hdgram⟩ := cfgLegal_timeouts hc
  rw [Nat.add_comm, List.replicate_succ, List.cons_append] at hlapses
  have hstart : Receiving s.cfg p s.ctx arrivals (s.env.tx.get p) (s.env.clock + s.cfg.tDgram)
      (now s).2 := by
    rw [now_scripted hlapses]
    exact ⟨rfl, rfl, rfl, hrx, ⟨_, later, Nat.le_refl _, rfl⟩, Nat.lt_add_of_pos_right hdgram⟩
  have hrounds : arrivals.length ≤ recvFuel p s := by
    have hle := length_le_raw hc hreadable
    rw [recvFuel, hrx, promptly, List.length_map]
    omega
  have hroom : ¬ cap < fullCap s.cfg := Nat.not_lt_of_le hcap
  have hexec : exec (.arqRecvDatagram p cap) s =
      .next (recvLoop p cap (s.env.clock + s.cfg.tDgram) (recvFuel p s) (now s).2) := by
    rw [exec, execArqRecvDatagram, if_neg hroom, now_scripted hlapses]
    rfl
  have hreceived := received_reception hc hcap hreadable rfl hstart hrounds
  exact ⟨_, hexec, hreceived.tx, hreceived.delivered, hreceived.timedOut, hreceived.ctx,
    hreceived.rx⟩

end Sys2Proof.Proofs.ArqController
end

section
/-! PROOFS. 60_exceptions.md: the outcomes of HDR_PACK (O6) and of ARQ_RECV_DATAGRAM (O46), and
which operation can end in which outcome (O59). The receiver rests on one inversion of a round of
its loop; what the operation ends with, and that the deadline and not the number of rounds ends it,
are two inductions over the rounds. -/

namespace Sys2Proof.Proofs.Exceptions

open Sys2Proof.Machine Sys2Proof.Proofs.HeaderCodec Sys2Proof.Proofs.Fragmenter
  Sys2Proof.Proofs.Reassembler Sys2Proof.Proofs.LinkReader Sys2Proof.Proofs.ArqController

/-! ## HDR_PACK -/

theorem packReply_first_outside {size : Nat} (h : 8191 < size) (tag : Tag) (offset cap : Nat) :
    packReply 1 size tag offset cap = .refused .fieldRange := by
  rw [packReply, if_neg (by decide), if_neg (by decide), if_pos h]

theorem packReply_other_outside {size offset : Nat} (h : 8191 < size ∨ 2047 < offset) (tag : Tag)
    (cap : Nat) : packReply 2 size tag offset cap = .refused .fieldRange := by
  rw [packReply, if_neg (by decide), if_neg (by decide)]
  split
  · rfl
  · next hsize => rw [if_neg (by decide), if_pos (h.resolve_left hsize)]

theorem packReply_nonFrag_eq_packOutcome (a : Nat) (tag : Tag) (offset cap : Nat) :
    packReply 0 a tag offset cap = packOutcome 0 a tag offset cap := by
  by_cases h : 1 ≤ a ∧ a ≤ 191
  · rw [packReply_nonFrag h.1 h.2, packOutcome, if_neg (by omega)]
    rfl
  · rw [packReply_nonFrag_outside h, packOutcome, if_pos (by omega)]

theorem packReply_first_eq_packOutcome (a : Nat) (tag : Tag) (offset cap : Nat) :
    packReply 1 a tag offset cap = packOutcome 1 a tag offset cap := by
  rcases Nat.lt_or_ge 8191 a with h | h
  · rw [packReply_first_outside h, packOutcome, if_pos h]
  · rw [packReply_first h, headerBytes_first_ofNat h, packOutcome, if_neg (Nat.not_lt_of_le h)]
    rfl

theorem packReply_other_eq_packOutcome (a : Nat) (tag : Tag) (offset cap : Nat) :
    packReply 2 a tag offset cap = packOutcome 2 a tag offset cap := by
  rcases Nat.lt_or_ge 8191 a with h | h
  · rw [packReply_other_outside (.inl h), packOutcome, if_pos h]
  rcases Nat.lt_or_ge 2047 offset with ho | ho
  · rw [packReply_other_outside (.inr ho), packOutcome, if_pos ho, ite_self]
  · rw [packReply_other h ho, headerBytes_other_ofNat h, packOutcome,
      if_neg (Nat.not_lt_of_le h), if_neg (Nat.not_lt_of_le ho)]
    rfl

/-- 40_header_codec.md R72 and R73: the header bytes as the pseudocode writes them in numbers. -/
theorem packReply_eq_packOutcome (k : BitVec 2) (a : Nat) (tag : Tag) (offset cap : Nat) :
    packReply k a tag offset cap = packOutcome k.toNat a tag offset cap := by
  have hkinds : ∀ k : BitVec 2, k = 0 ∨ k = 1 ∨ k = 2 ∨ k = 3 := by decide
  rcases hkinds k with rfl | rfl | rfl | rfl
  · exact packReply_nonFrag_eq_packOutcome a tag offset cap
  · exact packReply_first_eq_packOutcome a tag offset cap
  · exact packReply_other_eq_packOutcome a tag offset cap
  · rfl

/-- Settles O6, kind by kind. -/
theorem hdrPackOutcome : Obligations.HdrPackOutcome := by
  intro k a tag offset cap s
  rw [exec_hdrPack, packReply_eq_packOutcome]

/-! ## What LR_DELIVER puts into its buffer -/

theorem extracted_length_le (x : Ctx) : (extracted x).length ≤ x.expectedSize := by
  rw [extracted]
  split
  · next hcomplete =>
    rw [bufBytesTo_length]
    exact ((isComplete_eq_true_iff x).mp hcomplete).2.le
  · exact Nat.zero_le _

/-- A delivered datagram is within the capacity (44_link_reader.md R119). -/
theorem length_le_of_deliver {f : Bytes} {cap : Nat} {s : State} {out : Bytes}
    (hd : (deliver f cap s).1 = .datagram out) : out.length ≤ cap := by
  rcases verdict_cases (rsmVerdict s.cfg s.ctx f) with hv | hv | hv | hv
  · rw [deliver_malformed_iff.mpr hv] at hd
    cases hd
  · rw [deliver, hv] at hd
    dsimp only at hd
    split at hd
    · cases hd
    · cases hd
      rw [List.length_drop]
      omega
  · rw [deliver, hv] at hd
    cases hd
    exact Nat.zero_le _
  · rw [deliver_of_accepting hv] at hd
    split at hd
    · cases hd
    · next hcap =>
      cases hd
      exact (extracted_length_le _).trans (Nat.le_of_not_lt hcap)

/-! ## A round of ARQ_RECV_DATAGRAM -/

/-- A received data frame changes `ctx` and the writes on its port only. -/
theorem recvData_snd (p : Port) (f : Bytes) (cap : Nat) (s : State) :
    ∃ us x, (recvData p f cap s).2 = setCtx (wrote p us s) x := by
  have hdeliver : (deliver f cap (sendAck p s)).2 =
      setCtx (wrote p (writesOf s.cfg (ackFrame s.cfg s.cfg.role)) s)
        (deliver f cap (sendAck p s)).2.ctx := by
    rw [deliver_snd, sendAck, sendFrame_eq]
    rfl
  rcases recvData_cases p f cap s with ⟨-, e⟩ | ⟨-, e⟩ | ⟨out, -, -, -, e⟩ <;> rw [e]
  · refine ⟨[], Ctx.idleWith s.cfg s.ctx.buf, ?_⟩
    rw [wrote, List.append_nil, PerPort.set_get]
    rfl
  · exact ⟨_, _, hdeliver⟩
  · dsimp only
    split
    · exact ⟨_, _, hdeliver⟩
    · rw [hdeliver]
      exact ⟨_, _, rfl⟩

/-- The datagram with which the operation ends has a byte at least, and fits. -/
theorem length_of_recvData {p : Port} {f : Bytes} {cap : Nat} {s w : State} {out : Bytes}
    (h : recvData p f cap s = (some out, w)) : 1 ≤ out.length ∧ out.length ≤ cap := by
  rcases recvData_cases p f cap s with ⟨-, e⟩ | ⟨-, e⟩ | ⟨out', -, hne, hd, e⟩ <;> rw [e] at h <;>
    cases h
  exact ⟨List.length_pos_iff.mpr hne, length_le_of_deliver hd⟩

/-- A receive attempt takes something off the stream or takes as long as the timeout of its first
read (44_link_reader.md R114, R116). -/
theorem lrRecvFrame_takes_or_waits (p : Port) (s : State) :
    ((lrRecvFrame p s).2.env.rx.get p).length < (s.env.rx.get p).length ∨
      s.env.clock + s.cfg.tByte ≤ (lrRecvFrame p s).2.env.clock := by
  have hafter : LrFrame p (rawReadByte p s.cfg.tByte (setAcc s p [])).2 (lrRecvFrame p s).2 := by
    rw [lrRecvFrame]
    dsimp only
    split
    · exact .refl p _
    · exact ((lrFrame_setAcc _ p _).trans (lrFrame_now _ p)).trans (lrDone_lrLoop p _ _ _).frame
  obtain ⟨-, -, -, -, -, hcase⟩ := rawReadByte_spec p s.cfg.tByte (setAcc s p [])
  have hsuffix := hafter.rxSuffix.length_le
  have hclock := hafter.clock
  have htaken {ev : RxEvent} {rest : List RxEvent} (hs : s.env.rx.get p = ev :: rest)
      (hr : (rawReadByte p s.cfg.tByte (setAcc s p [])).2.env.rx.get p = rest) :
      ((lrRecvFrame p s).2.env.rx.get p).length < (s.env.rx.get p).length := by
    rw [hs, List.length_cons, ← hr]
    omega
  rcases hcase with ⟨b, k, rest, hs, -, hr, -⟩ | ⟨k, rest, hs, -, hr, -⟩ | ⟨-, -, -, hwait⟩
  · exact .inl (htaken hs hr)
  · exact .inl (htaken hs hr)
  · exact .inr (hwait.trans hclock)

/-- What a round of ARQ_RECV_DATAGRAM that finds its deadline still to come makes of `s`: it leaves
sender, relay and requests alone, holds no bytes for the port, and takes something off the stream
or time. -/
structure Round (p : Port) (s t : State) : Prop where
  cfg : t.cfg = s.cfg
  arq : t.arq = s.arq
  relay : t.relay = s.relay
  requests : t.requests = s.requests
  held : getAcc t p = []
  rx : (t.env.rx.get p).length ≤ (s.env.rx.get p).length
  clock : s.env.clock ≤ t.env.clock
  progress : (t.env.rx.get p).length < (s.env.rx.get p).length ∨
    s.env.clock + s.cfg.tByte ≤ t.env.clock

theorem round_lrRecvFrame (p : Port) (s : State) : Round p s (lrRecvFrame p (now s).2).2 := by
  have hnow := lrFrame_now s p
  have hdone := lrDone_lrRecvFrame p (now s).2
  have hframe := hnow.trans hdone.frame
  have hprogress := lrRecvFrame_takes_or_waits p (now s).2
  obtain ⟨hblock, hread, hle, hrx, -, -⟩ := now_spec s
  rw [hblock.cfg, hrx, hread] at hprogress
  exact ⟨hframe.cfg, hframe.arq, hframe.relay, hframe.requests, hdone.acc,
    hframe.rxSuffix.length_le, hframe.clock, hprogress.imp_right (by omega)⟩

theorem Round.after_recvData {p : Port} {s t : State} (h : Round p s t) (f : Bytes) (cap : Nat) :
    Round p s (recvData p f cap t).2 := by
  obtain ⟨us, x, e⟩ := recvData_snd p f cap t
  rw [e]
  exact ⟨h.cfg, h.arq, h.relay, h.requests, h.held, h.rx, h.clock, h.progress⟩

/-- All a round of ARQ_RECV_DATAGRAM can do (45_arq_controller.md R137): it ends the operation at
its deadline or with a datagram, or the next round follows. -/
theorem recvLoop_succ_cases (p : Port) (cap deadline fuel : Nat) (s : State) :
    (deadline ≤ (now s).1 ∧ recvLoop p cap deadline (fuel + 1) s = recvTimeout p (now s).2) ∨
      (∃ t out, Round p s t ∧ 1 ≤ out.length ∧ out.length ≤ cap ∧
        recvLoop p cap deadline (fuel + 1) s = replyOk t (.datagram out)) ∨
      ((now s).1 < deadline ∧ ∃ t, Round p s t ∧
        recvLoop p cap deadline (fuel + 1) s = recvLoop p cap deadline fuel t) := by
  rcases Nat.lt_or_ge (now s).1 deadline with hopen | hlate
  · have hround := round_lrRecvFrame p s
    rcases hr : lrRecvFrame p (now s).2 with ⟨r, u⟩
    rw [hr] at hround
    cases r with
    | nothing | timeout | malformed =>
      exact .inr (.inr ⟨hopen, u, hround, recvLoop_of_no_frame hopen hr nofun⟩)
    | frame f =>
      cases hack : isAck s.cfg f with
      | true => exact .inr (.inr ⟨hopen, u, hround, recvLoop_of_ack hopen hr hack⟩)
      | false =>
        have hafter := hround.after_recvData f cap
        rcases hdata : recvData p f cap u with ⟨_ | out, w⟩ <;> rw [hdata] at hafter
        · exact .inr (.inr ⟨hopen, w, hafter, recvLoop_of_data_none hopen hr hack hdata⟩)
        · obtain ⟨hpos, hle⟩ := length_of_recvData hdata
          exact .inr (.inl ⟨w, out, hafter, hpos, hle,
            recvLoop_of_data_some hopen hr hack hdata⟩)
  · exact .inl ⟨hlate, recvLoop_of_late hlate⟩

/-! ## The two ends of ARQ_RECV_DATAGRAM -/

/-- ARQ_RECV_DATAGRAM has gone from `s` to one of its ends, `u`. -/
structure Ended (p : Port) (cap : Nat) (s u : State) : Prop where
  arq : u.arq = s.arq
  relay : u.relay = s.relay
  requests : u.requests = s.requests
  held : getAcc u p = []
  reply : (u.reply = .error .timeout ∧ u.ctx.idle = true) ∨
    ∃ out, u.reply = .ok (.datagram out) ∧ 1 ≤ out.length ∧ out.length ≤ cap

theorem ended_recvTimeout (p : Port) (cap : Nat) (s : State) : Ended p cap s (recvTimeout p s) :=
  ⟨rfl, rfl, rfl, getAcc_setAcc_same s p [], .inl ⟨rfl, rfl⟩⟩

/-- What came before the last stretch left sender, relay and requests alone. -/
theorem Ended.after {p : Port} {cap : Nat} {s t u : State} (h : Ended p cap t u)
    (harq : t.arq = s.arq) (hrelay : t.relay = s.relay) (hrequests : t.requests = s.requests) :
    Ended p cap s u :=
  ⟨h.arq.trans harq, h.relay.trans hrelay, h.requests.trans hrequests, h.held, h.reply⟩

theorem Ended.after_now {p : Port} {cap : Nat} {s u : State} (h : Ended p cap (now s).2 u) :
    Ended p cap s u := by
  obtain ⟨hblock, -⟩ := now_spec s
  exact h.after hblock.arq hblock.relay hblock.requests

theorem recvLoop_ended (p : Port) (cap deadline fuel : Nat) (s : State) :
    Ended p cap s (recvLoop p cap deadline fuel s) := by
  induction fuel generalizing s with
  | zero => exact ended_recvTimeout p cap s
  | succ fuel ih =>
    rcases recvLoop_succ_cases p cap deadline fuel s with ⟨-, e⟩ | ⟨t, out, h, hpos, hle, e⟩ |
      ⟨-, t, h, e⟩ <;> rw [e]
    · exact (ended_recvTimeout p cap _).after_now
    · exact ⟨h.arq, h.relay, h.requests, h.held, .inr ⟨out, rfl, hpos, hle⟩⟩
    · exact (ih t).after h.arq h.relay h.requests

/-- With rounds enough, one for each event of the stream and each tick to the deadline, a Timeout
comes at the deadline (log 20): each round uses up an event or a tick. -/
theorem deadline_le_of_timeout {p : Port} {cap deadline fuel : Nat} {s : State}
    (hbyte : 0 < s.cfg.tByte)
    (hfuel : (s.env.rx.get p).length + (deadline - s.env.clock) < fuel)
    (hreply : (recvLoop p cap deadline fuel s).reply = .error .timeout) :
    deadline ≤ (recvLoop p cap deadline fuel s).env.clock := by
  induction fuel generalizing s with
  | zero => exact absurd hfuel (Nat.not_lt_zero _)
  | succ fuel ih =>
    obtain ⟨-, hread, hle, -⟩ := now_spec s
    rcases recvLoop_succ_cases p cap deadline fuel s with ⟨hlate, e⟩ | ⟨t, out, -, -, -, e⟩ |
      ⟨hopen, t, h, e⟩ <;> rw [e] at hreply ⊢
    · exact hlate.trans hread.ge
    · cases hreply
    · have hrx := h.rx
      have hclock := h.clock
      have hprogress := h.progress
      exact ih (h.cfg ▸ hbyte) (by omega) hreply

theorem exec_arqRecvDatagram_of_small {p : Port} {cap : Nat} {s : State} (h : cap < fullCap s.cfg) :
    exec (.arqRecvDatagram p cap) s = .next { s with reply := .refused .bufferTooSmall } := by
  rw [exec, execArqRecvDatagram, if_pos h]
  rfl

theorem exec_arqRecvDatagram_of_large {p : Port} {cap : Nat} {s : State} (h : fullCap s.cfg ≤ cap) :
    exec (.arqRecvDatagram p cap) s = .next (recvLoop p cap ((now s).1 + s.cfg.tDgram)
      (recvFuel p s) (now s).2) := by
  rw [exec, execArqRecvDatagram, if_neg (Nat.not_lt_of_le h)]

/-- Settles O46. The deadline is `T_DGRAM` ticks after the first reading of the clock, and
`recvFuel` counts the events of the stream and those ticks. -/
theorem recvDatagramOutcome : Obligations.RecvDatagramOutcome := by
  refine fun p cap s hc => ⟨exec_arqRecvDatagram_of_small, fun hcap => ⟨_,
    exec_arqRecvDatagram_of_large hcap, ?_⟩⟩
  obtain ⟨hblock, hread, hle, hrx, -, -⟩ := now_spec s
  obtain ⟨-, -, -, -, -, -, -, -, -, -, hbyte, -⟩ := of_decide_eq_true hc
  have hfuel : ((now s).2.env.rx.get p).length + ((now s).1 + s.cfg.tDgram - (now s).2.env.clock) <
      recvFuel p s := by
    rw [hrx, hread, recvFuel]
    omega
  obtain ⟨harq, hrelay, hrequests, hheld, hreply⟩ :=
    (recvLoop_ended p cap ((now s).1 + s.cfg.tDgram) (recvFuel p s) (now s).2).after_now
  refine ⟨harq, hrelay, hrequests, congrArg List.length hheld, hreply.imp_left ?_⟩
  rintro ⟨htimeout, hidle⟩
  have hlate := deadline_le_of_timeout (hblock.cfg ▸ hbyte) hfuel htimeout
  exact ⟨htimeout, hidle, (Nat.add_le_add_right hle _).trans hlate⟩

/-! ## No operation ends outside its row -/

theorem putBytes_allowed (cap : Nat) (bs : Bytes) : outcomeAllowed 0x00 (putBytes cap bs) := by
  rw [putBytes]
  split
  · exact .tail _ (.head _)
  · trivial

theorem packReply_allowed (k : BitVec 2) (a : Nat) (tag : Tag) (offset cap : Nat) :
    outcomeAllowed 0x00 (packReply k a tag offset cap) := by
  have hrange : outcomeAllowed 0x00 (.refused .fieldRange) := .head _
  unfold packReply
  split
  · exact .head _
  split
  · split
    · exact hrange
    · exact putBytes_allowed _ _
  split
  · exact hrange
  split
  · exact putBytes_allowed _ _
  split
  · exact hrange
  · exact putBytes_allowed _ _

theorem ingestReply_allowed (v : Verdict) : outcomeAllowed 0x06 (ingestReply v) := by
  cases v with
  | malformed => exact .head _
  | bypass | start | restart | duplicate | new => trivial

theorem recvReply_allowed (r : Recv) : outcomeAllowed 0x0B (recvReply r) := by
  cases r with
  | malformed => exact .head _
  | timeout => exact .tail _ (.head _)
  | nothing | frame f => trivial

theorem deliveryReply_allowed (d : Delivery) : outcomeAllowed 0x0C (deliveryReply d) := by
  cases d with
  | malformed | tooSmall => exact .head _
  | datagram out => trivial

theorem pollAfterRead_allowed (p : Port) (matched : Bool) (s : State) :
    outcomeAllowed 0x0E (pollAfterRead p matched s).reply := by
  rcases pollAfterRead_cases p matched s with ⟨-, -, e⟩ | ⟨-, -, e⟩ | ⟨-, -, ⟨-, e⟩ | ⟨-, e⟩⟩ |
    ⟨-, -, e⟩ <;> rw [e]
  · trivial
  · trivial
  · trivial
  · exact .head _
  · trivial

theorem Ended.allowed {p : Port} {cap : Nat} {s u : State} (h : Ended p cap s u) :
    outcomeAllowed 0x0F u.reply := by
  rcases h.reply with ⟨hreply, -⟩ | ⟨out, hreply, -⟩ <;> rw [hreply]
  · exact .head _
  · trivial

/-- The first clause of O59: what each operation checks, in order, and else its outcome. -/
theorem exec_outcomeAllowed {i : Instr} {sel : Nat} {s t : State} (hsel : selectorOf i = some sel)
    (h : exec i s = .next t) : outcomeAllowed sel t.reply := by
  cases i <;> cases hsel <;> cases h
  case hdrPack k a tag offset cap => exact packReply_allowed k a tag offset cap
  case hdrUnpack buf =>
    split
    · trivial
    · exact .head _
  case hdrFrameLen hd =>
    split
    · trivial
    · exact .head _
  case fragCount l =>
    split
    · exact .head _
    · trivial
  case fragment d tag slots =>
    split
    · exact .head _
    split
    · exact .tail _ (.head _)
    · trivial
  case rsmReset => trivial
  case rsmIngest buf => exact ingestReply_allowed _
  case rsmComplete => trivial
  case rsmExtract cap =>
    split
    · exact .head _
    · trivial
  case tfSplit frame =>
    split
    · trivial
    · exact .head _
  case tfJoin u1 u2 =>
    split
    · trivial
    · exact .head _
  case lrRecvFrame p => exact recvReply_allowed _
  case lrDeliver f cap => exact deliveryReply_allowed _
  case arqSendStart p d =>
    split
    · exact .head _
    split
    · exact .tail _ (.head _)
    split
    · exact .tail _ (.tail _ (.head _))
    · trivial
  case arqSendPoll p =>
    split
    · trivial
    · trivial
    · trivial
    · trivial
    · exact pollAfterRead_allowed p _ _
  case arqRecvDatagram p cap =>
    split
    · exact .head _
    · exact (recvLoop_ended p cap _ _ _).allowed
  case relayPoll =>
    split
    · exact .head _
    · trivial
  case lfbInit => trivial

/-! ## Every entry of a row is an outcome of the operation -/

/-- The operation of selector `sel` ends in `r` in some legal state. -/
def CanEnd (sel : Nat) (r : Reply) : Prop :=
  ∃ i s t, cfgLegal s.cfg = true ∧ selectorOf i = some sel ∧ exec i s = .next t ∧ t.reply = r

theorem cfgRef_legal : cfgLegal cfgRef = true := by decide

/-- It does so from reset, under CFG_REF. -/
theorem canEnd_of_reset {i : Instr} {sel : Nat} {r : Reply} (hsel : selectorOf i = some sel)
    (h : exec i State.reset = .next { State.reset with reply := r }) : CanEnd sel r :=
  ⟨i, State.reset, _, cfgRef_legal, hsel, h, rfl⟩

/-- After reset, with these events to come on `P0` and these lapses of the clock. -/
def scripted (evs : List RxEvent) (lapses : List Nat) : State :=
  setEnv State.reset { State.reset.env with rx := ⟨evs, [], []⟩, lapses := lapses }

/-- A sender whose deadline is past and whose retries are used up, with a silence to come. -/
def outOfRetries : State :=
  setArq (scripted [.silence 0] [0])
    { State.reset.arq with state := .awaitingAck, retries := cfgRef.maxRetry }

theorem error_canEnd {sel : Nat} {e : ErrorKind} (h : e ∈ errorsOf sel) :
    CanEnd sel (.error e) := by
  unfold errorsOf at h
  split at h <;> simp only [List.mem_cons, List.not_mem_nil, or_false] at h
  · subst h
    exact canEnd_of_reset (i := .hdrPack 3 0 0 0 0) rfl rfl
  · subst h
    exact canEnd_of_reset (i := .hdrUnpack []) rfl rfl
  · subst h
    exact canEnd_of_reset (i := .hdrFrameLen (.nonFrag 0)) rfl rfl
  · subst h
    exact canEnd_of_reset (i := .rsmIngest []) rfl rfl
  · subst h
    exact canEnd_of_reset (i := .tfJoin [] []) rfl rfl
  · rcases h with rfl | rfl
    · exact ⟨.lrRecvFrame .p0, scripted [.byte 0 0] [0], _, cfgRef_legal, rfl, rfl, rfl⟩
    · exact ⟨.lrRecvFrame .p0, scripted [.byte 2 0] [0, cfgRef.tFrame], _, cfgRef_legal, rfl, rfl,
        rfl⟩
  · subst h
    exact canEnd_of_reset (i := .lrDeliver [] 0) rfl rfl
  · subst h
    exact ⟨.arqSendPoll .p0, outOfRetries, _, cfgRef_legal, rfl, rfl, rfl⟩
  · subst h
    exact ⟨.arqRecvDatagram .p0 (fullCap cfgRef), scripted [] [0, cfgRef.tDgram], _, cfgRef_legal,
      rfl, rfl, rfl⟩

/-- After reset and a datagram of one byte, sent as one fragment. -/
def reassembled : State := ingest [0xC0, 0x01, 0xBE, 0xEF, 0x41] State.reset

theorem refusal_canEnd {sel : Nat} {r : Reason} (h : r ∈ reasonsOf sel) :
    CanEnd sel (.refused r) := by
  unfold reasonsOf at h
  split at h <;> simp only [List.mem_cons, List.not_mem_nil, or_false] at h
  · rcases h with rfl | rfl
    · exact canEnd_of_reset (i := .hdrPack 0 0 0 0 0) rfl rfl
    · exact canEnd_of_reset (i := .hdrPack 0 1 0 0 0) rfl rfl
  · subst h
    exact canEnd_of_reset (i := .fragCount 0) rfl rfl
  · rcases h with rfl | rfl
    · exact canEnd_of_reset (i := .fragment [] 0 0) rfl rfl
    · exact canEnd_of_reset (i := .fragment [0x41] 0 0) rfl rfl
  · subst h
    exact ⟨.rsmExtract 0, reassembled, _, cfgRef_legal, rfl, rfl, rfl⟩
  · subst h
    exact canEnd_of_reset (i := .tfSplit []) rfl rfl
  · subst h
    exact canEnd_of_reset (i := .lrDeliver [0x02, 0x41] 0) rfl rfl
  · rcases h with rfl | rfl | rfl
    · exact ⟨.arqSendStart .p0 [], outOfRetries, _, cfgRef_legal, rfl, rfl, rfl⟩
    · exact canEnd_of_reset (i := .arqSendStart .p0 []) rfl rfl
    · exact canEnd_of_reset (i := .arqSendStart .p0 cfgRef.tokenClient) rfl rfl
  · subst h
    exact canEnd_of_reset (i := .arqRecvDatagram .p0 0) rfl rfl
  · subst h
    exact canEnd_of_reset (i := .relayPoll) rfl rfl

/-- Settles O59: a bound on the outcomes of each operation, and a run that ends in each entry of its
row. -/
theorem outcomesByOperation : Obligations.OutcomesByOperation :=
  ⟨fun _ _ _ _ => exec_outcomeAllowed, fun _ _ => error_canEnd, fun _ _ => refusal_canEnd⟩

end Sys2Proof.Proofs.Exceptions
end

section
/-! PROOFS. 70_reset_and_hazards.md: the block reset LFB_INIT (O52). One equation says what it makes
of a state; the rest is about that state. -/

namespace Sys2Proof.Proofs.ResetAndHazards

open Sys2Proof.Machine

/-- `s` with every piece of LFB state at its reset value (70_reset_and_hazards.md R166). The bytes
of `ctx.buf` and the slots of `arq.frames` stay. -/
def initialised (s : State) : State :=
  { s with
    ctx := Ctx.idleWith s.cfg s.ctx.buf
    lr := ⟨[], [], []⟩
    arq := ⟨.idle, 0, 0, 0, 0, s.arq.frames⟩
    relay := ⟨[], false, 0, 0⟩
    reply := .ok .unit }

theorem exec_lfbInit (s : State) : exec .lfbInit s = .next (initialised s) := rfl

/-- What a first reset keeps is all that a second one reads. -/
@[simp] theorem initialised_initialised (s : State) :
    initialised (initialised s) = initialised s := rfl

/-- The power-on state is the state after a block reset, but for the reply
(70_reset_and_hazards.md R165). -/
theorem initialised_resetWith (c : Cfg) :
    initialised (State.resetWith c) = { State.resetWith c with reply := .ok .unit } := rfl

theorem runAll_lfbInit (s : State) (rest : List Instr) :
    runAll (.lfbInit :: rest) s = runAll rest (initialised s) := by
  rw [runAll, exec_lfbInit]

/-- Settles O52: the effect of one reset, its idempotence, and its effect at power-on. -/
theorem lfbInitEffect : Obligations.LfbInitEffect := by
  refine ⟨fun s => ⟨exec_lfbInit s, ?twice⟩, fun c => ?powerOn⟩
  case twice => simp only [runAll_lfbInit, initialised_initialised]
  case powerOn => rw [exec_lfbInit, initialised_resetWith]

end Sys2Proof.Proofs.ResetAndHazards
end

section
/-! PROOFS. 30_encoding.md: decoding is the inverse of encoding (O1), every decoded instruction is
well formed (O2), a frame's bytes survive decoding (O3), and the words of the spec (O4). -/

namespace Sys2Proof.Proofs.InstructionEncoding

open Sys2Proof.Machine Sys2Proof.Proofs.HeaderCodec Sys2Proof.Proofs.ArqController

/-! ## Acknowledgement frames among the frames -/

/-- 00_scope.md R6 (i): the tokens of the three roles differ. -/
theorem ackToken_injective {c : Cfg} (hc : cfgLegal c = true) {q r : Role}
    (h : ackToken c q = ackToken c r) : q = r := by
  obtain ⟨-, -, -, -, -, -, -, -, ⟨hcr, hcs, hrs⟩, -⟩ := of_decide_eq_true hc
  cases q <;> cases r
  case client.client | relay.relay | server.server => rfl
  case client.relay => exact absurd h hcr
  case client.server => exact absurd h hcs
  case relay.client => exact absurd h.symm hcr
  case relay.server => exact absurd h hrs
  case server.client => exact absurd h.symm hcs
  case server.relay => exact absurd h.symm hrs

theorem ackFrame_injective {c : Cfg} (hc : cfgLegal c = true) {q r : Role}
    (h : ackFrame c q = ackFrame c r) : q = r :=
  ackToken_injective hc (List.cons.inj h).2

/-- 30_encoding.md R63: byte 0 of an acknowledgement frame is its length. -/
theorem ackFrame_head_toNat {c : Cfg} (hc : cfgLegal c = true) (r : Role) :
    ((ackFrame c r).headD 0).toNat = 1 + (ackToken c r).length := by
  have htoken := (cfgLegal_tokens hc r).1
  rw [ackFrame, List.headD_cons, BitVec.toNat_ofNat]
  omega

theorem kindOf_ackFrame {c : Cfg} (hc : cfgLegal c = true) (r : Role) :
    kindOf ((ackFrame c r).headD 0) = .nonFrag := by
  have htoken := (cfgLegal_tokens hc r).1
  have hhead := ackFrame_head_toNat hc r
  exact kindOf_of_lt (by omega)

theorem notAckFrame_iff (c : Cfg) (f : Bytes) :
    notAckFrame c f = true ↔ ∀ r, f ≠ ackFrame c r := by
  simp only [notAckFrame, Bool.and_eq_true, decide_eq_true_eq]
  constructor
  · rintro ⟨⟨hclient, hrelay⟩, hserver⟩ (_ | _ | _)
    exacts [hclient, hrelay, hserver]
  · exact fun h => ⟨⟨h .client, h .relay⟩, h .server⟩

/-- A fragment is no acknowledgement frame: it differs in byte 0 (30_encoding.md R51, R63). -/
theorem notAckFrame_of_fragment {c : Cfg} (hc : cfgLegal c = true) {f : Bytes}
    (hkind : kindOf (f.headD 0) ≠ .nonFrag) : notAckFrame c f = true :=
  (notAckFrame_iff c f).mpr fun r hf => hkind (hf ▸ kindOf_ackFrame hc r)

/-! ## Decoding a frame -/

theorem decodeFrame_of_notAck {c : Cfg} {f : Bytes} (h : notAckFrame c f = true) (p : Port) :
    decodeFrame c p f = decodeDataFrame f := by
  have hne := (notAckFrame_iff c f).mp h
  rw [decodeFrame, if_neg (hne .client), if_neg (hne .relay), if_neg (hne .server)]

/-- All `decodeFrame` can do: an acknowledgement frame is its role's, any other is a data frame. -/
theorem decodeFrame_cases (c : Cfg) (p : Port) (f : Bytes) :
    (∃ r, f = ackFrame c r ∧ decodeFrame c p f = .ok (ackInstr r p)) ∨
      (notAckFrame c f = true ∧ decodeFrame c p f = decodeDataFrame f) := by
  by_cases hack : notAckFrame c f = true
  · exact .inr ⟨hack, decodeFrame_of_notAck hack p⟩
  · left
    unfold decodeFrame
    split
    · next h => exact ⟨.client, h, rfl⟩
    split
    · next h => exact ⟨.relay, h, rfl⟩
    split
    · next h => exact ⟨.server, h, rfl⟩
    · next hclient hrelay hserver =>
      exact absurd ((notAckFrame_iff c f).mpr (Role.rec hclient hrelay hserver)) hack

theorem decodeFrame_ackFrame {c : Cfg} (hc : cfgLegal c = true) (r : Role) (p : Port) :
    decodeFrame c p (ackFrame c r) = .ok (ackInstr r p) := by
  rcases decodeFrame_cases c p (ackFrame c r) with ⟨q, hq, h⟩ | ⟨hack, -⟩
  · rw [h, ackFrame_injective hc hq]
  · exact absurd rfl ((notAckFrame_iff c _).mp hack r)

/-- Byte 0 of a non-fragmented frame below 128 (30_encoding.md R52). -/
theorem lo_toNat (len : BitVec 7) : (0b0#1 ++ len).toNat = len.toNat := by
  rw [BitVec.toNat_append]
  simp

/-- Byte 0 of a non-fragmented frame from 128 on (30_encoding.md R52). -/
theorem hi_toNat (len : BitVec 6) : (0b10#2 ++ len).toNat = 128 + len.toNat := by
  revert len
  decide

theorem decodeDataFrame_lo (len : BitVec 7) (payload : Bytes) :
    decodeDataFrame ((0b0#1 ++ len) :: payload) = .ok (.nonfragLo len payload) := by
  have hkind : kindOf (0b0#1 ++ len) = .nonFrag := kindOf_of_lt (by
    have := len.isLt
    have := lo_toNat len
    omega)
  have htop : (0b0#1 ++ len).extractLsb' 7 1 = 0#1 := by revert len; decide
  have hlen : (0b0#1 ++ len).extractLsb' 0 7 = len := by revert len; decide
  simp only [decodeDataFrame, hkind, if_pos htop, hlen]

theorem decodeDataFrame_hi (len : BitVec 6) (payload : Bytes) :
    decodeDataFrame ((0b10#2 ++ len) :: payload) = .ok (.nonfragHi len payload) := by
  have hkind : kindOf (0b10#2 ++ len) = .nonFrag := kindOf_of_lt (by
    have := len.isLt
    have := hi_toNat len
    omega)
  have htop : (0b10#2 ++ len).extractLsb' 7 1 ≠ 0#1 := by revert len; decide
  have hlen : (0b10#2 ++ len).extractLsb' 0 6 = len := by revert len; decide
  simp only [decodeDataFrame, hkind, if_neg htop, hlen]

theorem decodeDataFrame_first (size : BitVec 13) (tag : Tag) (payload : Bytes) :
    decodeDataFrame (headerBytes (.first size tag) ++ payload) =
      .ok (.frag1 size tag payload) := by
  simp only [headerBytes, List.cons_append, List.nil_append, decodeDataFrame,
    kindOf_fragByte0_first, sizeField_fragByte0_first, tagField_extractLsb']

theorem decodeDataFrame_other (size : BitVec 13) (tag : Tag) (off8 : BitVec 8) (payload : Bytes) :
    decodeDataFrame (headerBytes (.other size tag off8) ++ payload) =
      .ok (.fragn size tag off8 payload) := by
  simp only [headerBytes, List.cons_append, List.nil_append, decodeDataFrame,
    kindOf_fragByte0_other, sizeField_fragByte0_other, tagField_extractLsb']

/-! ## Reading back the operands of an operation -/

theorem numFits_iff {n : Nat} : numFits n = true ↔ n < 2 ^ 32 := by simp [numFits]

/-- Each reader takes the whole of an operand with nothing behind it. -/
theorem readNum_numBytes_end {n : Nat} (h : numFits n = true) :
    readNum (numBytes n) = some (n, []) := by
  have hread := readNum_numBytes (numFits_iff.mp h) []
  rwa [List.append_nil] at hread

theorem readBuf_bufBytes_end {b : Bytes} (h : numFits b.length = true) :
    readBuf (bufBytes b) = some (b, []) := by
  have hread := readBuf_bufBytes (numFits_iff.mp h) []
  rwa [List.append_nil] at hread

theorem readHeader_headerOperand_end (h : Header) :
    readHeader (headerOperand h) = some (h, []) := by
  have hread := readHeader_headerOperand h []
  rwa [List.append_nil] at hread

theorem readPackOperands_bytes {a offset cap : Nat} (ha : numFits a = true)
    (ho : numFits offset = true) (hcap : numFits cap = true) (tag : Tag) :
    readPackOperands (packOperandBytes a tag offset cap) = some (a, tag, offset, cap) := by
  simp [readPackOperands, packOperandBytes, readNum_numBytes (numFits_iff.mp ha),
    readTag_tagBytes, readNum_numBytes (numFits_iff.mp ho), readNum_numBytes_end hcap]

/-- An operation request with operands that read as the instruction. -/
theorem decode_operationRequest {c : Cfg} {ops : Bytes} {i : Instr} (n : Nat)
    (h : readOperation n ops = some i) (hn : n ≤ 0x11 := by decide) :
    decode c (operationRequest (BitVec.ofNat 8 n) ops) = .ok i := by
  have hsel : (BitVec.ofNat 8 n).toNat = n := by rw [BitVec.toNat_ofNat]; omega
  simp only [decode, operationRequest, decodeOperation, hsel, if_neg (Nat.not_lt_of_le hn), h]

/-- A kind request with the selector `k` and operands in range. -/
theorem decode_kind {c : Cfg} {a offset cap : Nat} (ha : numFits a = true)
    (ho : numFits offset = true) (hcap : numFits cap = true) (k : BitVec 2) (tag : Tag) :
    decode c ⟨.kind, .p0, k.setWidth 8 :: packOperandBytes a tag offset cap⟩ =
      if k = 0#2 then .ok (.kindNonfrag a tag offset cap)
      else if k = 1#2 then .ok (.kindFirst a tag offset cap)
      else if k = 2#2 then .ok (.kindOther a tag offset cap)
      else .ok (.kindUnrecognised a tag offset cap) := by
  simp only [decode, decodeKind, readKind_setWidth, readPackOperands_bytes ha ho hcap]

theorem readOperation_tfJoin {bs rest last u1 u2 : Bytes} (h1 : readBuf bs = some (u1, rest))
    (h2 : readBuf rest = some (u2, last)) : readOperation 0x0A bs = some (.tfJoin u1 u2) := by
  simp [readOperation, h1, h2]

theorem readOperation_arqSendStart {bs rest last d : Bytes} {p : Port}
    (hp : readPort bs = some (p, rest)) (hd : readBuf rest = some (d, last)) :
    readOperation 0x0D bs = some (.arqSendStart p d) := by
  simp [readOperation, hp, hd]

theorem decode_frameRequest (c : Cfg) (p : Port) (f : Bytes) :
    decode c (frameRequest p f) = decodeFrame c p f := rfl

/-- Settles O1, by instruction: a frame by its byte 0, an operation by reading back its operands. -/
theorem decodeEncodeRoundTrip : Obligations.DecodeEncodeRoundTrip := by
  intro c i hc hwf
  cases i <;> simp only [Instr.wellFormed, Bool.and_eq_true] at hwf <;> rw [encode]
  case nonfragLo len payload =>
    rw [decode_frameRequest, decodeFrame_of_notAck hwf, decodeDataFrame_lo]
  case nonfragHi len payload =>
    rw [decode_frameRequest, decodeFrame_of_notAck hwf, decodeDataFrame_hi]
  case frag1 size tag payload =>
    rw [decode_frameRequest, decodeFrame_of_notAck, decodeDataFrame_first]
    exact notAckFrame_of_fragment hc ((kindOf_fragByte0_first size).trans_ne nofun)
  case fragn size tag off8 payload =>
    rw [decode_frameRequest, decodeFrame_of_notAck, decodeDataFrame_other]
    exact notAckFrame_of_fragment hc ((kindOf_fragByte0_other size).trans_ne nofun)
  case chunk1 p data => rfl
  case chunk2 p data => rfl
  case ackClient p => exact decodeFrame_ackFrame hc .client p
  case ackRelay p => exact decodeFrame_ackFrame hc .relay p
  case ackServer p => exact decodeFrame_ackFrame hc .server p
  case kindNonfrag a tag offset cap =>
    obtain ⟨⟨ha, ho⟩, hcap⟩ := hwf
    exact decode_kind ha ho hcap 0 tag
  case kindFirst a tag offset cap =>
    obtain ⟨⟨ha, ho⟩, hcap⟩ := hwf
    exact decode_kind ha ho hcap 1 tag
  case kindOther a tag offset cap =>
    obtain ⟨⟨ha, ho⟩, hcap⟩ := hwf
    exact decode_kind ha ho hcap 2 tag
  case kindUnrecognised a tag offset cap =>
    obtain ⟨⟨ha, ho⟩, hcap⟩ := hwf
    exact decode_kind ha ho hcap 3 tag
  case hdrPack k a tag offset cap =>
    obtain ⟨⟨ha, ho⟩, hcap⟩ := hwf
    exact decode_operationRequest 0x00
      (by simp [readOperation, readKind_setWidth, readPackOperands_bytes ha ho hcap])
  case hdrUnpack buf =>
    exact decode_operationRequest 0x01 (by simp [readOperation, readBuf_bufBytes_end hwf])
  case hdrFrameLen h =>
    exact decode_operationRequest 0x02 (by simp [readOperation, readHeader_headerOperand_end])
  case fragCount l =>
    exact decode_operationRequest 0x03 (by simp [readOperation, readNum_numBytes_end hwf])
  case fragment d t slots =>
    obtain ⟨hd, hslots⟩ := hwf
    exact decode_operationRequest 0x04 (by
      simp [readOperation, readBuf_bufBytes (numFits_iff.mp hd), readTag_tagBytes,
        readNum_numBytes_end hslots])
  case rsmReset => exact decode_operationRequest 0x05 rfl
  case rsmIngest buf =>
    exact decode_operationRequest 0x06 (by simp [readOperation, readBuf_bufBytes_end hwf])
  case rsmComplete => exact decode_operationRequest 0x07 rfl
  case rsmExtract cap =>
    exact decode_operationRequest 0x08 (by simp [readOperation, readNum_numBytes_end hwf])
  case tfSplit frame =>
    exact decode_operationRequest 0x09 (by simp [readOperation, readBuf_bufBytes_end hwf])
  case tfJoin u1 u2 =>
    obtain ⟨h1, h2⟩ := hwf
    exact decode_operationRequest 0x0A
      (readOperation_tfJoin (readBuf_bufBytes (numFits_iff.mp h1) _) (readBuf_bufBytes_end h2))
  case lrRecvFrame p =>
    exact decode_operationRequest 0x0B (by simp [readOperation, readPort_portByte])
  case lrDeliver f cap =>
    obtain ⟨hf, hcap⟩ := hwf
    exact decode_operationRequest 0x0C (by
      simp [readOperation, readBuf_bufBytes (numFits_iff.mp hf), readNum_numBytes_end hcap])
  case arqSendStart p d =>
    exact decode_operationRequest 0x0D
      (readOperation_arqSendStart (readPort_portByte p _) (readBuf_bufBytes_end hwf))
  case arqSendPoll p =>
    exact decode_operationRequest 0x0E (by simp [readOperation, readPort_portByte])
  case arqRecvDatagram p cap =>
    exact decode_operationRequest 0x0F
      (by simp [readOperation, readPort_portByte, readNum_numBytes_end hwf])
  case relayPoll => exact decode_operationRequest 0x10 rfl
  case lfbInit => exact decode_operationRequest 0x11 rfl

/-! ## What the decoder answers -/

theorem readPackOperands_fits {bs : Bytes} {a offset cap : Nat} {tag : Tag}
    (h : readPackOperands bs = some (a, tag, offset, cap)) :
    numFits a = true ∧ numFits offset = true ∧ numFits cap = true := by
  simp only [readPackOperands, Option.bind_eq_bind, Option.bind_eq_some_iff, Prod.exists,
    Option.pure_def, Option.some.injEq, Prod.mk.injEq] at h
  obtain ⟨_, _, ha, _, _, -, _, _, ho, _, _, hcap, rfl, -, rfl, rfl⟩ := h
  exact ⟨numFits_iff.mpr (readNum_lt ha), numFits_iff.mpr (readNum_lt ho),
    numFits_iff.mpr (readNum_lt hcap)⟩

theorem readNum_fits {bs rest : Bytes} {n : Nat} (h : readNum bs = some (n, rest)) :
    numFits n = true := numFits_iff.mpr (readNum_lt h)

theorem readBuf_fits {bs rest b : Bytes} (h : readBuf bs = some (b, rest)) :
    numFits b.length = true := numFits_iff.mpr (readBuf_lt h)

/-- The operands that were read fit, selector by selector. -/
theorem readOperation_wellFormed {c : Cfg} {sel : Nat} {bs : Bytes} {i : Instr}
    (h : readOperation sel bs = some i) : i.wellFormed c = true := by
  unfold readOperation at h
  split at h <;> simp only [Option.bind_eq_bind, Option.bind_eq_some_iff, Prod.exists,
    Option.pure_def, Option.some.injEq, reduceCtorEq] at h
  · obtain ⟨_, _, -, _, _, _, _, hpack, rfl⟩ := h
    obtain ⟨ha, ho, hcap⟩ := readPackOperands_fits hpack
    simp [Instr.wellFormed, ha, ho, hcap]
  · obtain ⟨_, _, hbuf, rfl⟩ := h
    exact readBuf_fits hbuf
  · obtain ⟨_, _, -, rfl⟩ := h
    rfl
  · obtain ⟨_, _, hnum, rfl⟩ := h
    exact readNum_fits hnum
  · obtain ⟨_, _, hbuf, _, _, -, _, _, hnum, rfl⟩ := h
    simp [Instr.wellFormed, readBuf_fits hbuf, readNum_fits hnum]
  · subst h
    rfl
  · obtain ⟨_, _, hbuf, rfl⟩ := h
    exact readBuf_fits hbuf
  · subst h
    rfl
  · obtain ⟨_, _, hnum, rfl⟩ := h
    exact readNum_fits hnum
  · obtain ⟨_, _, hbuf, rfl⟩ := h
    exact readBuf_fits hbuf
  · obtain ⟨_, _, h1, _, _, h2, rfl⟩ := h
    simp [Instr.wellFormed, readBuf_fits h1, readBuf_fits h2]
  · obtain ⟨_, _, -, rfl⟩ := h
    rfl
  · obtain ⟨_, _, hbuf, _, _, hnum, rfl⟩ := h
    simp [Instr.wellFormed, readBuf_fits hbuf, readNum_fits hnum]
  · obtain ⟨_, _, -, _, _, hbuf, rfl⟩ := h
    exact readBuf_fits hbuf
  · obtain ⟨_, _, -, rfl⟩ := h
    rfl
  · obtain ⟨_, _, -, _, _, hnum, rfl⟩ := h
    exact readNum_fits hnum
  · subst h
    rfl
  · subst h
    rfl

theorem decodeOperation_eq_ok {bs : Bytes} {i : Instr} (h : decodeOperation bs = .ok i) :
    ∃ sel ops, bs = sel :: ops ∧ readOperation sel.toNat ops = some i := by
  unfold decodeOperation at h
  split at h
  · cases h
  · split at h
    · cases h
    · split at h
      · next hread => cases h; exact ⟨_, _, rfl, hread⟩
      · cases h

theorem decodeKind_wellFormed {c : Cfg} {bs : Bytes} {i : Instr} (h : decodeKind bs = .ok i) :
    i.wellFormed c = true := by
  unfold decodeKind at h
  split at h
  · cases h
  split at h
  · cases h
  next hpack =>
    obtain ⟨ha, ho, hcap⟩ := readPackOperands_fits hpack
    split_ifs at h <;> cases h <;> simp [Instr.wellFormed, ha, ho, hcap]

theorem decodeChunk_cases (p : Port) (bs : Bytes) :
    (∃ data, bs = 0x01#8 :: data ∧ decodeChunk p bs = .ok (.chunk1 p data)) ∨
      (∃ data, bs = 0x02#8 :: data ∧ decodeChunk p bs = .ok (.chunk2 p data)) ∨
      (bs.head? ≠ some 0x01#8 ∧ bs.head? ≠ some 0x02#8 ∧
        decodeChunk p bs = .bad (.noMarker p)) := by
  rcases bs with _ | ⟨m, data⟩
  · exact .inr (.inr ⟨nofun, nofun, rfl⟩)
  by_cases h1 : m = 0x01#8
  · exact .inl ⟨data, by rw [h1], by rw [decodeChunk, if_pos h1]⟩
  by_cases h2 : m = 0x02#8
  · exact .inr (.inl ⟨data, by rw [h2], by rw [decodeChunk, if_neg h1, if_pos h2]⟩)
  · exact .inr (.inr ⟨by simpa using h1, by simpa using h2, by
      rw [decodeChunk, if_neg h1, if_neg h2]⟩)

/-- All `decodeDataFrame` can do (30_encoding.md R51, R52, R54, R55): the bytes of a decoded frame
are its instruction's; a frame that is empty or shorter than its header is turned away. -/
theorem decodeDataFrame_cases (f : Bytes) :
    (∃ len payload, f = (0b0#1 ++ len) :: payload ∧
        decodeDataFrame f = .ok (.nonfragLo len payload)) ∨
      (∃ len payload, f = (0b10#2 ++ len) :: payload ∧
        decodeDataFrame f = .ok (.nonfragHi len payload)) ∨
      (∃ size tag payload, f = headerBytes (.first size tag) ++ payload ∧
        decodeDataFrame f = .ok (.frag1 size tag payload)) ∨
      (∃ size tag off8 payload, f = headerBytes (.other size tag off8) ++ payload ∧
        decodeDataFrame f = .ok (.fragn size tag off8 payload)) ∨
      (f = [] ∧ decodeDataFrame f = .bad .emptyFrame) ∨
      ((∃ b0 more, f = b0 :: more ∧
          ((kindOf b0 = .first ∧ more.length < 3) ∨ (kindOf b0 = .other ∧ more.length < 4))) ∧
        decodeDataFrame f = .bad .truncatedHeader) := by
  have hlo : ∀ b : Byte, b.toNat < 0xC0 → b.extractLsb' 7 1 = 0#1 →
      b = 0b0#1 ++ b.extractLsb' 0 7 := by decide
  have hhi : ∀ b : Byte, b.toNat < 0xC0 → b.extractLsb' 7 1 ≠ 0#1 →
      b = 0b10#2 ++ b.extractLsb' 0 6 := by decide
  rcases f with _ | ⟨b0, rest⟩
  · exact .inr (.inr (.inr (.inr (.inl ⟨rfl, rfl⟩))))
  rcases kindOf_cases b0 with ⟨hkind, hlt⟩ | ⟨hkind, hge, hlt⟩ | ⟨hkind, hge⟩
  · by_cases htop : b0.extractLsb' 7 1 = 0#1
    · exact .inl ⟨b0.extractLsb' 0 7, rest, by rw [← hlo b0 hlt htop],
        by simp only [decodeDataFrame, hkind, if_pos htop]⟩
    · exact .inr (.inl ⟨b0.extractLsb' 0 6, rest, by rw [← hhi b0 hlt htop],
        by simp only [decodeDataFrame, hkind, if_neg htop]⟩)
  · match rest with
    | b1 :: b2 :: b3 :: payload =>
      have hu := unpackHeader_first hge hlt b1 b2 b3 payload
      have hbytes := (packable_and_headerBytes_of_unpackHeader hu).2
      exact .inr (.inr (.inl ⟨_, _, payload, by rw [hbytes]; rfl,
        by simp only [decodeDataFrame, hkind]⟩))
    | [] | [_] | [_, _] =>
      exact .inr (.inr (.inr (.inr (.inr ⟨⟨b0, _, rfl, .inl ⟨hkind, by simp⟩⟩,
        by simp only [decodeDataFrame, hkind]⟩))))
  · match rest with
    | b1 :: b2 :: b3 :: b4 :: payload =>
      have hu := unpackHeader_other hge b1 b2 b3 b4 payload
      have hbytes := (packable_and_headerBytes_of_unpackHeader hu).2
      exact .inr (.inr (.inr (.inl ⟨_, _, b4, payload, by rw [hbytes]; rfl,
        by simp only [decodeDataFrame, hkind]⟩)))
    | [] | [_] | [_, _] | [_, _, _] =>
      exact .inr (.inr (.inr (.inr (.inr ⟨⟨b0, _, rfl, .inr ⟨hkind, by simp⟩⟩,
        by simp only [decodeDataFrame, hkind]⟩))))

/-- Settles O2: operands that were read fit their bytes, and a data frame is answered only after the
acknowledgement frames were ruled out. -/
theorem decodedInstrWellFormed : Obligations.DecodedInstrWellFormed := by
  rintro c ⟨fmt, p, bs⟩ i - h
  cases fmt with
  | operation =>
    obtain ⟨sel, ops, -, hread⟩ := decodeOperation_eq_ok h
    exact readOperation_wellFormed hread
  | kind => exact decodeKind_wellFormed h
  | chunk =>
    change decodeChunk p bs = .ok i at h
    rcases decodeChunk_cases p bs with ⟨data, -, e⟩ | ⟨data, -, e⟩ | ⟨-, -, e⟩ <;> rw [e] at h <;>
      cases h <;> rfl
  | frame =>
    change decodeFrame c p bs = .ok i at h
    rcases decodeFrame_cases c p bs with ⟨r, -, e⟩ | ⟨hnot, e⟩ <;> rw [e] at h
    · cases h
      cases r <;> rfl
    rcases decodeDataFrame_cases bs with ⟨len, payload, rfl, e'⟩ | ⟨len, payload, rfl, e'⟩ |
      ⟨_, _, _, -, e'⟩ | ⟨_, _, _, _, -, e'⟩ | ⟨-, e'⟩ | ⟨-, e'⟩ <;> rw [e'] at h <;> cases h
    · exact hnot
    · exact hnot
    · rfl
    · rfl

/-- Settles O3: the inversions of the three frame and chunk decoders say which bytes they read. -/
theorem frameBytesSurviveDecode : Obligations.FrameBytesSurviveDecode := by
  rintro c ⟨fmt, p, bs⟩ i hfmt h
  rcases hfmt with rfl | rfl
  · change decodeFrame c p bs = .ok i at h
    rcases decodeFrame_cases c p bs with ⟨r, rfl, e⟩ | ⟨-, e⟩ <;> rw [e] at h
    · cases h
      cases r <;> exact ⟨rfl, rfl⟩
    rcases decodeDataFrame_cases bs with ⟨len, payload, rfl, e'⟩ | ⟨len, payload, rfl, e'⟩ |
      ⟨_, _, _, rfl, e'⟩ | ⟨_, _, _, _, rfl, e'⟩ | ⟨-, e'⟩ | ⟨-, e'⟩ <;> rw [e'] at h <;>
      cases h <;> exact ⟨rfl, rfl⟩
  · change decodeChunk p bs = .ok i at h
    rcases decodeChunk_cases p bs with ⟨data, rfl, e⟩ | ⟨data, rfl, e⟩ | ⟨-, -, e⟩ <;>
      rw [e] at h <;> cases h <;> exact ⟨rfl, rfl⟩

/-- Settles O4: seven words written out from the spec, evaluated. -/
theorem specWordsDecode : Obligations.SpecWordsDecode := by
  refine ⟨?nonfrag, ?first, ?other, ?ack, ?chunk, ?operation, ?unknown⟩ <;> decide

end Sys2Proof.Proofs.InstructionEncoding
end

section
/-! PROOFS. 44_link_reader.md R116, R120, R123: the bounds of LR_RECV_FRAME (O33) and its exits
(O34). Both follow from one inversion of a round of its loop: the round settles the frame, finds the
deadline past, or goes on with a byte more or a tick less. -/

namespace Sys2Proof.Proofs.LinkReaderBounds

open Sys2Proof.Machine Sys2Proof.Proofs.HeaderCodec Sys2Proof.Proofs.Fragmenter
  Sys2Proof.Proofs.RawBytes

/-! ## How many bytes `lr_need` asks for -/

theorem lrNeedBody_eq_need {c : Cfg} {acc : Bytes} {h : Header} {k : Nat}
    (hneed : lrNeedBody c acc h = .need k) :
    headerValid c h = true ∧ acc.length < k ∧ k ≤ hdrFrameLength c h + 2 := by
  by_cases hbad : headerValid c h = false ∨
      isMarked acc ≠ decide (c.writeLimit < hdrFrameLength c h)
  · rw [lrNeedBody_of_misfit rfl hbad] at hneed
    cases hneed
  obtain ⟨hv, hfit⟩ := not_or.mp hbad
  rw [Bool.not_eq_false] at hv
  rw [lrNeedBody_of_fit rfl hv (not_not.mp hfit)] at hneed
  have hlead : (lead (isMarked acc)).length ≤ 1 := by rw [lead_length]; split <;> omega
  split at hneed
  · cases hneed
  split at hneed <;> cases hneed
  next hshort => exact ⟨hv, hshort, by omega⟩

/-- While more bytes are needed they are within the capacity of `lr[p].acc` (10_state.md R25). -/
theorem lrNeed_eq_need {c : Cfg} (hc : cfgLegal c = true) {acc : Bytes} {k : Nat}
    (hneed : lrNeed c acc = .need k) : acc.length < k ∧ k ≤ c.maxFrame + 2 := by
  obtain ⟨-, hmax, -⟩ := cfgLegal_frameSizes hc
  have hfive := hdrLen_le_five (kindOf ((lrLogical c.writeLimit acc).headD 0))
  have hlead : (lead (isMarked acc)).length ≤ 1 := by rw [lead_length]; split <;> omega
  simp only [lrNeed, ← lead_length] at hneed
  split at hneed
  · cases hneed
    omega
  split at hneed
  · next hmarked =>
    cases hneed
    simp only [Bool.and_eq_true, decide_eq_true_eq] at hmarked
    omega
  split at hneed
  · cases hneed
  split at hneed
  · next hshort =>
    cases hneed
    exact ⟨hshort, by omega⟩
  split at hneed
  · cases hneed
  · obtain ⟨hv, hlt, hle⟩ := lrNeedBody_eq_need hneed
    have hframe := hdrFrameLength_le_maxFrame hc hv
    omega

/-! ## A round of the loop of LR_RECV_FRAME -/

/-- A round that goes on: a byte more is held, or a read timed out and the clock moved
(44_link_reader.md R116). -/
structure LrRound (p : Port) (s t : State) : Prop where
  cfg : t.cfg = s.cfg
  clock : s.env.clock ≤ t.env.clock
  step : (∃ b k, s.env.rx.get p = .byte b k :: t.env.rx.get p ∧
      getAcc t p = getAcc s p ++ [b]) ∨
    (s.env.clock < t.env.clock ∧ getAcc t p = getAcc s p ∧
      ((∃ k, s.env.rx.get p = .silence k :: t.env.rx.get p) ∨
        s.env.rx.get p = t.env.rx.get p))

/-- All a round of the loop can do, whatever number of rounds is left after it. -/
theorem lrLoop_succ_cases (p : Port) (deadline : Nat) (s : State) (hbyte : 0 < s.cfg.tByte) :
    (∃ r, lrSettle p s = some r ∧ ∀ fuel, lrLoop p deadline (fuel + 1) s = r) ∨
      (∃ k, lrNeed s.cfg (getAcc s p) = .need k ∧
        ((deadline ≤ (now s).1 ∧ ∀ fuel, lrLoop p deadline (fuel + 1) s =
            (.timeout, setAcc (now s).2 p [])) ∨
          (s.env.clock < deadline ∧ ∃ t, LrRound p s t ∧
            ∀ fuel, lrLoop p deadline (fuel + 1) s = lrLoop p deadline fuel t))) := by
  rcases lrSettle_cases p s with ⟨hs, -⟩ | ⟨hs, -⟩ | ⟨hs, k, hneed⟩
  · exact .inl ⟨_, hs, fun fuel => by rw [lrLoop, hs]⟩
  · exact .inl ⟨_, hs, fun fuel => by rw [lrLoop, hs]⟩
  refine .inr ⟨k, hneed, ?_⟩
  obtain ⟨hblock, hread, hle, hrx, -⟩ := now_spec s
  rcases Nat.lt_or_ge (now s).1 deadline with hopen | hlate
  case inr =>
    refine .inl ⟨hlate, fun fuel => ?_⟩
    simp only [lrLoop, hs, elapsed, decide_eq_true hlate, if_true]
  refine .inr ⟨by omega, ?_⟩
  have helapsed : ¬ elapsed (now s).1 deadline = true := by simp [elapsed, hopen]
  obtain ⟨hblock', -, -, -, -, hcase⟩ :=
    rawReadByte_spec p (min s.cfg.tByte (deadline - (now s).1)) (now s).2
  rw [hrx, hread] at hcase
  have hcfg := hblock'.cfg.trans hblock.cfg
  have hacc : getAcc (rawReadByte p (min s.cfg.tByte (deadline - (now s).1)) (now s).2).2 p =
      getAcc s p := by rw [getAcc, hblock'.lr, hblock.lr, getAcc]
  rcases hcase with ⟨b, k, rest, hev, hr, hrest, hclock⟩ | ⟨k, rest, hev, hr, hrest, hclock⟩ |
    ⟨hev, hr, hrest, hclock⟩
  · refine ⟨setAcc _ p (getAcc s p ++ [b]), ⟨hcfg, ?_, .inl ⟨b, k, ?_, getAcc_setAcc_same _ _ _⟩⟩,
      fun fuel => ?_⟩
    · rw [setAcc_env, hclock]
      omega
    · rw [hev, setAcc_env, hrest]
    · simp only [lrLoop, hs, if_neg helapsed, hr, hacc]
  · refine ⟨_, ⟨hcfg, by omega, .inr ⟨by omega, hacc, .inl ⟨k, by rw [hev, hrest]⟩⟩⟩,
      fun fuel => ?_⟩
    simp only [lrLoop, hs, if_neg helapsed, hr]
  · refine ⟨_, ⟨hcfg, by omega, .inr ⟨by omega, hacc, .inr (by rw [hev, hrest])⟩⟩, fun fuel => ?_⟩
    simp only [lrLoop, hs, if_neg helapsed, hr]

theorem cfgLegal_tByte_pos {c : Cfg} (h : cfgLegal c = true) : 0 < c.tByte := by
  obtain ⟨-, -, -, -, -, -, -, -, -, -, hbyte, -⟩ := of_decide_eq_true h
  exact hbyte

/-- The rounds the loop can still take: a byte or a tick each (44_link_reader.md R120). -/
def roundsLeft (p : Port) (deadline : Nat) (s : State) : Nat :=
  (s.cfg.maxFrame + 2 - (getAcc s p).length) + (deadline - s.env.clock)

theorem LrRound.roundsLeft_lt {p : Port} {deadline k : Nat} {s t : State}
    (hc : cfgLegal s.cfg = true) (hneed : lrNeed s.cfg (getAcc s p) = .need k)
    (hopen : s.env.clock < deadline) (h : LrRound p s t) :
    roundsLeft p deadline t < roundsLeft p deadline s := by
  obtain ⟨hlt, hle⟩ := lrNeed_eq_need hc hneed
  have hclock := h.clock
  rw [roundsLeft, roundsLeft, h.cfg]
  rcases h.step with ⟨b, k, -, hacc⟩ | ⟨hmoved, hacc, -⟩ <;> rw [hacc]
  · rw [List.length_append, List.length_singleton]
    omega
  · omega

/-- With a round for each byte and tick left, more rounds change nothing. -/
theorem lrLoop_add_fuel {p : Port} {deadline fuel : Nat} {s : State} (hc : cfgLegal s.cfg = true)
    (hfuel : roundsLeft p deadline s < fuel) (n : Nat) :
    lrLoop p deadline (fuel + n) s = lrLoop p deadline fuel s := by
  induction fuel generalizing s with
  | zero => exact absurd hfuel (Nat.not_lt_zero _)
  | succ fuel ih =>
    rw [Nat.add_right_comm]
    rcases lrLoop_succ_cases p deadline s (cfgLegal_tByte_pos hc) with ⟨r, -, e⟩ |
      ⟨k, hneed, ⟨-, e⟩ | ⟨hopen, t, hround, e⟩⟩
    · rw [e, e]
    · rw [e, e]
    · have hless := hround.roundsLeft_lt hc hneed hopen
      rw [e, e]
      exact ih (hround.cfg ▸ hc) (by omega)

/-! ## What a receive attempt takes off its stream -/

def bringsByte (e : RxEvent) : Bool := (eventByte e).isSome

/-- `taken` stands in front of `rx[p]` in `s` and is gone in `t`; it has at most `bytes` bytes and
`silences` silences. -/
def TakesAtMost (p : Port) (bytes silences : Nat) (s t : State) : Prop :=
  ∃ taken, s.env.rx.get p = taken ++ t.env.rx.get p ∧
    (taken.filter bringsByte).length ≤ bytes ∧ (taken.filter (!bringsByte ·)).length ≤ silences

theorem takesAtMost_of_rx_eq {p : Port} {bytes silences : Nat} {s t : State}
    (h : t.env.rx = s.env.rx) : TakesAtMost p bytes silences s t :=
  ⟨[], by rw [h]; rfl, Nat.zero_le _, Nat.zero_le _⟩

theorem TakesAtMost.cons_byte {p : Port} {bytes silences k : Nat} {s t u : State} {b : Byte}
    (hrx : s.env.rx.get p = .byte b k :: t.env.rx.get p) (h : TakesAtMost p bytes silences t u) :
    TakesAtMost p (bytes + 1) silences s u := by
  obtain ⟨taken, htaken, hbytes, hsilences⟩ := h
  exact ⟨.byte b k :: taken, by rw [hrx, htaken]; rfl, Nat.succ_le_succ hbytes, hsilences⟩

theorem TakesAtMost.cons_silence {p : Port} {bytes silences k : Nat} {s t u : State}
    (hrx : s.env.rx.get p = .silence k :: t.env.rx.get p) (h : TakesAtMost p bytes silences t u) :
    TakesAtMost p bytes (silences + 1) s u := by
  obtain ⟨taken, htaken, hbytes, hsilences⟩ := h
  exact ⟨.silence k :: taken, by rw [hrx, htaken]; rfl, hbytes, Nat.succ_le_succ hsilences⟩

theorem TakesAtMost.mono {p : Port} {bytes bytes' silences silences' : Nat} {s t : State}
    (h : TakesAtMost p bytes silences s t) (hb : bytes ≤ bytes') (hs : silences ≤ silences') :
    TakesAtMost p bytes' silences' s t := by
  obtain ⟨taken, htaken, hbytes, hsilences⟩ := h
  exact ⟨taken, htaken, hbytes.trans hb, hsilences.trans hs⟩

theorem lrSettle_rx {p : Port} {s : State} {r : Recv × State} (h : lrSettle p s = some r) :
    r.1 ≠ .nothing ∧ r.2.env.rx = s.env.rx := by
  rcases lrSettle_cases p s with ⟨hs, -⟩ | ⟨hs, -⟩ | ⟨hs, -⟩ <;> rw [hs] at h <;> cases h <;>
    exact ⟨nofun, rfl⟩

/-- The loop takes the bytes that still fit and a silence for each tick to the deadline at most, and
never ends in Nothing (44_link_reader.md R120). -/
theorem lrLoop_takesAtMost {p : Port} {deadline fuel : Nat} {s : State}
    (hc : cfgLegal s.cfg = true) :
    (lrLoop p deadline fuel s).1 ≠ .nothing ∧
      TakesAtMost p (s.cfg.maxFrame + 2 - (getAcc s p).length) (deadline - s.env.clock) s
        (lrLoop p deadline fuel s).2 := by
  induction fuel generalizing s with
  | zero => exact ⟨nofun, takesAtMost_of_rx_eq rfl⟩
  | succ fuel ih =>
    rcases lrLoop_succ_cases p deadline s (cfgLegal_tByte_pos hc) with ⟨r, hs, e⟩ |
      ⟨k, hneed, ⟨-, e⟩ | ⟨hopen, t, hround, e⟩⟩ <;> rw [e]
    · exact ⟨(lrSettle_rx hs).1, takesAtMost_of_rx_eq (lrSettle_rx hs).2⟩
    · obtain ⟨-, -, -, hrx, -⟩ := now_spec s
      exact ⟨nofun, takesAtMost_of_rx_eq hrx⟩
    · obtain ⟨hlt, hle⟩ := lrNeed_eq_need hc hneed
      obtain ⟨hne, htakes⟩ := ih (s := t) (hround.cfg ▸ hc)
      have hclock := hround.clock
      refine ⟨hne, ?_⟩
      rw [hround.cfg] at htakes
      rcases hround.step with ⟨b, k, hrx, hacc⟩ | ⟨hmoved, hacc, ⟨k, hrx⟩ | hrx⟩ <;>
        rw [hacc] at htakes
      · rw [List.length_append, List.length_singleton] at htakes
        exact (htakes.cons_byte hrx).mono (by omega) (by omega)
      · exact (htakes.cons_silence hrx).mono (Nat.le_refl _) (by omega)
      · obtain ⟨taken, htaken, hcounts⟩ := htakes.mono (silences' := deadline - s.env.clock)
          (Nat.le_refl _) (by omega)
        exact ⟨taken, hrx.trans htaken, hcounts⟩

/-- 44_link_reader.md R114, R120. -/
theorem lrRecvFrame_takesAtMost (p : Port) {s : State} (hc : cfgLegal s.cfg = true) :
    ((lrRecvFrame p s).1 = .nothing ∧ ((lrRecvFrame p s).2.env.rx.get p = s.env.rx.get p ∨
        ∃ k, s.env.rx.get p = .silence k :: (lrRecvFrame p s).2.env.rx.get p)) ∨
      ((lrRecvFrame p s).1 ≠ .nothing ∧
        TakesAtMost p (s.cfg.maxFrame + 2) s.cfg.tFrame s (lrRecvFrame p s).2) := by
  obtain ⟨hblock, -, -, -, -, hcase⟩ := rawReadByte_spec p s.cfg.tByte (setAcc s p [])
  rw [lrRecvFrame]
  rcases hcase with ⟨b, k, rest, hev, hr, hrest, -⟩ | ⟨k, rest, hev, hr, hrest, -⟩ |
    ⟨hev, hr, hrest, -⟩
  · right
    simp only [hr]
    generalize hx : (rawReadByte p s.cfg.tByte (setAcc s p [])).2 = x at hblock hrest
    obtain ⟨hnow, hread, -, hrx, -⟩ := now_spec (setAcc x p [b])
    have hcfg : (now (setAcc x p [b])).2.cfg = s.cfg := hnow.cfg.trans hblock.cfg
    obtain ⟨hne, htakes⟩ := lrLoop_takesAtMost (p := p)
      (deadline := (now (setAcc x p [b])).1 + s.cfg.tFrame) (fuel := lrFuel s.cfg)
      (s := (now (setAcc x p [b])).2) (hcfg.symm ▸ hc)
    have hacc : getAcc (now (setAcc x p [b])).2 p = [b] := by
      rw [getAcc, hnow.lr]
      exact getAcc_setAcc_same _ _ _
    rw [hcfg, hacc, hread, Nat.add_sub_cancel_left] at htakes
    have hfirst : s.env.rx.get p = .byte b k :: (now (setAcc x p [b])).2.env.rx.get p := by
      rw [hrx, setAcc_env, hrest]
      exact hev
    exact ⟨hne, (htakes.cons_byte hfirst).mono (by simp) (Nat.le_refl _)⟩
  · exact .inl ⟨by simp only [hr], .inr ⟨k, by simp only [hr, hrest]; exact hev⟩⟩
  · exact .inl ⟨by simp only [hr], .inl (by simp only [hr, hrest]; exact hev.symm)⟩

/-- Settles O33: the measure `roundsLeft` bounds the rounds, and each round takes one event at
most. -/
theorem linkReaderBounded : Obligations.LinkReaderBounded := by
  refine ⟨fun p b deadline n s hc hacc hdeadline => lrLoop_add_fuel hc ?fuel n,
    fun p s t hc hexec => ?taken⟩
  case fuel =>
    rw [roundsLeft, hacc, lrFuel, List.length_singleton]
    omega
  case taken =>
    cases hexec
    rcases lrRecvFrame_takesAtMost p hc with ⟨hnothing, hrx⟩ | ⟨hne, taken, hrx, hbytes, hsilences⟩
    · rcases hrx with hrx | ⟨k, hrx⟩
      · exact ⟨[], hrx.symm, Nat.zero_le _, Nat.zero_le _, fun _ => .inl rfl⟩
      · exact ⟨[.silence k], hrx, Nat.zero_le _, Nat.le_add_left 1 _, fun _ => .inr ⟨k, rfl⟩⟩
    · refine ⟨taken, hrx, ?_, ?_, fun hreply => absurd ?_ hne⟩
      · rwa [List.filter_congr (q := bringsByte) fun e _ => by cases e <;> rfl]
      · rw [List.filter_congr (q := (!bringsByte ·)) fun e _ => by cases e <;> rfl]
        exact hsilences.trans (Nat.le_succ _)
      · rw [withReply_reply] at hreply
        cases hr : (lrRecvFrame p s).1 <;> rw [hr] at hreply <;> cases hreply

/-! ## The exits -/

/-- A frame that is returned is what the raw bytes hold with which `lr_need` was done. -/
def FrameDone (c : Cfg) (r : Recv) : Prop :=
  ∀ f, r = .frame f → ∃ acc, lrNeed c acc = .done ∧ f = lrLogical c.writeLimit acc

theorem lrLoop_frameDone {p : Port} {deadline fuel : Nat} {s : State}
    (hbyte : 0 < s.cfg.tByte) : FrameDone s.cfg (lrLoop p deadline fuel s).1 := by
  induction fuel generalizing s with
  | zero => exact nofun
  | succ fuel ih =>
    rcases lrLoop_succ_cases p deadline s hbyte with ⟨r, hs, e⟩ |
      ⟨k, hneed, ⟨-, e⟩ | ⟨hopen, t, hround, e⟩⟩ <;> rw [e]
    · rcases lrSettle_cases p s with ⟨hs', -⟩ | ⟨hs', hdone⟩ | ⟨hs', -⟩ <;> rw [hs'] at hs <;>
        cases hs
      · exact nofun
      · rintro f ⟨⟩
        exact ⟨_, hdone, rfl⟩
    · exact nofun
    · rw [← hround.cfg] at hbyte ⊢
      exact ih hbyte

theorem lrRecvFrame_frameDone {p : Port} {s : State} (hbyte : 0 < s.cfg.tByte) :
    FrameDone s.cfg (lrRecvFrame p s).1 := by
  have hread := (rawReadByte_spec p s.cfg.tByte (setAcc s p [])).1
  rw [lrRecvFrame]
  generalize rawReadByte p s.cfg.tByte (setAcc s p []) = r at hread ⊢
  dsimp only
  split
  · exact nofun
  · next b _ =>
    have hcfg : (now (setAcc r.2 p [b])).2.cfg = s.cfg := (now_spec _).1.cfg.trans hread.cfg
    rw [← hcfg] at hbyte ⊢
    exact lrLoop_frameDone hbyte

/-- A frame of one byte would be the byte 0x01, which is marker 1 (30_encoding.md, section 1), and a
marked frame is longer than a write. -/
theorem two_le_length_of_done {c : Cfg} (hc : cfgLegal c = true) {acc : Bytes}
    (hdone : lrNeed c acc = .done) (hf : formatValid c (lrLogical c.writeLimit acc) = true) :
    2 ≤ (lrLogical c.writeLimit acc).length := by
  obtain ⟨hw, -, -⟩ := cfgLegal_frameSizes hc
  obtain ⟨h, hu, hbody⟩ := unpackHeader_of_done rfl hdone
  obtain ⟨hv, hfit, -⟩ := lrNeedBody_eq_done rfl hbody
  obtain ⟨h', hh⟩ := Option.isSome_iff_exists.mp hf
  obtain ⟨hu', -, hlen⟩ := formatHeader_eq_some.mp hh
  rw [hu, Option.some.injEq] at hu'
  rw [hlen, ← hu']
  cases hm : isMarked acc with
  | true =>
    rw [hm] at hfit
    have hlong : c.writeLimit < hdrFrameLength c h := of_decide_eq_true hfit.symm
    omega
  | false =>
    rw [lrLogical_of_not_marked hm] at hu
    rcases unpackHeader_eq_some_cases hu with ⟨b0, rest, rfl, rfl, hpos, -⟩ |
      ⟨b0, b1, b2, b3, more, -, rfl, -⟩ | ⟨b0, b1, b2, b3, b4, more, -, rfl, -⟩
    · have hne : b0 ≠ 0x01#8 := by simpa [isMarked] using hm
      have hne' : b0.toNat ≠ 1 := fun h1 => hne (BitVec.eq_of_toNat_eq h1)
      rw [hdrFrameLength]
      omega
    · rw [hdrFrameLength]
      omega
    · rw [hdrFrameLength]
      omega

/-- What a returned frame is (44_link_reader.md R116; 30_encoding.md, section 1). -/
theorem lrRecvFrame_frame {p : Port} {s : State} (hc : cfgLegal s.cfg = true) {f : Bytes}
    (h : (lrRecvFrame p s).1 = .frame f) : formatValid s.cfg f = true ∧ 2 ≤ f.length := by
  have hvalid := lrRecvFrame_frameValid (cfgLegal_frameSizes hc).1 f h
  obtain ⟨acc, hdone, rfl⟩ := lrRecvFrame_frameDone (cfgLegal_tByte_pos hc) f h
  exact ⟨hvalid, two_le_length_of_done hc hdone hvalid⟩

theorem recvReply_eq_frame {r : Recv} {f : Bytes} (h : recvReply r = .ok (.frame f)) :
    r = .frame f := by
  cases r <;> cases h
  rfl

theorem recvReply_eq_malformed {r : Recv} :
    recvReply r = .error .malformedFrame ↔ r = .malformed := by
  cases r <;> simp [recvReply]

/-- Settles O34: `lrDone_lrRecvFrame` says what every exit leaves. -/
theorem linkReaderExits : Obligations.LinkReaderExits := by
  intro p s t hc hexec
  cases hexec
  obtain ⟨hframe, hacc, hctx⟩ := lrDone_lrRecvFrame p s
  refine ⟨congrArg List.length hacc, fun f hf => lrRecvFrame_frame hc (recvReply_eq_frame hf),
    fun hbad => ?_, fun hgood => ?_, hframe.cfg, hframe.arq, hframe.relay, hframe.requests,
    hframe.tx, hframe.draws, hframe.clock, hframe.rxSuffix,
    fun q hq => ⟨hframe.rx q hq, hframe.lr q hq⟩⟩
  · rw [withReply_ctx, hctx, if_pos (recvReply_eq_malformed.mp hbad)]
  · rw [withReply_ctx, hctx, if_neg (mt recvReply_eq_malformed.mpr hgood)]

end Sys2Proof.Proofs.LinkReaderBounds
end

section
/-! PROOFS. 45_arq_controller.md, the relay: RELAY_POLL with nothing in flight (O50) and with a
frame in flight (O51). The intake and the forwarding are one equation each; a receive attempt does
not see the reply that LR_RECV_FRAME by itself would leave. -/

namespace Sys2Proof.Proofs.RelayPoll

open Sys2Proof.Machine Sys2Proof.Proofs.RawBytes Sys2Proof.Proofs.ArqController

/-! ## A receive attempt does not see the reply -/

theorem now_withReply (s : State) (q : Reply) :
    now (withReply s q) = ((now s).1, withReply (now s).2 q) := by
  unfold now
  rw [withReply_env]
  split <;> rfl

theorem rawReadByte_withReply (p : Port) (d : Nat) (s : State) (q : Reply) :
    rawReadByte p d (withReply s q) =
      ((rawReadByte p d s).1, withReply (rawReadByte p d s).2 q) := by
  unfold rawReadByte
  rw [withReply_env]
  split <;> rfl

theorem lrSettle_withReply (p : Port) (s : State) (q : Reply) :
    lrSettle p (withReply s q) = (lrSettle p s).map fun r => (r.1, withReply r.2 q) := by
  have hneed : lrNeed (withReply s q).cfg (getAcc (withReply s q) p) =
      lrNeed s.cfg (getAcc s p) := rfl
  unfold lrSettle
  rw [hneed]
  cases lrNeed s.cfg (getAcc s p) <;> rfl

theorem lrLoop_withReply (p : Port) (deadline fuel : Nat) (s : State) (q : Reply) :
    lrLoop p deadline fuel (withReply s q) =
      ((lrLoop p deadline fuel s).1, withReply (lrLoop p deadline fuel s).2 q) := by
  induction fuel generalizing s with
  | zero => rfl
  | succ fuel ih =>
    rw [lrLoop, lrLoop, lrSettle_withReply]
    cases lrSettle p s with
    | some r => rfl
    | none =>
      simp only [Option.map_none, now_withReply, withReply_cfg, rawReadByte_withReply]
      split
      · rfl
      · split
        · exact ih (setAcc _ p (getAcc _ p ++ [_]))
        · exact ih _

theorem lrRecvFrame_withReply (p : Port) (s : State) (q : Reply) :
    lrRecvFrame p (withReply s q) = ((lrRecvFrame p s).1, withReply (lrRecvFrame p s).2 q) := by
  have hread := rawReadByte_withReply p s.cfg.tByte (setAcc s p []) q
  have hstart : setAcc (withReply s q) p [] = withReply (setAcc s p []) q := rfl
  rw [lrRecvFrame, lrRecvFrame, hstart, withReply_cfg, hread]
  generalize rawReadByte p s.cfg.tByte (setAcc s p []) = r
  dsimp only
  split
  · rfl
  · next b _ =>
    have hnow := now_withReply (setAcc r.2 p [b]) q
    have hheld : setAcc (withReply r.2 q) p [b] = withReply (setAcc r.2 p [b]) q := rfl
    rw [hheld, hnow]
    exact lrLoop_withReply p _ _ _ q

/-! ## The intake -/

theorem sendFrame_eq_wrote (p : Port) (f : Bytes) (s : State) :
    sendFrame p f s = wrote p (writesOf s.cfg f) s := sendFrame_eq p f s

/-- The intake as `relayIntake` states it, on what LR_RECV_FRAME leaves
(45_arq_controller.md R142, R143). -/
theorem relayIntake_eq {r : Recv × State} (hc : cfgLegal r.2.cfg = true) :
    relayIntake (withReply r.2 (recvReply r.1)) =
      withReply (relayTake r.1 r.2) (recvReply r.1) := by
  obtain ⟨r, s⟩ := r
  cases r with
  | nothing | timeout | malformed => rfl
  | frame f =>
    by_cases htake : isAck s.cfg f = false ∧ s.relay.queue.length < s.cfg.relayQueueCap
    · have hwrites := writesOf_ackFrame hc .relay
      have htest :
          (!isAck s.cfg f && decide (s.relay.queue.length < s.cfg.relayQueueCap)) = true := by
        simp [htake]
      simp only [relayIntake, relayTake, recvReply, withReply_reply, withReply_cfg,
        withReply_relay, if_pos htest, sendFrame_eq_wrote, setRelay_cfg, hwrites]
      exact if_pos htake
    · have htest :
          ¬ (!isAck s.cfg f && decide (s.relay.queue.length < s.cfg.relayQueueCap)) = true := by
        simpa using htake
      simp only [relayIntake, relayTake, recvReply, withReply_reply, withReply_cfg,
        withReply_relay, if_neg htest]
      exact if_neg htake

/-- The intake changes the queue and the writes on `UP` only. -/
theorem relayTake_cases (r : Recv) (s : State) :
    relayTake r s = s ∨ ∃ f, r = .frame f ∧ isAck s.cfg f = false ∧
      s.relay.queue.length < s.cfg.relayQueueCap ∧
      relayTake r s = wrote .up (writesOf s.cfg (ackFrame s.cfg .relay))
        (setRelay s { s.relay with queue := s.relay.queue ++ [f] }) := by
  cases r with
  | nothing | timeout | malformed => exact .inl rfl
  | frame f =>
    unfold relayTake
    dsimp only
    split
    · next htest =>
      rw [Bool.and_eq_true, Bool.not_eq_true', decide_eq_true_eq] at htest
      exact .inr ⟨f, rfl, htest.1, htest.2, sendFrame_eq_wrote _ _ _⟩
    · exact .inl rfl

theorem relayTake_inFlight (r : Recv) (s : State) :
    (relayTake r s).relay.inFlight = s.relay.inFlight ∧ (relayTake r s).cfg = s.cfg := by
  rcases relayTake_cases r s with e | ⟨f, -, -, -, e⟩ <;> rw [e] <;> exact ⟨rfl, rfl⟩

/-! ## Forwarding -/

/-- The head of the queue is written and its deadline starts (45_arq_controller.md R142). -/
theorem relaySend_wrote (x : State) :
    ∃ e : Env, relaySend x = { x with
        env := e, relay := { x.relay with deadline := e.clock + x.cfg.tAck } } ∧
      x.env.clock ≤ e.clock ∧ e.rx = x.env.rx ∧ e.draws = x.env.draws ∧
      e.tx = (wrote .down (writesOf x.cfg (x.relay.queue.headD [])) x).env.tx := by
  rw [relaySend_spec, sendFrame_eq]
  generalize hsent : setEnv x _ = y
  obtain ⟨hblock, hread, hle, hrx, htx, hdraws⟩ := now_spec y
  refine ⟨(now y).2.env, ?_, ?_⟩
  · rw [eq_of_sameBlock hblock, ← hread]
    subst hsent
    rfl
  · subst hsent
    exact ⟨hle.trans hread.ge, hrx, hdraws, htx⟩

/-- The four ways `relayAfterRead` ends (45_arq_controller.md R142, R144, R145). -/
theorem relayAfterRead_cases (matched : Bool) (s : State) :
    (matched = true ∧ relayAfterRead matched s = relayPop s) ∨
      (matched = false ∧ (now s).1 < s.relay.deadline ∧
        relayAfterRead matched s = (now s).2) ∨
      (matched = false ∧ s.relay.deadline ≤ (now s).1 ∧ s.relay.retries < s.cfg.maxRetry ∧
        relayAfterRead matched s = relaySend (setRelay (now s).2
          { s.relay with retries := s.relay.retries + 1 })) ∨
      (matched = false ∧ s.relay.deadline ≤ (now s).1 ∧ s.cfg.maxRetry ≤ s.relay.retries ∧
        relayAfterRead matched s = relayPop (now s).2) := by
  have hrelay := (now_spec s).1.relay
  cases matched with
  | true => exact .inl ⟨rfl, rfl⟩
  | false =>
    right
    rcases Nat.lt_or_ge (now s).1 s.relay.deadline with hearly | hlate
    · exact .inl ⟨rfl, hearly, by simp [relayAfterRead, elapsed, hearly]⟩
    rcases Nat.lt_or_ge s.relay.retries s.cfg.maxRetry with hretry | hgiveUp
    · exact .inr (.inl ⟨rfl, hlate, hretry, by
        simp [relayAfterRead, elapsed, hlate, hretry, hrelay]⟩)
    · exact .inr (.inr ⟨rfl, hlate, hgiveUp, by
        simp [relayAfterRead, elapsed, hlate, Nat.not_lt_of_le hgiveUp]⟩)

/-- With no matching acknowledgement only the clock counts (45_arq_controller.md R142, R145). -/
theorem relayWaited_relayAfterRead (x : State) :
    relayWaited x (replyOk (relayAfterRead false x)
      (.num (relayAfterRead false x).relay.queue.length)) := by
  obtain ⟨hblock, hread, hle, hrx, htx, hdraws⟩ := now_spec x
  have hcases := relayAfterRead_cases false x
  have hnow := eq_of_sameBlock hblock
  refine ⟨(now x).1, hle, ?_⟩
  rcases hcases with ⟨hf, -⟩ | ⟨-, hearly, e⟩ | ⟨-, hlate, hretry, e⟩ | ⟨-, hlate, hgiveUp, e⟩
  · cases hf
  · rw [e]
    exact ⟨hread.ge, hrx, hdraws, .inl ⟨hearly, htx, by rw [hnow]; rfl⟩⟩
  · obtain ⟨env, hsent, hclock', hrx', hdraws', htx'⟩ := relaySend_wrote
      (setRelay (now x).2 { x.relay with retries := x.relay.retries + 1 })
    rw [e, hsent]
    rw [setRelay_cfg, hblock.cfg, wrote, setEnv_env, setRelay_env, htx] at htx'
    refine ⟨hread.ge.trans hclock', hrx'.trans hrx, hdraws'.trans hdraws,
      .inr (.inl ⟨hlate, hretry, htx', ?_⟩)⟩
    rw [hnow]
    rfl
  · rw [e]
    exact ⟨hread.ge, hrx, hdraws, .inr (.inr ⟨hlate, hgiveUp, htx, by rw [hnow]; rfl⟩)⟩

/-! ## The obligations -/

theorem exec_relayPoll_of_wrongRole {s : State} (h : s.cfg.role ≠ .relay) :
    exec .relayPoll s = .next { s with reply := .refused .wrongRole } := by
  rw [exec, execRelayPoll, if_pos h]
  rfl

theorem exec_relayPoll_of_relay {s : State} (h : s.cfg.role = .relay) :
    let u := relayForward (relayTake (lrRecvFrame .up s).1 (lrRecvFrame .up s).2)
    exec .relayPoll s = .next (replyOk u (.num u.relay.queue.length)) := by
  dsimp only
  rw [exec, execRelayPoll, if_neg (not_not_intro h)]

/-- With nothing in flight only the queue decides. -/
theorem relayForward_of_resting {y : State} (h : y.relay.inFlight = false) :
    relayForward y = if y.relay.queue = [] then y
      else relaySend (setRelay y { y.relay with inFlight := true }) := by
  rw [relayForward, h]
  rfl

theorem relayForward_of_inFlight {y : State} (h : y.relay.inFlight = true) :
    relayForward y = relayAfterRead (recvMatches y.cfg (lrRecvFrame .down y).1)
      (lrRecvFrame .down y).2 := by
  rw [relayForward, h]
  rfl

/-- What the intake leaves before the forwarding, as `relayIntake` and as the model has it. -/
theorem intake_of_relay {s : State} (hc : cfgLegal s.cfg = true) :
    let y := relayTake (lrRecvFrame .up s).1 (lrRecvFrame .up s).2
    relayIntake (withReply (lrRecvFrame .up s).2 (recvReply (lrRecvFrame .up s).1)) =
        withReply y (recvReply (lrRecvFrame .up s).1) ∧
      y.cfg = s.cfg ∧ y.relay.inFlight = s.relay.inFlight := by
  have hframe := (lrDone_lrRecvFrame .up s).frame
  obtain ⟨hflight, hcfg⟩ := relayTake_inFlight (lrRecvFrame .up s).1 (lrRecvFrame .up s).2
  exact ⟨relayIntake_eq (hframe.cfg ▸ hc), hcfg.trans hframe.cfg, by rw [hflight, hframe.relay]⟩

/-- Settles O50: after the intake the queue is empty or its head is written. -/
theorem relayTakesAndForwards : Obligations.RelayTakesAndForwards := by
  refine fun s => ⟨exec_relayPoll_of_wrongRole, fun hrole hc hrest => ⟨_, _, rfl,
    exec_relayPoll_of_relay hrole, ?_⟩⟩
  obtain ⟨hintake, hcfg, hflight⟩ := intake_of_relay hc
  rw [hintake, ← hcfg]
  rw [hrest] at hflight
  generalize relayTake (lrRecvFrame .up s).1 (lrRecvFrame .up s).2 = y at hflight ⊢
  rw [relayForward_of_resting hflight]
  cases hq : y.relay.queue with
  | nil => exact .inl ⟨hq, by rw [if_pos rfl, hq]; rfl⟩
  | cons g rest =>
    right
    obtain ⟨e, hsent, hclock, hrx, -, htx⟩ :=
      relaySend_wrote (setRelay y { y.relay with inFlight := true })
    have hhead : (setRelay y { y.relay with inFlight := true }).relay.queue.headD [] = g := by
      rw [setRelay_relay, hq]
      rfl
    rw [hhead] at htx
    have hlength : y.relay.queue.length = rest.length + 1 := by rw [hq]; rfl
    rw [if_neg (by simp), hsent]
    exact ⟨g, rest, hq, hclock, hrx, htx, by rw [← hlength]; rfl⟩

/-- Settles O51: the receive attempt on `DOWN` starts from what the intake leaves. -/
theorem relayInFlight : Obligations.RelayInFlight := by
  intro s hrole hc hbusy
  refine ⟨_, _, _, rfl, rfl, exec_relayPoll_of_relay hrole, ?_⟩
  obtain ⟨hintake, hcfg, hflight⟩ := intake_of_relay hc
  rw [hintake, lrRecvFrame_withReply]
  rw [hbusy] at hflight
  generalize relayTake (lrRecvFrame .up s).1 (lrRecvFrame .up s).2 = y at hcfg hflight ⊢
  have hack := broughtAck_iff_recvMatches (p := .down) (s := y) (hcfg ▸ hc)
  rw [relayForward_of_inFlight hflight]
  generalize lrRecvFrame .down y = r at hack ⊢
  cases hmatch : recvMatches y.cfg r.1 with
  | true => exact .inl ⟨hack.mpr hmatch, rfl⟩
  | false =>
    exact .inr ⟨mt hack.mp (by simp [hmatch]), relayWaited_relayAfterRead r.2⟩

end Sys2Proof.Proofs.RelayPoll
end

section
/-! PROOFS. 10_state.md R23: RSM_INGEST keeps the invariant of the context. A bound context that may
still lack position 0 is kept by every acceptance of a slice at a position not yet received; binding
makes one with nothing received. -/

namespace Sys2Proof.Proofs.ContextInvariant

open Sys2Proof.Machine Sys2Proof.Proofs.HeaderCodec Sys2Proof.Proofs.Fragmenter
  Sys2Proof.Proofs.Reassembler

/-! ## Positions received -/

theorem getElem?_set_true_eq_some_iff {l : List Bool} {p : Nat} (hp : p < l.length) (q : Nat) :
    (l.set p true)[q]? = some true ↔ q = p ∨ l[q]? = some true := by
  by_cases hq : q = p
  · subst hq
    simp [hp]
  · rw [List.getElem?_set_ne (Ne.symm hq)]
    simp [hq]

/-- Receiving one position more adds its share to a sum over the positions received. -/
theorem sum_received_set {l : List Bool} {n p : Nat} (F : Nat → Nat) (hn : p < n)
    (hp : p < l.length) (hnew : l[p]? ≠ some true) :
    (∑ q ∈ Finset.range n, if (l.set p true)[q]? = some true then F q else 0) =
      (∑ q ∈ Finset.range n, if l[q]? = some true then F q else 0) + F p := by
  have hmem := Finset.mem_range.mpr hn
  have hrest : ∀ q ∈ (Finset.range n).erase p,
      (if (l.set p true)[q]? = some true then F q else 0) =
        if l[q]? = some true then F q else 0 := by
    intro q hq
    rw [List.getElem?_set_ne (Finset.ne_of_mem_erase hq).symm]
  rw [← Finset.sum_erase_add _ _ hmem, ← Finset.sum_erase_add _ _ hmem, Finset.sum_congr rfl hrest,
    if_pos ((getElem?_set_true_eq_some_iff hp p).mpr (.inl rfl)), if_neg hnew, Nat.add_zero]

theorem count_set_true {l : List Bool} {p : Nat} (hp : p < l.length) (hnew : l[p]? ≠ some true) :
    (l.set p true).count true = l.count true + 1 := by
  have hfalse : l[p] ≠ true := fun h => hnew (by rw [List.getElem?_eq_getElem hp, h])
  rw [List.count_set hp]
  simp [hfalse]

/-- A range write leaves what was written written. -/
theorem isSome_read_writeRange {m : Memory} {i : Nat} (h : (Memory.read m i).isSome = true)
    (a : Nat) (v : Bytes) : (Memory.read (Memory.writeRange m a v) i).isSome = true := by
  by_cases hin : i < a ∨ a + v.length ≤ i
  · rwa [Memory.read_writeRange_outside m a v hin]
  · obtain ⟨k, rfl⟩ := Nat.exists_eq_add_of_le (show a ≤ i by omega)
    rw [Memory.read_writeRange_inside m a v (by omega)]
    rfl

/-! ## Contexts being filled -/

/-- What holds of a context from its binding on, whether or not position 0 was accepted
(10_state.md R23). -/
structure Filling (c : Cfg) (x : Ctx) : Prop where
  busy : x.idle = false
  bufWf : Memory.wf x.buf = true
  bufBounds : ∀ cell ∈ x.buf, cell.1 < c.maxDatagram
  receivedLength : x.received.length = nmax c
  size : lengthOk c x.expectedSize
  fragCount : x.fragCount = nfrag c x.expectedSize
  sizeTable : x.sizeTable =
    sizeTableOf c x.expectedSize ++ List.replicate (nmax c - nfrag c x.expectedSize) 0
  beyond : ∀ p, x.fragCount ≤ p → x.received[p]? ≠ some true
  filled : x.filled = receivedBytes x
  curIndex : x.curIndex ≤ x.received.count true
  written : ∀ p, x.received[p]? = some true → ∀ i, i < sliceLen c x.expectedSize p →
    (Memory.read x.buf (sliceStart c p + i)).isSome = true

theorem received_bindCtx_ne_true (c : Cfg) (x : Ctx) (size : Nat) (tag : Tag) (p : Nat) :
    (bindCtx c x size tag).received[p]? ≠ some true := by
  rw [bindCtx_received, List.getElem?_replicate]
  split <;> simp

theorem ctxInv_idleWith {c : Cfg} {x : Ctx} (h : CtxInv c x) : CtxInv c (Ctx.idleWith c x.buf) :=
  ⟨h.bufWf, h.bufBounds, List.length_replicate, List.length_replicate, fun _ => rfl, nofun⟩

theorem filling_of_ctxInv {c : Cfg} {x : Ctx} (h : CtxInv c x) (hbusy : x.idle = false) :
    Filling c x := by
  obtain ⟨hsize, hcount, htable, -, hbeyond, hfilled, hcur, hwritten⟩ := h.bound hbusy
  exact ⟨hbusy, h.bufWf, h.bufBounds, h.receivedLength, hsize, hcount, htable, hbeyond, hfilled,
    hcur, hwritten⟩

/-- Nothing is received of a datagram just bound (42_reassembler.md R90). -/
theorem filling_bindCtx {c : Cfg} {x : Ctx} (h : CtxInv c x) {size : Nat} (hsize : lengthOk c size)
    (tag : Tag) : Filling c (bindCtx c x size tag) := by
  have hnone := received_bindCtx_ne_true c x size tag
  refine ⟨rfl, h.bufWf, h.bufBounds, List.length_replicate, hsize, rfl, rfl, fun p _ => hnone p, ?_,
    Nat.zero_le _, fun p hp => absurd hp (hnone p)⟩
  simp only [receivedBytes, hnone, if_false, bindCtx_filled, List.map_const', List.sum_replicate,
    smul_zero]

section Filling

variable {c : Cfg} {x : Ctx}

theorem Filling.sizeTable_getElem? (h : Filling c x) {p : Nat} (hp : p < x.fragCount) :
    x.sizeTable[p]? = some (posHdrLen p + sliceLen c x.expectedSize p) := by
  rw [h.fragCount] at hp
  rw [h.sizeTable, List.getElem?_append_left (by rwa [sizeTableOf_length]),
    sizeTableOf_getElem? hp]

theorem Filling.tableLength (hO : 0 < c.otherCap) (h : Filling c x) :
    x.sizeTable.length = nmax c := by
  have hle := nfrag_le_nmax hO h.size.2
  rw [h.sizeTable, List.length_append, sizeTableOf_length, List.length_replicate]
  omega

/-- With position 0 accepted it is a bound context. -/
theorem Filling.ctxInv (hO : 0 < c.otherCap) (h : Filling c x)
    (hfirst : x.received[0]? = some true) : CtxInv c x :=
  ⟨h.bufWf, h.bufBounds, h.tableLength hO, h.receivedLength,
    fun hidle => (Bool.eq_false_iff.mp h.busy hidle).elim,
    fun _ => ⟨h.size, h.fragCount, h.sizeTable, hfirst, h.beyond, h.filled, h.curIndex, h.written⟩⟩

/-- Accepting the slice of a position not yet received (42_reassembler.md R93). -/
theorem Filling.accept (hO : 0 < c.otherCap) (h : Filling c x) {p : Nat}
    (hp : p < nfrag c x.expectedSize) (hnew : x.received[p]? ≠ some true) {payload : Bytes}
    (hlen : payload.length = sliceLen c x.expectedSize p) (n : Nat) :
    Filling c (acceptCtx x p (sliceStart c p) payload n) := by
  have hmax := nfrag_le_nmax hO h.size.2
  have hin : p < x.received.length := by
    have := h.receivedLength
    omega
  have hiff (q : Nat) := getElem?_set_true_eq_some_iff hin q
  have hstart := (lt_nfrag_iff hO h.size.1 p).mp hp
  have hslice := sliceLen_le c x.expectedSize p
  have hcount := h.fragCount
  have hsize := h.size.2
  refine ⟨h.busy, Memory.wf_writeRange h.bufWf _ _, fun cell hcell => ?bounds,
    by rw [acceptCtx_received, List.length_set]; exact h.receivedLength, h.size, h.fragCount,
    h.sizeTable, fun q hq => ?beyond, ?filled, ?curIndex, fun q hq i hi => ?written⟩
  case bounds =>
    rcases Memory.mem_writeRange hcell with ⟨-, hlt⟩ | hold
    · omega
    · exact h.bufBounds cell hold
  case beyond =>
    rw [acceptCtx_fragCount] at hq
    rw [acceptCtx_received, ne_eq, hiff]
    rintro (rfl | hold)
    · omega
    · exact h.beyond q hq hold
  case filled =>
    have hsum : receivedBytes (acceptCtx x p (sliceStart c p) payload n) =
        ∑ q ∈ Finset.range (x.received.set p true).length,
          if (x.received.set p true)[q]? = some true then x.sizeTable.getD q 0 - posHdrLen q
            else 0 :=
      rfl
    have hentry : x.sizeTable.getD p 0 - posHdrLen p = payload.length := by
      rw [List.getD_eq_getElem?_getD, h.sizeTable_getElem? (hcount ▸ hp), Option.getD_some,
        Nat.add_sub_cancel_left, hlen]
    rw [hsum, List.length_set, sum_received_set _ hin hin hnew, hentry, acceptCtx_filled, h.filled]
    rfl
  case curIndex =>
    have hcur := h.curIndex
    rw [acceptCtx_received, count_set_true hin hnew, acceptCtx]
    dsimp only
    split <;> omega
  case written =>
    rw [acceptCtx_buf]
    rcases (hiff q).mp hq with rfl | hold
    · rw [Memory.read_writeRange_inside _ _ _ (by rw [hlen]; exact hi)]
      rfl
    · exact isSome_read_writeRange (h.written q hold i hi) _ _

end Filling

/-! ## RSM_INGEST -/

/-- The payload of a format-valid fragment is the slice of its position. -/
theorem length_drop_of_first {c : Cfg} {f : Bytes} {size : BitVec 13} {tag : Tag}
    (hf : formatHeader c f = some (.first size tag)) :
    lengthOk c size.toNat ∧ (f.drop 4).length = sliceLen c size.toNat 0 := by
  obtain ⟨-, hv, hlen⟩ := formatHeader_eq_some.mp hf
  refine ⟨(headerValid_first_iff _ _ _).mp hv, ?_⟩
  rw [List.length_drop, hlen, hdrFrameLength, Nat.add_sub_cancel_left]
  rfl

theorem length_drop_of_other {c : Cfg} {f : Bytes} {size : BitVec 13} {tag : Tag} {off8 : BitVec 8}
    (hf : formatHeader c f = some (.other size tag off8)) :
    otherValid c size off8 ∧ (f.drop 5).length = sliceLen c size.toNat (hdrPos c off8) := by
  obtain ⟨-, hv, hlen⟩ := formatHeader_eq_some.mp hf
  have hvalid := (headerValid_other_iff _ _ _ _).mp hv
  refine ⟨hvalid, ?_⟩
  rw [List.length_drop, hlen, hdrFrameLength, Nat.add_sub_cancel_left, sliceLen,
    if_neg (hdrPos_ne_zero c off8), sliceStart_hdrPos hvalid]

/-- RSM_INGEST keeps the invariant of the context, whatever the frame (42_reassembler.md R94). -/
theorem ctxInv_ingestCtx {c : Cfg} {x : Ctx} (hc : cfgLegal c = true) (h : CtxInv c x) (f : Bytes) :
    CtxInv c (ingestCtx c x f) := by
  obtain ⟨-, -, -, hO⟩ := cfgLegal_fragmentCaps hc
  rcases ingestCtx_cases c x f with ⟨-, e⟩ | ⟨-, e⟩ | ⟨size, tag, hf, -, -, e⟩ |
    ⟨size, tag, off8, hf, hbusy, -, hsize, hnew, -, e⟩ <;> rw [e]
  · exact ctxInv_idleWith h
  · exact h
  · obtain ⟨hsize, hlen⟩ := length_drop_of_first hf
    have hfill := filling_bindCtx h hsize tag
    have hin : 0 < (bindCtx c x size.toNat tag).received.length := by
      rw [hfill.receivedLength]
      exact nfrag_pos _ _
    exact (hfill.accept hO (nfrag_pos _ _) (received_bindCtx_ne_true _ _ _ _ 0) hlen
      f.length).ctxInv hO
      ((getElem?_set_true_eq_some_iff hin 0).mpr (.inl rfl))
  · obtain ⟨hvalid, hlen⟩ := length_drop_of_other hf
    have hfirst := (h.bound hbusy).first
    rw [← sliceStart_hdrPos hvalid]
    rw [← hsize] at hlen
    refine ((filling_of_ctxInv h hbusy).accept hO ?_ hnew hlen f.length).ctxInv hO ?_
    · rw [hsize]
      exact hdrPos_lt_nfrag hO hvalid
    · rw [acceptCtx_received, List.getElem?_set_ne (hdrPos_ne_zero c off8), hfirst]

/-- LR_DELIVER ingests, resets, or leaves the context (44_link_reader.md R119). -/
theorem ctxInv_deliver {s : State} (hc : cfgLegal s.cfg = true) (h : CtxInv s.cfg s.ctx) (f : Bytes)
    (cap : Nat) : CtxInv s.cfg (deliver f cap s).2.ctx := by
  rcases deliver_cases f cap s with ⟨-, e⟩ | e | (⟨-, e⟩ | ⟨-, e⟩) | ⟨-, -, e⟩ <;> rw [e]
  · exact ctxInv_idleWith h
  · exact h
  · exact h
  · exact h
  · exact ctxInv_ingestCtx hc h f

end Sys2Proof.Proofs.ContextInvariant
end

section
/-! PROOFS. The invariant of the state (O55, O56): every step keeps it, and reset has it. One rule
per update of the state says which part of the invariant it touches; the sender's part is carried by
the two ways a sender goes on, the relay's by the cases of its operations, and the receiver's by an
induction over its rounds. -/

namespace Sys2Proof.Machine

open Sys2Proof.Proofs.HeaderCodec Sys2Proof.Proofs.Fragmenter
  Sys2Proof.Proofs.Reassembler Sys2Proof.Proofs.TransportFramer Sys2Proof.Proofs.ArqController
  Sys2Proof.Proofs.Exceptions Sys2Proof.Proofs.LinkReaderBounds Sys2Proof.Proofs.RelayPoll
  Sys2Proof.Proofs.ContextInvariant Sys2Proof.Proofs.ResetAndHazards

/-! ## Physical writes -/

/-- What TF_SPLIT answers is within the write limit and a marker (20_memory.md R36). -/
theorem writeFits_of_mem_writesOf {c : Cfg} {f u : Bytes} (hu : u ∈ writesOf c f) :
    writeFits c u = true := by
  simp only [writesOf, tfSplit] at hu
  simp only [writeFits, Bool.and_eq_true, decide_eq_true_eq]
  split at hu
  · cases hu
  · next hlen =>
    split at hu
    · obtain rfl := List.mem_singleton.mp hu
      omega
    · rcases List.mem_pair.mp hu with rfl | rfl
      · simp only [List.length_cons, List.length_take]
        omega
      · simp only [List.length_cons, List.length_drop]
        omega

/-- Every write on every port fits. -/
def WritesFit (c : Cfg) (tx : PerPort (List Bytes)) : Prop :=
  ∀ p, ∀ u ∈ tx.get p, writeFits c u = true

theorem WritesFit.after_wrote {s : State} {c : Cfg} (h : WritesFit c s.env.tx) (p : Port)
    (f : Bytes) :
    WritesFit c (wrote p (writesOf c f) s).env.tx := by
  intro q u hu
  rw [wrote, setEnv_env] at hu
  by_cases hq : q = p
  · subst hq
    rw [PerPort.get_set_same] at hu
    exact (List.mem_append.mp hu).elim (h q u) writeFits_of_mem_writesOf
  · rw [PerPort.get_set_ne _ hq] at hu
    exact h q u hu

/-! ## The bytes held for a port -/

theorem lrInv_nil (c : Cfg) : LrInv c [] := ⟨Nat.zero_le _, 1, rfl⟩

theorem lrInv_of_need {c : Cfg} (hc : cfgLegal c = true) {acc : Bytes} {k : Nat}
    (h : lrNeed c acc = .need k) : LrInv c acc := by
  obtain ⟨hlt, hle⟩ := lrNeed_eq_need hc h
  exact ⟨(Nat.le_of_lt hlt).trans hle, k, h⟩

/-! ## Updates of the state -/

section Updates

variable {s t : State}

/-- The invariant says nothing of the reply, the requests and the rest of the environment. -/
theorem StateInv.congr (h : StateInv s) (hcfg : t.cfg = s.cfg) (hctx : t.ctx = s.ctx)
    (hlr : t.lr = s.lr) (harq : t.arq = s.arq) (hrelay : t.relay = s.relay)
    (htx : t.env.tx = s.env.tx) : StateInv t := by
  obtain ⟨h1, h2, h3, h4, h5, h6⟩ := h
  refine ⟨hcfg ▸ h1, ?_, fun p => ?_, ?_, ?_, ?_⟩
  · rw [hcfg, hctx]
    exact h2
  · rw [getAcc, hcfg, hlr]
    exact h3 p
  · rw [hcfg, harq]
    exact h4
  · rw [hcfg, hrelay]
    exact h5
  · rw [hcfg, htx]
    exact h6

theorem StateInv.after_withReply (h : StateInv s) (r : Reply) : StateInv (withReply s r) :=
  h.congr rfl rfl rfl rfl rfl rfl

theorem StateInv.sameBlock (h : StateInv s) (hb : SameBlock s t) (htx : t.env.tx = s.env.tx) :
    StateInv t :=
  h.congr hb.cfg hb.ctx hb.lr hb.arq hb.relay htx

theorem StateInv.after_now (h : StateInv s) : StateInv (now s).2 := by
  obtain ⟨hblock, -, -, -, htx, -⟩ := now_spec s
  exact h.sameBlock hblock htx

theorem StateInv.after_setCtx (h : StateInv s) {x : Ctx} (hx : CtxInv s.cfg x) :
    StateInv (setCtx s x) :=
  ⟨h.cfg, hx, h.lr, h.arq, h.relay, h.tx⟩

theorem StateInv.after_resetCtx (h : StateInv s) : StateInv (resetCtx s) :=
  h.after_setCtx (ctxInv_idleWith h.ctx)

theorem StateInv.after_setAcc (h : StateInv s) (p : Port) {acc : Bytes} (hacc : LrInv s.cfg acc) :
    StateInv (setAcc s p acc) := by
  refine ⟨h.cfg, h.ctx, fun q => ?_, h.arq, h.relay, h.tx⟩
  by_cases hq : q = p
  · subst hq
    rw [getAcc_setAcc_same]
    exact hacc
  · rw [getAcc_setAcc_ne s hq]
    exact h.lr q

theorem StateInv.after_clearAcc (h : StateInv s) (p : Port) : StateInv (setAcc s p []) :=
  h.after_setAcc p (lrInv_nil _)

theorem StateInv.after_setRelay (h : StateInv s) {r : Relay} (hr : RelayInv s.cfg r) :
    StateInv (setRelay s r) :=
  ⟨h.cfg, h.ctx, h.lr, h.arq, hr, h.tx⟩

theorem StateInv.after_setArq (h : StateInv s) {a : Arq} (ha : ArqInv s.cfg a) :
    StateInv (setArq s a) :=
  ⟨h.cfg, h.ctx, h.lr, ha, h.relay, h.tx⟩

theorem StateInv.after_wrote (h : StateInv s) (p : Port) (f : Bytes) :
    StateInv (wrote p (writesOf s.cfg f) s) :=
  ⟨h.cfg, h.ctx, h.lr, h.arq, h.relay, WritesFit.after_wrote h.tx p f⟩

theorem StateInv.after_sendFrame (h : StateInv s) (p : Port) (f : Bytes) :
    StateInv (sendFrame p f s) := by
  rw [sendFrame_eq_wrote]
  exact h.after_wrote p f

theorem StateInv.after_recvTimeout (h : StateInv s) (p : Port) : StateInv (recvTimeout p s) :=
  (h.after_clearAcc p).after_resetCtx.after_withReply _

end Updates

/-! ## The Link Reader -/

section LinkReader

variable {s : State}

theorem StateInv.after_lrRecvFrame (h : StateInv s) (p : Port) : StateInv (lrRecvFrame p s).2 := by
  obtain ⟨hframe, hacc, hctx⟩ := lrDone_lrRecvFrame p s
  refine ⟨hframe.cfg ▸ h.cfg, ?_, fun q => ?_, ?_, ?_, ?_⟩ <;> rw [hframe.cfg]
  · rw [hctx]
    split
    · exact ctxInv_idleWith h.ctx
    · exact h.ctx
  · by_cases hq : q = p
    · rw [hq, hacc]
      exact lrInv_nil _
    · rw [getAcc, hframe.lr q hq]
      exact h.lr q
  · rw [hframe.arq]
    exact h.arq
  · rw [hframe.relay]
    exact h.relay
  · rw [hframe.tx]
    exact h.tx

/-- The bytes of a physical unit are held only while more are needed. -/
theorem StateInv.after_lrFeed (h : StateInv s) (p : Port) (bs : Bytes) :
    StateInv (lrFeed p bs s).2 := by
  induction bs generalizing s with
  | nil => exact h
  | cons b rest ih =>
    rw [lrFeed]
    have hunread {u : State} (hu : StateInv u) : StateInv (unread p rest u) := by
      obtain ⟨hblock, -, htx, -⟩ := unread_spec p rest u
      exact hu.sameBlock hblock htx
    have hcleared : StateInv (setAcc (setAcc s p (getAcc s p ++ [b])) p []) := by
      rw [setAcc, setAcc, PerPort.set_set]
      exact h.after_clearAcc p
    rcases lrSettle_cases p (setAcc s p (getAcc s p ++ [b])) with
      ⟨hs, -⟩ | ⟨hs, -⟩ | ⟨hs, k, hneed⟩ <;> rw [hs]
    · exact hunread hcleared.after_resetCtx
    · exact hunread hcleared
    · rw [getAcc_setAcc_same] at hneed
      exact ih (h.after_setAcc p (lrInv_of_need h.cfg hneed))

theorem StateInv.after_arrive (h : StateInv s) (p : Port) (bs : Bytes) :
    StateInv (arrive p bs s) := by
  obtain ⟨hblock, -, htx, -⟩ := arrive_spec p bs s
  exact h.sameBlock hblock htx

theorem StateInv.after_unitReceived (h : StateInv s) (p : Port) (u : Bytes) :
    StateInv (unitReceived p u s).2 := by
  rcases unitReceived_cases p u s with ⟨-, e⟩ | ⟨-, e⟩ <;> rw [e]
  · exact h.after_lrFeed p u
  · exact h.after_arrive p u

theorem StateInv.after_deliver (h : StateInv s) (f : Bytes) (cap : Nat) :
    StateInv (deliver f cap s).2 := by
  rw [deliver_snd]
  exact h.after_setCtx (ctxInv_deliver h.cfg h.ctx f cap)

theorem StateInv.after_ingest (h : StateInv s) (f : Bytes) : StateInv (ingest f s) :=
  (h.after_setCtx (ctxInv_ingestCtx h.cfg h.ctx f)).after_withReply _

end LinkReader

/-! ## The sender -/

/-- A sender with a frame outstanding, whatever its state is called. -/
structure Outstanding (c : Cfg) (a : Arq) : Prop where
  retries : a.retries ≤ c.maxRetry
  slots : a.frames.length ≤ nmax c
  frames : ∀ f ∈ a.frames, formatValid c f = true
  nframes : a.nframes = a.frames.length
  idx : a.idx < a.nframes

theorem Outstanding.awaiting {c : Cfg} {a : Arq} (h : Outstanding c a) (d : Nat) :
    ArqInv c { a with state := .awaitingAck, deadline := d } :=
  ⟨h.retries, Nat.le_of_lt h.idx, h.slots, h.frames, fun _ => h.nframes, fun _ => h.idx, nofun,
    nofun, nofun, nofun⟩

theorem outstanding_of_sending {c : Cfg} {a : Arq} (h : ArqInv c a)
    (hsending : isSending a.state = true) : Outstanding c a :=
  ⟨h.retries, h.slots, h.frames,
    h.nframes (by rintro hidle; rw [hidle] at hsending; cases hsending),
    h.sending hsending⟩

section Sender

variable {p : Port} {f : Bytes} {a : Arq} {v : OkValue} {x u : State}

/-- A sender that has written the frame that is now outstanding. -/
theorem StateInv.after_senderWrote (h : StateInv x) (ha : Outstanding x.cfg a)
    (hw : senderWrote p f a v x u) : StateInv u := by
  obtain ⟨-, -, htx, hu⟩ := hw
  have hfit := WritesFit.after_wrote h.tx p f
  rw [← htx] at hfit
  rw [hu]
  exact ⟨h.cfg, h.ctx, h.lr, ha.awaiting _, h.relay, hfit⟩

/-- A sender that waits, retries or gives up. -/
theorem StateInv.after_senderWaited (h : StateInv x) (ha : x.arq.state = .awaitingAck)
    (hw : senderWaited x u) : StateInv u := by
  have hout := outstanding_of_sending h.arq (by rw [ha]; rfl)
  obtain ⟨hretries, hslots, hframes, hnframes, hidx⟩ := hout
  obtain ⟨-, -, htx, -, ⟨-, hu⟩ | ⟨-, hlt, hu⟩ | ⟨-, hge, hu⟩⟩ := hw
  · rw [hu]
    exact h.congr rfl rfl rfl rfl rfl htx
  · have ha' : ArqInv x.cfg { x.arq with state := .retrying } :=
      ⟨hretries, Nat.le_of_lt hidx, hslots, hframes, fun _ => hnframes, fun _ => hidx, fun _ => hlt,
        nofun, nofun, nofun⟩
    rw [hu]
    exact (h.after_setArq ha').congr rfl rfl rfl rfl rfl htx
  · have ha' : ArqInv x.cfg { x.arq with state := .failed } :=
      ⟨hretries, Nat.le_of_lt hidx, hslots, hframes, fun _ => hnframes, nofun, nofun,
        fun _ => ⟨Nat.le_antisymm hretries hge, hidx⟩, nofun, nofun⟩
    rw [hu]
    exact (h.after_setArq ha').congr rfl rfl rfl rfl rfl htx

/-- The `AwaitingAck` arm of ARQ_SEND_POLL (45_arq_controller.md R131, R132). -/
theorem StateInv.after_pollAfterRead (h : StateInv x) (ha : x.arq.state = .awaitingAck) (p : Port)
    (matched : Bool) : StateInv (pollAfterRead p matched x) := by
  cases matched with
  | false => exact h.after_senderWaited ha (senderWaited_pollAfterRead p x)
  | true =>
    obtain ⟨-, hslots, hframes, hnframes, hidx⟩ :=
      outstanding_of_sending h.arq (by rw [ha]; rfl)
    rcases pollAfterRead_matched p x with ⟨hlast, e⟩ | ⟨hmore, hw⟩
    · have ha' : ArqInv x.cfg { x.arq with retries := 0, idx := x.arq.idx + 1, state := .done } :=
        ⟨Nat.zero_le _, hlast.le, hslots, hframes, fun _ => hnframes, nofun, nofun, nofun,
          fun _ => hlast, nofun⟩
      rw [e]
      exact (h.after_setArq ha').after_withReply _
    · have hnext : Outstanding x.cfg { x.arq with retries := 0, idx := x.arq.idx + 1 } :=
        ⟨Nat.zero_le _, hslots, hframes, hnframes,
          Nat.lt_of_le_of_ne (Nat.succ_le_of_lt hidx) hmore⟩
      exact h.after_senderWrote hnext hw

theorem StateInv.after_arqSendPoll (h : StateInv x) (hexec : exec (.arqSendPoll p) x = .next u) :
    StateInv u := by
  cases hs : x.arq.state with
  | idle | done | failed =>
    rw [exec_arqSendPoll_of_resting (by simp [hs])] at hexec
    cases hexec
    exact h.after_withReply _
  | retrying =>
    rw [exec_arqSendPoll_of_retrying hs] at hexec
    cases hexec
    obtain ⟨-, hslots, hframes, hnframes, hidx⟩ :=
      outstanding_of_sending h.arq (by rw [hs]; rfl)
    have hretry : Outstanding x.cfg { x.arq with retries := x.arq.retries + 1 } :=
      ⟨h.arq.retrying hs, hslots, hframes, hnframes, hidx⟩
    exact h.after_senderWrote hretry (senderWrote_awaitAck p _ _ _ x)
  | awaitingAck =>
    rw [exec_arqSendPoll_of_awaitingAck hs] at hexec
    cases hexec
    exact (h.after_lrRecvFrame p).after_pollAfterRead ((lrDone_lrRecvFrame p x).frame.arq ▸ hs) p _

end Sender

/-- The frames of FRAGMENT fill at most the slots there are (10_state.md R31). -/
theorem fragmentFrames_length_le {c : Cfg} (hc : cfgLegal c = true) {d : Bytes}
    (hd : lengthOk c d.length) (t : Tag) : (fragmentFrames c d t).length ≤ nmax c := by
  obtain ⟨-, -, -, hO⟩ := cfgLegal_fragmentCaps hc
  rcases Nat.lt_or_ge c.nonfragCap d.length with hlong | hshort
  · rw [fragmentFrames_length hlong]
    exact nfrag_le_nmax hO hd.2
  · rw [fragmentFrames_of_le hshort]
    exact nfrag_pos c _

/-- A datagram that fits one frame makes a non-fragmented one (41_fragmenter.md R85). -/
theorem formatHeader_shortFrame {c : Cfg} (hc : cfgLegal c = true) {d : Bytes}
    (hshort : d.length ≤ c.nonfragCap) :
    formatHeader c (BitVec.ofNat 8 (d.length + 1) :: d) =
      some (.nonFrag (BitVec.ofNat 8 (d.length + 1))) := by
  obtain ⟨-, -, ⟨-, -, hfits⟩, hframe, -⟩ := of_decide_eq_true hc
  have hb0 : (BitVec.ofNat 8 (d.length + 1)).toNat = d.length + 1 := by
    rw [BitVec.toNat_ofNat]
    omega
  exact formatHeader_nonFrag hc (by omega) (by omega) (by omega)

theorem formatValid_of_mem_fragmentFrames {c : Cfg} (hc : cfgLegal c = true) {d : Bytes}
    (hd : lengthOk c d.length) {t : Tag} {f : Bytes} (hf : f ∈ fragmentFrames c d t) :
    formatValid c f = true := by
  rcases Nat.lt_or_ge c.nonfragCap d.length with hlong | hshort
  · obtain ⟨p, hget⟩ := List.mem_iff_getElem?.mp hf
    obtain ⟨hp, rfl⟩ := (fragmentFrames_getElem?_eq_some hlong t).mp hget
    exact formatValid_fragFrame hc hd hp t
  · rw [fragmentFrames_of_le hshort] at hf
    obtain rfl := List.mem_singleton.mp hf
    rw [formatValid, formatHeader_shortFrame hc hshort]
    rfl

theorem StateInv.after_arqSendStart {p : Port} {d : Bytes} {s u : State} (h : StateInv s)
    (hexec : exec (.arqSendStart p d) s = .next u) : StateInv u := by
  cases hexec
  split
  · exact h.after_withReply _
  split
  · exact h.after_withReply _
  split
  · exact h.after_withReply _
  next hlen _ =>
    have hd : lengthOk s.cfg d.length := not_not.mp (mt (badLength_eq_true_iff _ _).mpr hlen)
    have hpos :=
      (fragmentFrames_length_eq s.cfg d (draw16 s).1).symm ▸ frameCount_pos s.cfg d.length
    exact h.after_senderWrote ⟨Nat.zero_le _, fragmentFrames_length_le h.cfg hd _,
      fun f => formatValid_of_mem_fragmentFrames h.cfg hd, rfl, hpos⟩ (startSend_senderWrote p d s)

/-! ## The receiver -/

/-- What a reading of the clock, a receive attempt, a received data frame and both ends keep is kept
by the rounds of ARQ_RECV_DATAGRAM (45_arq_controller.md R137). -/
theorem recvLoop_keeps {P : State → Prop} {p : Port} {cap : Nat}
    (hnow : ∀ s, P s → P (now s).2) (hread : ∀ s, P s → P (lrRecvFrame p s).2)
    (hdata : ∀ f s, P s → P (recvData p f cap s).2) (htimeout : ∀ s, P s → P (recvTimeout p s))
    (hreply : ∀ s v, P s → P (replyOk s v)) (deadline fuel : Nat) {s : State} (h : P s) :
    P (recvLoop p cap deadline fuel s) := by
  induction fuel generalizing s with
  | zero => exact htimeout s h
  | succ fuel ih =>
    have hmid := hread _ (hnow s h)
    rw [recvLoop]
    dsimp only
    split
    · exact htimeout _ (hnow s h)
    split
    · next f _ =>
      split
      · exact ih hmid
      split
      · exact hreply _ _ (hdata f _ hmid)
      · exact ih (hdata f _ hmid)
    · exact ih hmid

theorem StateInv.after_recvData {s : State} (h : StateInv s) (p : Port) (f : Bytes) (cap : Nat) :
    StateInv (recvData p f cap s).2 := by
  have hdeliver := (h.after_sendFrame p (ackFrame s.cfg s.cfg.role)).after_deliver f cap
  rcases recvData_cases p f cap s with ⟨-, e⟩ | ⟨-, e⟩ | ⟨out, -, -, -, e⟩ <;> rw [e]
  · exact h.after_resetCtx
  · exact hdeliver
  · dsimp only
    split
    · exact hdeliver
    · exact hdeliver.after_resetCtx

theorem StateInv.after_arqRecvDatagram {p : Port} {cap : Nat} {s u : State} (h : StateInv s)
    (hexec : exec (.arqRecvDatagram p cap) s = .next u) : StateInv u := by
  cases hexec
  split
  · exact h.after_withReply _
  · exact recvLoop_keeps (P := StateInv) (fun _ h => h.after_now) (fun _ h => h.after_lrRecvFrame p)
      (fun f _ h => h.after_recvData p f cap) (fun _ h => h.after_recvTimeout p)
        (fun _ _ h => h.after_withReply _)
      _ _ h.after_now

/-! ## The relay -/

section Relay

variable {s : State}

/-- The retries and the deadline of a relay with a frame in flight (45_arq_controller.md R145). -/
theorem RelayInv.retry {c : Cfg} {r : Relay} (h : RelayInv c r) (hbusy : r.inFlight = true)
    {n : Nat} (hn : n ≤ c.maxRetry) (d : Nat) :
    RelayInv c { r with retries := n, deadline := d } :=
  ⟨h.capacity, h.frames, h.inFlight, hn, fun hrest => (Bool.eq_false_iff.mp hrest hbusy).elim⟩

theorem RelayInv.pop {c : Cfg} {r : Relay} (h : RelayInv c r) :
    RelayInv c { r with queue := r.queue.tail, retries := 0, inFlight := false } :=
  ⟨(List.tail_sublist _).length_le.trans h.capacity,
    fun f hf => h.frames f (List.mem_of_mem_tail hf), nofun,
    Nat.zero_le _, fun _ => rfl⟩

theorem StateInv.after_relayPop (h : StateInv s) :
    StateInv (relayPop s) := h.after_setRelay h.relay.pop

/-- The head of the queue is written and its deadline starts (45_arq_controller.md R142). -/
theorem StateInv.after_relaySend (h : StateInv s) (hbusy : s.relay.inFlight = true) :
    StateInv (relaySend s) := by
  obtain ⟨e, he, -, -, -, htx⟩ := relaySend_wrote s
  have hfit := WritesFit.after_wrote h.tx .down (s.relay.queue.headD [])
  rw [← htx] at hfit
  rw [he]
  exact ⟨h.cfg, h.ctx, h.lr, h.arq, h.relay.retry hbusy h.relay.retries _, hfit⟩

theorem StateInv.after_relayAfterRead (h : StateInv s) (hbusy : s.relay.inFlight = true)
    (matched : Bool) : StateInv (relayAfterRead matched s) := by
  obtain ⟨hblock, -⟩ := now_spec s
  rcases relayAfterRead_cases matched s with ⟨-, e⟩ | ⟨-, -, e⟩ | ⟨-, -, hretry, e⟩ |
    ⟨-, -, -, e⟩ <;> rw [e]
  · exact h.after_relayPop
  · exact h.after_now
  · refine (h.after_now.after_setRelay ?_).after_relaySend hbusy
    rw [hblock.cfg]
    exact h.relay.retry hbusy hretry _
  · exact h.after_now.after_relayPop

/-- The intake from upstream (45_arq_controller.md R142, R143), of a frame that is format-valid. -/
theorem StateInv.after_relayTake (h : StateInv s) {r : Recv}
    (hr : ∀ f, r = .frame f → formatValid s.cfg f = true) : StateInv (relayTake r s) := by
  rcases relayTake_cases r s with e | ⟨f, hf, hack, hroom, e⟩ <;> rw [e]
  · exact h
  · have hqueued : RelayInv s.cfg { s.relay with queue := s.relay.queue ++ [f] } := by
      refine ⟨?_, fun g hg => ?_, fun _ => by simp, h.relay.retries, h.relay.resting⟩
      · rw [List.length_append]
        exact hroom
      · rcases List.mem_append.mp hg with hold | hnew
        · exact h.relay.frames g hold
        · obtain rfl := List.mem_singleton.mp hnew
          exact ⟨hr g hf, hack⟩
    exact (h.after_setRelay hqueued).after_wrote _ _

theorem StateInv.after_relayForward (h : StateInv s) : StateInv (relayForward s) := by
  cases hbusy : s.relay.inFlight with
  | true =>
    rw [relayForward_of_inFlight hbusy]
    exact (h.after_lrRecvFrame .down).after_relayAfterRead
      ((lrDone_lrRecvFrame .down s).frame.relay ▸ hbusy) _
  | false =>
    rw [relayForward_of_resting hbusy]
    split
    · exact h
    · next hqueue =>
      have hstart : RelayInv s.cfg { s.relay with inFlight := true } :=
        ⟨h.relay.capacity, h.relay.frames, fun _ => hqueue, h.relay.retries, nofun⟩
      exact (h.after_setRelay hstart).after_relaySend rfl

theorem StateInv.after_relayPoll {u : State} (h : StateInv s)
    (hexec : exec .relayPoll s = .next u) :
    StateInv u := by
  cases hexec
  split
  · exact h.after_withReply _
  · refine ((h.after_lrRecvFrame .up).after_relayTake fun f hf =>
      ?_).after_relayForward.after_withReply _
    rw [(lrDone_lrRecvFrame .up s).frame.cfg]
    exact (lrRecvFrame_frame h.cfg hf).1

end Relay

/-! ## Acknowledgement frames handed in whole -/

theorem StateInv.after_ackReceived {s : State} (h : StateInv s) (r : Role) (p : Port) :
    StateInv (ackReceived r p s) := by
  rcases ackReceived_cases r p s with ⟨-, -, hbusy, -, e⟩ | ⟨-, ha, -, e⟩ | ⟨-, e⟩ <;> rw [e]
  · exact ((h.after_clearAcc p).after_relayAfterRead hbusy _).after_withReply _
  · exact (h.after_clearAcc p).after_pollAfterRead ha p _
  · exact (h.after_arrive p _).after_withReply _

/-! ## Every instruction -/

theorem StateInv.after_initialised {s : State} (h : StateInv s) : StateInv (initialised s) := by
  refine ⟨h.cfg, ctxInv_idleWith h.ctx, fun p => ?_, ⟨Nat.zero_le _, Nat.le_refl _, h.arq.slots,
    h.arq.frames, fun hne => absurd rfl hne, nofun, nofun, nofun, nofun,
      fun _ => ⟨rfl, rfl, rfl, rfl⟩⟩,
    ⟨Nat.zero_le _, nofun, nofun, Nat.zero_le _, fun _ => rfl⟩, h.tx⟩
  cases p <;> exact lrInv_nil _

theorem StateInv.after_exec {i : Instr} {s t : State} (h : StateInv s)
    (hexec : exec i s = .next t) :
    StateInv t := by
  have hreply (r : Reply) : StateInv (withReply s r) := h.after_withReply r
  cases i with
  | nonfragLo len payload => cases hexec; exact (h.after_deliver _ _).after_withReply _
  | nonfragHi len payload => cases hexec; exact (h.after_deliver _ _).after_withReply _
  | frag1 size tag payload => cases hexec; exact h.after_ingest _
  | fragn size tag off8 payload => cases hexec; exact h.after_ingest _
  | chunk1 p data => cases hexec; exact (h.after_unitReceived p _).after_withReply _
  | chunk2 p data => cases hexec; exact (h.after_unitReceived p _).after_withReply _
  | ackClient p => cases hexec; exact h.after_ackReceived .client p
  | ackRelay p => cases hexec; exact h.after_ackReceived .relay p
  | ackServer p => cases hexec; exact h.after_ackReceived .server p
  | hdrUnpack buf => cases hexec; split <;> exact hreply _
  | hdrFrameLen hd => cases hexec; split <;> exact hreply _
  | fragCount l => cases hexec; split <;> exact hreply _
  | fragment d tag slots =>
    cases hexec
    split
    · exact hreply _
    · split <;> exact hreply _
  | rsmReset => cases hexec; exact h.after_resetCtx.after_withReply _
  | rsmIngest buf => cases hexec; exact h.after_ingest buf
  | rsmExtract cap => cases hexec; split <;> exact hreply _
  | tfSplit frame => cases hexec; split <;> exact hreply _
  | tfJoin u1 u2 => cases hexec; split <;> exact hreply _
  | lrRecvFrame p => cases hexec; exact (h.after_lrRecvFrame p).after_withReply _
  | lrDeliver f cap => cases hexec; exact (h.after_deliver f cap).after_withReply _
  | arqSendStart p d => exact h.after_arqSendStart hexec
  | arqSendPoll p => exact h.after_arqSendPoll hexec
  | arqRecvDatagram p cap => exact h.after_arqRecvDatagram hexec
  | relayPoll => exact h.after_relayPoll hexec
  | lfbInit => cases hexec; exact h.after_initialised
  | _ => cases hexec; exact hreply _

theorem StateInv.after_turnAway {e : DecodeError} {s t : State} (h : StateInv s)
    (haway : turnAway e s = .next t) : StateInv t := by
  rcases turnAway_cases haway with rfl | rfl | ⟨p, rfl⟩
  · exact h.after_withReply _
  · exact h.after_resetCtx.after_withReply _
  · exact (h.after_clearAcc p).after_resetCtx.after_withReply _

/-- Settles O55: a step executes an instruction or turns a request away, after taking the request
off the queue. -/
theorem stepKeepsInvariant : Obligations.StepKeepsInvariant := by
  intro s t h hstep
  obtain ⟨-, ⟨-, rfl⟩ | ⟨r, rest, -, hrun⟩⟩ := step_cases hstep
  · exact h
  have htaken : StateInv { s with requests := rest } := h.congr rfl rfl rfl rfl rfl rfl
  rcases hrun with ⟨i, -, hexec⟩ | ⟨e, -, haway⟩
  · exact htaken.after_exec hexec
  · exact htaken.after_turnAway haway

/-! ## Reset -/

theorem stateInv_resetWith {c : Cfg} (hc : cfgLegal c = true) : StateInv (State.resetWith c) := by
  refine ⟨hc, ⟨Memory.wf_nil, nofun, List.length_replicate, List.length_replicate, fun _ => rfl,
    nofun⟩, fun p => ?held, ⟨Nat.zero_le _, Nat.le_refl _, Nat.zero_le _, nofun,
    fun hne => absurd rfl hne, nofun, nofun, nofun, nofun, fun _ => ⟨rfl, rfl, rfl, rfl⟩⟩,
    ⟨Nat.zero_le _, nofun, nofun, Nat.zero_le _, fun _ => rfl⟩, fun p => ?writes⟩
  case held => cases p <;> exact lrInv_nil _
  case writes => cases p <;> exact nofun

/-- Settles O56. CFG_REF is legal. -/
theorem resetInvariant : Obligations.ResetInvariant :=
  ⟨stateInv_resetWith cfgRef_legal, fun _ => stateInv_resetWith⟩

end Sys2Proof.Machine
end

section
/-! PROOFS. The rows that hand in a kind selector (O7), a whole non-fragmented frame (O36) or a
whole fragment (O37), under the model's reading of them (logs 15, 16, 19). -/

namespace Sys2Proof.Proofs.FrameRows

open Sys2Proof.Machine Sys2Proof.Proofs.HeaderCodec Sys2Proof.Proofs.Fragmenter
  Sys2Proof.Proofs.Reassembler Sys2Proof.Proofs.Exceptions Sys2Proof.Proofs.InstructionEncoding

/-! ## Kind selectors -/

/-- Settles O7: each row is HDR_PACK under its kind, whose outcome in numbers is O6's. -/
theorem kindSelectorRows : Obligations.KindSelectorRows := by
  intro a tag offset cap s
  have hrow (k : BitVec 2) : withReply s (packReply k a tag offset cap) =
      { s with reply := packOutcome k.toNat a tag offset cap } := by
    rw [packReply_eq_packOutcome]
    rfl
  exact ⟨congrArg Host.Outcome.next (hrow 0), congrArg Host.Outcome.next (hrow 1),
    congrArg Host.Outcome.next (hrow 2), congrArg Host.Outcome.next (hrow 3)⟩

/-! ## Non-fragmented frames -/

/-- The frame of a length byte and its payload. -/
theorem formatHeader_nonFrag_eq_none {c : Cfg} {len : Byte} {payload : Bytes}
    (hkind : len.toNat < 0xC0)
    (h : ¬ (1 ≤ len.toNat ∧ len.toNat ≤ c.maxFrame ∧ 1 + payload.length = len.toNat)) :
    formatHeader c (len :: payload) = none := by
  refine Option.eq_none_iff_forall_ne_some.mpr fun hd hhd => h ?_
  obtain ⟨hu, hv, hlen⟩ := formatHeader_eq_some.mp hhd
  rcases unpackHeader_eq_some_cases hu with ⟨b0, rest, hbytes, rfl, -, -⟩ |
    ⟨b0, b1, b2, b3, more, hbytes, -, hge, -⟩ | ⟨b0, b1, b2, b3, b4, more, hbytes, -, hge⟩
  · obtain ⟨rfl, rfl⟩ := List.cons.inj hbytes
    obtain ⟨hpos, hmax⟩ := (headerValid_nonFrag_iff _ _).mp hv
    rw [List.length_cons, hdrFrameLength] at hlen
    exact ⟨hpos, hmax, by omega⟩
  · obtain ⟨rfl, -⟩ := List.cons.inj hbytes
    omega
  · obtain ⟨rfl, -⟩ := List.cons.inj hbytes
    omega

section Whole

variable {s : State} {len : Byte} {payload : Bytes}

/-- A whole non-fragmented frame delivers its payload: every frame fits the buffer it is delivered
into. -/
theorem deliverWhole_of_valid (hc : cfgLegal s.cfg = true) (hpos : 1 ≤ len.toNat)
    (hmax : len.toNat ≤ s.cfg.maxFrame) (hlen : 1 + payload.length = len.toNat) :
    deliverWhole (len :: payload) s = { s with reply := .ok (.datagram payload) } := by
  have hv : rsmVerdict s.cfg s.ctx (len :: payload) = .bypass :=
    rsmVerdict_of_nonFrag (formatHeader_nonFrag hc hpos hmax hlen)
  have hcap : ¬ fullCap s.cfg < (len :: payload).length - 1 := by
    rw [fullCap, List.length_cons]
    omega
  rw [deliverWhole, deliver, hv]
  dsimp only
  rw [if_neg hcap]
  rfl

theorem deliverWhole_of_not_valid (hkind : len.toNat < 0xC0)
    (h : ¬ (1 ≤ len.toNat ∧ len.toNat ≤ s.cfg.maxFrame ∧ 1 + payload.length = len.toNat)) :
    deliverWhole (len :: payload) s =
      { s with ctx := Ctx.idleWith s.cfg s.ctx.buf, reply := .error .malformedFrame } := by
  have hv : rsmVerdict s.cfg s.ctx (len :: payload) = .malformed :=
    rsmVerdict_of_none (formatHeader_nonFrag_eq_none hkind h)
  rw [deliverWhole, deliver, hv]
  rfl

end Whole

/-- Settles O36: the two rows are the two halves of the length byte's range. -/
theorem nonfragRows : Obligations.NonfragRows := by
  intro payload s hc
  refine ⟨fun len => ?lo, fun len => ?hi⟩
  case lo =>
    have hbyte := lo_toNat len
    have hkind := len.isLt
    refine ⟨fun hpos hmax hlen => ?valid, fun h => ?malformed⟩
    case valid => exact congrArg _ (deliverWhole_of_valid hc (by omega) (by omega) (by omega))
    case malformed => exact congrArg _ (deliverWhole_of_not_valid (by omega) (by rwa [hbyte]))
  case hi =>
    have hbyte := hi_toNat len
    have hkind := len.isLt
    refine ⟨fun hmax hlen => ?valid, fun h => ?malformed⟩
    case valid => exact congrArg _ (deliverWhole_of_valid hc (by omega) (by omega) (by omega))
    case malformed => exact congrArg _ (deliverWhole_of_not_valid (by omega) (by omega))

/-! ## Fragments -/

/-- Settles O37: both rows are RSM_INGEST of the frame's bytes. -/
theorem fragRows : Obligations.FragRows := by
  intro size tag payload s
  refine ⟨fun hc hsize hlen hnew => ?first, ⟨_, rfl, rfl⟩, fun off8 => ⟨?other, _, rfl, rfl⟩⟩
  case first =>
    obtain ⟨hnext, -⟩ := ingestFirstBinds size tag payload s hc hsize hlen hnew
    exact hnext
  case other =>
    intro p hvalid hlen hidle htag hsize hp hreceived
    obtain ⟨hnext, -⟩ :=
      ingestOtherAccepts size tag off8 payload p s hvalid hlen hidle htag hsize hp hreceived
    exact hnext

end Sys2Proof.Proofs.FrameRows

/-! PROOFS. A step on the oldest request: the instruction it decodes to (O53), and what becomes of a
request that decodes to none (O54). -/

namespace Sys2Proof.Proofs.Requests

open Sys2Proof.Machine Sys2Proof.Proofs.HeaderCodec Sys2Proof.Proofs.InstructionEncoding

section Step

variable {s : State} {r : Request} {rest : List Request}

theorem step_of_illegal (hc : cfgLegal s.cfg = false) : step s = .refused .illegalConfig := by
  rw [step, hc]
  rfl

theorem step_of_no_request (hc : cfgLegal s.cfg = true) (hr : s.requests = []) :
    step s = .next s := by
  simp only [step, hc, fetch, hr, if_true]

theorem step_of_decode_ok (hc : cfgLegal s.cfg = true) (hr : s.requests = r :: rest) {i : Instr}
    (hd : decode s.cfg r = .ok i) : step s = exec i { s with requests := rest } := by
  simp only [step, hc, fetch, hr, hd, if_true]

theorem step_of_decode_bad (hc : cfgLegal s.cfg = true) (hr : s.requests = r :: rest)
    {e : DecodeError} (hd : decode s.cfg r = .bad e) :
    step s = turnAway e { s with requests := rest } := by
  simp only [step, hc, fetch, hr, hd, if_true]

end Step

/-- Settles O53. -/
theorem stepRunsDecodedRequest : Obligations.StepRunsDecodedRequest := fun _ =>
  ⟨step_of_illegal, step_of_no_request, fun hc _ _ _ hr hd => step_of_decode_ok hc hr hd⟩

/-! ## Requests that decode to nothing -/

theorem decodeOperation_of_unknown {sel : Byte} {ops : Bytes} (h : 0x11 < sel.toNat) :
    decodeOperation (sel :: ops) = .bad .unknownOperation := if_pos h

theorem decodeOperation_of_known {bs : Bytes}
    (h : ∀ sel ops, bs = sel :: ops → sel.toNat ≤ 0x11) :
    (∃ i, decodeOperation bs = .ok i) ∨ decodeOperation bs = .bad .badOperands := by
  cases bs with
  | nil => exact .inr rfl
  | cons sel ops =>
    rw [decodeOperation, if_neg (Nat.not_lt_of_le (h sel ops rfl))]
    cases readOperation sel.toNat ops with
    | some i => exact .inl ⟨i, rfl⟩
    | none => exact .inr rfl

theorem decodeKind_ok_or_badOperands (bs : Bytes) :
    (∃ i, decodeKind bs = .ok i) ∨ decodeKind bs = .bad .badOperands := by
  rw [decodeKind]
  cases readKind bs with
  | none => exact .inr rfl
  | some k =>
    dsimp only
    cases readPackOperands k.2 with
    | none => exact .inr rfl
    | some o =>
      dsimp only
      split_ifs <;> exact .inl ⟨_, rfl⟩

/-- A fragment shorter than its header (40_header_codec.md R74). -/
theorem decodeDataFrame_of_truncated {b0 : Byte} {more : Bytes}
    (h : (0xC0 ≤ b0.toNat ∧ b0.toNat < 0xE0 ∧ more.length < 3) ∨
      (0xE0 ≤ b0.toNat ∧ more.length < 4)) :
    kindOf b0 ≠ .nonFrag ∧ decodeDataFrame (b0 :: more) = .bad .truncatedHeader := by
  rcases h with ⟨hge, hlt, hshort⟩ | ⟨hge, hshort⟩
  · have hkind := kindOf_of_mid hge hlt
    refine ⟨by simp [hkind], ?_⟩
    match more, hshort with
    | [], _ | [_], _ | [_, _], _ => simp [decodeDataFrame, hkind]
  · have hkind := kindOf_of_ge hge
    refine ⟨by simp [hkind], ?_⟩
    match more, hshort with
    | [], _ | [_], _ | [_, _], _ | [_, _, _], _ => simp [decodeDataFrame, hkind]

theorem notAckFrame_nil (c : Cfg) : notAckFrame c [] = true := by simp [notAckFrame, ackFrame]

theorem decodeChunk_of_no_marker {bs : Bytes} (h1 : bs.head? ≠ some 0x01#8)
    (h2 : bs.head? ≠ some 0x02#8) (p : Port) : decodeChunk p bs = .bad (.noMarker p) := by
  cases bs with
  | nil => rfl
  | cons m data =>
    rw [decodeChunk, if_neg (by simpa using h1), if_neg (by simpa using h2)]

/-- Settles O54, format by format. -/
theorem requestsTurnedAway : Obligations.RequestsTurnedAway := by
  intro s r rest hc hr
  obtain ⟨fmt, port, bytes⟩ := r
  refine ⟨?unknown, ?frame, ?chunk, ?operands⟩
  case unknown =>
    rintro rfl sel ops rfl hsel
    exact step_of_decode_bad hc hr (decodeOperation_of_unknown hsel)
  case frame =>
    rintro rfl (rfl | ⟨b0, more, rfl, hshort⟩)
    · have hd : decode s.cfg ⟨.frame, port, []⟩ = .bad .emptyFrame :=
        decodeFrame_of_notAck (notAckFrame_nil _) port
      exact step_of_decode_bad hc hr hd
    · obtain ⟨hkind, hd⟩ := decodeDataFrame_of_truncated hshort
      have hframe : decode s.cfg ⟨.frame, port, b0 :: more⟩ = .bad .truncatedHeader :=
        (decodeFrame_of_notAck (notAckFrame_of_fragment hc (f := b0 :: more) hkind) port).trans hd
      exact step_of_decode_bad hc hr hframe
  case chunk =>
    rintro rfl h1 h2
    exact step_of_decode_bad hc hr (decodeChunk_of_no_marker h1 h2 port)
  case operands =>
    intro hfmt hnone
    have hbad : decode s.cfg ⟨fmt, port, bytes⟩ = .bad .badOperands := by
      rcases hfmt with rfl | ⟨rfl, hsel⟩
      · exact (decodeKind_ok_or_badOperands bytes).resolve_left fun ⟨i, hi⟩ => hnone i hi
      · exact (decodeOperation_of_known hsel).resolve_left fun ⟨i, hi⟩ => hnone i hi
    exact step_of_decode_bad hc hr hbad

end Sys2Proof.Proofs.Requests

/-! PROOFS. 60_exceptions.md: after MalformedFrame the context is Idle (O26), and a refusal changes
nothing (O58). The rows of the table of outcomes (O59) say which operations can end so at all. -/

namespace Sys2Proof.Proofs.Errors

open Sys2Proof.Machine Sys2Proof.Proofs.HeaderCodec Sys2Proof.Proofs.Reassembler
  Sys2Proof.Proofs.Exceptions Sys2Proof.Proofs.ArqController Sys2Proof.Proofs.Environment
  Sys2Proof.Proofs.LinkReaderBounds

/-! ## Replies -/

theorem withReply_eq {s : State} {q r : Reply} (h : (withReply s q).reply = r) :
    withReply s q = { s with reply := r } := by
  subst h
  rfl

/-- An acknowledgement frame is never malformed and never refused. -/
theorem ackReceived_reply (r : Role) (p : Port) (s : State) :
    (∃ v, (ackReceived r p s).reply = .ok v) ∨
      (ackReceived r p s).reply = .error .retriesExhausted := by
  rcases ackReceived_cases r p s with ⟨-, -, -, -, e⟩ | ⟨-, -, -, e⟩ | ⟨-, e⟩ <;> rw [e]
  · exact .inl ⟨_, rfl⟩
  · generalize setAcc s p [] = x
    rcases pollAfterRead_cases p (isAckOf s.cfg (ackFrame s.cfg r) s.cfg.peerRole) x with
      ⟨-, -, e⟩ | ⟨-, -, e⟩ | ⟨-, -, ⟨-, e⟩ | ⟨-, e⟩⟩ | ⟨-, -, e⟩ <;> rw [e]
    · exact .inl ⟨_, rfl⟩
    · exact .inl ⟨_, rfl⟩
    · exact .inl ⟨_, rfl⟩
    · exact .inr rfl
    · exact .inl ⟨_, rfl⟩
  · exact .inl ⟨_, rfl⟩

theorem packReply_ne_malformed (k : BitVec 2) (a : Nat) (tag : Tag) (offset cap : Nat) :
    packReply k a tag offset cap ≠ .error .malformedFrame := fun h => by
  have hallowed := packReply_allowed k a tag offset cap
  rw [h] at hallowed
  have hrow : ErrorKind.malformedFrame ∉ errorsOf 0x00 := by decide
  exact hrow hallowed

theorem ingestReply_ne_refused (v : Verdict) (r : Reason) : ingestReply v ≠ .refused r := by
  cases v <;> exact nofun

theorem recvReply_ne_refused (v : Recv) (r : Reason) : recvReply v ≠ .refused r := by
  cases v <;> exact nofun

/-! ## Malformed frames -/

/-- What every MalformedFrame outside the pure operations leaves (60_exceptions.md R158). -/
structure LeftIdle (s t : State) : Prop where
  ctx : t.ctx = Ctx.idleWith s.cfg s.ctx.buf
  arq : t.arq = s.arq
  relay : t.relay = s.relay
  tx : t.env.tx = s.env.tx

theorem leftIdle_deliver {s : State} {f : Bytes} {cap : Nat}
    (h : deliveryReply (deliver f cap s).1 = .error .malformedFrame) (r : Reply) :
    LeftIdle s (withReply (deliver f cap s).2 r) := by
  rcases deliver_cases f cap s with ⟨-, e⟩ | e | (⟨-, e⟩ | ⟨-, e⟩) | ⟨-, -, e⟩ <;> rw [e] at h ⊢
  · exact ⟨rfl, rfl, rfl, rfl⟩
  all_goals cases h

theorem leftIdle_ingest {s : State} {f : Bytes} (h : (ingest f s).reply = .error .malformedFrame) :
    LeftIdle s (ingest f s) := by
  have hv : rsmVerdict s.cfg s.ctx f = .malformed := by
    rw [ingest, withReply_reply] at h
    cases hv : rsmVerdict s.cfg s.ctx f with
    | malformed => rfl
    | bypass | start | restart | duplicate | new =>
      rw [hv] at h
      cases h
  refine ⟨?_, rfl, rfl, rfl⟩
  rw [ingest, withReply_ctx, setCtx_ctx, ingestCtx, hv]

theorem leftIdle_unitReceived {s : State} {p : Port} {u : Bytes}
    (h : recvReply (unitReceived p u s).1 = .error .malformedFrame) (r : Reply) :
    LeftIdle s (withReply (unitReceived p u s).2 r) := by
  rcases unitReceived_cases p u s with ⟨-, e⟩ | ⟨-, e⟩ <;> rw [e] at h ⊢
  · have hfed := lrFed_lrFeed p u s
    exact ⟨hfed.ctx.trans (if_pos (recvReply_eq_malformed.mp h)), hfed.arq, hfed.relay, hfed.tx⟩
  · cases h

theorem leftIdle_lrRecvFrame {s : State} {p : Port}
    (h : recvReply (lrRecvFrame p s).1 = .error .malformedFrame) (r : Reply) :
    LeftIdle s (withReply (lrRecvFrame p s).2 r) := by
  have hdone := lrDone_lrRecvFrame p s
  exact ⟨hdone.ctx.trans (if_pos (recvReply_eq_malformed.mp h)), hdone.frame.arq,
    hdone.frame.relay, hdone.frame.tx⟩

/-- An operation whose row does not have MalformedFrame does not end so. -/
theorem malformed_mem_errorsOf {i : Instr} {sel : Nat} {s t : State}
    (hsel : selectorOf i = some sel)
    (h : exec i s = .next t) (hr : t.reply = .error .malformedFrame) :
    ErrorKind.malformedFrame ∈ errorsOf sel := by
  have hallowed := exec_outcomeAllowed hsel h
  rwa [hr] at hallowed

theorem leftIdle_of_malformed {i : Instr} {s t : State} (h : exec i s = .next t)
    (hr : t.reply = .error .malformedFrame) (h1 : selectorOf i ≠ some 0x01)
    (h2 : selectorOf i ≠ some 0x02) (h3 : selectorOf i ≠ some 0x0A) : LeftIdle s t := by
  have hrow {sel : Nat} (hsel : selectorOf i = some sel) := malformed_mem_errorsOf hsel h hr
  have hack (r : Role) (p : Port) (hi : i = ackInstr r p) : LeftIdle s t := by
    rw [hi, exec_ackInstr] at h
    cases h
    rcases ackReceived_reply r p s with ⟨v, e⟩ | e <;> rw [e] at hr <;> cases hr
  cases i with
  | nonfragLo len payload => cases h; exact leftIdle_deliver hr _
  | nonfragHi len payload => cases h; exact leftIdle_deliver hr _
  | frag1 size tag payload => cases h; exact leftIdle_ingest hr
  | fragn size tag off8 payload => cases h; exact leftIdle_ingest hr
  | chunk1 p data => cases h; exact leftIdle_unitReceived hr _
  | chunk2 p data => cases h; exact leftIdle_unitReceived hr _
  | ackClient p => exact hack .client p rfl
  | ackRelay p => exact hack .relay p rfl
  | ackServer p => exact hack .server p rfl
  | kindNonfrag a tag offset cap =>
    cases h
    exact (packReply_ne_malformed 0 a tag offset cap hr).elim
  | kindFirst a tag offset cap => cases h; exact (packReply_ne_malformed 1 a tag offset cap hr).elim
  | kindOther a tag offset cap => cases h; exact (packReply_ne_malformed 2 a tag offset cap hr).elim
  | kindUnrecognised a tag offset cap =>
    cases h; exact (packReply_ne_malformed 3 a tag offset cap hr).elim
  | rsmIngest buf => cases h; exact leftIdle_ingest hr
  | lrRecvFrame p => cases h; exact leftIdle_lrRecvFrame hr _
  | lrDeliver f cap => cases h; exact leftIdle_deliver hr _
  | hdrUnpack buf => exact absurd rfl h1
  | hdrFrameLen hd => exact absurd rfl h2
  | tfJoin u1 u2 => exact absurd rfl h3
  | hdrPack | fragCount | fragment | rsmReset | rsmComplete | rsmExtract | tfSplit | arqSendStart
  | arqSendPoll | arqRecvDatagram | relayPoll | lfbInit => exact absurd (hrow rfl) (by decide)

/-- The pure operations change nothing but the outcome. -/
theorem eq_of_pure_malformed {i : Instr} {s t : State} (h : exec i s = .next t)
    (hr : t.reply = .error .malformedFrame) (hpure : selectorOf i = some 0x01 ∨
      selectorOf i = some 0x02 ∨ selectorOf i = some 0x0A) :
    t = { s with reply := .error .malformedFrame } := by
  cases i with
  | hdrUnpack buf =>
    cases h
    revert hr
    split
    · exact nofun
    · exact fun _ => rfl
  | hdrFrameLen hd =>
    cases h
    revert hr
    split
    · exact nofun
    · exact fun _ => rfl
  | tfJoin u1 u2 =>
    cases h
    revert hr
    split
    · exact nofun
    · exact fun _ => rfl
  | _ => simp [selectorOf] at hpure

/-- Settles O26. -/
theorem malformedLeavesIdle : Obligations.MalformedLeavesIdle := by
  refine fun i s t h hr => ⟨eq_of_pure_malformed h hr, fun h1 h2 h3 => ?_, ?_⟩
  · obtain ⟨hctx, harq, hrelay, htx⟩ := leftIdle_of_malformed h hr h1 h2 h3
    exact ⟨hctx, harq, hrelay, htx⟩
  · rintro p rfl
    cases h
    exact congrArg List.length (lrDone_lrRecvFrame p s).acc

/-! ## Refusals -/

theorem refused_mem_reasonsOf {i : Instr} {sel : Nat} {s t : State} {r : Reason}
    (hsel : selectorOf i = some sel) (h : exec i s = .next t) (hr : t.reply = .refused r) :
    r ∈ reasonsOf sel := by
  have hallowed := exec_outcomeAllowed hsel h
  rwa [hr] at hallowed

theorem eq_of_deliver_refused {s : State} {f : Bytes} {cap : Nat} {r : Reason}
    (h : deliveryReply (deliver f cap s).1 = .refused r) :
    withReply (deliver f cap s).2 (deliveryReply (deliver f cap s).1) =
      { s with reply := .refused r } := by
  rw [h]
  rcases deliver_cases f cap s with ⟨-, e⟩ | e | (⟨-, e⟩ | ⟨-, e⟩) | ⟨-, -, e⟩ <;> rw [e] at h ⊢
  · cases h
  · rfl
  all_goals cases h

/-- Settles O58: every operation refuses before it changes anything. -/
theorem refusedChangesNothing : Obligations.RefusedChangesNothing := by
  intro i s t r h hr
  have hrow {sel : Nat} (hsel : selectorOf i = some sel) := refused_mem_reasonsOf hsel h hr
  have hack (q : Role) (p : Port) (hi : i = ackInstr q p) : t = { s with reply := .refused r } := by
    rw [hi, exec_ackInstr] at h
    cases h
    rcases ackReceived_reply q p s with ⟨v, e⟩ | e <;> rw [e] at hr <;> cases hr
  cases i with
  | nonfragLo len payload => cases h; exact eq_of_deliver_refused hr
  | nonfragHi len payload => cases h; exact eq_of_deliver_refused hr
  | lrDeliver f cap => cases h; exact eq_of_deliver_refused hr
  | frag1 size tag payload => cases h; exact (ingestReply_ne_refused _ _ hr).elim
  | fragn size tag off8 payload => cases h; exact (ingestReply_ne_refused _ _ hr).elim
  | chunk1 p data => cases h; exact (recvReply_ne_refused _ _ hr).elim
  | chunk2 p data => cases h; exact (recvReply_ne_refused _ _ hr).elim
  | ackClient p => exact hack .client p rfl
  | ackRelay p => exact hack .relay p rfl
  | ackServer p => exact hack .server p rfl
  | hdrPack k a tag offset cap => cases h; exact withReply_eq hr
  | kindNonfrag a tag offset cap => cases h; exact withReply_eq hr
  | kindFirst a tag offset cap => cases h; exact withReply_eq hr
  | kindOther a tag offset cap => cases h; exact withReply_eq hr
  | kindUnrecognised a tag offset cap => cases h; exact withReply_eq hr
  | fragCount l =>
    cases h
    revert hr
    split <;> exact withReply_eq
  | fragment d tag slots =>
    cases h
    revert hr
    split
    · exact withReply_eq
    · split <;> exact withReply_eq
  | rsmExtract cap =>
    cases h
    revert hr
    split <;> exact withReply_eq
  | tfSplit frame =>
    cases h
    revert hr
    split <;> exact withReply_eq
  | arqSendStart p d =>
    cases h
    revert hr
    split
    · exact withReply_eq
    split
    · exact withReply_eq
    split
    · exact withReply_eq
    · exact nofun
  | arqRecvDatagram p cap =>
    cases h
    revert hr
    split
    · exact withReply_eq
    · rcases (recvLoop_ended p cap _ _ _).reply with ⟨e, -⟩ | ⟨out, e, -⟩ <;> rw [e] <;> exact nofun
  | relayPoll =>
    cases h
    revert hr
    split
    · exact withReply_eq
    · exact nofun
  | hdrUnpack | hdrFrameLen | rsmReset | rsmIngest | rsmComplete | tfJoin | lrRecvFrame
  | arqSendPoll | lfbInit => exact absurd (hrow rfl) nofun

end Sys2Proof.Proofs.Errors
end

section
/-! PROOFS. 30_encoding.md section 6: the acknowledgement frames are recognised (O39), and what
becomes of one that is handed in whole (O40). That a matching frame is the peer's is one equation,
`isAckOf_ackFrame`; the last clause of O40 is two polls of the relay, each a lemma. -/

namespace Sys2Proof.Proofs.AckFrames

open Sys2Proof.Machine Sys2Proof.Proofs.HeaderCodec Sys2Proof.Proofs.Fragmenter
  Sys2Proof.Proofs.Reassembler Sys2Proof.Proofs.RawBytes Sys2Proof.Proofs.Environment
  Sys2Proof.Proofs.ArqController Sys2Proof.Proofs.InstructionEncoding Sys2Proof.Proofs.RelayPoll

/-! ## Recognising acknowledgement frames -/

/-- 00_scope.md R6 (i): a token has a byte at least, and fits a non-fragmented frame. -/
theorem cfgLegal_token_fits {c : Cfg} (h : cfgLegal c = true) (r : Role) :
    1 ≤ (ackToken c r).length ∧ (ackToken c r).length ≤ c.nonfragCap := by
  obtain ⟨-, -, -, -, -, -, -, ⟨hclient, hrelay, hserver⟩, -⟩ := of_decide_eq_true h
  have hlegal : tokenLegal c (ackToken c r) := by
    cases r with
    | client => exact hclient
    | relay => exact hrelay
    | server => exact hserver
  obtain ⟨hne, -, hfits, -⟩ := hlegal
  exact ⟨List.length_pos_iff.mpr hne, hfits⟩

theorem formatValid_ackFrame {c : Cfg} (hc : cfgLegal c = true) (r : Role) :
    formatValid c (ackFrame c r) = true := by
  have hframe : ackFrame c r = BitVec.ofNat 8 ((ackToken c r).length + 1) :: ackToken c r := by
    rw [ackFrame, Nat.add_comm]
  rw [hframe, formatValid, formatHeader_shortFrame hc (cfgLegal_token_fits hc r).2]
  rfl

theorem head?_ackFrame_ne_one {c : Cfg} (hc : cfgLegal c = true) (r : Role) :
    (ackFrame c r).head? ≠ some 0x01#8 := by
  intro h
  have hhead := ackFrame_head_toNat hc r
  have htoken := (cfgLegal_token_fits hc r).1
  rw [List.headD_eq_head?_getD, h] at hhead
  simp only [Option.getD_some, BitVec.toNat_ofNat] at hhead
  omega

theorem isAckOf_ackFrame {c : Cfg} (hc : cfgLegal c = true) (q r : Role) :
    isAckOf c (ackFrame c r) q = decide (r = q) := by
  have hiff := isAckOf_iff_of_formatValid hc (formatValid_ackFrame hc r) q
  have hinj : ackFrame c r = ackFrame c q ↔ r = q := ⟨ackFrame_injective hc, congrArg _⟩
  rw [Bool.eq_iff_iff, hiff, hinj, decide_eq_true_eq]

/-- The length byte of a format-valid non-fragmented frame is the frame's length. -/
theorem head_toNat_of_formatValid {c : Cfg} {f : Bytes} (hf : formatValid c f = true)
    (hkind : kindOf (f.headD 0) = .nonFrag) : ∃ b0 rest, f = b0 :: rest ∧
      rest.length + 1 = b0.toNat := by
  obtain ⟨h, hh⟩ := Option.isSome_iff_exists.mp hf
  obtain ⟨hu, -, hlen⟩ := formatHeader_eq_some.mp hh
  rw [kindOf_headD_of_unpackHeader hu] at hkind
  rcases unpackHeader_eq_some_cases hu with ⟨b0, rest, rfl, rfl, -, -⟩ |
    ⟨b0, b1, b2, b3, more, rfl, rfl, -, -⟩ | ⟨b0, b1, b2, b3, b4, more, rfl, rfl, -⟩
  · exact ⟨b0, rest, rfl, hlen⟩
  · cases hkind
  · cases hkind

/-- Recognition by the whole payload (30_encoding.md R64). -/
theorem isAckOf_iff_payload {c : Cfg} (hc : cfgLegal c = true) {f : Bytes}
    (hf : formatValid c f = true) (r : Role) :
    isAckOf c f r = true ↔ kindOf (f.headD 0) = .nonFrag ∧ f.drop 1 = ackToken c r := by
  refine ⟨fun h => ?_, fun ⟨hkind, hpayload⟩ => ?_⟩
  · rw [(isAckOf_iff_of_formatValid hc hf r).mp h]
    exact ⟨kindOf_ackFrame hc r, rfl⟩
  · obtain ⟨b0, rest, rfl, hlen⟩ := head_toNat_of_formatValid hf hkind
    have hall : rest.take (b0.toNat - 1) = rest := by
      rw [← hlen, Nat.add_sub_cancel, List.take_length]
    have hkind' : kindOf b0 = .nonFrag := hkind
    rw [isAckOf, hkind', hall, decide_eq_true rfl, Bool.true_and]
    exact decide_eq_true hpayload

theorem isAck_iff (c : Cfg) (f : Bytes) : isAck c f = true ↔ ∃ q, isAckOf c f q = true := by
  rw [isAck, Bool.or_eq_true, Bool.or_eq_true]
  constructor
  · rintro ((h | h) | h)
    exacts [⟨_, h⟩, ⟨_, h⟩, ⟨_, h⟩]
  · rintro ⟨_ | _ | _, h⟩
    exacts [.inl (.inl h), .inl (.inr h), .inr h]

/-- Settles O39. -/
theorem ackRecognition : Obligations.AckRecognition := by
  refine fun c f r hc => ⟨formatValid_ackFrame hc r, rfl, fun hf => ⟨isAckOf_iff_payload hc hf r,
    isAckOf_iff_of_formatValid hc hf r, isAck_iff c f⟩, fun q hq h => hq (ackFrame_injective hc h)⟩

/-! ## Receive attempts -/

/-- A receive attempt on a stream with nothing left (44_link_reader.md R114). -/
theorem lrRecvFrame_of_rx_nil {p : Port} {s : State} (h : s.env.rx.get p = []) :
    ∃ e, lrRecvFrame p s = (.nothing, setEnv (setAcc s p []) e) ∧ e.rx = s.env.rx ∧
      e.tx = s.env.tx ∧ e.lapses = s.env.lapses ∧ s.env.clock ≤ e.clock := by
  have hrx : (setAcc s p []).env.rx.get p = [] := h
  refine ⟨{ s.env with
    clock := s.env.clock + s.cfg.tByte + Config.readOverrun s.env.free, free := s.env.free + 1 },
    ?_, rfl, rfl, rfl, by dsimp only; omega⟩
  simp only [lrRecvFrame, rawReadByte, hrx]
  rfl

/-- A receive attempt on an acknowledgement frame that is there. -/
theorem lrRecvFrame_of_ackFrame {p : Port} {s : State} (hc : cfgLegal s.cfg = true) {r : Role}
    {rest : List RxEvent} {more : List Nat}
    (hrx : s.env.rx.get p = promptly (ackFrame s.cfg r) ++ rest)
    (hlapses : s.env.lapses = List.replicate (ackFrame s.cfg r).length 0 ++ more) :
    lrRecvFrame p s = (.frame (ackFrame s.cfg r), midway p s [] rest more) := by
  have hraw : (writesOf s.cfg (ackFrame s.cfg r)).flatten = ackFrame s.cfg r := by
    rw [writesOf_ackFrame hc, List.flatten_singleton]
  exact lrRecvFrame_of_writesOf hc (formatValid_ackFrame hc r) (head?_ackFrame_ne_one hc r)
    (by rw [hraw]; exact hrx) (by rw [hraw]; exact hlapses)

/-! ## Who takes an acknowledgement frame handed in whole -/

section Taken

variable {r : Role} {p : Port} {s : State}

theorem ackReceived_of_sender (hc : cfgLegal s.cfg = true) (hrole : s.cfg.role ≠ .relay)
    (hwait : s.arq.state = .awaitingAck) (hnext : streamBytes (s.env.rx.get p) = []) :
    ackReceived r p s = pollAfterRead p (decide (r = s.cfg.peerRole)) (setAcc s p []) := by
  rw [ackReceived, if_neg hrole, isAckOf_ackFrame hc]
  exact if_pos ⟨hwait, hnext⟩

theorem ackReceived_of_not_sender (hrole : s.cfg.role ≠ .relay)
    (h : s.arq.state ≠ .awaitingAck ∨ streamBytes (s.env.rx.get p) ≠ []) :
    ackReceived r p s = replyOk (frameArrives p (ackFrame s.cfg r) s) (.arqState s.arq.state) := by
  rw [ackReceived, if_neg hrole]
  exact if_neg (by tauto)

theorem ackReceived_of_relay (hc : cfgLegal s.cfg = true) (hrole : s.cfg.role = .relay)
    (hp : p = .down) (hbusy : s.relay.inFlight = true)
    (hnext : streamBytes (s.env.rx.get p) = []) :
    let u := relayAfterRead (decide (r = s.cfg.peerRole)) (setAcc s p [])
    ackReceived r p s = replyOk u (.num u.relay.queue.length) := by
  rw [ackReceived, if_pos hrole, isAckOf_ackFrame hc]
  dsimp only
  rw [if_pos (c := p = .down ∧ s.relay.inFlight = true ∧ streamBytes (s.env.rx.get p) = [])
    ⟨hp, hbusy, hnext⟩]

theorem ackReceived_of_not_relay (hrole : s.cfg.role = .relay)
    (h : p ≠ .down ∨ s.relay.inFlight = false ∨ streamBytes (s.env.rx.get p) ≠ []) :
    ackReceived r p s =
      replyOk (frameArrives p (ackFrame s.cfg r) s) (.num s.relay.queue.length) := by
  have hnot : ¬ (p = .down ∧ s.relay.inFlight = true ∧ streamBytes (s.env.rx.get p) = []) := by
    rw [← Bool.not_eq_true] at h
    tauto
  rw [ackReceived, if_pos hrole]
  dsimp only
  rw [if_neg hnot]
  rfl

end Taken

/-! ## Polls of the relay around an acknowledgement that waits -/

/-- `relaySend` with a scripted lapse. -/
theorem relaySend_scripted {x : State} {d : Nat} {later : List Nat}
    (h : x.env.lapses = d :: later) :
    ∃ e : Env, relaySend x = { x with
        env := e, relay := { x.relay with deadline := e.clock + x.cfg.tAck } } ∧
      e.rx = x.env.rx ∧ e.lapses = later ∧
      e.tx = (wrote .down (writesOf x.cfg (x.relay.queue.headD [])) x).env.tx := by
  have hnow := now_scripted (s := wrote .down (writesOf x.cfg (x.relay.queue.headD [])) x) h
  refine ⟨(now (wrote .down (writesOf x.cfg (x.relay.queue.headD [])) x)).2.env, ?_⟩
  rw [relaySend_spec, sendFrame_eq_wrote, hnow]
  exact ⟨rfl, rfl, rfl, rfl⟩

/-- With nothing upstream and nothing in flight, the head of the queue is written
(45_arq_controller.md R142). -/
theorem relayPoll_sends {s : State} {g : Bytes} {rest : List Bytes} {later : List Nat} {d : Nat}
    (hrole : s.cfg.role = .relay) (hup : s.env.rx.get .up = []) (hrest : s.relay.inFlight = false)
    (hqueue : s.relay.queue = g :: rest) (hlapses : s.env.lapses = d :: later) :
    ∃ u, exec .relayPoll s = .next u ∧ u.cfg = s.cfg ∧ u.relay.queue = g :: rest ∧
      u.relay.inFlight = true ∧ u.env.rx = s.env.rx ∧ u.env.lapses = later ∧
      u.env.tx = s.env.tx.set .down (s.env.tx.get .down ++ writesOf s.cfg g) := by
  obtain ⟨e, hrecv, hrx, htx, hlaps, -⟩ := lrRecvFrame_of_rx_nil hup
  obtain ⟨e', hsend, hrx', hlaps', htx'⟩ := relaySend_scripted
    (x := setRelay (setEnv (setAcc s .up []) e) { s.relay with inFlight := true })
    (hlaps.trans hlapses)
  have hforward : relayForward (setEnv (setAcc s .up []) e) =
      relaySend (setRelay (setEnv (setAcc s .up []) e) { s.relay with inFlight := true }) :=
    (relayForward_of_resting (y := setEnv (setAcc s .up []) e) hrest).trans
      (if_neg (by rw [setEnv_relay, setAcc_relay, hqueue]; exact List.cons_ne_nil g rest))
  have hexec := exec_relayPoll_of_relay hrole
  rw [hrecv] at hexec
  refine ⟨_, hexec, ?_⟩
  have htake : relayTake Recv.nothing (setEnv (setAcc s .up []) e) =
    setEnv (setAcc s .up []) e := rfl
  rw [htake, hforward, hsend]
  refine ⟨rfl, hqueue, rfl, hrx'.trans hrx, hlaps', htx'.trans ?_⟩
  rw [wrote, setEnv_env, setRelay_env, setEnv_env, htx, setRelay_relay, hqueue]
  rfl

/-- With nothing upstream, the acknowledgement of the frame in flight takes it off the queue
(45_arq_controller.md R142, R144). -/
theorem relayPoll_advances {s : State} {rest : List RxEvent} {later : List Nat}
    (hc : cfgLegal s.cfg = true) (hrole : s.cfg.role = .relay) (hup : s.env.rx.get .up = [])
    (hbusy : s.relay.inFlight = true)
    (hrx : s.env.rx.get .down = promptly (ackFrame s.cfg s.cfg.peerRole) ++ rest)
    (hlapses : s.env.lapses =
      List.replicate (ackFrame s.cfg s.cfg.peerRole).length 0 ++ later) :
    ∃ u, exec .relayPoll s = .next u ∧ u.relay.queue = s.relay.queue.tail ∧
      u.relay.inFlight = false ∧ u.relay.retries = 0 ∧ u.env.rx.get .down = rest ∧
      u.env.lapses = later ∧ u.env.tx = s.env.tx := by
  obtain ⟨e, hrecv, hrx', htx, hlaps, -⟩ := lrRecvFrame_of_rx_nil hup
  have hack : lrRecvFrame .down (setEnv (setAcc s .up []) e) =
      (.frame (ackFrame s.cfg s.cfg.peerRole),
        midway .down (setEnv (setAcc s .up []) e) [] rest later) :=
    lrRecvFrame_of_ackFrame (s := setEnv (setAcc s .up []) e) hc
      (by rw [setEnv_env, hrx']; exact hrx)
      (hlaps.trans hlapses)
  have hmatch : recvMatches (setEnv (setAcc s .up []) e).cfg
      (.frame (ackFrame s.cfg s.cfg.peerRole)) = true :=
    (isAckOf_ackFrame hc _ _).trans (decide_eq_true rfl)
  have hforward := relayForward_of_inFlight (y := setEnv (setAcc s .up []) e) hbusy
  rw [hack, hmatch] at hforward
  have hexec := exec_relayPoll_of_relay hrole
  rw [hrecv] at hexec
  refine ⟨_, hexec, ?_⟩
  have htake : relayTake Recv.nothing (setEnv (setAcc s .up []) e) =
    setEnv (setAcc s .up []) e := rfl
  rw [htake, hforward]
  exact ⟨rfl, rfl, rfl, PerPort.get_set_same e.rx .down rest, rfl, htx⟩

/-! ## The obligation -/

/-- An acknowledgement that came before the frame it acknowledges was written is taken by the next
two polls (45_arq_controller.md R144, 70_reset_and_hazards.md R179). -/
theorem runAll_late_ack {s : State} (hc : cfgLegal s.cfg = true) (hrole : s.cfg.role = .relay)
    (hrest : s.relay.inFlight = false) {g : Bytes} {rest : List Bytes} {later : List Nat}
    (hqueue : s.relay.queue = g :: rest) (hup : s.env.rx.up = []) (hdown : s.env.rx.down = [])
    (hlapses : s.env.lapses = List.replicate
      (1 + (writesOf s.cfg (ackFrame s.cfg s.cfg.peerRole)).flatten.length) 0 ++ later) :
    ∃ u, runAll [ackInstr s.cfg.peerRole .down, .relayPoll, .relayPoll] s = some u ∧
      u.relay.queue = rest ∧ u.relay.inFlight = false ∧ u.relay.retries = 0 ∧
      u.env.rx.down = [] ∧ u.env.lapses = later ∧
      u.env.tx.down = s.env.tx.down ++ writesOf s.cfg g := by
  have hraw : (writesOf s.cfg (ackFrame s.cfg s.cfg.peerRole)).flatten =
      ackFrame s.cfg s.cfg.peerRole := by rw [writesOf_ackFrame hc, List.flatten_singleton]
  rw [hraw, ← List.replicate_append_replicate, List.append_assoc] at hlapses
  have hstands := (exec_ackInstr s.cfg.peerRole .down s).trans
    (congrArg _ (ackReceived_of_not_relay (r := s.cfg.peerRole) hrole (.inr (.inl hrest))))
  obtain ⟨x, hsend, hcfg, hqueue', hbusy, hrx, hlaps, htx⟩ := relayPoll_sends
    (s := replyOk (frameArrives .down (ackFrame s.cfg s.cfg.peerRole) s)
      (.num s.relay.queue.length)) hrole hup hrest hqueue hlapses
  have hrxDown : x.env.rx.get .down =
      promptly (ackFrame x.cfg x.cfg.peerRole) ++ [] := by
    have harrived : (frameArrives .down (ackFrame s.cfg s.cfg.peerRole) s).env.rx.down =
        s.env.rx.down ++ promptly (writesOf s.cfg (ackFrame s.cfg s.cfg.peerRole)).flatten := rfl
    rw [hrx, hcfg, List.append_nil]
    exact harrived.trans (by rw [hraw, hdown]; rfl)
  obtain ⟨u, hadvance, hq, hidle, hretries, hrxU, hlapsU, htxU⟩ := relayPoll_advances
    (s := x) (hcfg ▸ hc) (hcfg ▸ hrole) (by rw [hrx]; exact hup) hbusy hrxDown
    (by rw [hlaps, hcfg]; rfl)
  refine ⟨u, ?_, by rw [hq, hqueue']; rfl, hidle, hretries, hrxU, hlapsU, by rw [htxU, htx]; rfl⟩
  simp only [runAll, hstands, hsend, hadvance]

/-- Settles O40, clause by clause from who takes the frame. -/
theorem ackRows : Obligations.AckRows := by
  rintro r p s v hc rfl
  have hexec := exec_ackInstr r p s
  refine ⟨fun hrole hwait hnext => ?sender, fun hrole h => ?noSender,
    fun hrole hp hbusy hnext => ?relay, fun hrole h => ?noRelay, ?late⟩
  case sender =>
    rw [hexec, ackReceived_of_sender hc hrole hwait hnext]
    have hmatched := pollAfterRead_matched p (setAcc s p [])
    refine ⟨fun hr hlast => ?_, fun hr hmore => ?_, fun hr => ?_⟩
    · rcases hmatched with ⟨-, e⟩ | ⟨hmore, -⟩
      · rw [decide_eq_true hr, e]
        rfl
      · exact absurd hlast hmore
    · rcases hmatched with ⟨hlast, -⟩ | ⟨-, hw⟩
      · exact absurd hlast hmore
      · rw [decide_eq_true hr]
        exact ⟨_, rfl, hw⟩
    · rw [decide_eq_false hr]
      exact ⟨_, rfl, senderWaited_pollAfterRead p (setAcc s p [])⟩
  case noSender =>
    rw [hexec, ackReceived_of_not_sender hrole h]
    rfl
  case relay =>
    rw [hexec, ackReceived_of_relay hc hrole hp hbusy hnext]
    refine ⟨fun hr => ?_, fun hr => ?_⟩
    · rw [decide_eq_true hr]
      rfl
    · rw [decide_eq_false hr]
      exact ⟨_, rfl, relayWaited_relayAfterRead (setAcc s p [])⟩
  case noRelay =>
    rw [hexec, ackReceived_of_not_relay hrole h]
    rfl
  case late =>
    rintro hrole rfl rfl hrest g rest later hqueue hup hdown hlapses
    exact runAll_late_ack hc hrole hrest hqueue hup hdown hlapses

end Sys2Proof.Proofs.AckFrames
end

section
/-! PROOFS. 45_arq_controller.md, the sender: a poll writes the outstanding frame only (O43), on a
silent link the sender gives up after MAX_RETRY (O44), and with the acknowledgements arriving a
datagram is sent whole (O45). The runs of O44 and O45 are inductions over polls, each of which takes
a sender that waits (`Waiting`) to the next. -/

namespace Sys2Proof.Proofs.SenderRuns

open Sys2Proof.Machine Sys2Proof.Proofs.Fragmenter Sys2Proof.Proofs.RawBytes
  Sys2Proof.Proofs.ArqController Sys2Proof.Proofs.RelayPoll Sys2Proof.Proofs.AckFrames

/-! ## One poll -/

/-- What a poll leaves of the stored frames, and what it may write (45_arq_controller.md R131). -/
structure WritesOutstanding (p : Port) (s t : State) : Prop where
  others : ∀ q, q ≠ p → t.env.tx.get q = s.env.tx.get q
  frames : t.arq.frames = s.arq.frames
  nframes : t.arq.nframes = s.arq.nframes
  port : t.env.tx.get p = s.env.tx.get p ∨ (t.arq.state = .awaitingAck ∧ t.env.tx.get p =
    s.env.tx.get p ++ writesOf s.cfg (t.arq.frames.getD t.arq.idx []))

theorem writesOutstanding_of_no_write {p : Port} {s t : State} (htx : t.env.tx = s.env.tx)
    (hframes : t.arq.frames = s.arq.frames) (hnframes : t.arq.nframes = s.arq.nframes) :
    WritesOutstanding p s t :=
  ⟨fun q _ => by rw [htx], hframes, hnframes, .inl (by rw [htx])⟩

theorem WritesOutstanding.of_receive {p : Port} {s x t : State} (h : WritesOutstanding p x t)
    (hf : LrFrame p s x) : WritesOutstanding p s t := by
  obtain ⟨hothers, hframes, hnframes, hport⟩ := h
  rw [hf.arq] at hframes hnframes
  rw [hf.tx] at hothers
  rw [hf.tx, hf.cfg] at hport
  exact ⟨hothers, hframes, hnframes, hport⟩

/-- A sender that writes writes the frame that is then outstanding. -/
theorem writesOutstanding_of_senderWrote {p : Port} {a : Arq} {v : OkValue} {x u : State}
    (hframes : a.frames = x.arq.frames) (hnframes : a.nframes = x.arq.nframes)
    (h : senderWrote p (a.frames.getD a.idx []) a v x u) :
    WritesOutstanding p x u ∧ u.arq.idx = a.idx := by
  obtain ⟨-, -, htx, hu⟩ := h
  have hport : u.env.tx.get p = x.env.tx.get p ++ writesOf x.cfg (a.frames.getD a.idx []) := by
    rw [htx]
    exact PerPort.get_set_same _ _ _
  refine ⟨⟨fun q hq => ?_, by rw [hu]; exact hframes, by rw [hu]; exact hnframes,
    .inr ⟨by rw [hu], ?_⟩⟩, by rw [hu]⟩
  · rw [htx]
    exact PerPort.get_set_ne _ hq _
  · rw [hport]
    rw [hu]

theorem writesOutstanding_of_senderWaited {p : Port} {x u : State} (h : senderWaited x u) :
    WritesOutstanding p x u ∧ u.arq.idx = x.arq.idx := by
  obtain ⟨-, -, htx, -, ⟨-, hu⟩ | ⟨-, -, hu⟩ | ⟨-, -, hu⟩⟩ := h
  all_goals
    exact ⟨writesOutstanding_of_no_write htx (by rw [hu]) (by rw [hu]), by rw [hu]⟩

/-- The `AwaitingAck` arm: `idx` moves on only when the acknowledgement came. -/
theorem writesOutstanding_pollAfterRead (p : Port) (matched : Bool) (x : State) :
    WritesOutstanding p x (pollAfterRead p matched x) ∧
      ((pollAfterRead p matched x).arq.idx = x.arq.idx ∨
        (matched = true ∧ (pollAfterRead p matched x).arq.idx = x.arq.idx + 1)) := by
  cases matched with
  | false =>
    obtain ⟨hwrites, hidx⟩ :=
      writesOutstanding_of_senderWaited (p := p) (senderWaited_pollAfterRead p x)
    exact ⟨hwrites, .inl hidx⟩
  | true =>
    rcases pollAfterRead_matched p x with ⟨-, e⟩ | ⟨-, hw⟩
    · rw [e]
      exact ⟨writesOutstanding_of_no_write rfl rfl rfl, .inr ⟨rfl, rfl⟩⟩
    · obtain ⟨hwrites, hidx⟩ := writesOutstanding_of_senderWrote
        (a := { x.arq with retries := 0, idx := x.arq.idx + 1 }) rfl rfl hw
      exact ⟨hwrites, .inr ⟨rfl, hidx⟩⟩

theorem exists_frame_of_recvMatches {c : Cfg} {r : Recv} (h : recvMatches c r = true) :
    ∃ f, r = .frame f ∧ isAckOf c f c.peerRole = true := by
  cases r with
  | frame f => exact ⟨f, rfl, h⟩
  | nothing | timeout | malformed => cases h

/-- Settles O43, by the sender's state. -/
theorem senderWritesOnlyOutstanding : Obligations.SenderWritesOnlyOutstanding := by
  intro p s t h
  have hall : WritesOutstanding p s t ∧ (t.arq.idx = s.arq.idx ∨
      (t.arq.idx = s.arq.idx + 1 ∧ s.arq.state = .awaitingAck ∧
        ∃ v f, exec (.lrRecvFrame p) s = .next v ∧ v.reply = .ok (.frame f) ∧
          isAckOf s.cfg f s.cfg.peerRole = true)) := by
    cases hs : s.arq.state with
    | idle | done | failed =>
      rw [exec_arqSendPoll_of_resting (by simp [hs])] at h
      cases h
      exact ⟨writesOutstanding_of_no_write rfl rfl rfl, .inl rfl⟩
    | retrying =>
      rw [exec_arqSendPoll_of_retrying hs] at h
      cases h
      obtain ⟨hwrites, hidx⟩ := writesOutstanding_of_senderWrote (p := p) (x := s)
        (a := { s.arq with retries := s.arq.retries + 1 }) rfl rfl (senderWrote_awaitAck p _ _ _ s)
      exact ⟨hwrites, .inl hidx⟩
    | awaitingAck =>
      rw [exec_arqSendPoll_of_awaitingAck hs] at h
      cases h
      have hframe := (lrDone_lrRecvFrame p s).frame
      obtain ⟨hwrites, hidx⟩ := writesOutstanding_pollAfterRead p
        (recvMatches s.cfg (lrRecvFrame p s).1) (lrRecvFrame p s).2
      rw [hframe.arq] at hidx
      refine ⟨hwrites.of_receive hframe, hidx.imp_right fun ⟨hmatch, hnext⟩ => ⟨hnext, rfl, ?_⟩⟩
      obtain ⟨f, hf, hack⟩ := exists_frame_of_recvMatches hmatch
      exact ⟨_, f, rfl, by rw [hf]; rfl, hack⟩
  obtain ⟨⟨hothers, hframes, hnframes, hport⟩, hidx⟩ := hall
  exact ⟨hothers, hframes, hnframes, hport, hidx⟩

/-! ## A sender that waits -/

/-- A sender that has just written a frame of `fs` and awaits its acknowledgement: `sent` has been
written to the port, `rx` is still to come on it, and `lapses` are the next lapses of the clock. -/
structure Waiting (c : Cfg) (p : Port) (fs : List Bytes) (idx retries : Nat) (rx : List RxEvent)
    (sent : List Bytes) (lapses : List Nat) (x : State) : Prop where
  cfg : x.cfg = c
  arq : x.arq = ⟨.awaitingAck, retries, x.env.clock + c.tAck, fs.length, idx, fs⟩
  rx : x.env.rx.get p = rx
  tx : x.env.tx.get p = sent
  lapses : x.env.lapses = lapses

/-- Writing a frame and starting its deadline takes one reading of the clock
(45_arq_controller.md R130, R131). -/
theorem waiting_awaitAck {p : Port} {x : State} {a : Arq} {d : Nat} {later : List Nat}
    (hnframes : a.nframes = a.frames.length) (hlapses : x.env.lapses = d :: later) (f : Bytes)
    (v : OkValue) :
    Waiting x.cfg p a.frames a.idx a.retries (x.env.rx.get p)
      (x.env.tx.get p ++ writesOf x.cfg f) later
      (replyOk (awaitAck (sendFrame p f (setArq x a))) v) := by
  have hnow := now_scripted (s := wrote p (writesOf x.cfg f) (setArq x a)) hlapses
  rw [awaitAck_spec, sendFrame_eq_wrote, setArq_cfg, hnow]
  exact ⟨rfl, by rw [← hnframes]; rfl, rfl, PerPort.get_set_same _ _ _, rfl⟩

theorem waiting_startSend {p : Port} {d : Bytes} {s : State} {l : Nat} {later : List Nat}
    (hlapses : s.env.lapses = l :: later) :
    let fs := fragmentFrames s.cfg d (draw16 s).1
    Waiting s.cfg p fs 0 0 (s.env.rx.get p) (s.env.tx.get p ++ writesOf s.cfg (fs.getD 0 [])) later
      (startSend p d s) := by
  obtain ⟨hblock, -, hrx, htx, hlaps, -⟩ := draw16_spec s
  have h := waiting_awaitAck (p := p) (x := (draw16 s).2) (a := { (draw16 s).2.arq with
      frames := fragmentFrames s.cfg d (draw16 s).1
      nframes := (fragmentFrames s.cfg d (draw16 s).1).length, idx := 0, retries := 0 }) rfl
    (hlaps.trans hlapses) ((fragmentFrames s.cfg d (draw16 s).1).getD 0 [])
    (.num (fragmentFrames s.cfg d (draw16 s).1).length)
  rw [hblock.cfg, hrx, htx] at h
  exact h

theorem exec_arqSendStart_of_accepted {p : Port} {d : Bytes} {s : State}
    (h1 : s.arq.state ≠ .awaitingAck) (h2 : s.arq.state ≠ .retrying)
    (hlen : lengthOk s.cfg d.length) (htoken : ¬ tokenDatagram s.cfg d) :
    exec (.arqSendStart p d) s = .next (startSend p d s) := by
  rw [exec_arqSendStart_of_ready h1 h2,
    if_neg (mt (badLength_eq_true_iff _ _).mp (not_not_intro hlen)),
    if_neg (mt (isTokenPayload_iff _ _).mp htoken)]

theorem getElem?_zero_fragmentFrames (c : Cfg) (d : Bytes) (t : Tag) :
    (fragmentFrames c d t)[0]? = some ((fragmentFrames c d t).getD 0 []) := by
  have hpos : 0 < (fragmentFrames c d t).length := by
    rw [fragmentFrames_length_eq]
    exact frameCount_pos _ _
  rw [List.getD_eq_getElem _ _ hpos, List.getElem?_eq_getElem hpos]

/-! ## A silent link -/

section Silent

variable {c : Cfg} {p : Port} {fs : List Bytes} {idx retries l : Nat} {sent : List Bytes}
  {lapses : List Nat} {x : State}

theorem pollAfterRead_of_retry {y : State} (hlate : y.arq.deadline ≤ (now y).1)
    (hretry : y.arq.retries < y.cfg.maxRetry) : pollAfterRead p false y =
      replyOk (setArq (now y).2 { y.arq with state := .retrying }) (.arqState .retrying) := by
  simp [pollAfterRead, elapsed, hlate, hretry, (now_spec y).1.arq]

theorem pollAfterRead_of_giveUp {y : State} (hlate : y.arq.deadline ≤ (now y).1)
    (hgiveUp : y.cfg.maxRetry ≤ y.arq.retries) : pollAfterRead p false y =
      raiseError (setArq (now y).2 { y.arq with state := .failed }) .retriesExhausted := by
  simp [pollAfterRead, elapsed, hlate, Nat.not_lt_of_le hgiveUp, (now_spec y).1.arq]

/-- On a silent link the poll reads the clock past its deadline. -/
theorem Waiting.silence (h : Waiting c p fs idx retries [] sent (l :: lapses) x) (hl : c.tAck ≤ l) :
    ∃ y, exec (.arqSendPoll p) x = .next (pollAfterRead p false y) ∧ y.cfg = c ∧ y.arq = x.arq ∧
      y.arq.deadline ≤ (now y).1 ∧ (now y).2.env.rx.get p = [] ∧ (now y).2.env.tx.get p = sent ∧
      (now y).2.env.lapses = lapses := by
  obtain ⟨rfl, harq, hrx, htx, hlapses⟩ := h
  obtain ⟨e, hrecv, hrx', htx', hlaps, hclock⟩ := lrRecvFrame_of_rx_nil hrx
  have hexec := exec_arqSendPoll_of_awaitingAck (p := p) (s := x) (by rw [harq])
  rw [hrecv] at hexec
  have hdeadline : x.arq.deadline ≤ e.clock + l := by
    rw [harq]
    dsimp only
    omega
  refine ⟨setEnv (setAcc x p []) e, hexec, rfl, rfl, ?_⟩
  rw [now_scripted (s := setEnv (setAcc x p []) e) (hlaps.trans hlapses)]
  exact ⟨hdeadline, by rw [← hrx, ← hrx']; rfl, by rw [← htx, ← htx']; rfl, rfl⟩

/-- With retries left, two polls write the frame again (45_arq_controller.md R131, R133). -/
theorem Waiting.retry {l' : Nat} (h : Waiting c p fs idx retries [] sent (l :: l' :: lapses) x)
    (hl : c.tAck ≤ l) (hretry : retries < c.maxRetry) :
    ∃ y z, exec (.arqSendPoll p) x = .next y ∧ exec (.arqSendPoll p) y = .next z ∧
      Waiting c p fs idx (retries + 1) [] (sent ++ writesOf c (fs.getD idx [])) lapses z := by
  obtain ⟨y, hexec, hcfg, harq, hlate, hrx, htx, hlaps⟩ := h.silence hl
  rw [h.arq] at harq
  rw [pollAfterRead_of_retry hlate (by rw [harq, hcfg]; exact hretry), harq] at hexec
  refine ⟨_, _, hexec, exec_arqSendPoll_of_retrying rfl, ?_⟩
  have hcfg' : (now y).2.cfg = c := (now_spec y).1.cfg.trans hcfg
  have hwait := waiting_awaitAck (p := p) (x := replyOk (setArq (now y).2 ⟨.retrying, retries,
      x.env.clock + c.tAck, fs.length, idx, fs⟩) (.arqState .retrying))
        (a := ⟨.retrying, retries + 1,
      x.env.clock + c.tAck, fs.length, idx, fs⟩) rfl hlaps (fs.getD idx []) (.arqState .awaitingAck)
  rw [replyOk_cfg, replyOk_env, setArq_cfg, setArq_env, hcfg', hrx, htx] at hwait
  exact hwait

/-- With none left, the poll gives up (45_arq_controller.md R131, R134). -/
theorem Waiting.giveUp (h : Waiting c p fs idx retries [] sent (l :: lapses) x) (hl : c.tAck ≤ l)
    (hgiveUp : c.maxRetry ≤ retries) :
    ∃ u, exec (.arqSendPoll p) x = .next u ∧ u.arq.state = .failed ∧
      u.reply = .error .retriesExhausted ∧ u.arq.idx = idx ∧ u.arq.frames = fs ∧
      u.env.tx.get p = sent := by
  obtain ⟨y, hexec, hcfg, harq, hlate, hrx, htx, hlaps⟩ := h.silence hl
  rw [h.arq] at harq
  rw [pollAfterRead_of_giveUp hlate (by rw [harq, hcfg]; exact hgiveUp), harq] at hexec
  exact ⟨_, hexec, rfl, rfl, rfl, rfl, htx⟩

/-- `m` retries, of two polls each, and the poll that gives up. -/
theorem Waiting.runAll_giveUp {m : Nat} {laps later : List Nat}
    (h : Waiting c p fs idx retries [] sent (laps ++ later) x) (hm : retries + m = c.maxRetry)
    (hlength : laps.length = 2 * m + 1) (hlaps : ∀ l ∈ laps, c.tAck ≤ l) :
    ∃ u, runAll (List.replicate (2 * m + 1) (.arqSendPoll p)) x = some u ∧ u.arq.state = .failed ∧
      u.reply = .error .retriesExhausted ∧ u.arq.idx = idx ∧ u.arq.frames = fs ∧
      u.env.tx.get p = sent ++ (List.replicate m (writesOf c (fs.getD idx []))).flatten := by
  induction m generalizing retries laps sent x with
  | zero =>
    obtain ⟨l, rfl⟩ := List.length_eq_one_iff.mp hlength
    obtain ⟨u, hexec, hstate, hreply, hidx, hframes, htx⟩ :=
      h.giveUp (hlaps l List.mem_cons_self) hm.ge
    exact ⟨u, by simp [runAll, hexec], hstate, hreply, hidx, hframes, by simpa using htx⟩
  | succ m ih =>
    match laps, hlength with
    | l :: l' :: laps, hlength =>
      obtain ⟨y, z, hy, hz, hwait⟩ := h.retry (hlaps l List.mem_cons_self) (by omega)
      obtain ⟨u, hrun, hstate, hreply, hidx, hframes, htx⟩ := ih hwait (by omega)
        (by simpa [Nat.mul_add] using hlength)
        fun l hl => hlaps l (List.mem_cons_of_mem _ (List.mem_cons_of_mem _ hl))
      refine ⟨u, ?_, hstate, hreply, hidx, hframes, ?_⟩
      · rw [show 2 * (m + 1) + 1 = 2 * m + 1 + 1 + 1 by omega, List.replicate_succ,
          List.replicate_succ, runAll, hy]
        dsimp only
        rw [runAll, hz]
        exact hrun
      · rw [htx, List.replicate_succ, List.flatten_cons, List.append_assoc]

end Silent

/-- Settles O44: the datagram is started, and then retried until MAX_RETRY is used up. -/
theorem givesUpAfterMaxRetry : Obligations.GivesUpAfterMaxRetry := by
  intro p d s laps later hc h1 h2 hlen htoken hrx hlapses hlength hlaps
  match laps, hlength with
  | l :: laps, hlength =>
    have hstart := waiting_startSend (p := p) (d := d) hlapses
    rw [hrx] at hstart
    obtain ⟨u, hrun, hstate, hreply, hidx, hframes, htx⟩ :=
      hstart.runAll_giveUp (m := s.cfg.maxRetry) (Nat.zero_add _)
        (by simpa using hlength) fun l hl => hlaps l (List.mem_cons_of_mem _ hl)
    refine ⟨u, (fragmentFrames s.cfg d (draw16 s).1).getD 0 [], ?_, hstate, hreply, hidx,
      by rw [hframes]; exact getElem?_zero_fragmentFrames _ _ _, ?_, ?_⟩
    · rw [runAll, exec_arqSendStart_of_accepted h1 h2 hlen htoken]
      exact hrun
    · rw [htx, Nat.add_comm, List.replicate_succ, List.flatten_cons, List.append_assoc]
    · rw [exec_arqSendPoll_of_resting (.inr (.inr hstate)), hstate]

/-! ## The acknowledgements arriving -/

section Acknowledged

variable {c : Cfg} {p : Port} {fs : List Bytes} {idx retries : Nat} {sent : List Bytes}
  {lapses : List Nat} {rest : List RxEvent} {x : State}

/-- What the matching acknowledgement is answered with. -/
theorem Waiting.poll_acked (hc : cfgLegal c = true)
    (h : Waiting c p fs idx retries (promptly (ackFrame c c.peerRole) ++ rest) sent
      (List.replicate (ackFrame c c.peerRole).length 0 ++ lapses) x) :
    exec (.arqSendPoll p) x = .next (pollAfterRead p true (midway p x [] rest lapses)) := by
  obtain ⟨rfl, harq, hrx, htx, hlapses⟩ := h
  have hmatch : recvMatches x.cfg (.frame (ackFrame x.cfg x.cfg.peerRole)) = true :=
    (isAckOf_ackFrame hc _ _).trans (decide_eq_true rfl)
  rw [exec_arqSendPoll_of_awaitingAck (by rw [harq]), lrRecvFrame_of_ackFrame hc hrx hlapses,
    hmatch]

/-- The acknowledgement of a frame before the last is answered with the next one
(45_arq_controller.md R132). -/
theorem Waiting.next (hc : cfgLegal c = true) {l : Nat}
    (h : Waiting c p fs idx retries (promptly (ackFrame c c.peerRole) ++ rest) sent
      (List.replicate (ackFrame c c.peerRole).length 0 ++ l :: lapses) x)
    (hmore : idx + 1 < fs.length) :
    ∃ u, exec (.arqSendPoll p) x = .next u ∧ Waiting c p fs (idx + 1) 0 rest
      (sent ++ writesOf c (fs.getD (idx + 1) [])) lapses u := by
  have hexec := h.poll_acked hc
  obtain ⟨rfl, harq, hrx, htx, hlapses⟩ := h
  have harq' : (midway p x [] rest (l :: lapses)).arq = x.arq := rfl
  rcases pollAfterRead_cases p true (midway p x [] rest (l :: lapses)) with
    ⟨-, hlast, -⟩ | ⟨-, -, e⟩ | ⟨hf, -⟩ | ⟨hf, -⟩
  · rw [harq', harq] at hlast
    exact absurd hlast (Nat.ne_of_lt hmore)
  · rw [harq', harq] at e
    rw [e] at hexec
    have hwait := waiting_awaitAck (p := p) (x := midway p x [] rest (l :: lapses))
      (a := ⟨.awaitingAck, 0, x.env.clock + x.cfg.tAck, fs.length, idx + 1, fs⟩) rfl rfl
      (fs.getD (idx + 1) []) (.arqState .awaitingAck)
    have hrx' : (midway p x [] rest (l :: lapses)).env.rx.get p = rest := PerPort.get_set_same _ _ _
    have htx' : (midway p x [] rest (l :: lapses)).env.tx.get p = sent := htx
    rw [hrx', htx'] at hwait
    exact ⟨_, hexec, hwait⟩
  · cases hf
  · cases hf

/-- That of the last one ends the datagram. -/
theorem Waiting.done (hc : cfgLegal c = true)
    (h : Waiting c p fs idx retries (promptly (ackFrame c c.peerRole) ++ rest) sent
      (List.replicate (ackFrame c c.peerRole).length 0 ++ lapses) x)
    (hlast : idx + 1 = fs.length) :
    ∃ u, exec (.arqSendPoll p) x = .next u ∧ u.arq.state = .done ∧ u.arq.idx = idx + 1 ∧
      u.arq.frames = fs ∧ u.reply = .ok (.arqState .done) ∧ u.env.tx.get p = sent ∧
      u.env.rx.get p = rest := by
  have hexec := h.poll_acked hc
  obtain ⟨rfl, harq, hrx, htx, hlapses⟩ := h
  have harq' : (midway p x [] rest lapses).arq = x.arq := rfl
  rcases pollAfterRead_matched p (midway p x [] rest lapses) with ⟨-, e⟩ | ⟨hmore, -⟩
  · rw [harq', harq] at e
    rw [e] at hexec
    exact ⟨_, hexec, rfl, rfl, rfl, rfl, htx, PerPort.get_set_same _ _ _⟩
  · rw [harq', harq] at hmore
    exact absurd hlast hmore

/-- The first of the acknowledgements to come, and the lapses it takes. -/
theorem Waiting.first_ack {m k : Nat} {later : List Nat}
    (h : Waiting c p fs idx retries
      (promptly (List.replicate (m + 1) (ackFrame c c.peerRole)).flatten ++ rest) sent
      (List.replicate k 0 ++ later) x)
    (hk : (ackFrame c c.peerRole).length ≤ k) :
    Waiting c p fs idx retries (promptly (ackFrame c c.peerRole) ++
        (promptly (List.replicate m (ackFrame c c.peerRole)).flatten ++ rest)) sent
      (List.replicate (ackFrame c c.peerRole).length 0 ++
        (List.replicate (k - (ackFrame c c.peerRole).length) 0 ++ later)) x := by
  rw [← List.append_assoc, ← List.append_assoc, List.replicate_append_replicate,
    Nat.add_sub_cancel' hk, promptly, promptly, ← List.map_append, ← List.flatten_cons,
    ← List.replicate_succ]
  exact h

/-- As many polls as frames are still to be acknowledged (45_arq_controller.md R129). -/
theorem Waiting.runAll_done (hc : cfgLegal c = true) {m k : Nat} {later : List Nat}
    (h : Waiting c p fs idx retries
      (promptly (List.replicate (m + 1) (ackFrame c c.peerRole)).flatten ++ rest) sent
      (List.replicate k 0 ++ later) x)
    (hm : idx + (m + 1) = fs.length)
    (hk : (m + 1) * (1 + (ackFrame c c.peerRole).length) ≤ k + 1) :
    ∃ u, runAll (List.replicate (m + 1) (.arqSendPoll p)) x = some u ∧ u.arq.state = .done ∧
      u.arq.idx = fs.length ∧ u.arq.frames = fs ∧ u.reply = .ok (.arqState .done) ∧
      u.env.tx.get p = sent ++ ((fs.drop (idx + 1)).map (writesOf c)).flatten ∧
      u.env.rx.get p = rest := by
  induction m generalizing idx retries sent k x with
  | zero =>
    obtain ⟨u, hexec, hstate, hidx, hframes, hreply, htx, hrx⟩ :=
      (h.first_ack (by omega)).done hc hm
    refine ⟨u, by simp [runAll, hexec], hstate, hidx.trans hm, hframes, hreply, ?_, hrx⟩
    rw [htx, List.drop_of_length_le (by omega), List.map_nil, List.flatten_nil, List.append_nil]
  | succ m ih =>
    rw [Nat.add_mul, Nat.one_mul] at hk
    have hpos : 1 ≤ (m + 1) * (1 + (ackFrame c c.peerRole).length) :=
      Nat.mul_pos (Nat.succ_pos m) (Nat.add_pos_left Nat.one_pos _)
    have hfirst := h.first_ack (by omega)
    obtain ⟨j, hj⟩ : ∃ j, k - (ackFrame c c.peerRole).length = j + 1 :=
      Nat.exists_eq_add_of_le' (by omega)
    rw [hj, List.replicate_succ] at hfirst
    obtain ⟨y, hexec, hnext⟩ := hfirst.next hc (by omega)
    obtain ⟨u, hrun, hstate, hidx, hframes, hreply, htx, hrx⟩ := ih hnext (by omega) (by omega)
    refine ⟨u, ?_, hstate, hidx, hframes, hreply, ?_, hrx⟩
    · rw [List.replicate_succ, runAll, hexec]
      exact hrun
    · have hin : idx + 1 < fs.length := by omega
      rw [htx, List.drop_eq_getElem_cons hin, List.map_cons, List.flatten_cons,
        List.getD_eq_getElem _ _ hin, List.append_assoc]

end Acknowledged

/-- Settles O45: the datagram is started, and then each poll takes one acknowledgement. -/
theorem sendsWholeDatagram : Obligations.SendsWholeDatagram := by
  intro p d n s later rest hc h1 h2 hlen htoken hcount hrx hlapses
  rw [exec_fragCount_of_lengthOk hlen] at hcount
  injection reply_eq_of_next hcount with hnum
  injection hnum with hn
  subst hn
  have hcount := fragmentFrames_length_eq s.cfg d (draw16 s).1
  obtain ⟨m, hm⟩ := Nat.exists_eq_add_of_le' (frameCount_pos s.cfg d.length)
  rw [Nat.add_comm, List.replicate_succ] at hlapses
  have hstart := waiting_startSend (p := p) (d := d) hlapses
  rw [hrx, hm] at hstart
  have hack : (ackFrame s.cfg s.cfg.peerRole).length =
      1 + (ackToken s.cfg s.cfg.peerRole).length := by rw [ackFrame, List.length_cons, Nat.add_comm]
  obtain ⟨u, hrun, hstate, hidx, hframes, hreply, htx, hrxU⟩ :=
    hstart.runAll_done hc (by omega) (by rw [hack, ← Nat.add_assoc]; exact Nat.le_succ _)
  refine ⟨u, (draw16 s).1, ?_, hstate, by rw [hidx, hcount], hreply, ?_, ?_, hrxU⟩
  · rw [runAll, exec_arqSendStart_of_accepted h1 h2 hlen htoken, hm]
    exact hrun
  · rw [hframes]
    exact exec_fragment_of_enough_slots hlen (Nat.le_refl _) _
  · have hpos : 0 < (fragmentFrames s.cfg d (draw16 s).1).length := by omega
    rw [htx, hframes, List.append_assoc, List.getD_eq_getElem _ _ hpos, ← List.flatten_cons,
      ← List.map_cons, ← List.drop_eq_getElem_cons hpos, List.drop_zero]

end Sys2Proof.Proofs.SenderRuns
end

section
/-! PROOFS. 42_reassembler.md R103: the fragments of a datagram reassemble to it, others in any
order and repeated (O24), whatever partial datagram of another tag was held (O25). The invariant is
on the context alone and asks nothing of the bytes that were in `ctx.buf` before: the positions
received hold the datagram's slices. -/

namespace Sys2Proof.Proofs.RoundTrip

open Sys2Proof.Machine Sys2Proof.Proofs.HeaderCodec Sys2Proof.Proofs.Fragmenter
  Sys2Proof.Proofs.Reassembler Sys2Proof.Proofs.ContextInvariant

/-! ## Contexts that gather a datagram -/

/-- The slice of a position. -/
def slice (c : Cfg) (d : Bytes) (p : Nat) : Bytes :=
  (d.drop (sliceStart c p)).take (sliceLen c d.length p)

theorem slice_length (c : Cfg) (d : Bytes) (p : Nat) :
    (slice c d p).length = sliceLen c d.length p := by
  rw [slice, List.length_take, List.length_drop, Nat.min_eq_left (sliceLen_le c d.length p)]

theorem slice_getElem? {c : Cfg} {d : Bytes} {p i : Nat} (hi : i < sliceLen c d.length p) :
    (slice c d p)[i]? = d[sliceStart c p + i]? := by
  rw [slice, List.getElem?_take_of_lt hi, List.getElem?_drop]

/-- The context is bound to the datagram `d` under tag `t`, and has accepted the slices of the
positions it marks as received. -/
structure Gathers (c : Cfg) (d : Bytes) (t : Tag) (x : Ctx) : Prop where
  busy : x.idle = false
  tag : x.tag = t
  size : x.expectedSize = d.length
  receivedLength : x.received.length = nmax c
  filled : x.filled = ∑ p ∈ Finset.range (nfrag c d.length), acceptedLen c x p
  bytes : ∀ p, x.received[p]? = some true → ∀ i, i < sliceLen c d.length p →
    Memory.read x.buf (sliceStart c p + i) = d[sliceStart c p + i]?

section Gathers

variable {c : Cfg} {d : Bytes} {t : Tag} {x : Ctx}

/-- A context just bound has received nothing, whatever stands in its buffer. -/
theorem gathers_bindCtx (c : Cfg) (d : Bytes) (t : Tag) (x : Ctx) :
    Gathers c d t (bindCtx c x d.length t) := by
  have hnone := received_bindCtx_ne_true c x d.length t
  refine ⟨rfl, rfl, rfl, List.length_replicate, ?_, fun p hp => absurd hp (hnone p)⟩
  simp only [acceptedLen, hnone, if_false, Finset.sum_const_zero, bindCtx_filled]

/-- One slice more is accepted. -/
theorem Gathers.accept (hO : 0 < c.otherCap) (hd : lengthOk c d.length) (h : Gathers c d t x)
    {p : Nat} (hp : p < nfrag c d.length) (hnew : x.received[p]? ≠ some true) (n : Nat) :
    Gathers c d t (acceptCtx x p (sliceStart c p) (slice c d p) n) := by
  have hmax := nfrag_le_nmax hO hd.2
  have hin : p < x.received.length := by
    have := h.receivedLength
    omega
  have hlen := slice_length c d p
  refine ⟨h.busy, h.tag, h.size, ?length, ?filled, fun q hq i hi => ?bytes⟩
  case length =>
    rw [acceptCtx_received, List.length_set]
    exact h.receivedLength
  case filled =>
    have hsum := sum_received_set (sliceLen c x.expectedSize) hp hin hnew
    have hshare : (slice c d p).length = sliceLen c x.expectedSize p := by rw [hlen, h.size]
    rw [acceptCtx_filled, h.filled, hshare]
    exact hsum.symm
  case bytes =>
    rw [acceptCtx_received, getElem?_set_true_eq_some_iff hin] at hq
    rw [acceptCtx_buf]
    by_cases hinside : sliceStart c p ≤ sliceStart c q + i ∧
        sliceStart c q + i < sliceStart c p + sliceLen c d.length p
    · obtain ⟨k, hk⟩ := Nat.exists_eq_add_of_le hinside.1
      rw [hk] at hinside ⊢
      have hk' : k < sliceLen c d.length p := by omega
      rw [read_writeRange_eq_getElem? _ _ _ (hlen.symm ▸ hk'), slice_getElem? hk']
    · have hold : x.received[q]? = some true := hq.resolve_left (by rintro rfl; omega)
      rw [Memory.read_writeRange_outside _ _ _ (by omega), h.bytes q hold i hi]

/-- Every position is received exactly when the bytes accepted add up to the datagram. -/
theorem Gathers.filled_eq_iff (hc : cfgLegal c = true) (hd : lengthOk c d.length)
    (h : Gathers c d t x) :
    x.filled = d.length ↔ ∀ p, p < nfrag c d.length → x.received[p]? = some true := by
  obtain ⟨-, -, -, hO⟩ := cfgLegal_fragmentCaps hc
  obtain ⟨-, -, -, -, hslice, -⟩ := slicesPartition c d.length hc hd.1
  have hwhole := sum_sliceLen_nfrag hO hd.1
  have hle (p : Nat) : acceptedLen c x p ≤ sliceLen c d.length p := h.size ▸ acceptedLen_le c x p
  have hiff (p : Nat) (hp : p < nfrag c d.length) :
      acceptedLen c x p = sliceLen c d.length p ↔ x.received[p]? = some true := by
    rw [← h.size]
    exact acceptedLen_eq_sliceLen_iff (h.size ▸ (hslice p hp).1)
  calc x.filled = d.length
    _ ↔ ∑ p ∈ Finset.range (nfrag c d.length), acceptedLen c x p =
          ∑ p ∈ Finset.range (nfrag c d.length), sliceLen c d.length p := by rw [h.filled, hwhole]
    _ ↔ ∀ p ∈ Finset.range (nfrag c d.length), acceptedLen c x p = sliceLen c d.length p :=
        Finset.sum_eq_sum_iff_of_le fun p _ => hle p
    _ ↔ ∀ p, p < nfrag c d.length → x.received[p]? = some true := by
        simp only [Finset.mem_range]
        exact forall₂_congr hiff

/-- What is copied out of a complete context is the datagram. -/
theorem Gathers.bufBytesTo_eq (hc : cfgLegal c = true) (hd : lengthOk c d.length)
    (h : Gathers c d t x) (hfull : x.filled = d.length) : bufBytesTo x.buf x.filled = d := by
  obtain ⟨-, -, -, hcover, -⟩ := slicesPartition c d.length hc hd.1
  have hall := (h.filled_eq_iff hc hd).mp hfull
  refine List.ext_getElem? fun i => ?_
  rw [hfull]
  by_cases hi : i < d.length
  · obtain ⟨p, ⟨hp, hge, hlt⟩, -⟩ := hcover i hi
    have hread := h.bytes p (hall p hp) (i - sliceStart c p) (by omega)
    rw [Nat.add_sub_cancel' hge, List.getElem?_eq_getElem hi] at hread
    rw [bufBytesTo_getElem?_of_read hi hread, List.getElem?_eq_getElem hi]
  · rw [List.getElem?_eq_none (Nat.le_of_not_lt hi),
      List.getElem?_eq_none (by rw [bufBytesTo_length]; exact Nat.le_of_not_lt hi)]

theorem Gathers.isComplete_iff (hc : cfgLegal c = true) (hd : lengthOk c d.length)
    (h : Gathers c d t x) :
    isComplete x = true ↔ ∀ p, p < nfrag c d.length → x.received[p]? = some true := by
  rw [isComplete_eq_true_iff, ← h.filled_eq_iff hc hd, h.size]
  exact and_iff_right h.busy

end Gathers

/-! ## The frames of a datagram, ingested -/

section Ingest

variable {c : Cfg} {d : Bytes} {t : Tag} {x : Ctx} {p : Nat}

theorem formatHeader_fragFrame (hc : cfgLegal c = true) (hd : lengthOk c d.length)
    (hp : p < nfrag c d.length) (t : Tag) :
    formatHeader c (fragFrame c d t p) = some (fragHeader c d.length t p) := by
  have hvalid := formatValid_fragFrame hc hd hp t
  rcases formatHeader_eq_none_or_of_unpackHeader (unpackHeader_fragFrame c d t p) c with hf | hf
  · rw [formatValid, hf] at hvalid
    cases hvalid
  · exact hf

theorem fragFrame_drop (c : Cfg) (d : Bytes) (t : Tag) (p : Nat) :
    (fragFrame c d t p).drop (posHdrLen p) = slice c d p := by
  rw [fragFrame, ← headerBytes_fragHeader_length c d.length t p, List.drop_left]
  rfl

theorem size_toNat_of_lengthOk (hc : cfgLegal c = true) (hd : lengthOk c d.length) :
    (BitVec.ofNat 13 d.length).toNat = d.length :=
  size_toNat_ofNat (hd.2.trans (cfgLegal_maxDatagram_le hc))

/-- The offset byte of an other fragment decodes to its position. -/
theorem hdrPos_of_fragment (hc : cfgLegal c = true) (hd : lengthOk c d.length)
    (hp : p + 1 < nfrag c d.length) :
    hdrPos c (BitVec.ofNat 8 (sliceStart c (p + 1) / 8)) = p + 1 := by
  obtain ⟨-, -, -, hO⟩ := cfgLegal_fragmentCaps hc
  rw [hdrPos, hdrOffset_sliceStart hc hd hp, sliceStart_succ, Nat.add_sub_cancel_left,
    Nat.mul_div_cancel _ hO, Nat.add_comm]

/-- The first fragment binds a context that is Idle or holds another tag, and its slice is accepted
(42_reassembler.md R95, R97). -/
theorem ingestCtx_firstFragment (hc : cfgLegal c = true) (hd : lengthOk c d.length)
    (hnew : x.idle = true ∨ x.tag ≠ t) :
    rsmVerdict c x (fragFrame c d t 0) = (if x.idle then .start else .restart) ∧
      ∃ n, ingestCtx c x (fragFrame c d t 0) =
        acceptCtx (bindCtx c x d.length t) 0 (sliceStart c 0) (slice c d 0) n := by
  have hf := formatHeader_fragFrame hc hd (nfrag_pos c d.length) t
  have hv := rsmVerdict_first_of_unbound hf hnew
  have hsize := size_toNat_of_lengthOk hc hd
  have hdrop : (fragFrame c d t 0).drop 4 = slice c d 0 := fragFrame_drop c d t 0
  refine ⟨hv, (fragFrame c d t 0).length, ?_⟩
  rw [ingestCtx, hv, hf, fragHeader_zero]
  cases x.idle <;> simp only [hsize, hdrop, sliceStart_zero, if_true, if_false, Bool.false_eq_true]

/-- An other fragment is accepted at a position not yet received (42_reassembler.md R96). -/
theorem ingestCtx_otherFragment (hc : cfgLegal c = true) (hd : lengthOk c d.length)
    (h : Gathers c d t x) (hp : p + 1 < nfrag c d.length)
    (hnew : x.received[p + 1]? ≠ some true) :
    rsmVerdict c x (fragFrame c d t (p + 1)) = .new ∧ ∃ n, ingestCtx c x (fragFrame c d t (p + 1)) =
      acceptCtx x (p + 1) (sliceStart c (p + 1)) (slice c d (p + 1)) n := by
  have hf := formatHeader_fragFrame hc hd hp t
  have hpos := hdrPos_of_fragment hc hd hp
  have hv := rsmVerdict_other_of_boundTo hf
    ⟨h.busy, h.tag, h.size.trans (size_toNat_of_lengthOk hc hd).symm⟩
  rw [hpos, if_neg hnew] at hv
  have hdrop : (fragFrame c d t (p + 1)).drop 5 = slice c d (p + 1) := fragFrame_drop c d t (p + 1)
  refine ⟨hv, (fragFrame c d t (p + 1)).length, ?_⟩
  rw [ingestCtx, hv, hf, fragHeader_succ]
  simp only [hpos, hdrOffset_sliceStart hc hd hp, hdrop]

/-- A fragment that was received already changes nothing (42_reassembler.md R99). -/
theorem ingestCtx_duplicate (hc : cfgLegal c = true) (hd : lengthOk c d.length)
    (h : Gathers c d t x) (hp : p < nfrag c d.length) (hold : x.received[p]? = some true) :
    ingestCtx c x (fragFrame c d t p) = x := by
  have hf := formatHeader_fragFrame hc hd hp t
  have hb : BoundTo x (BitVec.ofNat 13 d.length) t :=
    ⟨h.busy, h.tag, h.size.trans (size_toNat_of_lengthOk hc hd).symm⟩
  have hv : rsmVerdict c x (fragFrame c d t p) = .duplicate := by
    cases p with
    | zero => exact rsmVerdict_first_of_boundTo hf hb
    | succ q =>
      rw [rsmVerdict_other_of_boundTo hf hb, hdrPos_of_fragment hc hd hp, if_pos hold]
  rw [ingestCtx, hv]

/-- What ingesting the fragment of position `p` makes of a context. -/
structure Ingests (c : Cfg) (d : Bytes) (t : Tag) (p : Nat) (x y : Ctx) : Prop where
  gathers : Gathers c d t y
  received : ∀ q, y.received[q]? = some true ↔ q = p ∨ x.received[q]? = some true

theorem ingests_accept (hO : 0 < c.otherCap) (hd : lengthOk c d.length) (h : Gathers c d t x)
    (hp : p < nfrag c d.length) (hnew : x.received[p]? ≠ some true) (n : Nat) :
    Ingests c d t p x (acceptCtx x p (sliceStart c p) (slice c d p) n) := by
  have hmax := nfrag_le_nmax hO hd.2
  have hin : p < x.received.length := by
    have := h.receivedLength
    omega
  exact ⟨h.accept hO hd hp hnew n, fun q => getElem?_set_true_eq_some_iff hin q⟩

/-- Whatever was held of another datagram, after the first fragment only position 0 is received. -/
theorem ingests_firstFragment (hc : cfgLegal c = true) (hd : lengthOk c d.length)
    (hnew : x.idle = true ∨ x.tag ≠ t) :
    Gathers c d t (ingestCtx c x (fragFrame c d t 0)) ∧
      ∀ q, (ingestCtx c x (fragFrame c d t 0)).received[q]? = some true ↔ q = 0 := by
  obtain ⟨-, -, -, hO⟩ := cfgLegal_fragmentCaps hc
  obtain ⟨-, n, e⟩ := ingestCtx_firstFragment hc hd hnew
  have hnone := received_bindCtx_ne_true c x d.length t
  obtain ⟨hgathers, hreceived⟩ :=
    ingests_accept hO hd (gathers_bindCtx c d t x) (nfrag_pos _ _) (hnone 0) n
  rw [e]
  exact ⟨hgathers, fun q => (hreceived q).trans (or_iff_left (hnone q))⟩

/-- A fragment of the datagram that is being gathered, received before or not. -/
theorem Gathers.ingest (hc : cfgLegal c = true) (hd : lengthOk c d.length) (h : Gathers c d t x)
    (hfirst : x.received[0]? = some true) (hp : p < nfrag c d.length) :
    Ingests c d t p x (ingestCtx c x (fragFrame c d t p)) := by
  obtain ⟨-, -, -, hO⟩ := cfgLegal_fragmentCaps hc
  by_cases hold : x.received[p]? = some true
  · rw [ingestCtx_duplicate hc hd h hp hold]
    exact ⟨h, fun q => (or_iff_right_of_imp (by rintro rfl; exact hold)).symm⟩
  · cases p with
    | zero => exact absurd hfirst hold
    | succ q =>
      obtain ⟨-, n, e⟩ := ingestCtx_otherFragment hc hd h hp hold
      rw [e]
      exact ingests_accept hO hd h hp hold n

end Ingest

/-! ## Runs of RSM_INGEST -/

section Runs

variable {d : Bytes} {t : Tag} {s : State}

/-- Ingesting fragments of the datagram, in any order and repeated. -/
theorem runAll_ingest (hc : cfgLegal s.cfg = true) (hd : lengthOk s.cfg d.length)
    (h : Gathers s.cfg d t s.ctx) (hfirst : s.ctx.received[0]? = some true) {order : List Nat}
    (horder : ∀ p ∈ order, p < nfrag s.cfg d.length) :
    ∃ u, runAll (order.map fun p => .rsmIngest (fragFrame s.cfg d t p)) s = some u ∧
      u.cfg = s.cfg ∧ Gathers s.cfg d t u.ctx ∧
      ∀ q, s.ctx.received[q]? = some true ∨ q ∈ order → u.ctx.received[q]? = some true := by
  induction order generalizing s with
  | nil => exact ⟨s, rfl, rfl, h, fun q hq => hq.resolve_right List.not_mem_nil⟩
  | cons p order ih =>
    obtain ⟨hp, hrest⟩ := List.forall_mem_cons.mp horder
    obtain ⟨hgathers, hreceived⟩ := h.ingest hc hd hfirst hp
    obtain ⟨u, hrun, hcfg, hu, hq⟩ := ih (s := ingest (fragFrame s.cfg d t p) s) hc hd hgathers
      ((hreceived 0).mpr (.inr hfirst)) hrest
    refine ⟨u, hrun, hcfg, hu, fun q hmem => hq q ?_⟩
    rw [List.mem_cons] at hmem
    rcases hmem with hold | rfl | hlater
    · exact .inl ((hreceived q).mpr (.inr hold))
    · exact .inl ((hreceived q).mpr (.inl rfl))
    · exact .inr hlater

/-- The first fragment and then others that hold every position complete the datagram. -/
theorem runAll_fragments (hc : cfgLegal s.cfg = true) (hd : lengthOk s.cfg d.length)
    (hnew : s.ctx.idle = true ∨ s.ctx.tag ≠ t) {order : List Nat}
    (horder : ∀ p ∈ order, p < nfrag s.cfg d.length)
    (hall : ∀ p, 1 ≤ p → p < nfrag s.cfg d.length → p ∈ order) :
    ∃ u, runAll (.rsmIngest (fragFrame s.cfg d t 0) ::
        order.map fun p => .rsmIngest (fragFrame s.cfg d t p)) s = some u ∧
      u.ctx.tag = t ∧ isComplete u.ctx = true ∧ u.ctx.filled = d.length ∧
      bufBytesTo u.ctx.buf u.ctx.filled = d := by
  obtain ⟨hgathers, hreceived⟩ := ingests_firstFragment hc hd hnew
  obtain ⟨u, hrun, hcfg, hu, hq⟩ := runAll_ingest (s := ingest (fragFrame s.cfg d t 0) s) hc hd
    hgathers ((hreceived 0).mpr rfl) horder
  have hevery : ∀ p, p < nfrag s.cfg d.length → u.ctx.received[p]? = some true := by
    intro p hp
    rcases Nat.eq_zero_or_pos p with rfl | hpos
    · exact hq 0 (.inl ((hreceived 0).mpr rfl))
    · exact hq p (.inr (hall p hpos hp))
  have hfull := (hu.filled_eq_iff hc hd).mpr hevery
  exact ⟨u, hrun, hu.tag, (hu.isComplete_iff hc hd).mpr hevery, hfull,
    hu.bufBytesTo_eq hc hd hfull⟩

end Runs

/-! ## The obligations -/

theorem getD_fragmentFrames {c : Cfg} {d : Bytes} (hlong : c.nonfragCap < d.length) {t : Tag}
    {p : Nat} (hp : p < nfrag c d.length) :
    (fragmentFrames c d t).getD p [] = fragFrame c d t p := by
  rw [List.getD_eq_getElem?_getD, (fragmentFrames_getElem?_eq_some hlong t).mpr ⟨hp, rfl⟩,
    Option.getD_some]

/-- Settles O24. After the reset the context is Idle. -/
theorem reassembleRoundTrip : Obligations.ReassembleRoundTrip := by
  intro d t slots s fs hc hexec
  obtain ⟨hd, rfl⟩ := fragmentFrames_of_exec hexec
  refine ⟨fun hlong order horder hall => ?long, fun hshort => ?short⟩
  case long =>
    rw [fragmentFrames_length hlong] at horder hall
    obtain ⟨u, hrun, -, hcomplete, hfilled, hbytes⟩ := runAll_fragments (t := t)
      (s := replyOk (resetCtx s) .unit) hc hd (.inl rfl) horder hall
    refine ⟨u, ?_, ?_, fun cap hcap => ?_⟩
    · have hothers : (order.map fun p => Instr.rsmIngest ((fragmentFrames s.cfg d t).getD p [])) =
          order.map fun p => .rsmIngest (fragFrame s.cfg d t p) :=
        List.map_congr_left fun p hp => by rw [getD_fragmentFrames hlong (horder p hp)]
      rw [getD_fragmentFrames hlong (nfrag_pos _ _), hothers]
      exact hrun
    · rw [exec_rsmComplete, hcomplete]
    · rw [exec_rsmExtract_of_complete hcomplete (hfilled.trans_le hcap), hbytes]
  case short =>
    have hv : rsmVerdict s.cfg s.ctx (BitVec.ofNat 8 (d.length + 1) :: d) = .bypass :=
      rsmVerdict_of_nonFrag (formatHeader_shortFrame hc hshort)
    exact ⟨_, fragmentFrames_of_le hshort t, rfl, exec_rsmIngest_of_bypass hv,
      fun cap hcap => exec_lrDeliver_of_bypass hv hcap⟩

/-- Settles O25: in order is one of the orders. -/
theorem tagIsolation : Obligations.TagIsolation := by
  intro d t slots s fs hc hlong htag hexec
  obtain ⟨hd, rfl⟩ := fragmentFrames_of_exec hexec
  obtain ⟨m, hm⟩ := Nat.exists_eq_add_of_le' (nfrag_pos s.cfg d.length)
  obtain ⟨u, hrun, htagU, hcomplete, hfilled, hbytes⟩ := runAll_fragments (t := t)
    (order := (List.range m).map Nat.succ) hc hd (.inr htag)
    (by rw [hm]; simp) fun p h1 hp => by
      obtain ⟨q, rfl⟩ := Nat.exists_eq_add_of_le' h1
      exact List.mem_map.mpr ⟨q, List.mem_range.mpr (by omega), rfl⟩
  refine ⟨u, ?_, htagU, ?_⟩
  · rw [fragmentFrames_of_lt hlong, hm, List.range_succ_eq_map]
    simpa only [List.map_cons, List.map_map, Function.comp_def] using hrun
  · rw [exec_rsmExtract_of_complete hcomplete hfilled.le, hbytes]

end Sys2Proof.Proofs.RoundTrip
end

section
/-! PROOFS. 45_arq_controller.md, the receiver: it writes its own acknowledgements only (O49), and
the frames of a datagram that arrive are received as exactly it (O47). O49 is kept by every part of
a round; O47 is an induction over the frames still to come, each of which is gathered (O24) and
acknowledged. -/

namespace Sys2Proof.Proofs.Receiver

open Sys2Proof.Machine Sys2Proof.Proofs.HeaderCodec Sys2Proof.Proofs.Fragmenter
  Sys2Proof.Proofs.Reassembler Sys2Proof.Proofs.LinkReader Sys2Proof.Proofs.RawBytes
  Sys2Proof.Proofs.ArqController Sys2Proof.Proofs.Exceptions Sys2Proof.Proofs.RelayPoll
  Sys2Proof.Proofs.AckFrames Sys2Proof.Proofs.RoundTrip

/-! ## What the receiver writes -/

/-- From `s` to `t` acknowledgement frames of the role of `s` were written to `p`, and the other
ports were left alone. -/
structure OnlyAcks (p : Port) (s t : State) : Prop where
  cfg : t.cfg = s.cfg
  tx : ∃ k, t.env.tx.get p = s.env.tx.get p ++ List.replicate k (ackFrame s.cfg s.cfg.role)
  others : ∀ q, q ≠ p → t.env.tx.get q = s.env.tx.get q ∧ t.env.rx.get q = s.env.rx.get q ∧
    getAcc t q = getAcc s q

theorem onlyAcks_refl (p : Port) (s : State) : OnlyAcks p s s :=
  ⟨rfl, ⟨0, (List.append_nil _).symm⟩, fun _ _ => ⟨rfl, rfl, rfl⟩⟩

section OnlyAcks

variable {p : Port} {s t u : State}

theorem OnlyAcks.trans (h : OnlyAcks p s t) (k : OnlyAcks p t u) : OnlyAcks p s u := by
  obtain ⟨hcfg, ⟨m, hm⟩, hothers⟩ := h
  obtain ⟨kcfg, ⟨n, hn⟩, kothers⟩ := k
  refine ⟨kcfg.trans hcfg, ⟨m + n, ?_⟩, fun q hq => ?_⟩
  · rw [hn, hm, hcfg, List.append_assoc, List.replicate_append_replicate]
  · obtain ⟨htx, hrx, hacc⟩ := hothers q hq
    obtain ⟨ktx, krx, kacc⟩ := kothers q hq
    exact ⟨ktx.trans htx, krx.trans hrx, kacc.trans hacc⟩

/-- A receive attempt writes nothing and keeps to its port. -/
theorem onlyAcks_of_lrFrame (h : LrFrame p s t) : OnlyAcks p s t :=
  ⟨h.cfg, ⟨0, by rw [h.tx]; exact (List.append_nil _).symm⟩,
    fun q hq => ⟨by rw [h.tx], h.rx q hq, h.lr q hq⟩⟩

/-- An update of `ctx` or of the outcome. -/
theorem OnlyAcks.update (h : OnlyAcks p s t) (hcfg : u.cfg = t.cfg) (henv : u.env = t.env)
    (hlr : u.lr = t.lr) : OnlyAcks p s u := by
  obtain ⟨h1, h2, h3⟩ := h
  refine ⟨hcfg.trans h1, by rw [henv]; exact h2, fun q hq => ?_⟩
  rw [henv, getAcc, hlr]
  exact h3 q hq

theorem onlyAcks_sendAck (hc : cfgLegal s.cfg = true) : OnlyAcks p s (sendAck p s) := by
  rw [sendAck, sendFrame_eq_wrote, writesOf_ackFrame hc]
  exact ⟨rfl, ⟨1, PerPort.get_set_same _ _ _⟩, fun q hq => ⟨PerPort.get_set_ne _ hq _, rfl, rfl⟩⟩

theorem onlyAcks_recvData (hc : cfgLegal s.cfg = true) (f : Bytes) (cap : Nat) :
    OnlyAcks p s (recvData p f cap s).2 := by
  have hdeliver : OnlyAcks p s (deliver f cap (sendAck p s)).2 := by
    rw [deliver_snd]
    exact (onlyAcks_sendAck hc).update rfl rfl rfl
  rcases recvData_cases p f cap s with ⟨-, e⟩ | ⟨-, e⟩ | ⟨out, -, -, -, e⟩ <;> rw [e]
  · exact (onlyAcks_refl p s).update rfl rfl rfl
  · exact hdeliver
  · dsimp only
    split
    · exact hdeliver
    · exact hdeliver.update rfl rfl rfl

theorem onlyAcks_recvTimeout (p : Port) (s : State) : OnlyAcks p s (recvTimeout p s) :=
  (onlyAcks_of_lrFrame (lrFrame_setAcc s p [])).update rfl rfl rfl

end OnlyAcks

/-- Settles O49. -/
theorem receiverWritesOnlyAcks : Obligations.ReceiverWritesOnlyAcks := by
  intro p cap s t hc hexec
  have hlegal {x : State} (h : OnlyAcks p s x) : cfgLegal x.cfg = true := h.cfg ▸ hc
  have hall : OnlyAcks p s t := by
    cases hexec
    split
    · exact (onlyAcks_refl p s).update rfl rfl rfl
    · exact recvLoop_keeps (P := OnlyAcks p s)
        (fun x h => h.trans (onlyAcks_of_lrFrame (lrFrame_now x p)))
        (fun x h => h.trans (onlyAcks_of_lrFrame (lrDone_lrRecvFrame p x).frame))
        (fun f x h => h.trans (onlyAcks_recvData (hlegal h) f cap))
        (fun x h => h.trans (onlyAcks_recvTimeout p x)) (fun _ _ h => h.update rfl rfl rfl) _ _
        (onlyAcks_of_lrFrame (lrFrame_now s p))
  exact ⟨hall.tx, hall.others⟩

/-! ## Frames that arrive -/

/-- The raw bytes of frames written one after the other. -/
def rawOf (c : Cfg) (fs : List Bytes) : Bytes := (fs.map (writesOf c)).flatten.flatten

theorem rawOf_cons (c : Cfg) (f : Bytes) (fs : List Bytes) :
    rawOf c (f :: fs) = (writesOf c f).flatten ++ rawOf c fs := by
  rw [rawOf, List.map_cons, List.flatten_cons, List.flatten_append]
  rfl

/-- A frame the Link Reader can return, which is no acknowledgement (44_link_reader.md R111). -/
structure DataFrame (c : Cfg) (f : Bytes) : Prop where
  valid : formatValid c f = true
  head : f.head? ≠ some 0x01#8
  notAck : isAck c f = false

theorem DataFrame.raw_length {c : Cfg} {f : Bytes} (hc : cfgLegal c = true) (h : DataFrame c f) :
    1 ≤ (writesOf c f).flatten.length :=
  one_le_raw_length (a := .frame f) hc ⟨h.valid, h.head⟩

theorem length_le_rawOf {c : Cfg} (hc : cfgLegal c = true) {fs : List Bytes}
    (h : ∀ f ∈ fs, DataFrame c f) : fs.length ≤ (rawOf c fs).length := by
  induction fs with
  | nil => exact Nat.le_refl 0
  | cons f fs ih =>
    obtain ⟨hf, hfs⟩ := List.forall_mem_cons.mp h
    have hraw := hf.raw_length hc
    have hrest := ih hfs
    rw [rawOf_cons, List.length_append, List.length_cons]
    omega

/-- A receiver before a round: its context is `x`, it has written `sent`, the frames `fs` and then
`rest` stand in `rx[p]`, and the clock will not move while the frames are read: a round reads it
once and once for each byte, so twice for each byte is enough. -/
structure Incoming (c : Cfg) (p : Port) (x : Ctx) (fs : List Bytes) (rest : List RxEvent)
    (sent : List Bytes) (deadline : Nat) (t : State) : Prop where
  cfg : t.cfg = c
  ctx : t.ctx = x
  tx : t.env.tx.get p = sent
  rx : t.env.rx.get p = promptly (rawOf c fs) ++ rest
  lapses : ∃ n later, 2 * (rawOf c fs).length ≤ n ∧ t.env.lapses = List.replicate n 0 ++ later
  early : t.env.clock < deadline

section Incoming

variable {c : Cfg} {p : Port} {x : Ctx} {f : Bytes} {fs : List Bytes} {rest : List RxEvent}
  {sent : List Bytes} {deadline cap fuel : Nat} {t : State}

/-- A round reads the clock and the frame that has arrived. -/
theorem Incoming.round (hc : cfgLegal c = true) (hf : DataFrame c f)
    (h : Incoming c p x (f :: fs) rest sent deadline t) :
    (now t).1 < deadline ∧ ∃ u, lrRecvFrame p (now t).2 = (.frame f, u) ∧
      Incoming c p x fs rest sent deadline u := by
  obtain ⟨rfl, hctx, htx, hrx, ⟨n, later, hn, hlapses⟩, hearly⟩ := h
  have hpos := hf.raw_length hc
  rw [rawOf_cons, promptly, List.map_append, List.append_assoc] at hrx
  rw [rawOf_cons, List.length_append] at hn
  obtain ⟨k, rfl⟩ : ∃ k, n = (writesOf t.cfg f).flatten.length + k + 1 :=
    ⟨n - (writesOf t.cfg f).flatten.length - 1, by omega⟩
  rw [List.replicate_succ, ← List.replicate_append_replicate, List.cons_append,
    List.append_assoc] at hlapses
  rw [now_scripted hlapses]
  exact ⟨hearly, _, lrRecvFrame_of_writesOf hc hf.valid hf.head hrx rfl, rfl, hctx, htx,
    PerPort.get_set_same _ _ _, ⟨k, later, by omega, rfl⟩, hearly⟩

/-- What is left after a data frame was acknowledged and delivered. -/
theorem Incoming.acknowledged (hc : cfgLegal c = true)
    (h : Incoming c p x fs rest sent deadline t) (y : Ctx) :
    Incoming c p y fs rest (sent ++ [ackFrame c c.role]) deadline (setCtx (sendAck p t) y) := by
  obtain ⟨rfl, hctx, htx, hrx, hlapses, hearly⟩ := h
  rw [sendAck, sendFrame_eq_wrote, writesOf_ackFrame hc, wrote, htx]
  exact ⟨rfl, rfl, PerPort.get_set_same _ _ _, hrx, hlapses, hearly⟩

/-- A frame that delivers nothing is acknowledged, and the next round follows. -/
theorem Incoming.recvLoop_nothing (hc : cfgLegal c = true) (hf : DataFrame c f)
    (h : Incoming c p x (f :: fs) rest sent deadline t)
    {y : Ctx} (hdeliver : ∀ u : State, u.cfg = c → u.ctx = x →
      deliver f cap u = (.datagram [], setCtx u y)) :
    ∃ w, recvLoop p cap deadline (fuel + 1) t = recvLoop p cap deadline fuel w ∧
      Incoming c p y fs rest (sent ++ [ackFrame c c.role]) deadline w := by
  obtain ⟨hopen, u, hr, hnext⟩ := h.round hc hf
  have hd := hdeliver u hnext.cfg hnext.ctx
  have hdata := recvData_of_nothing (p := p) (t := u) (s := u) (f := f) (cap := cap) rfl rfl
    (by rw [hd])
  rw [hd] at hdata
  exact ⟨_, recvLoop_of_data_none hopen hr (by rw [h.cfg]; exact hf.notAck) hdata,
    hnext.acknowledged hc _⟩

/-- A frame that delivers a datagram is acknowledged, and ends the operation. -/
theorem Incoming.recvLoop_datagram (hc : cfgLegal c = true) (hf : DataFrame c f)
    (h : Incoming c p x (f :: fs) rest sent deadline t) {out : Bytes} (hne : out ≠ [])
    {y : Ctx} (hdeliver : ∀ u : State, u.cfg = c → u.ctx = x →
      deliver f cap u = (.datagram out, setCtx u y)) :
    ∃ w, recvLoop p cap deadline (fuel + 1) t = replyOk w (.datagram out) ∧
      Incoming c p (ctxAfter c f y) fs rest (sent ++ [ackFrame c c.role]) deadline w := by
  obtain ⟨hopen, u, hr, hnext⟩ := h.round hc hf
  have hd := hdeliver u hnext.cfg hnext.ctx
  have hdata := recvData_of_datagram (p := p) (t := u) (s := u) (f := f) (cap := cap) rfl rfl hne
    (by rw [hd])
  rw [hd] at hdata
  refine ⟨_, recvLoop_of_data_some hopen hr (by rw [h.cfg]; exact hf.notAck) hdata, ?_⟩
  rw [setCtx_ctx, hnext.cfg]
  exact hnext.acknowledged hc _

end Incoming

/-! ## The frames of a datagram -/

section Datagram

variable {c : Cfg} {d : Bytes} {t : Tag}

/-- A fragment starts with a byte that is no length and no marker (30_encoding.md R51). -/
theorem dataFrame_fragFrame (hc : cfgLegal c = true) (hd : lengthOk c d.length) {p : Nat}
    (hp : p < nfrag c d.length) : DataFrame c (fragFrame c d t p) := by
  have hvalid := formatValid_fragFrame hc hd hp t
  have hkind : kindOf ((fragFrame c d t p).headD 0) ≠ .nonFrag := by
    rw [kindOf_headD_of_unpackHeader (unpackHeader_fragFrame c d t p)]
    cases p <;> exact nofun
  refine ⟨hvalid, fun hhead => hkind ?_, Bool.eq_false_iff.mpr fun hack => ?_⟩
  · rw [List.headD_eq_head?_getD, hhead]
    rfl
  · obtain ⟨q, hq⟩ := (isAck_iff c _).mp hack
    exact hkind ((isAckOf_iff_payload hc hvalid q).mp hq).1

/-- So does the frame of a short datagram that equals no token (45_arq_controller.md R130). -/
theorem dataFrame_shortFrame (hc : cfgLegal c = true) (hd : lengthOk c d.length)
    (hshort : d.length ≤ c.nonfragCap) (htoken : ¬ tokenDatagram c d) :
    DataFrame c (BitVec.ofNat 8 (d.length + 1) :: d) := by
  have hvalid : formatValid c (BitVec.ofNat 8 (d.length + 1) :: d) = true := by
    rw [formatValid, formatHeader_shortFrame hc hshort]
    rfl
  refine ⟨hvalid, fun hhead => ?_, Bool.eq_false_iff.mpr fun hack => htoken ?_⟩
  · obtain ⟨-, -, ⟨-, -, hfits⟩, hframe, -⟩ := of_decide_eq_true hc
    have hpos := hd.1
    have hbyte := congrArg BitVec.toNat (Option.some.inj hhead)
    rw [BitVec.toNat_ofNat, BitVec.toNat_ofNat] at hbyte
    omega
  · obtain ⟨q, hq⟩ := (isAck_iff c _).mp hack
    exact ⟨hshort, q, ((isAckOf_iff_payload hc hvalid q).mp hq).2⟩

/-- The context once the first `k` fragments of the datagram have been ingested. -/
def Gathered (c : Cfg) (d : Bytes) (t : Tag) (k : Nat) (x : Ctx) : Prop :=
  (k = 0 ∧ (x.idle = true ∨ x.tag ≠ t)) ∨
    (0 < k ∧ Gathers c d t x ∧ ∀ q, x.received[q]? = some true ↔ q < k)

/-- The next fragment is accepted. -/
theorem Gathered.next (hc : cfgLegal c = true) (hd : lengthOk c d.length) {k : Nat} {x : Ctx}
    (h : Gathered c d t k x) (hk : k < nfrag c d.length) :
    Accepting (rsmVerdict c x (fragFrame c d t k)) ∧
      Gathers c d t (ingestCtx c x (fragFrame c d t k)) ∧
      ∀ q, (ingestCtx c x (fragFrame c d t k)).received[q]? = some true ↔ q < k + 1 := by
  rcases h with ⟨rfl, hnew⟩ | ⟨hpos, hgathers, hreceived⟩
  · obtain ⟨hgathers, hreceived⟩ := ingests_firstFragment hc hd hnew
    obtain ⟨hv, -⟩ := ingestCtx_firstFragment hc hd hnew
    refine ⟨?_, hgathers, fun q => (hreceived q).trans Nat.lt_one_iff.symm⟩
    rw [hv]
    split
    · exact .inl rfl
    · exact .inr (.inl rfl)
  · obtain ⟨m, rfl⟩ := Nat.exists_eq_add_of_le' hpos
    have hmissing : x.received[m + 1]? ≠ some true := mt (hreceived _).mp (Nat.lt_irrefl _)
    obtain ⟨hv, -⟩ := ingestCtx_otherFragment hc hd hgathers hk hmissing
    obtain ⟨hgathers', hreceived'⟩ := hgathers.ingest hc hd ((hreceived 0).mpr hpos) hk
    refine ⟨.inr (.inr hv), hgathers', fun q => (hreceived' q).trans ?_⟩
    rw [hreceived]
    omega

/-- The last fragment delivers the datagram, and those before it nothing (44_link_reader.md R119).
-/
theorem Gathered.deliver (hc : cfgLegal c = true) (hd : lengthOk c d.length) {cap k : Nat}
    (hcap : c.maxDatagram ≤ cap) {x : Ctx} (h : Gathered c d t k x) (hk : k < nfrag c d.length) :
    Gathered c d t (k + 1) (ingestCtx c x (fragFrame c d t k)) ∧
      ∀ u : State, u.cfg = c → u.ctx = x → deliver (fragFrame c d t k) cap u =
        (.datagram (if k + 1 = nfrag c d.length then d else []),
          setCtx u (ingestCtx c x (fragFrame c d t k))) := by
  obtain ⟨hv, hgathers, hreceived⟩ := h.next hc hd hk
  refine ⟨.inr ⟨Nat.succ_pos k, hgathers, hreceived⟩, ?_⟩
  rintro u rfl rfl
  have hfits : ¬ cap < (ingestCtx u.cfg u.ctx (fragFrame u.cfg d t k)).expectedSize := by
    have hmax := hd.2
    rw [hgathers.size]
    omega
  rw [deliver_of_accepting hv, if_neg hfits, extracted]
  by_cases hlast : k + 1 = nfrag u.cfg d.length
  · have hall : ∀ p, p < nfrag u.cfg d.length →
        (ingestCtx u.cfg u.ctx (fragFrame u.cfg d t k)).received[p]? = some true :=
      fun p hp => (hreceived p).mpr (hlast ▸ hp)
    rw [if_pos ((hgathers.isComplete_iff hc hd).mpr hall), if_pos hlast,
      hgathers.bufBytesTo_eq hc hd ((hgathers.filled_eq_iff hc hd).mpr hall)]
  · have hmissing : ¬ isComplete (ingestCtx u.cfg u.ctx (fragFrame u.cfg d t k)) = true :=
      fun hcomplete => by
        have := (hreceived (k + 1)).mp ((hgathers.isComplete_iff hc hd).mp hcomplete _ (by omega))
        omega
    rw [if_neg hmissing, if_neg hlast]

theorem ctxAfter_fragFrame (c : Cfg) (d : Bytes) (t : Tag) (p : Nat) (y : Ctx) :
    ctxAfter c (fragFrame c d t p) y = Ctx.idleWith c y.buf := by
  have hkind : kindOf ((fragFrame c d t p).headD 0) ≠ .nonFrag := by
    rw [kindOf_headD_of_unpackHeader (unpackHeader_fragFrame c d t p)]
    cases p <;> exact nofun
  exact if_neg hkind

/-- The fragments from position `k` on are received as the datagram. -/
theorem Incoming.recvLoop_fragments (hc : cfgLegal c = true) (hd : lengthOk c d.length)
    {p : Port} {cap k m fuel deadline : Nat} (hcap : c.maxDatagram ≤ cap) {x : Ctx}
    {rest : List RxEvent} {sent : List Bytes} {s : State} (hm : k + (m + 1) = nfrag c d.length)
    (h : Incoming c p x ((List.range' k (m + 1)).map (fragFrame c d t)) rest sent deadline s)
    (hg : Gathered c d t k x) (hfuel : m + 1 ≤ fuel) :
    ∃ w, recvLoop p cap deadline fuel s = replyOk w (.datagram d) ∧ w.env.rx.get p = rest ∧
      w.env.tx.get p = sent ++ List.replicate (m + 1) (ackFrame c c.role) ∧
      w.ctx = Ctx.idleWith c w.ctx.buf := by
  obtain ⟨fuel, rfl⟩ := Nat.exists_eq_add_of_le' (Nat.le_of_add_left_le hfuel)
  induction m generalizing k x sent s fuel with
  | zero =>
    have hk : k < nfrag c d.length := by omega
    obtain ⟨-, hdeliver⟩ := hg.deliver hc hd hcap hk
    rw [if_pos hm] at hdeliver
    have hne : d ≠ [] := List.length_pos_iff.mp hd.1
    obtain ⟨w, hloop, hw⟩ :=
      h.recvLoop_datagram (fuel := fuel) hc (dataFrame_fragFrame hc hd hk) hne hdeliver
    rw [ctxAfter_fragFrame] at hw
    exact ⟨w, hloop, hw.rx, hw.tx, by rw [hw.ctx]; rfl⟩
  | succ m ih =>
    have hk : k < nfrag c d.length := by omega
    obtain ⟨hnext, hdeliver⟩ := hg.deliver hc hd hcap hk
    rw [if_neg (by omega)] at hdeliver
    obtain ⟨y, hloop, hy⟩ :=
      h.recvLoop_nothing (fuel := fuel) hc (dataFrame_fragFrame hc hd hk) hdeliver
    obtain ⟨fuel, rfl⟩ := Nat.exists_eq_add_of_le' (m := 1) (n := fuel) (by omega)
    obtain ⟨w, hend, hrx, htx, hctx⟩ := ih (by omega) hy hnext fuel (by omega)
    refine ⟨w, hloop.trans hend, hrx, ?_, hctx⟩
    rw [htx, List.append_assoc, List.singleton_append, ← List.replicate_succ]

end Datagram

/-- Before the first round the clock has been read once. -/
theorem incoming_now {c : Cfg} {p : Port} {fs : List Bytes} {rest : List RxEvent}
    {later : List Nat} {s : State} (hc : cfgLegal s.cfg = true) (hs : s.cfg = c)
    (hrx : s.env.rx.get p = promptly (rawOf c fs) ++ rest)
    (hlapses : s.env.lapses = List.replicate (1 + 2 * (rawOf c fs).length) 0 ++ later) :
    Incoming c p s.ctx fs rest (s.env.tx.get p) ((now s).1 + s.cfg.tDgram) (now s).2 := by
  obtain ⟨-, hdgram⟩ := cfgLegal_timeouts hc
  rw [Nat.add_comm, List.replicate_succ, List.cons_append] at hlapses
  rw [now_scripted hlapses]
  exact ⟨hs, rfl, rfl, hrx, ⟨_, later, Nat.le_refl _, rfl⟩, Nat.lt_add_of_pos_right hdgram⟩

/-- A short datagram's frame bypasses the Reassembler (42_reassembler.md R102). -/
theorem deliver_shortFrame {c : Cfg} (hc : cfgLegal c = true) {d : Bytes}
    (hshort : d.length ≤ c.nonfragCap) {cap : Nat} (hcap : d.length ≤ cap) (u : State)
    (hu : u.cfg = c) : deliver (BitVec.ofNat 8 (d.length + 1) :: d) cap u =
      (.datagram d, setCtx u u.ctx) := by
  subst hu
  have hv : rsmVerdict u.cfg u.ctx (BitVec.ofNat 8 (d.length + 1) :: d) = .bypass :=
    rsmVerdict_of_nonFrag (formatHeader_shortFrame hc hshort)
  rw [deliver, hv]
  exact if_neg (Nat.not_lt_of_le hcap)

theorem ctxAfter_shortFrame {c : Cfg} (hc : cfgLegal c = true) {d : Bytes}
    (hshort : d.length ≤ c.nonfragCap) (y : Ctx) :
    ctxAfter c (BitVec.ofNat 8 (d.length + 1) :: d) y = y := by
  have hu := (formatHeader_eq_some.mp (formatHeader_shortFrame hc hshort)).1
  exact if_pos (kindOf_headD_of_unpackHeader hu)

/-- There are rounds enough for the frames: each has a byte at least. -/
theorem length_le_recvFuel {p : Port} {s : State} (hc : cfgLegal s.cfg = true) {fs : List Bytes}
    {rest : List RxEvent} (hfs : ∀ f ∈ fs, DataFrame s.cfg f)
    (hrx : s.env.rx.get p = promptly (rawOf s.cfg fs) ++ rest) : fs.length ≤ recvFuel p s := by
  have hle := length_le_rawOf hc hfs
  rw [recvFuel, hrx, List.length_append, promptly, List.length_map]
  omega

/-- Settles O47: the fragments one by one, or the one frame of a short datagram. -/
theorem receivesWholeDatagram : Obligations.ReceivesWholeDatagram := by
  rintro p cap d t slots s fs raw later rest hc hcap htoken hnew hexec rfl hrx hlapses
  obtain ⟨hd, rfl⟩ := fragmentFrames_of_exec hexec
  have hstart := incoming_now (fs := fragmentFrames s.cfg d t) hc rfl hrx hlapses
  have hrecv := exec_arqRecvDatagram_of_large (p := p) (cap := cap) (s := s) hcap
  have hcapacity : s.cfg.maxDatagram ≤ cap := (Nat.le_max_left _ _).trans hcap
  rcases Nat.lt_or_ge s.cfg.nonfragCap d.length with hlong | hshort
  · obtain ⟨m, hm⟩ := Nat.exists_eq_add_of_le' (nfrag_pos s.cfg d.length)
    have hframes :
        fragmentFrames s.cfg d t = (List.range' 0 (m + 1)).map (fragFrame s.cfg d t) := by
      rw [fragmentFrames_of_lt hlong, hm, List.range_eq_range']
    have hdata : ∀ f ∈ fragmentFrames s.cfg d t, DataFrame s.cfg f := by
      intro f hf
      obtain ⟨q, hget⟩ := List.mem_iff_getElem?.mp hf
      obtain ⟨hq, rfl⟩ := (fragmentFrames_getElem?_eq_some hlong t).mp hget
      exact dataFrame_fragFrame hc hd hq
    have hfuel := length_le_recvFuel hc hdata hrx
    rw [fragmentFrames_length hlong, hm] at hfuel
    rw [hframes] at hstart
    obtain ⟨w, hloop, hrxW, htxW, hctxW⟩ := hstart.recvLoop_fragments hc hd hcapacity
      ((Nat.zero_add _).trans hm.symm) (.inl ⟨rfl, hnew⟩) hfuel
    refine ⟨_, hrecv.trans (congrArg _ hloop), rfl, hrxW, ?_, fun _ => hctxW, fun hshort => ?_⟩
    · rw [fragmentFrames_length hlong, hm]
      exact htxW
    · exact absurd hlong (Nat.not_lt_of_le hshort)
  · rw [fragmentFrames_of_le hshort] at hstart hrx ⊢
    have hdata := dataFrame_shortFrame hc hd hshort htoken
    have hfuel := length_le_recvFuel hc (List.forall_mem_singleton.mpr hdata) hrx
    obtain ⟨fuel, hfuel⟩ := Nat.exists_eq_add_of_le' hfuel
    obtain ⟨w, hloop, hw⟩ := hstart.recvLoop_datagram (cap := cap) (fuel := fuel) (y := s.ctx) hc
      hdata (List.length_pos_iff.mp hd.1) fun u hu hctx =>
        (deliver_shortFrame hc hshort (hd.2.trans hcapacity) u hu).trans (by rw [hctx])
    rw [ctxAfter_shortFrame hc hshort] at hw
    rw [hfuel, List.length_singleton, hloop] at hrecv
    exact ⟨_, hrecv, rfl, hw.rx, hw.tx, fun hlong => absurd hlong (Nat.not_lt_of_le hshort),
      fun _ => hw.ctx⟩

end Sys2Proof.Proofs.Receiver
end

section
/-! PROOFS. 44_link_reader.md R111 to R117: LR_RECV_FRAME on bytes that come in time, however they
are spaced (O30), how it aborts (O32), and physical units handed in (O38). All of them follow from
what `lr_need` says of the bytes held (`Reads`): one induction over the events of the stream takes
the loop to the byte at which `lr_need` settles the matter; where it does not, each round either
moves the clock or finds the deadline past. -/

namespace Sys2Proof.Proofs.LinkReaderRuns

open Sys2Proof.Machine Sys2Proof.Proofs.HeaderCodec Sys2Proof.Proofs.Fragmenter
  Sys2Proof.Proofs.Reassembler Sys2Proof.Proofs.Environment Sys2Proof.Proofs.RawBytes
  Sys2Proof.Proofs.LinkReaderBounds

/-! ## A receive attempt under way -/

/-- `s` in the middle of a receive attempt on `p` that holds `acc`, with the clock at `clock`, `rx`
still to come and `lapses` the next lapses. -/
def taking (p : Port) (s : State) (acc : Bytes) (clock : Nat) (rx : List RxEvent)
    (lapses : List Nat) : State :=
  setEnv (setAcc s p acc)
    { s.env with clock := clock, rx := s.env.rx.set p rx, lapses := lapses }

section Taking

variable {p : Port} {s : State} {acc : Bytes} {clock deadline : Nat} {rest : List RxEvent}
  {more : List Nat}

theorem getAcc_taking (p : Port) (s : State) (acc : Bytes) (clock : Nat) (rx : List RxEvent)
    (lapses : List Nat) : getAcc (taking p s acc clock rx lapses) p = acc :=
  getAcc_setAcc_same s p acc

theorem rx_taking (p : Port) (s : State) (acc : Bytes) (clock : Nat) (rx : List RxEvent)
    (lapses : List Nat) : (taking p s acc clock rx lapses).env.rx.get p = rx :=
  PerPort.get_set_same s.env.rx p rx

theorem setAcc_taking (acc acc' : Bytes) :
    setAcc (taking p s acc clock rest more) p acc' = taking p s acc' clock rest more := by
  simp only [taking, setAcc, setEnv, PerPort.set_set]

theorem now_taking (acc : Bytes) (rx : List RxEvent) (l : Nat) :
    now (taking p s acc clock rx (l :: more)) =
      (clock + l, taking p s acc (clock + l) rx more) :=
  now_scripted (s := taking p s acc clock rx (l :: more)) rfl

theorem rawReadByte_taking_byte (acc : Bytes) (b : Byte) (k d : Nat) :
    rawReadByte p d (taking p s acc clock (.byte b k :: rest) more) =
      (some b, taking p s acc (clock + k) rest more) := by
  refine (rawReadByte_byte (PerPort.get_set_same _ _ _) d).trans ?_
  simp only [taking, setEnv_env, PerPort.set_set]
  rfl

theorem rawReadByte_taking_silence (acc : Bytes) (extra d : Nat) :
    rawReadByte p d (taking p s acc clock (.silence extra :: rest) more) =
      (none, taking p s acc (clock + d + extra) rest more) := by
  refine (rawReadByte_silence (PerPort.get_set_same _ _ _) d).trans ?_
  simp only [taking, setEnv_env, PerPort.set_set]
  rfl

theorem lrSettle_taking_of_need {k : Nat} (h : lrNeed s.cfg acc = .need k) (rx : List RxEvent)
    (lapses : List Nat) : lrSettle p (taking p s acc clock rx lapses) = none :=
  lrSettle_of_need (s := taking p s acc clock rx lapses) (by rw [getAcc_taking]; exact h)

/-- A round whose read meets an event before the deadline (44_link_reader.md R116). -/
theorem lrLoop_taking_event {k l : Nat} (hneed : lrNeed s.cfg acc = .need k) {ev : RxEvent}
    (hopen : clock + l < deadline)
    (hwhole : ∀ extra, ev = .silence extra → clock + l + s.cfg.tByte ≤ deadline) (fuel : Nat) :
    lrLoop p deadline (fuel + 1) (taking p s acc clock (ev :: rest) (l :: more)) =
      lrLoop p deadline fuel (taking p s (acc ++ streamBytes [ev])
        (clock + l + eventCost s.cfg ev) rest more) := by
  have helapsed : ¬ elapsed (clock + l) deadline = true := by simp [elapsed, hopen]
  rw [lrLoop, lrSettle_taking_of_need hneed]
  simp only [now_taking, if_neg helapsed]
  cases ev with
  | byte b ticks =>
    simp only [rawReadByte_taking_byte, getAcc_taking, setAcc_taking]
    rfl
  | silence extra =>
    have hread : min (taking p s acc clock (.silence extra :: rest) (l :: more)).cfg.tByte
        (deadline - (clock + l)) = s.cfg.tByte := by
      have := hwhole extra rfl
      exact Nat.min_eq_left (by show s.cfg.tByte ≤ _; omega)
    simp only [hread, rawReadByte_taking_silence]
    rw [eventCost, ← Nat.add_assoc]
    exact congrArg (fun acc => lrLoop p deadline fuel (taking p s acc _ rest more))
      (List.append_nil acc).symm

theorem streamBytes_append (evs more : List RxEvent) :
    streamBytes (evs ++ more) = streamBytes evs ++ streamBytes more := List.filterMap_append

theorem streamBytes_length_pos_of_getLast? {evs : List RxEvent} {b : Byte} {k : Nat}
    (h : evs.getLast? = some (.byte b k)) : 0 < (streamBytes evs).length :=
  List.length_pos_of_mem
    (List.mem_filterMap.mpr ⟨.byte b k, List.mem_of_getLast? h, (rfl : _ = some b)⟩)

/-- The loop takes event after event while `lr_need` asks for more: the reads all come before the
deadline, so none of them is cut short. -/
theorem lrLoop_takes {evs : List RxEvent} {laps : List Nat}
    (hneed : ∀ n, n < (streamBytes evs).length →
      ∃ k, lrNeed s.cfg (acc ++ (streamBytes evs).take n) = .need k)
    (hlast : evs ≠ [] → ∃ b k, evs.getLast? = some (.byte b k))
    (hlaps : laps.length = evs.length)
    (htime : evs ≠ [] →
      clock + (evs.dropLast.map (eventCost s.cfg)).sum + laps.sum < deadline) (fuel : Nat) :
    lrLoop p deadline (fuel + evs.length) (taking p s acc clock (evs ++ rest) (laps ++ more)) =
      lrLoop p deadline fuel (taking p s (acc ++ streamBytes evs)
        (clock + (evs.map (eventCost s.cfg)).sum + laps.sum) rest more) := by
  induction evs generalizing acc clock laps with
  | nil =>
    obtain rfl := List.eq_nil_of_length_eq_zero hlaps
    simp [streamBytes]
  | cons ev evs ih =>
    obtain ⟨l, laps, rfl⟩ := List.exists_cons_of_length_eq_add_one hlaps
    obtain ⟨b, k, hbyte⟩ := hlast (List.cons_ne_nil _ _)
    obtain ⟨j, hj⟩ := hneed 0 (streamBytes_length_pos_of_getLast? hbyte)
    have hsplit : streamBytes (ev :: evs) = streamBytes [ev] ++ streamBytes evs :=
      streamBytes_append [ev] evs
    have htime := htime (List.cons_ne_nil _ _)
    rw [List.take_zero, List.append_nil] at hj
    rw [List.sum_cons] at htime
    have hround := lrLoop_taking_event (p := p) (rest := evs ++ rest) (more := laps ++ more) hj
      (ev := ev) (l := l) (clock := clock) (deadline := deadline) (by omega) (fun extra hev => ?_)
      (fuel + evs.length)
    · refine hround.trans ((ih (fun n hn => ?_) (fun hne => ?_) (Nat.succ.inj hlaps)
        (fun hne => ?_)).trans ?_)
      · have := hneed ((streamBytes [ev]).length + n) (by rw [hsplit, List.length_append]; omega)
        rwa [hsplit, List.take_length_add_append, ← List.append_assoc] at this
      · exact ⟨b, k, by rwa [List.getLast?_cons_of_ne_nil hne] at hbyte⟩
      · rw [List.dropLast_cons_of_ne_nil hne, List.map_cons, List.sum_cons] at htime
        omega
      · rw [hsplit, List.append_assoc, List.map_cons, List.sum_cons, List.sum_cons]
        congr 2
        omega
    · subst hev
      have hne : evs ≠ [] := by
        rintro rfl
        cases hbyte
      rw [List.dropLast_cons_of_ne_nil hne, List.map_cons, List.sum_cons, eventCost] at htime
      omega

/-! ## A receive attempt whose bytes all come -/

/-- 44_link_reader.md R116, step 1: the first byte starts the frame deadline. -/
theorem lrRecvFrame_of_byte {b : Byte} {k l : Nat} (hrx : s.env.rx.get p = .byte b k :: rest)
    (hlapses : s.env.lapses = l :: more) :
    lrRecvFrame p s = lrLoop p (s.env.clock + k + l + s.cfg.tFrame) (lrFuel s.cfg)
      (taking p s [b] (s.env.clock + k + l) rest more) := by
  have hstart : setAcc s p [] = taking p s [] s.env.clock (.byte b k :: rest) (l :: more) := by
    rw [taking, ← hrx, ← hlapses, PerPort.set_get]
    rfl
  rw [lrRecvFrame, hstart, rawReadByte_taking_byte]
  simp only [setAcc_taking, now_taking]

theorem lrLoop_taking_add_fuel (hc : cfgLegal s.cfg = true) {b : Byte}
    (hdeadline : deadline ≤ clock + s.cfg.tFrame) (n : Nat) :
    lrLoop p deadline (lrFuel s.cfg + n) (taking p s [b] clock rest more) =
      lrLoop p deadline (lrFuel s.cfg) (taking p s [b] clock rest more) :=
  linkReaderBounded.1 p b deadline n (taking p s [b] clock rest more) hc
    (getAcc_taking p s [b] clock rest more) hdeadline

/-- LR_RECV_FRAME after the events that bring it `bs`, more bytes being asked for until then: the
deadline stands `T_FRAME` after the first byte, and there are rounds enough left
(44_link_reader.md R116, R120). -/
theorem lrRecvFrame_of_brings {bs : Bytes} {evs : List RxEvent} {laps : List Nat}
    (hc : cfgLegal s.cfg = true)
    (hneed : ∀ n, n < bs.length → ∃ k, lrNeed s.cfg (bs.take n) = .need k)
    (hbrings : Brings s.cfg bs evs laps) (hrx : s.env.rx.get p = evs ++ rest)
    (hlapses : s.env.lapses = laps ++ more) :
    ∃ deadline, s.env.clock + s.cfg.tFrame ≤ deadline ∧
      deadline + (evs.tail.map (eventCost s.cfg)).sum + laps.tail.sum =
        s.env.clock + (evs.map (eventCost s.cfg)).sum + laps.sum + s.cfg.tFrame ∧
      lrRecvFrame p s = lrLoop p deadline (lrFuel s.cfg)
        (taking p s bs (s.env.clock + (evs.map (eventCost s.cfg)).sum + laps.sum) rest more) := by
  obtain ⟨hbytes, ⟨b, k, hfirst⟩, hlast, hreadings, htime⟩ := hbrings
  obtain ⟨evs, rfl⟩ := List.head?_eq_some_iff.mp hfirst
  obtain ⟨l, laps, rfl⟩ := List.exists_cons_of_length_eq_add_one hreadings
  subst hbytes
  rw [List.cons_append] at hrx hlapses
  refine ⟨s.env.clock + k + l + s.cfg.tFrame, by omega, ?_, ?_⟩
  · simp only [List.tail_cons, List.map_cons, List.sum_cons, eventCost]
    omega
  have htakes := lrLoop_takes (p := p) (s := s) (acc := [b]) (clock := s.env.clock + k + l)
    (deadline := s.env.clock + k + l + s.cfg.tFrame) (rest := rest) (more := more) (evs := evs)
    (laps := laps) (fun n hn => hneed (n + 1) (Nat.succ_lt_succ hn)) (fun hne => ?_)
    (Nat.succ.inj hreadings) (fun hne => ?_) (lrFuel s.cfg)
  · rw [lrRecvFrame_of_byte hrx hlapses, ← lrLoop_taking_add_fuel hc (Nat.le_refl _)
      evs.length, htakes, List.map_cons, List.sum_cons, List.sum_cons,
      eventCost]
    congr 2
    omega
  · rwa [List.getLast?_cons_of_ne_nil hne] at hlast
  · rw [List.dropLast_cons_of_ne_nil hne] at htime
    simp only [List.tail_cons] at htime
    omega

/-- The loop ends with the bytes at which `lr_need` settles the matter. -/
theorem lrRecvFrame_of_brings_reads {bs : Bytes} {v : Need} {evs : List RxEvent}
    {laps : List Nat} {r : Recv × State} (hc : cfgLegal s.cfg = true) (hreads : Reads s.cfg bs v)
    (hbrings : Brings s.cfg bs evs laps) (hrx : s.env.rx.get p = evs ++ rest)
    (hlapses : s.env.lapses = laps ++ more)
    (hsettle : lrSettle p (taking p s bs
      (s.env.clock + (evs.map (eventCost s.cfg)).sum + laps.sum) rest more) = some r) :
    lrRecvFrame p s = r := by
  obtain ⟨deadline, -, -, e⟩ := lrRecvFrame_of_brings hc hreads.before hbrings hrx hlapses
  rw [e, lrFuel, lrLoop, hsettle]

theorem lrSettle_taking_of_done (h : lrNeed s.cfg acc = .done) :
    lrSettle p (taking p s acc clock rest more) =
      some (.frame (lrLogical s.cfg.writeLimit acc), taking p s [] clock rest more) := by
  have hneed : lrNeed (taking p s acc clock rest more).cfg acc = .done := h
  rw [lrSettle, getAcc_taking, hneed, setAcc_taking]
  rfl

theorem lrSettle_taking_of_bad (h : lrNeed s.cfg acc = .bad) :
    lrSettle p (taking p s acc clock rest more) =
      some (.malformed, resetCtx (taking p s [] clock rest more)) := by
  have hneed : lrNeed (taking p s acc clock rest more).cfg acc = .bad := h
  rw [lrSettle, getAcc_taking, hneed, setAcc_taking]

theorem exec_lrRecvFrame_eq {r : Recv × State} (h : lrRecvFrame p s = r) :
    exec (.lrRecvFrame p) s = .next (withReply r.2 (recvReply r.1)) := by
  rw [exec, execLrRecvFrame, h]

end Taking

/-- Settles O30: the events are taken up to the last byte of the frame, where `lr_need` is done. -/
theorem linkReaderReadsSentFrame : Obligations.LinkReaderReadsSentFrame := by
  intro p f s evs laps later rest hc hf hhead hbrings hrx hlapses
  obtain ⟨hreads, hlogical, -⟩ := reads_writesOf hc hf hhead
  have hrecv := lrRecvFrame_of_brings_reads hc hreads hbrings hrx hlapses
    (lrSettle_taking_of_done hreads.whole)
  rw [hlogical] at hrecv
  exact exec_lrRecvFrame_eq hrecv

/-! ## What every exit leaves, as one state -/

theorem PerPort.eq_set {α : Type} {v w : PerPort α} {p : Port}
    (h : ∀ q, q ≠ p → v.get q = w.get q) : v = w.set p (v.get p) := by
  have h0 := h .p0
  have hup := h .up
  have hdown := h .down
  obtain ⟨v0, vup, vdown⟩ := v
  cases p <;> simp_all [PerPort.get, PerPort.set]

/-- LR_RECV_FRAME by its answer: of the state, only `ctx`, the bytes held, the front of the port's
stream, the clock and its scripts have changed (44_link_reader.md R116). -/
theorem exec_lrRecvFrame_of_answer {p : Port} {s : State} {r : Recv}
    (h : (lrRecvFrame p s).1 = r) :
    ∃ u, exec (.lrRecvFrame p) s = .next u ∧
      u = { s with
        ctx := if r = .malformed then Ctx.idleWith s.cfg s.ctx.buf else s.ctx
        lr := s.lr.set p []
        env := u.env
        reply := recvReply r } ∧
      u.env.tx = s.env.tx ∧
      u.env.rx = s.env.rx.set p ((lrRecvFrame p s).2.env.rx.get p) ∧
      u.env.clock = (lrRecvFrame p s).2.env.clock := by
  subst h
  obtain ⟨hframe, hacc, hctx⟩ := lrDone_lrRecvFrame p s
  have hlr := PerPort.eq_set hframe.lr
  rw [show (lrRecvFrame p s).2.lr.get p = [] from hacc] at hlr
  refine ⟨_, exec_lrRecvFrame_eq rfl, ?_, hframe.tx, PerPort.eq_set hframe.rx, rfl⟩
  rw [← hctx, ← hlr, withReply, ← hframe.cfg, ← hframe.arq, ← hframe.relay, ← hframe.requests]

/-! ## Reads that all time out -/

/-- Before the deadline the next event of such a stream is a silence. -/
theorem silence_of_cons {extras : List Nat} {more left : List RxEvent} {ev : RxEvent} {ticks : Nat}
    (hsilent : more = [] ∨ ticks ≤ extras.length) (hopen : 0 < ticks)
    (h : extras.map .silence ++ more = ev :: left) :
    ∃ extra tail, extras = extra :: tail ∧ ev = .silence extra ∧
      left = tail.map .silence ++ more := by
  cases extras with
  | nil =>
    rcases hsilent with rfl | hshort
    · cases h
    · exact absurd hshort (Nat.not_le_of_lt hopen)
  | cons extra tail =>
    cases h
    exact ⟨extra, tail, rfl, rfl, rfl⟩

/-- While every read times out the loop goes on to the deadline (44_link_reader.md R115, R116). -/
theorem lrLoop_of_silent {p : Port} {deadline k fuel : Nat} {s : State} {extras : List Nat}
    {more : List RxEvent} (hbyte : 0 < s.cfg.tByte)
    (hneed : lrNeed s.cfg (getAcc s p) = .need k)
    (hrx : s.env.rx.get p = extras.map .silence ++ more)
    (hsilent : more = [] ∨ deadline - s.env.clock ≤ extras.length)
    (hfuel : deadline - s.env.clock < fuel) :
    (lrLoop p deadline fuel s).1 = .timeout ∧ deadline ≤ (lrLoop p deadline fuel s).2.env.clock ∧
      ∃ n, (lrLoop p deadline fuel s).2.env.rx.get p = (extras.drop n).map .silence ++ more := by
  induction fuel generalizing s extras with
  | zero => exact absurd hfuel (Nat.not_lt_zero _)
  | succ fuel ih =>
    rcases lrLoop_succ_cases p deadline s hbyte with ⟨r, hs, -⟩ |
      ⟨-, -, ⟨hlate, e⟩ | ⟨hopen, t, hround, e⟩⟩
    · rw [lrSettle_of_need hneed] at hs
      cases hs
    · obtain ⟨-, hclock, -, hnow, -⟩ := now_spec s
      rw [e]
      exact ⟨rfl, hlate.trans hclock.ge, 0, (congrArg (PerPort.get · p) hnow).trans hrx⟩
    rw [e]
    rcases hround.step with ⟨b, ticks, hfront, -⟩ | ⟨hmoved, hacc, hstream⟩
    · obtain ⟨extra, tail, -, hsilence, -⟩ :=
        silence_of_cons hsilent (Nat.sub_pos_of_lt hopen) (hrx.symm.trans hfront)
      cases hsilence
    rw [← hround.cfg] at hbyte
    rw [← hround.cfg, ← hacc] at hneed
    rcases hstream with ⟨extra, hfront⟩ | hsame
    · obtain ⟨extra', tail, rfl, -, hleft⟩ :=
        silence_of_cons hsilent (Nat.sub_pos_of_lt hopen) (hrx.symm.trans hfront)
      rw [List.length_cons] at hsilent
      obtain ⟨hend, hpast, n, hrest⟩ :=
        ih hbyte hneed hleft (hsilent.imp_right fun h => by omega) (by omega)
      exact ⟨hend, hpast, n + 1, hrest⟩
    · exact ih hbyte hneed (hsame.symm.trans hrx) (hsilent.imp_right fun h => by omega) (by omega)

theorem lrLoop_taking_of_silent {p : Port} {s : State} {acc : Bytes}
    {clock deadline k fuel : Nat} {extras : List Nat} {more : List RxEvent} {lapses : List Nat}
    (hbyte : 0 < s.cfg.tByte) (hneed : lrNeed s.cfg acc = .need k)
    (hsilent : more = [] ∨ deadline - clock ≤ extras.length) (hfuel : deadline - clock < fuel)
    {r : Recv × State}
    (hr : lrLoop p deadline fuel
      (taking p s acc clock (extras.map .silence ++ more) lapses) = r) :
    r.1 = .timeout ∧ deadline ≤ r.2.env.clock ∧
      ∃ n, r.2.env.rx.get p = (extras.drop n).map .silence ++ more :=
  hr ▸ lrLoop_of_silent (s := taking p s acc clock (extras.map .silence ++ more) lapses)
    (extras := extras) (more := more) hbyte (by rw [getAcc_taking]; exact hneed)
    (rx_taking p s acc clock _ lapses) hsilent hfuel

/-! ## How a receive attempt aborts -/

theorem lrRecvFrame_of_zero {p : Port} {s : State} {k : Nat} {rest : List RxEvent}
    (hrx : s.env.rx.get p = .byte 0 k :: rest) :
    (lrRecvFrame p s).1 = .malformed ∧ (lrRecvFrame p s).2.env.rx.get p = rest ∧
      s.env.clock + k ≤ (lrRecvFrame p s).2.env.clock := by
  rw [lrRecvFrame, rawReadByte_byte (s := setAcc s p []) hrx]
  dsimp only
  generalize hx : setAcc (setEnv (setAcc s p []) { (setAcc s p []).env with
    clock := (setAcc s p []).env.clock + k
    rx := (setAcc s p []).env.rx.set p rest }) p [0] = x
  obtain ⟨hblock, hread, hle, hnow, -⟩ := now_spec x
  have hclock : x.env.clock = s.env.clock + k := hx ▸ rfl
  have hleft : x.env.rx.get p = rest := hx ▸ PerPort.get_set_same _ _ _
  have hacc : getAcc (now x).2 p = [0] := by
    rw [getAcc, hblock.lr, ← hx]
    exact PerPort.get_set_same _ _ _
  rw [lrFuel, lrLoop, lrSettle, hacc]
  exact ⟨rfl, (congrArg (PerPort.get · p) hnow).trans hleft, hclock ▸ hle.trans hread.ge⟩

/-- The clock passes the deadline after the last byte that came (44_link_reader.md R115). -/
theorem lrLoop_of_late {p : Port} {s : State} {acc : Bytes} {clock late deadline k fuel : Nat}
    {rest : List RxEvent} {more : List Nat} (hneed : lrNeed s.cfg acc = .need k)
    (hlate : deadline ≤ clock + late) :
    lrLoop p deadline (fuel + 1) (taking p s acc clock rest (late :: more)) =
      (.timeout, taking p s [] (clock + late) rest more) := by
  rw [lrLoop, lrSettle_taking_of_need hneed]
  simp only [now_taking, elapsed, decide_eq_true hlate, if_true, setAcc_taking]

/-- Settles O32: a 0x00 and every `badRaw` settle the loop at their last byte; an incomplete frame
leaves it asking for more until the deadline. -/
theorem linkReaderAborts : Obligations.LinkReaderAborts := by
  refine ⟨fun p s k rest hrx => ?zero,
    fun p bs s evs laps later rest hc hbad hbrings hrx hlapses => ?bad,
    fun p f s evs laps later m rest hc hf hhead hm hbrings hrx => ?timeout⟩
  case zero =>
    obtain ⟨hanswer, hleft, hclock⟩ := lrRecvFrame_of_zero hrx
    obtain ⟨u, hexec, hu, htx, hurx, huclock⟩ := exec_lrRecvFrame_of_answer hanswer
    exact ⟨u, hexec, hu, hurx.trans (by rw [hleft]), htx, huclock ▸ hclock⟩
  case bad =>
    obtain ⟨hreads, -⟩ := reads_badRaw hc hbad
    exact exec_lrRecvFrame_eq (lrRecvFrame_of_brings_reads hc hreads hbrings hrx hlapses
      (lrSettle_taking_of_bad hreads.whole))
  case timeout =>
    obtain ⟨hreads, -⟩ := reads_writesOf hc hf hhead
    obtain ⟨k, hneed⟩ := hreads.before m hm
    have hbefore : ∀ n, n < ((writesOf s.cfg f).flatten.take m).length →
        ∃ k, lrNeed s.cfg (((writesOf s.cfg f).flatten.take m).take n) = .need k := by
      intro n hn
      rw [List.length_take] at hn
      rw [List.take_take, Nat.min_eq_left (by omega)]
      exact hreads.before n (by omega)
    refine ⟨fun late hlapses hpast => ?_, fun extras more hlapses hrest hsilent => ?_⟩
    · obtain ⟨deadline, -, hdeadline, e⟩ := lrRecvFrame_of_brings hc hbefore hbrings hrx hlapses
      rw [lrFuel, lrLoop_of_late hneed (by omega)] at e
      exact exec_lrRecvFrame_eq e
    · subst hrest
      obtain ⟨deadline, hstart, hdeadline, e⟩ :=
        lrRecvFrame_of_brings hc hbefore hbrings hrx hlapses
      obtain ⟨hanswer, hpast, n, hleft⟩ := lrLoop_taking_of_silent (cfgLegal_tByte_pos hc) hneed
        (hsilent.imp_right fun h => by omega) (by rw [lrFuel]; omega) e.symm
      obtain ⟨u, hexec, hu, htx, hurx, huclock⟩ := exec_lrRecvFrame_of_answer hanswer
      exact ⟨u, hexec, hu, htx, huclock ▸ hstart.trans hpast, n, hleft ▸ hurx⟩

/-! ## Physical units handed in -/

section Feed

variable {p : Port} {s : State} {acc u : Bytes} {v : Need}

theorem unread_nil (p : Port) (s : State) : unread p [] s = s := by
  rw [unread, promptly, List.map_nil, List.nil_append, PerPort.set_get]
  rfl

/-- Bytes after each of which more are needed are held (43_transport_framer.md R109; log 17). -/
theorem lrFeed_append
    (hneed : ∀ n, 0 < n → n ≤ u.length → ∃ k, lrNeed s.cfg (getAcc s p ++ u.take n) = .need k)
    (rest : Bytes) :
    lrFeed p (u ++ rest) s = lrFeed p rest (setAcc s p (getAcc s p ++ u)) := by
  induction u generalizing s with
  | nil =>
    rw [List.append_nil, List.nil_append, setAcc, getAcc, PerPort.set_get]
  | cons b u ih =>
    obtain ⟨k, hk⟩ := hneed 1 Nat.zero_lt_one (Nat.succ_le_succ (Nat.zero_le _))
    have hacc := getAcc_setAcc_same s p (getAcc s p ++ [b])
    have hsettle : lrSettle p (setAcc s p (getAcc s p ++ [b])) = none :=
      lrSettle_of_need (s := setAcc s p (getAcc s p ++ [b])) (by rw [hacc]; exact hk)
    have hrest := ih (s := setAcc s p (getAcc s p ++ [b])) fun n _ hn => by
      rw [hacc, List.append_assoc]
      exact hneed (n + 1) (Nat.succ_pos n) (Nat.succ_le_succ hn)
    rw [hacc, List.append_assoc] at hrest
    rw [List.cons_append, lrFeed, hsettle]
    exact hrest.trans (by rw [setAcc, setAcc, PerPort.set_set]; rfl)

theorem lrFeed_of_needs
    (hneed : ∀ n, 0 < n → n ≤ u.length → ∃ k, lrNeed s.cfg (getAcc s p ++ u.take n) = .need k) :
    lrFeed p u s = (.nothing, setAcc s p (getAcc s p ++ u)) := by
  have h := lrFeed_append hneed []
  rwa [List.append_nil] at h

/-- The byte at which `lr_need` settles the matter is the last one taken (44_link_reader.md R117,
R118; log 17). -/
theorem lrFeed_of_reads {r : Recv × State} (hacc : getAcc s p = acc)
    (hreads : Reads s.cfg (acc ++ u) v) (hu : u ≠ [])
    (hsettle : lrSettle p (setAcc s p (acc ++ u)) = some r) (rest : Bytes) :
    lrFeed p (u ++ rest) s = (r.1, unread p rest r.2) := by
  subst hacc
  obtain ⟨front, b, rfl⟩ := List.eq_nil_or_concat' u |>.resolve_left hu
  have hfront : ∀ n, 0 < n → n ≤ front.length →
      ∃ k, lrNeed s.cfg (getAcc s p ++ front.take n) = .need k := by
    intro n _ hn
    have hbefore := hreads.before ((getAcc s p).length + n) (by simp; omega)
    rwa [List.take_length_add_append, List.take_append_of_le_length hn] at hbefore
  have hlast : setAcc (setAcc s p (getAcc s p ++ front)) p
      (getAcc (setAcc s p (getAcc s p ++ front)) p ++ [b]) =
        setAcc s p (getAcc s p ++ (front ++ [b])) := by
    rw [getAcc_setAcc_same, List.append_assoc, setAcc, setAcc, PerPort.set_set]
    rfl
  rw [List.append_assoc, lrFeed_append hfront, List.singleton_append, lrFeed, hlast, hsettle]

theorem lrSettle_setAcc_of_done (h : lrNeed s.cfg acc = .done) :
    lrSettle p (setAcc s p acc) =
      some (.frame (lrLogical s.cfg.writeLimit acc), setAcc s p []) := by
  have hneed : lrNeed (setAcc s p acc).cfg acc = .done := h
  rw [lrSettle, getAcc_setAcc_same, hneed, setAcc, setAcc, setAcc, PerPort.set_set]

theorem lrSettle_setAcc_of_bad (h : lrNeed s.cfg acc = .bad) :
    lrSettle p (setAcc s p acc) = some (.malformed, resetCtx (setAcc s p [])) := by
  have hneed : lrNeed (setAcc s p acc).cfg acc = .bad := h
  rw [lrSettle, getAcc_setAcc_same, hneed, setAcc, setAcc, setAcc, PerPort.set_set]

theorem unitReceived_of_unread (h : streamBytes (s.env.rx.get p) ≠ []) (u : Bytes) :
    unitReceived p u s = (.nothing, arrive p u s) := if_neg h

theorem unitReceived_of_read (h : streamBytes (s.env.rx.get p) = []) {r : Recv × State}
    (hfeed : lrFeed p u s = r) : unitReceived p u s = r := (if_pos h).trans hfeed

theorem exec_chunk1_eq {data : Bytes} {r : Recv × State}
    (h : unitReceived p (0x01#8 :: data) s = r) :
    exec (.chunk1 p data) s = .next (withReply r.2 (recvReply r.1)) := by
  rw [exec, execChunk1, h]

theorem exec_chunk2_eq {data : Bytes} {r : Recv × State}
    (h : unitReceived p (0x02#8 :: data) s = r) :
    exec (.chunk2 p data) s = .next (withReply r.2 (recvReply r.1)) := by
  rw [exec, execChunk2, h]

/-- The first write of a frame in two writes is held (44_link_reader.md R112). -/
theorem lrFeed_first_write (hc : cfgLegal s.cfg = true) {f : Bytes}
    (hf : formatValid s.cfg f = true) (hlong : s.cfg.writeLimit < f.length)
    (hacc : getAcc s p = []) :
    lrFeed p (0x01#8 :: f.take s.cfg.writeLimit) s =
      (.nothing, setAcc s p (0x01#8 :: f.take s.cfg.writeLimit)) := by
  obtain ⟨hreads, -⟩ := reads_long_frame hc hf hlong
  have hchunked : chunked s.cfg.writeLimit f =
      (0x01#8 :: f.take s.cfg.writeLimit) ++ 0x02#8 :: f.drop s.cfg.writeLimit := rfl
  refine (lrFeed_of_needs fun n _ hn => ?_).trans (by rw [hacc, List.nil_append])
  have hbefore := hreads.before n (by
    rw [hchunked, List.length_append]
    exact hn.trans_lt (Nat.lt_add_of_pos_right (Nat.succ_pos _)))
  rwa [hchunked, List.take_append_of_le_length hn, ← List.nil_append (List.take n _),
    ← hacc] at hbefore

/-- The second one completes the frame (44_link_reader.md R111, R112). -/
theorem lrFeed_second_write (hc : cfgLegal s.cfg = true) {f : Bytes}
    (hf : formatValid s.cfg f = true) (hlong : s.cfg.writeLimit < f.length)
    (hacc : getAcc s p = 0x01#8 :: f.take s.cfg.writeLimit) :
    lrFeed p (0x02#8 :: f.drop s.cfg.writeLimit) s = (.frame f, setAcc s p []) := by
  obtain ⟨hreads, hlogical⟩ := reads_long_frame hc hf hlong
  have hfeed := lrFeed_of_reads hacc (u := 0x02#8 :: f.drop s.cfg.writeLimit) hreads
    (List.cons_ne_nil _ _) (lrSettle_setAcc_of_done hreads.whole) []
  rw [List.append_nil, unread_nil] at hfeed
  exact hfeed.trans (congrArg (fun g => (Recv.frame g, setAcc s p [])) hlogical)

/-- A marked length that fits one write (44_link_reader.md R112). -/
theorem reads_marked_fit {c : Cfg} (hc : cfgLegal c = true) {b0 : Byte} (hpos : 2 ≤ b0.toNat)
    (hfits : b0.toNat ≤ c.writeLimit) (hlen : b0.toNat < 0xC0) :
    Reads c [0x01#8, b0] .bad :=
  reads_misfit (m := true) (h := .nonFrag b0) (cfgLegal_frameSizes hc).1
    (packable_nonFrag.mpr ⟨by omega, by omega⟩) nofun
    (.inr (by simp [hdrFrameLength, Nat.not_lt.mpr hfits]))

/-- 0x02 at a frame start is a length (30_encoding.md, section 5). -/
theorem reads_two {c : Cfg} (hc : cfgLegal c = true) (b : Byte) :
    Reads c [0x02#8, b] .done ∧ lrLogical c.writeLimit [0x02#8, b] = [0x02#8, b] := by
  obtain ⟨hw, hmax, -⟩ := cfgLegal_frameSizes hc
  have hheader := formatHeader_nonFrag hc (len := 0x02#8) (payload := [b]) (by decide)
    (le_trans (by decide) hmax) rfl
  refine reads_short_frame hc (Option.isSome_of_eq_some hheader) ?_ (by simp)
  exact le_trans (by simp) hw

end Feed

/-- Settles O38: the bytes of a unit are taken up to the one at which `lr_need` settles the
matter. -/
theorem chunkRows : Obligations.ChunkRows := by
  refine fun p s hc => ⟨fun hstream data => ⟨?_, ?_⟩, fun hstream =>
    ⟨fun f hf hlong => ⟨fun hacc => ?_, fun hacc => ?_⟩,
      fun b0 more hacc hpos hfits hlen => ?_, fun b more hacc => ?_⟩⟩
  · exact exec_chunk1_eq (unitReceived_of_unread hstream _)
  · exact exec_chunk2_eq (unitReceived_of_unread hstream _)
  · exact exec_chunk1_eq (unitReceived_of_read hstream (lrFeed_first_write hc hf hlong hacc))
  · exact exec_chunk2_eq (unitReceived_of_read hstream (lrFeed_second_write hc hf hlong hacc))
  · have hreads := reads_marked_fit hc hpos hfits hlen
    exact exec_chunk1_eq (unitReceived_of_read hstream (lrFeed_of_reads (u := [0x01#8, b0]) hacc
      hreads (List.cons_ne_nil _ _) (lrSettle_setAcc_of_bad hreads.whole) more))
  · obtain ⟨hreads, hlogical⟩ := reads_two hc b
    have hfeed := lrFeed_of_reads (u := [0x02#8, b]) hacc hreads (List.cons_ne_nil _ _)
      (lrSettle_setAcc_of_done hreads.whole) more
    rw [List.nil_append, hlogical] at hfeed
    exact exec_chunk2_eq (unitReceived_of_read hstream hfeed)

end Sys2Proof.Proofs.LinkReaderRuns
end
